-- ==== Sys2Proof/Word.lean ====
section
/-! DEFINITION. The word types of the GIF LZW core (00_scope.md R13, R14). "Numbers are mathematical
naturals unless a width is stated" (R13): an LZW code, a code width, a colour-table index, a length and a
position are of type Nat. -/

namespace Sys2Proof

/-- A byte: "A byte is a natural of width 8" (R14). -/
abbrev Byte := BitVec 8

/-- A 16-bit field of the container, or HI.STATUS (R84, R32). -/
abbrev Half := BitVec 16

/-- A bit sequence is a sequence of values in 0, 1 (R15). -/
abbrev Bits := List Bool

end Sys2Proof
end

