-- ==== Sys2Proof/Config.lean ====
section
/-! DEFINITION. The block's fixed parameters (00_scope.md R9, R10; 92_eei_decisions.md D32). -/

namespace Sys2Proof.Config

/-- `MAX_CODE_WIDTH` (R9): the largest code width in bits. -/
def maxCodeWidth : Nat := 12

/-- `MAX_CODE` (R9): the largest assignable dictionary code. -/
def maxCode : Nat := 4095

/-- `DICT_ENTRIES` (R9): codes 0..4095 of a dictionary. -/
def dictEntries : Nat := 4096

/-- `WRITE_SUBBLOCK_MAX` (R9): most data bytes the encoder puts in one sub-block. -/
def writeSubBlockMax : Nat := 254

/-- `READ_SUBBLOCK_MAX` (R9): most data bytes a sub-block may carry when read. -/
def readSubBlockMax : Nat := 255

/-- `TRAILER` (R9): the trailer byte. -/
def trailer : Byte := 0x3B#8

/-- `MCS_MIN` (R10), the spec's value (log 15). -/
def mcsMin : Nat := 2

/-- `MCS_MAX` (R10), the spec's value (log 15). -/
def mcsMax : Nat := 8

/-- `MAX_OUTPUT` (D32, OPEN): unbounded by default (R11). DESIGN CHOICE, safe, log 14. -/
def maxOutput : Option Nat := none

end Sys2Proof.Config
end

