-- ==== Sys2Proof/Syntax.lean ====
section
/-! DEFINITION. The records that commands carry (10_state.md R60 to R72) and the instructions: one
constructor for each of the 69 rows of spec/opcode_table.json. -/

namespace Sys2Proof

/-- The two signatures of R60 and R111. -/
inductive Signature where
  | gif87a
  | gif89a
  deriving DecidableEq, Repr

/-- A `Header` record (R60). -/
structure Header where
  signature : Signature
  deriving DecidableEq, Repr

/-- The four fields of the screen descriptor's packed byte (R113). -/
structure LSDPacked where
  globalColorTableFlag   : Bool
  colorResolution        : BitVec 3
  sortFlag               : Bool
  sizeOfGlobalColorTable : BitVec 3
  deriving DecidableEq, Repr

/-- A `LogicalScreenDescriptor` record (R61). -/
structure LogicalScreenDescriptor where
  width                  : Half
  height                 : Half
  globalColorTableFlag   : Bool
  colorResolution        : BitVec 3
  sortFlag               : Bool
  sizeOfGlobalColorTable : BitVec 3
  backgroundColorIndex   : Byte
  pixelAspectRatioRaw    : Byte
  deriving DecidableEq, Repr

/-- One entry of a colour table (R62). -/
structure RGB where
  r : Byte
  g : Byte
  b : Byte
  deriving DecidableEq, Repr

/-- A `ColorTable` is a sequence of RGB triples (R62). -/
abbrev ColorTable := List RGB

/-- The payloads of a sub-block run (R117). -/
abbrev Blocks := List (List Byte)

/-- An `ApplicationExtension` record (R63). -/
structure ApplicationExtension where
  identifier : List Byte
  authCode   : List Byte
  subBlocks  : Blocks
  cycleIndex : Option Half
  deriving DecidableEq, Repr

/-- A `CommentExtension` record (R64). -/
structure CommentExtension where
  text : List Byte
  deriving DecidableEq, Repr

/-- A `GraphicControlExtension` record (R65). -/
structure GraphicControlExtension where
  reserved          : BitVec 3
  disposalMethod    : BitVec 3
  userInputFlag     : Bool
  transparencyFlag  : Bool
  delayTime         : Half
  transparencyIndex : Byte
  deriving DecidableEq, Repr

/-- A `PlainTextExtension` record (R66; names and widths PRESUMED from G4, log 16). -/
structure PlainTextExtension where
  gridLeft             : Half
  gridTop              : Half
  gridWidth            : Half
  gridHeight           : Half
  cellWidth            : Byte
  cellHeight           : Byte
  foregroundColorIndex : Byte
  backgroundColorIndex : Byte
  text                 : Blocks
  deriving DecidableEq, Repr

/-- The five fields of the image descriptor's packed byte (R124). -/
structure ImagePacked where
  localColorTableFlag   : Bool
  interlaceFlag         : Bool
  sortFlag              : Bool
  reserved              : BitVec 2
  sizeOfLocalColorTable : BitVec 3
  deriving DecidableEq, Repr

/-- An `ImageDescriptor` record (R67). -/
structure ImageDescriptor where
  left                  : Half
  top                   : Half
  width                 : Half
  height                : Half
  localColorTableFlag   : Bool
  interlaceFlag         : Bool
  sortFlag              : Bool
  reserved              : BitVec 2
  sizeOfLocalColorTable : BitVec 3
  deriving DecidableEq, Repr

/-- An `LZWData` record (R68). -/
structure LZWData where
  minCodeSize : Byte
  subBlocks   : Blocks
  terminator  : Byte
  deriving DecidableEq, Repr

/-- An `ImageBlock` record (R69). -/
structure ImageBlock where
  descriptor      : ImageDescriptor
  localColorTable : Option ColorTable
  gce             : Option GraphicControlExtension
  plainText       : Option PlainTextExtension
  lzw             : LZWData
  deriving DecidableEq, Repr

/-- A `GIFDocument` record (R70), also while it is under construction (R58). -/
structure GIFDocument where
  header           : Header
  screen           : LogicalScreenDescriptor
  globalColorTable : Option ColorTable
  application      : Option ApplicationExtension
  comment          : Option CommentExtension
  images           : List ImageBlock
  trailer          : Byte
  deriving DecidableEq, Repr

/-- The document at reset: "every optional field `none`, every list `[]`" (R58). DESIGN CHOICE, log 11:
R58 gives the three other fields no value; header and trailer take the first value R60 and R70 admit, and
the screen's fields are zero. -/
def GIFDocument.empty : GIFDocument where
  header           := { signature := .gif87a }
  screen           :=
    { width := 0, height := 0, globalColorTableFlag := false, colorResolution := 0, sortFlag := false,
      sizeOfGlobalColorTable := 0, backgroundColorIndex := 0, pixelAspectRatioRaw := 0 }
  globalColorTable := none
  application      := none
  comment          := none
  images           := []
  trailer          := 0x3B#8

/-- A `ScreenIn` record, an input of the writer (R72). -/
structure ScreenIn where
  width                : Half
  height               : Half
  colorResolution      : BitVec 3
  sortFlag             : Bool
  backgroundColorIndex : Byte
  pixelAspectRatioRaw  : Byte
  deriving DecidableEq, Repr

/-- The descriptor fields of a `FrameIn` record (R72). -/
structure FrameDescriptor where
  left          : Half
  top           : Half
  width         : Half
  height        : Half
  interlaceFlag : Bool
  sortFlag      : Bool
  deriving DecidableEq, Repr

/-- A `FrameIn` record (R72). -/
structure FrameIn where
  descriptor      : FrameDescriptor
  localColorTable : Option ColorTable
  gce             : Option GraphicControlExtension
  indices         : List Nat
  deriving DecidableEq, Repr

/-- The instructions: the rows of spec/opcode_table.json, in the table's order. A container selector
has no operand: its operation reads its fields from IN (45_container_parser.md). -/
inductive Instr where
  -- host commands (R161)
  | parseContainer (bytes : List Byte)
  | decodeFrame (img : ImageBlock) (act : Option ColorTable)
  | encodeFrame (m : Byte) (idx : List Nat)
  | encodeContainer (screen : ScreenIn) (ct : ColorTable) (frames : List FrameIn)
  | cmdNone
  | cmdUnassigned (code : Byte)
  -- container selectors (R110 to R125)
  | cpHeader
  | cpLSD
  | cpGCT
  | cpIntroExt
  | cpIntroImage
  | cpIntroTrailer
  | cpIntroBad (t : Byte)
  | cpLabelApp
  | cpLabelComment
  | cpLabelGce
  | cpLabelText
  | cpLabelBad (label : Byte)
  | cpImageDesc
  | cpSubBlock
  | cpLzwData
  -- parser helpers (45_container_parser.md)
  | cpDecodeLSDPacked (p : Byte)
  | cpReadColorTable (n : BitVec 3)
  | cpReadSubBlockRun
  | cpExpectBlockSize (v : Byte)
  | cpCycleIndexOf (subs : Blocks)
  | cpDecodeImagePacked (p : Byte)
  | cpReadLocalTable (desc : ImageDescriptor)
  | cpReadLZWData
  -- LZW code classes (R128)
  | lzwEoi (c : Nat)
  | lzwClear (c : Nat)
  | lzwFirst (c : Nat)
  | lzwHit (c : Nat)
  | lzwNext (c : Nat)
  | lzwBad (c : Nat)
  -- ByteCursor (41_bytecursor.md)
  | bcConsume
  | bcPeekRemaining
  | bcTake (n : Nat)
  | bcTakeExact (n : Nat)
  | bcReadLE16
  -- BitStream (42_bitstream.md)
  | bswWrite (code : Nat) (w : Nat)
  | bswClose
  | bsrPushBytes (bytes : List Byte)
  | bsrHasBits (n : Nat)
  | bsrReadBits (n : Nat)
  | lzePack (m : Byte) (data : List Byte)
  -- LZW decoder (43_lzw_decoder.md)
  | lzdInit (m : Byte) (subs : Blocks)
  | lzdUnitReset
  | lzdFetchCode
  | lzdStep
  | lzdAssign (k : Nat)
  -- LZW encoder (44_lzw_encoder.md)
  | lzeEncodeFrame (m : Byte) (idx : List Nat)
  | lzeInit (m : Byte) (idx : List Nat)
  | lzeUnitReset
  | lzeCheckIndex (k : Nat)
  | lzeStep
  | lzeExtend (k : Nat)
  | lzeMiss (k : Nat)
  | lzeResetUnit
  | lzeEmit (code : Option Nat)
  | lzeFinish
  -- container writer (46_container_writer.md)
  | cwEncodeContainer (screen : ScreenIn) (ct : ColorTable) (frames : List FrameIn)
  | cwWriteHeader
  | cwWriteLSD (screen : ScreenIn) (gsz : BitVec 3)
  | cwSizeField (t : ColorTable)
  | cwWriteColorTable (t : ColorTable)
  | cwWriteGCE (g : GraphicControlExtension)
  | cwWriteImage (f : FrameIn) (ct : ColorTable)
  | cwWriteTrailer
  deriving DecidableEq, Repr

/-- The typed operands that pass with a command (R33). A command reads the slots its row names; the
others are not looked at. DESIGN CHOICE, safe, log 2. -/
structure Operands where
  bytes  : List Byte
  img    : ImageBlock
  act    : Option ColorTable
  m      : Byte
  idx    : List Nat
  screen : ScreenIn
  ct     : ColorTable
  frames : List FrameIn
  deriving DecidableEq, Repr

/-- Operand slots of zeros: every number 0, every sequence empty, every optional value absent. -/
def Operands.zero : Operands where
  bytes  := []
  img    :=
    { descriptor :=
        { left := 0, top := 0, width := 0, height := 0, localColorTableFlag := false,
          interlaceFlag := false, sortFlag := false, reserved := 0, sizeOfLocalColorTable := 0 },
      localColorTable := none, gce := none, plainText := none,
      lzw := { minCodeSize := 0, subBlocks := [], terminator := 0 } }
  act    := none
  m      := 0
  idx    := []
  screen :=
    { width := 0, height := 0, colorResolution := 0, sortFlag := false,
      backgroundColorIndex := 0, pixelAspectRatioRaw := 0 }
  ct     := []
  frames := []

/-- A request of the host: a command code and its operands (R33, R138). -/
structure Request where
  code     : Byte
  operands : Operands
  deriving DecidableEq, Repr

end Sys2Proof
end

