-- ==== Sys2Proof/Machine/Operands.lean ====
section
/-! DEFINITION. Every operand form: byte order, bit order, packed bytes, sub-block runs, colour tables
and the classes of selectors and codes, as functions on values (20_memory.md, 30_encoding.md). -/

namespace Sys2Proof.Machine

/-! ## Byte order (R16, R84) -/

/-- `LE16(lo, hi) = lo + hi * 256` (R16). -/
def le16 (lo hi : Byte) : Half := hi ++ lo

/-- `toLE16(v) = [v & 0xFF, v >> 8]` (R16). -/
def toLE16 (v : Half) : List Byte := [v.extractLsb' 0 8, v.extractLsb' 8 8]

/-! ## Bit order (R85, R86) -/

/-- Byte `b` contributes `b[0], b[1], ..., b[7]` in that order (R85). -/
def byteBits (b : Byte) : Bits :=
  [b.getLsbD 0, b.getLsbD 1, b.getLsbD 2, b.getLsbD 3,
   b.getLsbD 4, b.getLsbD 5, b.getLsbD 6, b.getLsbD 7]

/-- The bits of a byte sequence, bytes in stream order (R85). -/
def bytesBits (bs : List Byte) : Bits := bs.flatMap byteBits

/-- The value of bits oldest first: `sum t_i * 2^i` (R86). -/
def bitsValue : Bits → Nat
  | []     => 0
  | b :: t => b.toNat + 2 * bitsValue t

/-- The first `w` bits of a code, its bit 0 first (R86; the order within a code is PRESUMED from G7,
log 16). -/
def codeBits : Nat → Nat → Bits
  | 0,     _ => []
  | w + 1, c => (c % 2 == 1) :: codeBits w (c / 2)

/-- The byte made of at most 8 bits, the bits that are not there 0 (R190, R191). -/
def bitsByte (b : Bits) : Byte := BitVec.ofNat 8 (bitsValue b)

/-- Take completed bytes off the front of a bit accumulator while 8 or more bits are there (R190). -/
def drainBytes : Bits → List Byte × Bits
  | b0 :: b1 :: b2 :: b3 :: b4 :: b5 :: b6 :: b7 :: rest =>
    (bitsByte [b0, b1, b2, b3, b4, b5, b6, b7] :: (drainBytes rest).1, (drainBytes rest).2)
  | acc => ([], acc)

/-! ## Packed bytes (R113, R121, R124; bit positions PRESUMED from G1 to G3, log 16) -/

/-- `decodeLSDPacked(p)` (R293). -/
def unpackLSD (p : Byte) : LSDPacked where
  globalColorTableFlag   := p.getLsbD 7
  colorResolution        := p.extractLsb' 4 3
  sortFlag               := p.getLsbD 3
  sizeOfGlobalColorTable := p.extractLsb' 0 3

/-- The screen descriptor's packed byte (R113, R342). -/
def packLSD (f : LSDPacked) : Byte :=
  BitVec.ofBool f.globalColorTableFlag ++ f.colorResolution ++ BitVec.ofBool f.sortFlag
    ++ f.sizeOfGlobalColorTable

/-- `decodeImagePacked(p)` (R309). -/
def unpackImage (p : Byte) : ImagePacked where
  localColorTableFlag   := p.getLsbD 7
  interlaceFlag         := p.getLsbD 6
  sortFlag              := p.getLsbD 5
  reserved              := p.extractLsb' 3 2
  sizeOfLocalColorTable := p.extractLsb' 0 3

/-- The image descriptor's packed byte (R124, R346). -/
def packImage (f : ImagePacked) : Byte :=
  BitVec.ofBool f.localColorTableFlag ++ BitVec.ofBool f.interlaceFlag ++ BitVec.ofBool f.sortFlag
    ++ f.reserved ++ f.sizeOfLocalColorTable

/-- The graphic control extension from its packed byte, delay and index (R121, R305). -/
def unpackGCE (p : Byte) (delay : Half) (ti : Byte) : GraphicControlExtension where
  reserved          := p.extractLsb' 5 3
  disposalMethod    := p.extractLsb' 2 3
  userInputFlag     := p.getLsbD 1
  transparencyFlag  := p.getLsbD 0
  delayTime         := delay
  transparencyIndex := ti

/-- The graphic control extension's packed byte (R121, R345). -/
def packGCE (g : GraphicControlExtension) : Byte :=
  g.reserved ++ g.disposalMethod ++ BitVec.ofBool g.userInputFlag ++ BitVec.ofBool g.transparencyFlag

/-! ## The fixed layouts (R111, R112, R123) -/

/-- The six bytes of a signature (R60, R111). -/
def signatureBytes : Signature → List Byte
  | .gif87a => [0x47#8, 0x49#8, 0x46#8, 0x38#8, 0x37#8, 0x61#8]
  | .gif89a => [0x47#8, 0x49#8, 0x46#8, 0x38#8, 0x39#8, 0x61#8]

/-- The signature six bytes spell, if any: "No other value is a header" (R111). -/
def signatureOf (s : List Byte) : Option Signature :=
  if s = signatureBytes .gif87a then some .gif87a
  else if s = signatureBytes .gif89a then some .gif89a
  else none

/-- The screen descriptor from its width, height, packed byte and last two bytes (R112, R292). -/
def screenOf (w h : Half) (p bg par : Byte) : LogicalScreenDescriptor where
  width                  := w
  height                 := h
  globalColorTableFlag   := (unpackLSD p).globalColorTableFlag
  colorResolution        := (unpackLSD p).colorResolution
  sortFlag               := (unpackLSD p).sortFlag
  sizeOfGlobalColorTable := (unpackLSD p).sizeOfGlobalColorTable
  backgroundColorIndex   := bg
  pixelAspectRatioRaw    := par

/-- The image descriptor from its four fields and packed byte (R123, R308). -/
def descriptorOf (l t w h : Half) (p : Byte) : ImageDescriptor where
  left                  := l
  top                   := t
  width                 := w
  height                := h
  localColorTableFlag   := (unpackImage p).localColorTableFlag
  interlaceFlag         := (unpackImage p).interlaceFlag
  sortFlag              := (unpackImage p).sortFlag
  reserved              := (unpackImage p).reserved
  sizeOfLocalColorTable := (unpackImage p).sizeOfLocalColorTable

/-! ## Colour tables (R62, R114) -/

/-- The number of entries `2 << n` a size field gives (R114). -/
def tableLength (n : BitVec 3) : Nat := 2 <<< n.toNat

/-- Entry i is the bytes `3i, 3i+1, 3i+2` as r, g, b (R114, R294; the order PRESUMED from G9, log 16). -/
def tableOf : List Byte → ColorTable
  | r :: g :: b :: rest => ⟨r, g, b⟩ :: tableOf rest
  | _ => []

/-- The bytes of a colour table (R344). -/
def tableBytes (t : ColorTable) : List Byte := t.flatMap fun e => [e.r, e.g, e.b]

/-- The size field n with `2 << n = |t|`, if there is one (R343). -/
def sizeFieldOf : Nat → Option (BitVec 3)
  | 2   => some 0
  | 4   => some 1
  | 8   => some 2
  | 16  => some 3
  | 32  => some 4
  | 64  => some 5
  | 128 => some 6
  | 256 => some 7
  | _   => none

/-- "always a power of two in [2,256]" (R62). -/
def isTable (t : ColorTable) : Bool := (sizeFieldOf t.length).isSome

/-! ## Sub-block runs (R117, R199) -/

/-- One sub-block payload: 1 to 255 bytes (R117). -/
def isBlock (b : List Byte) : Bool := 1 ≤ b.length && b.length ≤ Config.readSubBlockMax

/-- The bytes of a sub-block run: each payload after its length byte, then the terminator (R117). -/
def runBytes (blocks : Blocks) : List Byte :=
  (blocks.flatMap fun b => BitVec.ofNat 8 b.length :: b) ++ [0x00#8]

/-- Cut data into payloads of 254 bytes, the last one with what is left (R199). The first argument
bounds the number of payloads; the length of the data is enough. -/
def chunksOf : Nat → List Byte → Blocks
  | 0,        _    => []
  | fuel + 1, data =>
    if data.isEmpty then []
    else data.take Config.writeSubBlockMax :: chunksOf fuel (data.drop Config.writeSubBlockMax)

/-- `packSubBlocks(m, data)` (R199). -/
def packSubBlocks (m : Byte) (data : List Byte) : List Byte :=
  m :: runBytes (chunksOf data.length data)

/-! ## Derived fields -/

/-- `cycleIndexOf(subs)` (R303; the payload's place PRESUMED from G6, log 16). -/
def cycleIndexOf : Blocks → Option Half
  | (_ :: lo :: hi :: _) :: _ => some (le16 lo hi)
  | _ => none

/-- The derived pixel aspect ratio: 0, or exactly `(raw + 15) / 64` (R297). -/
def pixelAspectRatio (raw : Byte) : Rat :=
  if raw = 0 then 0 else ((raw.toNat + 15 : Nat) : Rat) / 64

/-- The active colour table of a frame: its local table, else the global one, else none (R166). -/
def activeTable (doc : GIFDocument) (img : ImageBlock) : Option ColorTable :=
  img.localColorTable.orElse fun _ => doc.globalColorTable

/-! ## Classes of selectors (R115, R116) and codes (R128) -/

/-- What an introducer selects (R115). -/
inductive IntroClass where
  | ext
  | image
  | trailer
  | bad
  deriving DecidableEq, Repr

/-- The whole byte is compared (R115). -/
def classifyIntro (t : Byte) : IntroClass :=
  if t = 0x21#8 then .ext
  else if t = 0x2C#8 then .image
  else if t = 0x3B#8 then .trailer
  else .bad

/-- What a label selects (R116). -/
inductive LabelClass where
  | app
  | comment
  | gce
  | text
  | bad
  deriving DecidableEq, Repr

/-- The label dispatch of R116 and R300. -/
def classifyLabel (l : Byte) : LabelClass :=
  if l = 0xFF#8 then .app
  else if l = 0xFE#8 then .comment
  else if l = 0xF9#8 then .gce
  else if l = 0x01#8 then .text
  else .bad

/-- The classes of an LZW code (R128). -/
inductive CodeClass where
  | eoi
  | clear
  | first
  | hit
  | next
  | bad
  deriving DecidableEq, Repr

/-- What of the decoder's state a code is classified against, and its width (R126, R128). -/
structure CodeContext where
  clearCode        : Nat
  eoiCode          : Nat
  lastAssignedCode : Nat
  prev             : Option Nat
  codeSize         : Nat
  deriving DecidableEq, Repr

/-- "The classes are tested in this order, and exactly one applies" (R128, R213). -/
def classifyCode (k : CodeContext) (c : Nat) : CodeClass :=
  if c = k.eoiCode then .eoi
  else if c = k.clearCode then .clear
  else if k.prev = none ∧ c < k.clearCode then .first
  else if k.prev ≠ none ∧ (c < k.clearCode ∨ (k.eoiCode < c ∧ c ≤ k.lastAssignedCode)) then .hit
  else if k.prev ≠ none ∧ c = k.lastAssignedCode + 1 then .next
  else .bad

/-- The legal range of the minimum code size (R10). -/
def mcsInRange (m : Byte) : Bool := Config.mcsMin ≤ m.toNat && m.toNat ≤ Config.mcsMax

end Sys2Proof.Machine
end

