-- ==== Sys2Proof/WellFormed.lean ====
section
/-! DEFINITION. Which instructions are well formed: each operand as the row's rule restricts it. An
operand a rule answers with an error of its own (an empty index stream, a width of 13) is well formed. -/

namespace Sys2Proof

open Sys2Proof.Machine

/-- The payloads of R68: "each of length 1..255". -/
def blocksWf (subs : Blocks) : Bool := subs.all isBlock

/-- A 12-bit code value, as a read of at most 12 bits gives (R91, R126). -/
def codeWf (c : Nat) : Bool := c < Config.dictEntries

/-- A colour table record, where one is given, has a legal length (R62). -/
def tableWf : Option ColorTable → Bool
  | none   => true
  | some t => isTable t

/-- An ImageBlock as R69 gives it: legal tables, sub-blocks of 1 to 255 bytes, terminator 0 (R68). -/
def imageWf (img : ImageBlock) : Bool :=
  tableWf img.localColorTable && blocksWf img.lzw.subBlocks && img.lzw.terminator == 0x00#8

/-- The operand restrictions of each row. -/
def Instr.wf : Instr → Bool
  | .parseContainer _       => true
  | .decodeFrame img act    => imageWf img && tableWf act
  | .encodeFrame _ _        => true
  | .encodeContainer _ _ _  => true
  | .cmdNone                => true
  | .cmdUnassigned code     => 0x05#8 ≤ code
  | .cpHeader               => true
  | .cpLSD                  => true
  | .cpGCT                  => true
  | .cpIntroExt             => true
  | .cpIntroImage           => true
  | .cpIntroTrailer         => true
  | .cpIntroBad t           => classifyIntro t == .bad
  | .cpLabelApp             => true
  | .cpLabelComment         => true
  | .cpLabelGce             => true
  | .cpLabelText            => true
  | .cpLabelBad l           => classifyLabel l == .bad
  | .cpImageDesc            => true
  | .cpSubBlock             => true
  | .cpLzwData              => true
  | .cpDecodeLSDPacked _    => true
  | .cpReadColorTable _     => true
  | .cpReadSubBlockRun      => true
  | .cpExpectBlockSize v    => v == 0x0B#8 || v == 0x04#8 || v == 0x0C#8
  | .cpCycleIndexOf subs    => blocksWf subs
  | .cpDecodeImagePacked _  => true
  | .cpReadLocalTable _     => true
  | .cpReadLZWData          => true
  | .lzwEoi c               => codeWf c
  | .lzwClear c             => codeWf c
  | .lzwFirst c             => codeWf c
  | .lzwHit c               => codeWf c
  | .lzwNext c              => codeWf c
  | .lzwBad c               => codeWf c
  | .bcConsume              => true
  | .bcPeekRemaining        => true
  | .bcTake _               => true
  | .bcTakeExact _          => true
  | .bcReadLE16             => true
  | .bswWrite _ _           => true
  | .bswClose               => true
  | .bsrPushBytes _         => true
  | .bsrHasBits _           => true
  | .bsrReadBits _          => true
  | .lzePack _ _            => true
  | .lzdInit m subs         => mcsInRange m && blocksWf subs
  | .lzdUnitReset           => true
  | .lzdFetchCode           => true
  | .lzdStep                => true
  | .lzdAssign _            => true
  | .lzeEncodeFrame m idx   => mcsInRange m && !idx.isEmpty
  | .lzeInit m idx          => mcsInRange m && !idx.isEmpty
  | .lzeUnitReset           => true
  | .lzeCheckIndex _        => true
  | .lzeStep                => true
  | .lzeExtend _            => true
  | .lzeMiss _              => true
  | .lzeResetUnit           => true
  | .lzeEmit _              => true
  | .lzeFinish              => true
  | .cwEncodeContainer _ _ _ => true
  | .cwWriteHeader          => true
  | .cwWriteLSD _ _         => true
  | .cwSizeField _          => true
  | .cwWriteColorTable t    => isTable t
  | .cwWriteGCE _           => true
  | .cwWriteImage _ _       => true
  | .cwWriteTrailer         => true

end Sys2Proof
end

