-- ==== Sys2Proof/Decode.lean ====
section
/-! DEFINITION. The decoder and, after it, the encoder. An instruction is selected in one of three ways
(30_encoding.md): a command code with typed operands (R161), a selector byte or position of the container
(R110 to R125), or a code of the LZW stream, classified against the decoder's state (R126 to R130). The
other rows are "internal": they have no encoding and are called by name. -/

namespace Sys2Proof

open Sys2Proof.Machine

/-- Why a decoder gives no instruction. -/
inductive DecodeReject where
  /-- A selector byte is needed and the input has no byte left. -/
  | endOfInput
  /-- A code is needed and fewer bits than its width are left. -/
  | shortOfBits
  deriving DecidableEq, Repr

/-! ## Commands -/

/-- The command a code selects, over the typed operands (R161). Total: 0x00 is "no command", every code
from 0x05 up is unassigned. -/
def decodeRequest (q : Request) : Instr :=
  if q.code = 0x00#8 then .cmdNone
  else if q.code = 0x01#8 then .parseContainer q.operands.bytes
  else if q.code = 0x02#8 then .decodeFrame q.operands.img q.operands.act
  else if q.code = 0x03#8 then .encodeFrame q.operands.m q.operands.idx
  else if q.code = 0x04#8 then .encodeContainer q.operands.screen q.operands.ct q.operands.frames
  else .cmdUnassigned q.code

/-! ## Container selectors -/

/-- The positions of the container at which an operation is selected (R110, R290). -/
inductive Site where
  /-- IN offset 0 (R111). -/
  | header
  /-- IN offset 6 (R112). -/
  | lsd
  /-- After the screen descriptor (R114, R298). -/
  | gct
  /-- A block boundary: the next byte is an introducer (R115). -/
  | block
  /-- After an 0x21 introducer: the next byte is a label (R116). -/
  | label
  /-- After an 0x2C introducer (R123). -/
  | imageDesc
  /-- Where a sub-block run goes on: the next byte is a length byte (R117). -/
  | subBlock
  /-- After the image descriptor and its table (R125). -/
  | lzwData
  deriving DecidableEq, Repr

/-- The instruction an introducer byte selects (R115). -/
def decodeIntro (t : Byte) : Instr :=
  match classifyIntro t with
  | .ext     => .cpIntroExt
  | .image   => .cpIntroImage
  | .trailer => .cpIntroTrailer
  | .bad     => .cpIntroBad t

/-- The instruction a label byte selects (R116). -/
def decodeLabel (l : Byte) : Instr :=
  match classifyLabel l with
  | .app     => .cpLabelApp
  | .comment => .cpLabelComment
  | .gce     => .cpLabelGce
  | .text    => .cpLabelText
  | .bad     => .cpLabelBad l

/-- The instruction at a position of the container, and the bytes after its selector, which its operation
reads. At the positions selected by layout alone no byte is a selector. -/
def decodeBytes : Site → List Byte → Except DecodeReject (Instr × List Byte)
  | .header,    bs      => .ok (.cpHeader, bs)
  | .lsd,       bs      => .ok (.cpLSD, bs)
  | .gct,       bs      => .ok (.cpGCT, bs)
  | .block,     t :: bs => .ok (decodeIntro t, bs)
  | .block,     []      => .error .endOfInput
  | .label,     l :: bs => .ok (decodeLabel l, bs)
  | .label,     []      => .error .endOfInput
  | .imageDesc, bs      => .ok (.cpImageDesc, bs)
  | .subBlock,  bs      => .ok (.cpSubBlock, bs)
  | .lzwData,   bs      => .ok (.cpLzwData, bs)

/-! ## LZW codes -/

/-- The instruction a code value is, against the decoder's state (R128, R213). -/
def decodeCode (k : CodeContext) (c : Nat) : Instr :=
  match classifyCode k c with
  | .eoi   => .lzwEoi c
  | .clear => .lzwClear c
  | .first => .lzwFirst c
  | .hit   => .lzwHit c
  | .next  => .lzwNext c
  | .bad   => .lzwBad c

/-- The instruction at the front of a bit stream, `codeSize` bits wide and least significant bit first
(R126, R127), and the bits after it. -/
def decodeBits (k : CodeContext) (bits : Bits) : Except DecodeReject (Instr × Bits) :=
  if bits.length < k.codeSize then .error .shortOfBits
  else .ok (decodeCode k (bitsValue (bits.take k.codeSize)), bits.drop k.codeSize)

/-! ## Words numbered as spec/opcode_table.json numbers them -/

/-- A word of the opcode table. The table numbers three kinds of byte in one list: which one a word is
cannot always be told from its bits alone (0x01 is both PARSE_CONTAINER and CP.LABEL.TEXT). DESIGN CHOICE,
safe, log 19: an assigned command code first, then an introducer, then a label, then an unassigned code. A
word of 16 bits is an introducer 0x21 with its label; one of 48 bits is a header. -/
inductive TableWord where
  | command (code : Byte)
  | intro (t : Byte)
  | label (l : Byte)
  | header (s : Signature)
  deriving DecidableEq, Repr

/-- The first `n` bytes of a word, bit 0 the least significant bit of the first. -/
def wordBytes : Nat → Nat → List Byte
  | 0,     _ => []
  | n + 1, w => BitVec.ofNat 8 w :: wordBytes n (w / 256)

/-- Which word of the table the bits are (log 19). -/
def tableWord (nbits w : Nat) : Option TableWord :=
  if 2 ^ nbits ≤ w then none
  else match wordBytes (nbits / 8) w with
  | [b] =>
    if b < 0x05#8 then some (.command b)
    else if classifyIntro b ≠ .bad then some (.intro b)
    else if classifyLabel b ≠ .bad then some (.label b)
    else some (.command b)
  | [b, l] => if classifyIntro b = .ext then some (.label l) else none
  | bs => (signatureOf bs).map .header

/-- The instruction this decoder reads from a word of the table, operands zero. -/
def decodeTableWord (nbits w : Nat) : Option Instr :=
  match tableWord nbits w with
  | none               => none
  | some (.command b)  => some (decodeRequest ⟨b, Operands.zero⟩)
  | some (.intro t)    => some (decodeIntro t)
  | some (.label l)    => some (decodeLabel l)
  | some (.header _)   => some .cpHeader

/-! ## The encoder -/

/-- The request a command is (R161). -/
def encodeRequest : Instr → Option Request
  | .parseContainer bytes => some ⟨0x01#8, { Operands.zero with bytes := bytes }⟩
  | .decodeFrame img act  => some ⟨0x02#8, { Operands.zero with img := img, act := act }⟩
  | .encodeFrame m idx    => some ⟨0x03#8, { Operands.zero with m := m, idx := idx }⟩
  | .encodeContainer screen ct frames =>
    some ⟨0x04#8, { Operands.zero with screen := screen, ct := ct, frames := frames }⟩
  | .cmdNone              => some ⟨0x00#8, Operands.zero⟩
  | .cmdUnassigned code   => some ⟨code, Operands.zero⟩
  | _                     => none

/-- The position and the selector bytes of a container selector (R111 to R117). -/
def encodeBytes : Instr → Option (Site × List Byte)
  | .cpHeader       => some (.header, [])
  | .cpLSD          => some (.lsd, [])
  | .cpGCT          => some (.gct, [])
  | .cpIntroExt     => some (.block, [0x21#8])
  | .cpIntroImage   => some (.block, [0x2C#8])
  | .cpIntroTrailer => some (.block, [0x3B#8])
  | .cpIntroBad t   => some (.block, [t])
  | .cpLabelApp     => some (.label, [0xFF#8])
  | .cpLabelComment => some (.label, [0xFE#8])
  | .cpLabelGce     => some (.label, [0xF9#8])
  | .cpLabelText    => some (.label, [0x01#8])
  | .cpLabelBad l   => some (.label, [l])
  | .cpImageDesc    => some (.imageDesc, [])
  | .cpSubBlock     => some (.subBlock, [])
  | .cpLzwData      => some (.lzwData, [])
  | _               => none

/-- The code value of an LZW code. -/
def codeOf : Instr → Option Nat
  | .lzwEoi c   => some c
  | .lzwClear c => some c
  | .lzwFirst c => some c
  | .lzwHit c   => some c
  | .lzwNext c  => some c
  | .lzwBad c   => some c
  | _           => none

/-- The bits of an LZW code at width `w` (R86, R126). -/
def encodeBits (w : Nat) (i : Instr) : Option Bits := (codeOf i).map (codeBits w)

/-- The rows with no encoding: "internal" in spec/opcode_table.json. -/
def Instr.isInternal (i : Instr) : Bool :=
  (encodeRequest i).isNone && (encodeBytes i).isNone && (codeOf i).isNone

end Sys2Proof
end

