-- ==== Sys2Proof/Machine/State.lean ====
section
/-! DEFINITION. The state of one block instance (10_state.md), as plain data, its reset value, and the
reasons a step can stop. -/

namespace Sys2Proof.Machine

/-! ## Errors (60_exceptions.md R370 to R373) -/

/-- FormatError reasons (R371). -/
inductive FormatReason where
  | badSignature
  | badIntroducer
  | badLabel
  | badTerminator
  | badBlockSize
  | badMinCodeSize
  deriving DecidableEq, Repr

/-- TruncatedInput reasons (R372). -/
inductive TruncatedReason where
  | byteCursorEnd
  | bitStreamEnd
  | badCode
  deriving DecidableEq, Repr

/-- AssertionFailure reasons (R373). -/
inductive AssertionReason where
  | badWidth
  | emptyIndexStream
  | indexOutOfAlphabet
  | colorTableSize
  | missingEntry
  | badMinCodeSize
  deriving DecidableEq, Repr

/-- An error is a class and a reason (R370), and nothing else (R375). -/
inductive Err where
  | formatError (r : FormatReason)
  | truncatedInput (r : TruncatedReason)
  | assertionFailure (r : AssertionReason)
  deriving DecidableEq, Repr

/-! ## Values -/

/-- What an operation or a command returns (R17, R33). -/
inductive Value where
  | none
  | byte (b : Byte)
  | half (v : Half)
  | flag (b : Bool)
  | code (c : Nat)
  | size (n : BitVec 3)
  | bytes (bs : List Byte)
  | subBlock (b : Option (List Byte))
  | blocks (bs : Blocks)
  | cycle (c : Option Half)
  | lsdPacked (p : LSDPacked)
  | imagePacked (p : ImagePacked)
  | table (t : ColorTable)
  | localTable (t : Option ColorTable)
  | descriptor (d : ImageDescriptor)
  | lzw (d : LZWData)
  | document (d : GIFDocument)
  | indices (s : List Nat)
  deriving DecidableEq, Repr

/-- "A result is either `Ok(v)` or `Err(class, reason)`" (R33). -/
inductive Result where
  | ok (v : Value)
  | err (e : Err)
  deriving DecidableEq, Repr

/-! ## Tables -/

/-- The decoder's dictionary table (R44): the codes that hold a sequence, rising, each with its sequence;
a code that is not listed reads `none`. DESIGN CHOICE, safe, log 12. -/
abbrev DecDict := List (Nat × List Nat)

/-- The encoder's dictionary (R53): the index sequences that have a code, each with it, codes rising; a
sequence that is not listed has none. DESIGN CHOICE, safe, log 12. -/
abbrev EncDict := List (List Nat × Nat)

/-! ## Units -/

/-- The phase of an LZW unit (R49, R56). -/
inductive Phase where
  | run
  | done
  | error
  deriving DecidableEq, Repr

/-- The parser's phase (R57, R290). -/
inductive CPPhase where
  | header
  | lsd
  | gct
  | block
  | done
  | error
  deriving DecidableEq, Repr

/-- HI, the host interface (R31 to R33). `inbox` is the model's own: requests issued and not taken
(DESIGN CHOICE, safe, log 2). -/
structure HostInterface where
  status : Half
  cmd    : Byte
  result : Option Result
  inbox  : List Request
  deriving DecidableEq, Repr

/-- BC, the ByteCursor (R34, R35). -/
structure ByteCursor where
  buf : List Byte
  pos : Nat
  deriving DecidableEq, Repr

/-- BSR, the read side of the BitStream (R36). -/
structure BitReader where
  bits : Bits
  deriving DecidableEq, Repr

/-- BSW, the write side of the BitStream (R37, R38). -/
structure BitWriter where
  acc : Bits
  out : List Byte
  deriving DecidableEq, Repr

/-- LZD, the LZW decoder (R39 to R49). -/
structure LZWDecoder where
  minCodeSize      : Byte
  clearCode        : Nat
  eoiCode          : Nat
  codeSize         : Nat
  lastAssignedCode : Nat
  dict             : DecDict
  growThreshold    : Nat
  prev             : Option Nat
  out              : List Nat
  subs             : Blocks
  subIdx           : Nat
  phase            : Phase
  deriving DecidableEq, Repr

/-- LZE, the LZW encoder (R50 to R56). -/
structure LZWEncoder where
  minCodeSize : Byte
  clearCode   : Nat
  eoiCode     : Nat
  codeSize    : Nat
  nextCode    : Nat
  dict        : EncDict
  indexBuffer : List Nat
  input       : List Nat
  inPos       : Nat
  phase       : Phase
  deriving DecidableEq, Repr

/-- CP, the container parser (R57 to R59). -/
structure ContainerParser where
  phase      : CPPhase
  doc        : GIFDocument
  pendingGCE : Option GraphicControlExtension
  deriving DecidableEq, Repr

/-- CW, the container writer (R71). -/
structure ContainerWriter where
  out : List Byte
  deriving DecidableEq, Repr

/-- The state of one block instance: the tuple `(HI, BC, BSR, BSW, LZD, LZE, CP, CW)` (R30), and two
fields of the model's own: `ret`, what the last unit operation returned (DESIGN CHOICE, safe, log 6), and
`todo`, the unit operations the command in progress has queued (DESIGN CHOICE, safe, log 7). -/
structure State where
  hi   : HostInterface
  bc   : ByteCursor
  bsr  : BitReader
  bsw  : BitWriter
  lzd  : LZWDecoder
  lze  : LZWEncoder
  cp   : ContainerParser
  cw   : ContainerWriter
  ret  : Value
  todo : List Instr
  deriving DecidableEq, Repr

/-- The power-on state (R401): HI.STATUS = 0 and HI.CMD = 0. The unit fields are unspecified and never
read before a command sets them; they hold here what 10_state.md gives as reset for minCodeSize 2, no
sub-blocks and the input [0]. DESIGN CHOICE, unsafe, log 5. -/
def State.reset : State where
  hi   := { status := 0#16, cmd := 0#8, result := none, inbox := [] }
  bc   := { buf := [], pos := 0 }
  bsr  := { bits := [] }
  bsw  := { acc := [], out := [] }
  lzd  :=
    { minCodeSize := 2#8, clearCode := 4, eoiCode := 5, codeSize := 3, lastAssignedCode := 5,
      dict := [(0, [0]), (1, [1]), (2, [2]), (3, [3])], growThreshold := 7, prev := none, out := [],
      subs := [], subIdx := 0, phase := .run }
  lze  :=
    { minCodeSize := 2#8, clearCode := 4, eoiCode := 5, codeSize := 3, nextCode := 6,
      dict := [([0], 0), ([1], 1), ([2], 2), ([3], 3)], indexBuffer := [0], input := [0], inPos := 1,
      phase := .run }
  cp   := { phase := .header, doc := GIFDocument.empty, pendingGCE := none }
  cw   := { out := [] }
  ret  := .none
  todo := []

/-! ## Stops -/

/-- Faults: unit states that break the spec's own state rules, or a command in progress that has nothing
to run. No run from reset reaches one; each is SAFE (the model stops). DESIGN CHOICE, log 13. -/
inductive Fault where
  /-- An LZW code or a previous code has no entry where R44 and R222 say it has one. Raised by LZW.FIRST,
  LZW.HIT, LZW.NEXT, LZD.assign and what calls them. Safe. -/
  | entryMissing
  /-- A dictionary entry is the empty sequence, which R44 excludes, and its head is asked for. Raised by
  LZW.HIT, LZW.NEXT and what calls them. Safe. -/
  | entryEmpty
  /-- LZW.NEXT or LZD.assign with `LZD.prev = none`, where R218 and R220 take `some p`. Safe. -/
  | prevMissing
  /-- LZE.init on an empty index sequence, where R250 and R251 take a non-empty one. Safe. -/
  | inputEmpty
  /-- LZE.step with no index left, where R250 steps only while one is left. Safe. -/
  | inputEnd
  /-- BSW.close with more than 8 bits in the accumulator, where R37 allows 7. Safe. -/
  | accumulatorOverfull
  /-- A loop of a command ran to the bound R168 and R290 give without ending. Safe. -/
  | loopBound
  /-- A command is in progress and the sequencing state (R73) selects no operation. Raised by step. Safe. -/
  | nothingToRun
  deriving DecidableEq, Repr

/-- Refusals. -/
inductive Refusal where
  /-- An instruction whose arm of exec has no meaning yet; no arm is left so. Safe. -/
  | notModelled (mnemonic : String)
  /-- A command code 0x05 to 0xFF: "is refused: the block takes no step and HI.STATUS is unchanged. A
  model marks the run as refused" (R161). Raised by CMD.UNASSIGNED. Safe. -/
  | unassignedCommand
  /-- "A command issued while one is in progress is a host error that the model treats as refused" (D42).
  Raised by the four commands when HI.CMD is not 0. Safe. -/
  | commandInProgress
  /-- An output above MAX_OUTPUT, where one is set: "a refused run, not a defined error" (D32). Raised at
  the end of a command. Safe. -/
  | outputCapacity
  deriving DecidableEq, Repr

/-! ## Setters, one per field -/

/-- Write HI. -/
def State.setHI (s : State) (v : HostInterface) : State := { s with hi := v }
/-- Write BC. -/
def State.setBC (s : State) (v : ByteCursor) : State := { s with bc := v }
/-- Write BSR. -/
def State.setBSR (s : State) (v : BitReader) : State := { s with bsr := v }
/-- Write BSW. -/
def State.setBSW (s : State) (v : BitWriter) : State := { s with bsw := v }
/-- Write LZD. -/
def State.setLZD (s : State) (v : LZWDecoder) : State := { s with lzd := v }
/-- Write LZE. -/
def State.setLZE (s : State) (v : LZWEncoder) : State := { s with lze := v }
/-- Write CP. -/
def State.setCP (s : State) (v : ContainerParser) : State := { s with cp := v }
/-- Write CW. -/
def State.setCW (s : State) (v : ContainerWriter) : State := { s with cw := v }
/-- Write the returned value. -/
def State.setRet (s : State) (v : Value) : State := { s with ret := v }
/-- Write the queued operations. -/
def State.setTodo (s : State) (v : List Instr) : State := { s with todo := v }

end Sys2Proof.Machine
end

