-- ==== Sys2Proof/Machine/Flags.lean ====
section
/-! DEFINITION. HI.STATUS and the status flags (10_state.md R32, R74; 60_exceptions.md R370 to R373). -/

namespace Sys2Proof.Machine

/-- The CLASS code of an error (R370). -/
def errClass : Err → BitVec 2
  | .formatError _      => 1
  | .truncatedInput _   => 2
  | .assertionFailure _ => 3

/-- The REASON code of an error (R371, R372, R373). -/
def errReason : Err → BitVec 4
  | .formatError .badSignature            => 1
  | .formatError .badIntroducer           => 2
  | .formatError .badLabel                => 3
  | .formatError .badTerminator           => 4
  | .formatError .badBlockSize            => 5
  | .formatError .badMinCodeSize          => 6
  | .truncatedInput .byteCursorEnd        => 1
  | .truncatedInput .bitStreamEnd         => 2
  | .truncatedInput .badCode              => 3
  | .assertionFailure .badWidth           => 1
  | .assertionFailure .emptyIndexStream   => 2
  | .assertionFailure .indexOutOfAlphabet => 3
  | .assertionFailure .colorTableSize     => 4
  | .assertionFailure .missingEntry       => 5
  | .assertionFailure .badMinCodeSize     => 6

/-- HI.STATUS from its fields, the reserved bits 0 (R32). -/
def statusWord (done err : Bool) (cls : BitVec 2) (reason : BitVec 4) : Half :=
  0#4 ++ reason ++ 0#2 ++ cls ++ 0#2 ++ BitVec.ofBool err ++ BitVec.ofBool done

/-- HI.STATUS.DONE (R32). -/
def statusDone (w : Half) : Bool := w.getLsbD 0
/-- HI.STATUS.ERR (R32). -/
def statusErr (w : Half) : Bool := w.getLsbD 1
/-- HI.STATUS.CLASS (R32). -/
def statusClass (w : Half) : BitVec 2 := w.extractLsb' 4 2
/-- HI.STATUS.REASON (R32). -/
def statusReason (w : Half) : BitVec 4 := w.extractLsb' 8 4

/-- HI.STATUS after a command that returned: `{DONE: 1, ERR: 0, CLASS: 0, REASON: 0}` (R160). -/
def statusOk : Half := statusWord true false 0 0

/-- HI.STATUS after a command that raised `e`: `{DONE: 1, ERR: 1, CLASS: c, REASON: r}` (R160, R380). -/
def statusOf (e : Err) : Half := statusWord true true (errClass e) (errReason e)

/-- HI.STATUS once a command has ended with a result (R160). -/
def statusOfResult : Result → Half
  | .ok _  => statusOk
  | .err e => statusOf e

/-- The first-code flag `LZD.prev = none` (R46, R74). -/
def firstCode (d : LZWDecoder) : Bool := d.prev.isNone

/-- What of the decoder's state its next code is classified against (R128). -/
def codeContext (d : LZWDecoder) : CodeContext where
  clearCode        := d.clearCode
  eoiCode          := d.eoiCode
  lastAssignedCode := d.lastAssignedCode
  prev             := d.prev
  codeSize         := d.codeSize

end Sys2Proof.Machine
end

