-- ==== Sys2Proof/Machine/Ops.lean ====
section
/-! DEFINITION. The operations the meanings share: the unit-operation type and its primitives (00_scope.md
R17), reads and writes of each unit, the two dictionaries, taking an error (60_exceptions.md R380), and the
start and the end of a command (R400, R160). -/

namespace Sys2Proof.Machine

/-! ## Unit operations (R17) -/

/-- How an operation ends early: with an error of R370, or in a unit state the spec excludes (log 13). -/
inductive Stop where
  | raised (e : Err)
  | stuck (f : Fault)
  deriving DecidableEq, Repr

/-- A unit operation: from a state it returns a value and the next state, or it ends early, with the state
it leaves. -/
abbrev Op := EStateM Stop State

/-- Which unit is running when an error is raised (R380.3). -/
inductive Runner where
  | cp
  | lzd
  | lze
  /-- A step of no unit with a phase: the container writer (R71). -/
  | none
  deriving DecidableEq, Repr

/-- "LZD.phase, LZE.phase or CP.phase, whichever unit was running, becomes ERROR" (R380.3). -/
def markError (u : Runner) (s : State) : State :=
  match u with
  | .cp   => s.setCP { s.cp with phase := .error }
  | .lzd  => s.setLZD { s.lzd with phase := .error }
  | .lze  => s.setLZE { s.lze with phase := .error }
  | .none => s

/-- `raise E(reason)` (R17): no later step runs; the raising unit's phase becomes ERROR (R380). -/
def raise {α : Type} (u : Runner) (e : Err) : Op α := fun s => .error (.raised e) (markError u s)

/-- The operation meets a unit state the spec excludes (log 13). -/
def stuck {α : Type} (f : Fault) : Op α := fun s => .error (.stuck f) s

/-! ## Reads and writes of the units -/

/-- Read BC. -/
def getBC : Op ByteCursor := fun s => .ok s.bc s
/-- Write BC. -/
def putBC (v : ByteCursor) : Op Unit := fun s => .ok () (s.setBC v)
/-- Read BSR. -/
def getBSR : Op BitReader := fun s => .ok s.bsr s
/-- Write BSR. -/
def putBSR (v : BitReader) : Op Unit := fun s => .ok () (s.setBSR v)
/-- Read BSW. -/
def getBSW : Op BitWriter := fun s => .ok s.bsw s
/-- Write BSW. -/
def putBSW (v : BitWriter) : Op Unit := fun s => .ok () (s.setBSW v)
/-- Read LZD. -/
def getLZD : Op LZWDecoder := fun s => .ok s.lzd s
/-- Write LZD. -/
def putLZD (v : LZWDecoder) : Op Unit := fun s => .ok () (s.setLZD v)
/-- Read LZE. -/
def getLZE : Op LZWEncoder := fun s => .ok s.lze s
/-- Write LZE. -/
def putLZE (v : LZWEncoder) : Op Unit := fun s => .ok () (s.setLZE v)
/-- Read CP. -/
def getCP : Op ContainerParser := fun s => .ok s.cp s
/-- Write CP. -/
def putCP (v : ContainerParser) : Op Unit := fun s => .ok () (s.setCP v)
/-- Read CW. -/
def getCW : Op ContainerWriter := fun s => .ok s.cw s
/-- Write CW. -/
def putCW (v : ContainerWriter) : Op Unit := fun s => .ok () (s.setCW v)

/-! ## Memory (20_memory.md) -/

/-- `MemRead(addr, n)` on a byte sequence (R81): its bytes `[addr .. addr+n)`. -/
def memRead (buf : List Byte) (addr n : Nat) : List Byte := (buf.drop addr).take n

/-- Entry `c` of the decoder's table (R44). -/
def dictGet : DecDict → Nat → Option (List Nat)
  | [],            _ => none
  | (k, v) :: d, c => if k = c then some v else dictGet d c

/-- `dict[c] <- some v`, codes kept rising (R44). -/
def dictSet : DecDict → Nat → List Nat → DecDict
  | [],            c, v => [(c, v)]
  | (k, w) :: d, c, v =>
    if c < k then (c, v) :: (k, w) :: d
    else if c = k then (c, v) :: d
    else (k, w) :: dictSet d c v

/-- The seed of the decoder's table: `some [c]` for `c < clearCode`, over the 4096 codes (R44, R211). -/
def dictSeed (clearCode : Nat) : DecDict :=
  (List.range (min clearCode Config.dictEntries)).map fun c => (c, [c])

/-- The canonical form of the decoder's table: codes rising and below 4096, sequences non-empty (R44). -/
def dictWf (d : DecDict) : Bool :=
  decide (d.Pairwise fun a b => a.1 < b.1) && d.all fun e => e.1 < Config.dictEntries && !e.2.isEmpty

/-- The code of a sequence in the encoder's map (R53). -/
def encGet : EncDict → List Nat → Option Nat
  | [],            _ => none
  | (k, c) :: d, s => if k = s then some c else encGet d s

/-- The entry at its place, codes kept rising. -/
def encPlace : EncDict → List Nat → Nat → EncDict
  | [],            s, c => [(s, c)]
  | (k, b) :: d, s, c => if c < b then (s, c) :: (k, b) :: d else (k, b) :: encPlace d s c

/-- `dict[s <- c]` (R18, R53). -/
def encSet (d : EncDict) (s : List Nat) (c : Nat) : EncDict :=
  encPlace (d.filter fun e => e.1 ≠ s) s c

/-- The seed of the encoder's map: `[i] -> i` for `i < clearCode` (R53, R252). -/
def encSeed (clearCode : Nat) : EncDict := (List.range clearCode).map fun i => ([i], i)

/-- The canonical form of the encoder's map: codes rising, no sequence twice, none empty (R53, R262). -/
def encWf (d : EncDict) : Bool :=
  decide (d.Pairwise fun a b => a.2 < b.2) && decide (d.Pairwise fun a b => a.1 ≠ b.1)
    && d.all fun e => !e.1.isEmpty

/-- The canonical form of the writable memory of a state, the space DICT (R80): equal tables are equal
data. IN is a byte sequence and has one form. -/
def Memory.wf (s : State) : Bool := dictWf s.lzd.dict && encWf s.lze.dict

/-! ## Taking an error, and the start and end of a command -/

/-- Error entry (R380), after `raise` has marked the unit: nothing of the command runs on, HI.STATUS holds
the error, HI.CMD is 0, and the host receives `Err`. "Nothing else is saved, no vector is taken"; the unit
state stays as the raise left it (D30). There is no return from an error (R384): the block is idle. -/
def errorEntry (e : Err) (s : State) : State :=
  (s.setHI { s.hi with status := statusOf e, cmd := 0#8, result := some (.err e) }).setTodo []

/-- How much a value takes of MAX_OUTPUT: the length of a byte or index stream, or the number of image
blocks (D32, log 14). -/
def outputSize : Value → Nat
  | .bytes bs   => bs.length
  | .indices s  => s.length
  | .document d => d.images.length
  | _           => 0

/-- Whether an output is within MAX_OUTPUT (D32): always, when none is set. -/
def withinOutput (bound : Option Nat) (v : Value) : Bool :=
  match bound with
  | none   => true
  | some n => outputSize v ≤ n

/-- The end of a command that returns `v` (R160). -/
def commandEnd (v : Value) (s : State) : State :=
  (s.setHI { s.hi with status := statusOk, cmd := 0#8, result := some (.ok v) }).setTodo []

/-- The end of a command, refused above MAX_OUTPUT (D32). -/
def finish (v : Value) (s : State) : Host.Outcome State Fault Refusal :=
  if withinOutput Config.maxOutput v then .next (commandEnd v s) else .refused .outputCapacity

/-- Command-start reset (R400), for a command with code `code` and input bytes `input`. The LZW units are
set up inside the command by their init rules. -/
def commandStart (code : Byte) (input : List Byte) (s : State) : State where
  hi   := { status := 0#16, cmd := code, result := none, inbox := s.hi.inbox }
  bc   := { buf := input, pos := 0 }
  bsr  := { bits := [] }
  bsw  := { acc := [], out := [] }
  lzd  := s.lzd
  lze  := s.lze
  cp   := { phase := .header, doc := GIFDocument.empty, pendingGCE := none }
  cw   := { out := [] }
  ret  := s.ret
  todo := []

/-- The outcome of an operation: an error is taken, an excluded unit state is a fault. -/
def settle {α : Type} (onOk : α → State → Host.Outcome State Fault Refusal) :
    EStateM.Result Stop State α → Host.Outcome State Fault Refusal
  | .ok a s                => onOk a s
  | .error (.raised e) s   => .next (errorEntry e s)
  | .error (.stuck f) _    => .fault f

/-- Run a unit operation that returns no value. -/
def runUnit (op : Op Unit) (s : State) : Host.Outcome State Fault Refusal :=
  settle (fun _ s' => .next s') (op s)

/-- Run a unit operation that returns a value: it is latched in `ret` (log 6). -/
def runRet {α : Type} (wrap : α → Value) (op : Op α) (s : State) : Host.Outcome State Fault Refusal :=
  settle (fun a s' => .next (s'.setRet (wrap a))) (op s)

/-- Run a command whole (R160, D1): refused while one is in progress (D42); else reset (R400), the
command's pseudocode, and its end. -/
def runCommand (code : Byte) (input : List Byte) (op : Op Value) (s : State) :
    Host.Outcome State Fault Refusal :=
  if s.hi.cmd ≠ 0#8 then .refused .commandInProgress
  else settle finish (op (commandStart code input s))

end Sys2Proof.Machine
end

