-- ==== Sys2Proof/Machine/BitStream.lean ====
section
/-! DEFINITION. The BitStream's two sides and the sub-block packer (42_bitstream.md). The write side is the
encoder's and the read side the decoder's: an error is raised by that unit. -/

namespace Sys2Proof.Machine

/-- The widths a BitStream operation takes: 1 to 12 (R91). -/
def isWidth (w : Nat) : Bool := 1 ≤ w && w ≤ Config.maxCodeWidth

/-- `write(code, w)` (R190). -/
def bswWrite (code : Nat) (w : Nat) : Op Unit :=
  if !isWidth w || 2 ^ w ≤ code then raise .lze (.assertionFailure .badWidth)
  else do
    let b ← getBSW
    let d := drainBytes (b.acc ++ codeBits w code)
    putBSW { acc := d.2, out := b.out ++ d.1 }

/-- `close()` (R191). -/
def bswClose : Op Unit := do
  let b ← getBSW
  if b.acc.isEmpty then pure ()
  else if 8 < b.acc.length then stuck .accumulatorOverfull
  else putBSW { acc := [], out := b.out ++ [bitsByte b.acc] }

/-- `pushBytes(bytes)` (R194). -/
def bsrPushBytes (bytes : List Byte) : Op Unit := do
  let b ← getBSR
  putBSR { bits := b.bits ++ bytesBits bytes }

/-- `hasBits(n)` (R195). -/
def bsrHasBits (n : Nat) : Op Bool :=
  if !isWidth n then raise .lzd (.assertionFailure .badWidth)
  else do
    let b ← getBSR
    return decide (n ≤ b.bits.length)

/-- `readBits(n)` (R196). -/
def bsrReadBits (n : Nat) : Op Nat :=
  if !isWidth n then raise .lzd (.assertionFailure .badWidth)
  else do
    let b ← getBSR
    if b.bits.length < n then raise .lzd (.truncatedInput .bitStreamEnd)
    else
      putBSR { bits := b.bits.drop n }
      return bitsValue (b.bits.take n)

/-! ## Meanings -/

/-- BSW.write. -/
def execBswWrite (code : Nat) (w : Nat) (s : State) : Host.Outcome State Fault Refusal :=
  runUnit (bswWrite code w) s

/-- BSW.close. -/
def execBswClose (s : State) : Host.Outcome State Fault Refusal := runUnit bswClose s

/-- BSR.pushBytes. -/
def execBsrPushBytes (bytes : List Byte) (s : State) : Host.Outcome State Fault Refusal :=
  runUnit (bsrPushBytes bytes) s

/-- BSR.hasBits. -/
def execBsrHasBits (n : Nat) (s : State) : Host.Outcome State Fault Refusal := runRet .flag (bsrHasBits n) s

/-- BSR.readBits. -/
def execBsrReadBits (n : Nat) (s : State) : Host.Outcome State Fault Refusal :=
  runRet .code (bsrReadBits n) s

/-- LZE.pack (R199): "State written: none (the result goes to the caller)". -/
def execLzePack (m : Byte) (data : List Byte) (s : State) : Host.Outcome State Fault Refusal :=
  runRet .bytes (pure (packSubBlocks m data)) s

end Sys2Proof.Machine
end

