-- ==== Sys2Proof/Machine/Decoder.lean ====
section
/-! DEFINITION. The LZW decoder (43_lzw_decoder.md). -/

namespace Sys2Proof.Machine

/-- `LZD.unitReset()` (R211). -/
def lzdUnitReset : Op Unit := do
  let d ← getLZD
  putLZD { d with
    dict := dictSeed d.clearCode
    codeSize := d.minCodeSize.toNat + 1
    lastAssignedCode := d.eoiCode
    growThreshold := 2 ^ (d.minCodeSize.toNat + 1) - 1
    prev := none }

/-- `LZD.init(m, subs)` (R210). -/
def lzdInit (m : Byte) (subs : Blocks) : Op Unit := do
  let d ← getLZD
  putLZD { d with
    minCodeSize := m
    clearCode := 2 ^ m.toNat
    eoiCode := 2 ^ m.toNat + 1
    subs := subs
    subIdx := 0
    out := []
    phase := .run }
  putBSR { bits := [] }
  lzdUnitReset

/-- The loop of `LZD.fetchCode()` (R212): while fewer than codeSize bits are pending and a sub-block is
left, push the next sub-block. The argument is the number of sub-blocks left. -/
def lzdFill : Nat → Op Unit
  | 0 => do
    let d ← getLZD
    let _ ← bsrHasBits d.codeSize
    pure ()
  | left + 1 => do
    let d ← getLZD
    let enough ← bsrHasBits d.codeSize
    if enough then pure ()
    else
      match d.subs[d.subIdx]? with
      | none => pure ()
      | some b =>
        bsrPushBytes b
        putLZD { d with subIdx := d.subIdx + 1 }
        lzdFill left

/-- `LZD.fetchCode()` (R212). -/
def lzdFetchCode : Op Nat := do
  let d ← getLZD
  lzdFill (d.subs.length - d.subIdx)
  bsrReadBits d.codeSize

/-- The sequence of a code that R44 says holds one. -/
def lzdEntry (c : Nat) : Op (List Nat) := do
  let d ← getLZD
  match dictGet d.dict c with
  | none   => stuck .entryMissing
  | some s => return s

/-- `head(s)`, used on non-empty sequences only (R15). -/
def headOf : List Nat → Op Nat
  | []     => stuck .entryEmpty
  | k :: _ => return k

/-- Append to LZD.out (R47). -/
def lzdAppend (s : List Nat) : Op Unit := do
  let d ← getLZD
  putLZD { d with out := d.out ++ s }

/-- `LZD.prev <- some c` (R46). -/
def lzdSetPrev (c : Nat) : Op Unit := do
  let d ← getLZD
  putLZD { d with prev := some c }

/-- The sequence of the code in LZD.prev (R218, R220). -/
def lzdPrevEntry : Op (List Nat) := do
  let d ← getLZD
  match d.prev with
  | none   => stuck .prevMissing
  | some p => lzdEntry p

/-- The decoder after it has assigned the next code to `s`: the widening of R220. -/
def assignNext (d : LZWDecoder) (s : List Nat) : LZWDecoder :=
  if d.lastAssignedCode + 1 = d.growThreshold ∧ d.lastAssignedCode + 1 < Config.maxCode then
    { d with
      lastAssignedCode := d.lastAssignedCode + 1
      dict := dictSet d.dict (d.lastAssignedCode + 1) s
      codeSize := d.codeSize + 1
      growThreshold := 2 ^ (d.codeSize + 1) - 1 }
  else
    { d with
      lastAssignedCode := d.lastAssignedCode + 1
      dict := dictSet d.dict (d.lastAssignedCode + 1) s }

/-- `LZD.assign(K)` (R220). -/
def lzdAssign (k : Nat) : Op Unit := do
  let d ← getLZD
  if d.lastAssignedCode < Config.maxCode then
    let p ← lzdPrevEntry
    putLZD (assignNext d (p ++ [k]))
  else pure ()

/-- EOI (R214). -/
def lzwEoi (_c : Nat) : Op Unit := do
  let d ← getLZD
  putLZD { d with phase := .done }

/-- CLEAR (R215). -/
def lzwClear (_c : Nat) : Op Unit := lzdUnitReset

/-- FIRST (R216). -/
def lzwFirst (c : Nat) : Op Unit := do
  let s ← lzdEntry c
  lzdAppend s
  lzdSetPrev c

/-- HIT (R217). -/
def lzwHit (c : Nat) : Op Unit := do
  let s ← lzdEntry c
  lzdAppend s
  let k ← headOf s
  lzdAssign k
  lzdSetPrev c

/-- NEXT, the KwKwK case (R218). -/
def lzwNext (c : Nat) : Op Unit := do
  let p ← lzdPrevEntry
  let k ← headOf p
  lzdAppend (p ++ [k])
  lzdAssign k
  lzdSetPrev c

/-- BAD (R219). -/
def lzwBad (_c : Nat) : Op Unit := raise .lzd (.truncatedInput .badCode)

/-- The dispatch of R213 on the class of a code. -/
def lzwDispatch (k : CodeContext) (c : Nat) : Op Unit :=
  match classifyCode k c with
  | .eoi   => lzwEoi c
  | .clear => lzwClear c
  | .first => lzwFirst c
  | .hit   => lzwHit c
  | .next  => lzwNext c
  | .bad   => lzwBad c

/-- `LZD.step()` (R213): the code is read at the width and classified against the state before it. -/
def lzdStep : Op Unit := do
  let c ← lzdFetchCode
  let d ← getLZD
  lzwDispatch (codeContext d) c

/-! ## Meanings -/

/-- LZD.init. -/
def execLzdInit (m : Byte) (subs : Blocks) (s : State) : Host.Outcome State Fault Refusal :=
  runUnit (lzdInit m subs) s

/-- LZD.unitReset. -/
def execLzdUnitReset (s : State) : Host.Outcome State Fault Refusal := runUnit lzdUnitReset s

/-- LZD.fetchCode. -/
def execLzdFetchCode (s : State) : Host.Outcome State Fault Refusal := runRet .code lzdFetchCode s

/-- LZD.step. -/
def execLzdStep (s : State) : Host.Outcome State Fault Refusal := runUnit lzdStep s

/-- LZD.assign. -/
def execLzdAssign (k : Nat) (s : State) : Host.Outcome State Fault Refusal := runUnit (lzdAssign k) s

/-- LZW.EOI. -/
def execLzwEoi (c : Nat) (s : State) : Host.Outcome State Fault Refusal := runUnit (lzwEoi c) s

/-- LZW.CLEAR. -/
def execLzwClear (c : Nat) (s : State) : Host.Outcome State Fault Refusal := runUnit (lzwClear c) s

/-- LZW.FIRST. -/
def execLzwFirst (c : Nat) (s : State) : Host.Outcome State Fault Refusal := runUnit (lzwFirst c) s

/-- LZW.HIT. -/
def execLzwHit (c : Nat) (s : State) : Host.Outcome State Fault Refusal := runUnit (lzwHit c) s

/-- LZW.NEXT. -/
def execLzwNext (c : Nat) (s : State) : Host.Outcome State Fault Refusal := runUnit (lzwNext c) s

/-- LZW.BAD. -/
def execLzwBad (c : Nat) (s : State) : Host.Outcome State Fault Refusal := runUnit (lzwBad c) s

end Sys2Proof.Machine
end

