-- ==== Sys2Proof/Machine/ByteCursor.lean ====
section
/-! DEFINITION. The ByteCursor (41_bytecursor.md). It is the parser's unit: an error it raises is the
parser's. -/

namespace Sys2Proof.Machine

/-- `consume()` (R180). -/
def bcConsume : Op Byte := do
  let bc ← getBC
  match bc.buf[bc.pos]? with
  | none   => raise .cp (.truncatedInput .byteCursorEnd)
  | some b =>
    putBC { bc with pos := bc.pos + 1 }
    return b

/-- `peekRemaining()` (R181). -/
def bcPeekRemaining : Op Bool := do
  let bc ← getBC
  return decide (bc.pos < bc.buf.length)

/-- `take(n)` (R182). -/
def bcTake (n : Nat) : Op (List Byte) := do
  let bc ← getBC
  let k := min n (bc.buf.length - bc.pos)
  putBC { bc with pos := bc.pos + k }
  return memRead bc.buf bc.pos k

/-- `takeExact(n)` (R183). -/
def bcTakeExact (n : Nat) : Op (List Byte) := do
  let s ← bcTake n
  if s.length < n then raise .cp (.truncatedInput .byteCursorEnd) else return s

/-- `readLE16()` (R184). -/
def bcReadLE16 : Op Half := do
  let lo ← bcConsume
  let hi ← bcConsume
  return le16 lo hi

/-! ## Meanings -/

/-- BC.consume. -/
def execBcConsume (s : State) : Host.Outcome State Fault Refusal := runRet .byte bcConsume s

/-- BC.peekRemaining. -/
def execBcPeekRemaining (s : State) : Host.Outcome State Fault Refusal := runRet .flag bcPeekRemaining s

/-- BC.take. -/
def execBcTake (n : Nat) (s : State) : Host.Outcome State Fault Refusal := runRet .bytes (bcTake n) s

/-- BC.takeExact. -/
def execBcTakeExact (n : Nat) (s : State) : Host.Outcome State Fault Refusal :=
  runRet .bytes (bcTakeExact n) s

/-- BC.readLE16. -/
def execBcReadLE16 (s : State) : Host.Outcome State Fault Refusal := runRet .half bcReadLE16 s

end Sys2Proof.Machine
end

