-- ==== Sys2Proof/Machine/Parser.lean ====
section
/-! DEFINITION. The container parser (45_container_parser.md). -/

namespace Sys2Proof.Machine

/-! ## Helpers -/

/-- `readColorTable(n)` (R294). -/
def cpReadColorTable (n : BitVec 3) : Op ColorTable := do
  let b ← bcTakeExact (3 * tableLength n)
  return tableOf b

/-- One round of a sub-block run (R117, R295): the payload, or none at the terminator. -/
def cpSubBlock : Op (Option (List Byte)) := do
  let l ← bcConsume
  if l = 0x00#8 then return none
  else
    let b ← bcTakeExact l.toNat
    return some b

/-- The loop of `readSubBlockRun()` (R295). The first argument bounds the rounds: each consumes a byte. -/
def cpRunLoop : Nat → Blocks → Op Blocks
  | 0,        _   => stuck .loopBound
  | fuel + 1, run => do
    match ← cpSubBlock with
    | none   => return run
    | some b => cpRunLoop fuel (run ++ [b])

/-- `readSubBlockRun()` (R295). -/
def cpReadSubBlockRun : Op Blocks := do
  let bc ← getBC
  cpRunLoop (bc.buf.length - bc.pos + 1) []

/-- `expectBlockSize(v)` (R296). -/
def cpExpectBlockSize (v : Byte) : Op Unit := do
  let b ← bcConsume
  if b ≠ v then raise .cp (.formatError .badBlockSize) else pure ()

/-- `readLocalTable(desc)` (R310). -/
def cpReadLocalTable (desc : ImageDescriptor) : Op (Option ColorTable) :=
  if desc.localColorTableFlag then do
    let t ← cpReadColorTable desc.sizeOfLocalColorTable
    return some t
  else return none

/-- `readLZWData()` (R312). -/
def cpReadLZWData : Op LZWData := do
  let mcs ← bcConsume
  let subs ← cpReadSubBlockRun
  return { minCodeSize := mcs, subBlocks := subs, terminator := 0x00#8 }

/-- The nine bytes of the image descriptor (R123, R308). -/
def cpImageDesc : Op ImageDescriptor := do
  let l ← bcReadLE16
  let t ← bcReadLE16
  let w ← bcReadLE16
  let h ← bcReadLE16
  let p ← bcConsume
  return descriptorOf l t w h p

/-! ## Document and phase writes -/

/-- Write CP.doc. -/
def cpPutDoc (f : GIFDocument → GIFDocument) : Op Unit := do
  let cp ← getCP
  putCP { cp with doc := f cp.doc }

/-- Write CP.phase. -/
def cpPutPhase (p : CPPhase) : Op Unit := do
  let cp ← getCP
  putCP { cp with phase := p }

/-! ## The prologue -/

/-- HEADER step (R291). -/
def cpHeader : Op Unit := do
  let s ← bcTakeExact 6
  match signatureOf s with
  | none     => raise .cp (.formatError .badSignature)
  | some sig =>
    cpPutDoc fun d => { d with header := { signature := sig } }
    cpPutPhase .lsd

/-- LSD step (R292). -/
def cpLSD : Op Unit := do
  let w ← bcReadLE16
  let h ← bcReadLE16
  let p ← bcConsume
  let bg ← bcConsume
  let par ← bcConsume
  cpPutDoc fun d => { d with screen := screenOf w h p bg par }
  cpPutPhase .gct

/-- GCT step (R298). -/
def cpGCT : Op Unit := do
  let cp ← getCP
  if cp.doc.screen.globalColorTableFlag then
    let t ← cpReadColorTable cp.doc.screen.sizeOfGlobalColorTable
    cpPutDoc fun d => { d with globalColorTable := some t }
  cpPutPhase .block

/-! ## Extensions -/

/-- APPEXT (R302). -/
def cpApp : Op Unit := do
  cpExpectBlockSize 0x0B#8
  let id ← bcTakeExact 8
  let auth ← bcTakeExact 3
  let subs ← cpReadSubBlockRun
  cpPutDoc fun d => { d with
    application := some
      { identifier := id, authCode := auth, subBlocks := subs, cycleIndex := cycleIndexOf subs } }

/-- COMMENT (R304). -/
def cpComment : Op Unit := do
  let subs ← cpReadSubBlockRun
  cpPutDoc fun d => { d with comment := some { text := subs.flatten } }

/-- GCE (R305). -/
def cpGCE : Op Unit := do
  cpExpectBlockSize 0x04#8
  let p ← bcConsume
  let delay ← bcReadLE16
  let ti ← bcConsume
  let t ← bcConsume
  if t ≠ 0x00#8 then raise .cp (.formatError .badTerminator)
  else
    let cp ← getCP
    putCP { cp with pendingGCE := some (unpackGCE p delay ti) }

/-- Attach a plain text extension to the last image block, if there is one (R306). -/
def attachText (pt : PlainTextExtension) : List ImageBlock → List ImageBlock
  | []          => []
  | [img]       => [{ img with plainText := some pt }]
  | img :: rest => img :: attachText pt rest

/-- PLAINTEXT (R306). -/
def cpText : Op Unit := do
  cpExpectBlockSize 0x0C#8
  let gl ← bcReadLE16
  let gt ← bcReadLE16
  let gw ← bcReadLE16
  let gh ← bcReadLE16
  let cw ← bcConsume
  let ch ← bcConsume
  let fg ← bcConsume
  let bg ← bcConsume
  let text ← cpReadSubBlockRun
  cpPutDoc fun d => { d with
    images := attachText
      { gridLeft := gl, gridTop := gt, gridWidth := gw, gridHeight := gh, cellWidth := cw,
        cellHeight := ch, foregroundColorIndex := fg, backgroundColorIndex := bg, text := text }
      d.images }

/-- BADLABEL (R307). -/
def cpBadLabel (_l : Byte) : Op Unit := raise .cp (.formatError .badLabel)

/-- EXTENSION (R300): read the label and dispatch. -/
def cpExtension : Op Unit := do
  let l ← bcConsume
  match classifyLabel l with
  | .app     => cpApp
  | .comment => cpComment
  | .gce     => cpGCE
  | .text    => cpText
  | .bad     => cpBadLabel l

/-! ## Image block, trailer, dispatch -/

/-- IMAGE (R308, R311, R313). -/
def cpImage : Op Unit := do
  let desc ← cpImageDesc
  let lct ← cpReadLocalTable desc
  let lzw ← cpReadLZWData
  let cp ← getCP
  putCP { cp with
    pendingGCE := none
    doc := { cp.doc with images := cp.doc.images ++
      [{ descriptor := desc, localColorTable := lct, gce := cp.pendingGCE, plainText := none, lzw := lzw }] } }

/-- TRAILER (R315). -/
def cpTrailer : Op Unit := do
  let cp ← getCP
  putCP { cp with
    phase := .done, pendingGCE := none, doc := { cp.doc with trailer := Config.trailer } }

/-- BADINTRO (R316). -/
def cpBadIntro (_t : Byte) : Op Unit := raise .cp (.formatError .badIntroducer)

/-- BLOCK step (R299): read an introducer and dispatch. -/
def cpBlock : Op Unit := do
  let t ← bcConsume
  match classifyIntro t with
  | .ext     => cpExtension
  | .image   => cpImage
  | .trailer => cpTrailer
  | .bad     => cpBadIntro t

/-- One step of the parser's state machine (R290): none in the phases DONE and ERROR. -/
def cpStep : CPPhase → Op Unit
  | .header => cpHeader
  | .lsd    => cpLSD
  | .gct    => cpGCT
  | .block  => cpBlock
  | .done   => pure ()
  | .error  => pure ()

/-- "run the parser steps ... until CP.phase = DONE" (R162), the argument bounding the steps (R290). -/
def cpLoop : Nat → Op Unit
  | 0        => stuck .loopBound
  | fuel + 1 => do
    let cp ← getCP
    if cp.phase = .done then pure ()
    else
      cpStep cp.phase
      cpLoop fuel

/-! ## Meanings -/

/-- CP.HEADER. -/
def execCpHeader (s : State) : Host.Outcome State Fault Refusal := runUnit cpHeader s

/-- CP.LSD. -/
def execCpLSD (s : State) : Host.Outcome State Fault Refusal := runUnit cpLSD s

/-- CP.GCT. -/
def execCpGCT (s : State) : Host.Outcome State Fault Refusal := runUnit cpGCT s

/-- CP.INTRO.EXT, its introducer already consumed (R300). -/
def execCpIntroExt (s : State) : Host.Outcome State Fault Refusal := runUnit cpExtension s

/-- CP.INTRO.IMAGE, its introducer already consumed (R308). -/
def execCpIntroImage (s : State) : Host.Outcome State Fault Refusal := runUnit cpImage s

/-- CP.INTRO.TRAILER, its introducer already consumed (R315). -/
def execCpIntroTrailer (s : State) : Host.Outcome State Fault Refusal := runUnit cpTrailer s

/-- CP.INTRO.BAD (R316). -/
def execCpIntroBad (t : Byte) (s : State) : Host.Outcome State Fault Refusal := runUnit (cpBadIntro t) s

/-- CP.LABEL.APP, its label already consumed (R302). -/
def execCpLabelApp (s : State) : Host.Outcome State Fault Refusal := runUnit cpApp s

/-- CP.LABEL.COMMENT, its label already consumed (R304). -/
def execCpLabelComment (s : State) : Host.Outcome State Fault Refusal := runUnit cpComment s

/-- CP.LABEL.GCE, its label already consumed (R305). -/
def execCpLabelGce (s : State) : Host.Outcome State Fault Refusal := runUnit cpGCE s

/-- CP.LABEL.TEXT, its label already consumed (R306). -/
def execCpLabelText (s : State) : Host.Outcome State Fault Refusal := runUnit cpText s

/-- CP.LABEL.BAD (R307). -/
def execCpLabelBad (l : Byte) (s : State) : Host.Outcome State Fault Refusal := runUnit (cpBadLabel l) s

/-- CP.IMAGE.DESC (log 18). -/
def execCpImageDesc (s : State) : Host.Outcome State Fault Refusal := runRet .descriptor cpImageDesc s

/-- CP.SUBBLOCK (log 18). -/
def execCpSubBlock (s : State) : Host.Outcome State Fault Refusal := runRet .subBlock cpSubBlock s

/-- CP.LZWDATA (log 18). -/
def execCpLzwData (s : State) : Host.Outcome State Fault Refusal := runRet .lzw cpReadLZWData s

/-- CP.decodeLSDPacked. -/
def execCpDecodeLSDPacked (p : Byte) (s : State) : Host.Outcome State Fault Refusal :=
  runRet .lsdPacked (pure (unpackLSD p)) s

/-- CP.readColorTable. -/
def execCpReadColorTable (n : BitVec 3) (s : State) : Host.Outcome State Fault Refusal :=
  runRet .table (cpReadColorTable n) s

/-- CP.readSubBlockRun. -/
def execCpReadSubBlockRun (s : State) : Host.Outcome State Fault Refusal :=
  runRet .blocks cpReadSubBlockRun s

/-- CP.expectBlockSize. -/
def execCpExpectBlockSize (v : Byte) (s : State) : Host.Outcome State Fault Refusal :=
  runUnit (cpExpectBlockSize v) s

/-- CP.cycleIndexOf. -/
def execCpCycleIndexOf (subs : Blocks) (s : State) : Host.Outcome State Fault Refusal :=
  runRet .cycle (pure (cycleIndexOf subs)) s

/-- CP.decodeImagePacked. -/
def execCpDecodeImagePacked (p : Byte) (s : State) : Host.Outcome State Fault Refusal :=
  runRet .imagePacked (pure (unpackImage p)) s

/-- CP.readLocalTable. -/
def execCpReadLocalTable (desc : ImageDescriptor) (s : State) : Host.Outcome State Fault Refusal :=
  runRet .localTable (cpReadLocalTable desc) s

/-- CP.readLZWData. -/
def execCpReadLZWData (s : State) : Host.Outcome State Fault Refusal := runRet .lzw cpReadLZWData s

end Sys2Proof.Machine
end

