-- ==== Sys2Proof/Machine/Encoder.lean ====
section
/-! DEFINITION. The LZW encoder (44_lzw_encoder.md). -/

namespace Sys2Proof.Machine

/-- `LZE.unitReset()` (R252). -/
def lzeUnitReset : Op Unit := do
  let e ← getLZE
  putLZE { e with
    dict := encSeed e.clearCode
    nextCode := e.eoiCode + 1
    codeSize := e.minCodeSize.toNat + 1 }

/-- `LZE.checkIndex(K)` (R253). -/
def lzeCheckIndex (k : Nat) : Op Unit := do
  let e ← getLZE
  if e.clearCode ≤ k then raise .lze (.assertionFailure .indexOutOfAlphabet) else pure ()

/-- `LZE.init(m, idx)` (R251), on a non-empty `idx` (R250). -/
def lzeInit (m : Byte) : List Nat → Op Unit
  | []        => stuck .inputEmpty
  | k :: rest => do
    let e ← getLZE
    putLZE { e with
      minCodeSize := m
      clearCode := 2 ^ m.toNat
      eoiCode := 2 ^ m.toNat + 1
      input := k :: rest
      phase := .run }
    putBSW { acc := [], out := [] }
    lzeUnitReset
    lzeCheckIndex k
    let e ← getLZE
    putLZE { e with indexBuffer := [k], inPos := 1 }

/-- `LZE.emit(code)` (R259). -/
def lzeEmit : Option Nat → Op Unit
  | none      => raise .lze (.assertionFailure .missingEntry)
  | some code => do
    let e ← getLZE
    bswWrite code e.codeSize

/-- `LZE.resetUnit()` (R258). -/
def lzeResetUnit : Op Unit := do
  let e ← getLZE
  lzeEmit (some e.clearCode)
  lzeUnitReset

/-- EXTEND (R255). -/
def lzeExtend (k : Nat) : Op Unit := do
  let e ← getLZE
  putLZE { e with indexBuffer := e.indexBuffer ++ [k] }

/-- The encoder after a MISS has assigned the next code to `indexBuffer ++ [K]` (R256). -/
def insertNext (e : LZWEncoder) (k : Nat) : LZWEncoder :=
  { e with
    dict := encSet e.dict (e.indexBuffer ++ [k]) e.nextCode
    nextCode := e.nextCode + 1
    indexBuffer := [k] }

/-- MISS (R256), with growth (R257) and the reset (R258), which is checked first (D15). -/
def lzeMiss (k : Nat) : Op Unit := do
  let e ← getLZE
  lzeEmit (encGet e.dict e.indexBuffer)
  putLZE (insertNext e k)
  if Config.maxCode < e.nextCode then lzeResetUnit
  else if 2 ^ e.codeSize ≤ e.nextCode then putLZE { insertNext e k with codeSize := e.codeSize + 1 }
  else pure ()

/-- Consume one input index: the first two lines of R254. -/
def lzeNextIndex : Op Nat := do
  let e ← getLZE
  match e.input[e.inPos]? with
  | none   => stuck .inputEnd
  | some k =>
    putLZE { e with inPos := e.inPos + 1 }
    lzeCheckIndex k
    return k

/-- Whether `indexBuffer ++ [K]` is in the dictionary (R254). -/
def lzeKnows (e : LZWEncoder) (k : Nat) : Bool := (encGet e.dict (e.indexBuffer ++ [k])).isSome

/-- `LZE.step()` (R254). -/
def lzeStep : Op Unit := do
  let k ← lzeNextIndex
  let e ← getLZE
  if lzeKnows e k then lzeExtend k else lzeMiss k

/-- The condition of the end-of-input width rule (R260, R261). -/
def widensAtEnd (e : LZWEncoder) : Bool :=
  e.eoiCode + 1 < e.nextCode && e.nextCode == 2 ^ e.codeSize && e.codeSize < Config.maxCodeWidth

/-- `LZE.finish()` (R260). -/
def lzeFinish : Op Unit := do
  let e ← getLZE
  lzeEmit (encGet e.dict e.indexBuffer)
  if widensAtEnd e then putLZE { e with codeSize := e.codeSize + 1 } else pure ()
  lzeEmit (some e.eoiCode)
  let e ← getLZE
  putLZE { e with phase := .done }

/-- `while LZE.inPos < |LZE.input|: LZE.step()` (R250), the argument bounding the steps: each consumes one
index (R168). -/
def lzeLoop : Nat → Op Unit
  | 0 => do
    let e ← getLZE
    if e.inPos < e.input.length then stuck .loopBound else pure ()
  | fuel + 1 => do
    let e ← getLZE
    if e.inPos < e.input.length then do
      lzeStep
      lzeLoop fuel
    else pure ()

/-- The frame's bytes once its code stream is complete: `BSW.close()`, then `packSubBlocks` (R250). -/
def lzePacked (m : Byte) : Op (List Byte) := do
  bswClose
  let b ← getBSW
  return packSubBlocks m b.out

/-- `LZE.init` and the initial CLEAR: the first two lines of R250. -/
def lzeBegin (m : Byte) (idx : List Nat) : Op Unit := do
  lzeInit m idx
  let e ← getLZE
  lzeEmit (some e.clearCode)

/-- `LZE.encodeFrame(m, idx)` (R250). -/
def lzeEncodeFrame (m : Byte) (idx : List Nat) : Op (List Byte) := do
  lzeBegin m idx
  lzeLoop idx.length
  lzeFinish
  lzePacked m

/-! ## Meanings -/

/-- LZE.encodeFrame. -/
def execLzeEncodeFrame (m : Byte) (idx : List Nat) (s : State) : Host.Outcome State Fault Refusal :=
  runRet .bytes (lzeEncodeFrame m idx) s

/-- LZE.init. -/
def execLzeInit (m : Byte) (idx : List Nat) (s : State) : Host.Outcome State Fault Refusal :=
  runUnit (lzeInit m idx) s

/-- LZE.unitReset. -/
def execLzeUnitReset (s : State) : Host.Outcome State Fault Refusal := runUnit lzeUnitReset s

/-- LZE.checkIndex. -/
def execLzeCheckIndex (k : Nat) (s : State) : Host.Outcome State Fault Refusal :=
  runUnit (lzeCheckIndex k) s

/-- LZE.step. -/
def execLzeStep (s : State) : Host.Outcome State Fault Refusal := runUnit lzeStep s

/-- LZE.EXTEND. -/
def execLzeExtend (k : Nat) (s : State) : Host.Outcome State Fault Refusal := runUnit (lzeExtend k) s

/-- LZE.MISS. -/
def execLzeMiss (k : Nat) (s : State) : Host.Outcome State Fault Refusal := runUnit (lzeMiss k) s

/-- LZE.resetUnit. -/
def execLzeResetUnit (s : State) : Host.Outcome State Fault Refusal := runUnit lzeResetUnit s

/-- LZE.emit. -/
def execLzeEmit (code : Option Nat) (s : State) : Host.Outcome State Fault Refusal :=
  runUnit (lzeEmit code) s

/-- LZE.finish. -/
def execLzeFinish (s : State) : Host.Outcome State Fault Refusal := runUnit lzeFinish s

end Sys2Proof.Machine
end

