-- ==== Sys2Proof/Machine/Writer.lean ====
section
/-! DEFINITION. The container writer (46_container_writer.md). It has no phase: an error of a writer step
marks none (log 8). -/

namespace Sys2Proof.Machine

/-- `CW.out <- CW.out ++ bs`. -/
def cwAppend (bs : List Byte) : Op Unit := do
  let cw ← getCW
  putCW { out := cw.out ++ bs }

/-- `writeHeader()` (R341): always "GIF89a". -/
def cwWriteHeader : Op Unit := cwAppend (signatureBytes .gif89a)

/-- The seven bytes of `writeLSD(screen, gsz)` (R342). -/
def screenBytes (screen : ScreenIn) (gsz : BitVec 3) : List Byte :=
  toLE16 screen.width ++ toLE16 screen.height ++
    [packLSD { globalColorTableFlag := true, colorResolution := screen.colorResolution,
               sortFlag := screen.sortFlag, sizeOfGlobalColorTable := gsz },
     screen.backgroundColorIndex, screen.pixelAspectRatioRaw]

/-- `writeLSD(screen, gsz)` (R342). -/
def cwWriteLSD (screen : ScreenIn) (gsz : BitVec 3) : Op Unit := cwAppend (screenBytes screen gsz)

/-- `sizeField(t)` (R343). -/
def cwSizeField (t : ColorTable) : Op (BitVec 3) :=
  match sizeFieldOf t.length with
  | none   => raise .none (.assertionFailure .colorTableSize)
  | some n => return n

/-- `writeColorTable(t)` (R344). -/
def cwWriteColorTable (t : ColorTable) : Op Unit := cwAppend (tableBytes t)

/-- The eight bytes of `writeGCE(g)` (R345). -/
def gceBytes (g : GraphicControlExtension) : List Byte :=
  [0x21#8, 0xF9#8, 0x04#8, packGCE g] ++ toLE16 g.delayTime ++ [g.transparencyIndex, 0x00#8]

/-- `writeGCE(g)` (R345). -/
def cwWriteGCE (g : GraphicControlExtension) : Op Unit := cwAppend (gceBytes g)

/-- The ten bytes of an image descriptor with its introducer (R346). -/
def descriptorBytes (d : FrameDescriptor) (flag : Bool) (lsz : BitVec 3) : List Byte :=
  [0x2C#8] ++ toLE16 d.left ++ toLE16 d.top ++ toLE16 d.width ++ toLE16 d.height ++
    [packImage { localColorTableFlag := flag, interlaceFlag := d.interlaceFlag,
                 sortFlag := d.sortFlag, reserved := 0, sizeOfLocalColorTable := lsz }]

/-- The minimum code size of a table of size field n: `max(2, n + 1)` (R346, D26). -/
def codeSizeFor (n : BitVec 3) : Byte := BitVec.ofNat 8 (max 2 (n.toNat + 1))

/-- The LZW data of a frame over its active table: the last three lines of R346. -/
def cwWriteData (indices : List Nat) (act : ColorTable) : Op Unit := do
  let n ← cwSizeField act
  if indices.isEmpty then raise .none (.assertionFailure .emptyIndexStream)
  else
    let data ← lzeEncodeFrame (codeSizeFor n) indices
    cwAppend data

/-- `writeImage(f, ct)` (R346). -/
def cwWriteImage (f : FrameIn) (ct : ColorTable) : Op Unit :=
  match f.localColorTable with
  | some lt => do
    let lsz ← cwSizeField lt
    cwAppend (descriptorBytes f.descriptor true lsz)
    cwWriteColorTable lt
    cwWriteData f.indices lt
  | none => do
    cwAppend (descriptorBytes f.descriptor false 0)
    cwWriteData f.indices ct

/-- `writeTrailer()` (R348). -/
def cwWriteTrailer : Op Unit := cwAppend [Config.trailer]

/-- One frame of the loop of R340: the optional GCE, then the image (R347). -/
def cwWriteFrame (ct : ColorTable) (f : FrameIn) : Op Unit := do
  match f.gce with
  | none   => pure ()
  | some g => cwWriteGCE g
  cwWriteImage f ct

/-- "for f in frames (in order)" (R340). -/
def cwWriteFrames (ct : ColorTable) : List FrameIn → Op Unit
  | []        => pure ()
  | f :: rest => do
    cwWriteFrame ct f
    cwWriteFrames ct rest

/-- `encodeContainer(screen, ct, frames)` (R340). -/
def cwEncodeContainer (screen : ScreenIn) (ct : ColorTable) (frames : List FrameIn) : Op Unit := do
  let gsz ← cwSizeField ct
  cwWriteHeader
  cwWriteLSD screen gsz
  cwWriteColorTable ct
  cwWriteFrames ct frames
  cwWriteTrailer

/-! ## Meanings -/

/-- CW.encodeContainer. -/
def execCwEncodeContainer (screen : ScreenIn) (ct : ColorTable) (frames : List FrameIn) (s : State) :
    Host.Outcome State Fault Refusal := runUnit (cwEncodeContainer screen ct frames) s

/-- CW.writeHeader. -/
def execCwWriteHeader (s : State) : Host.Outcome State Fault Refusal := runUnit cwWriteHeader s

/-- CW.writeLSD. -/
def execCwWriteLSD (screen : ScreenIn) (gsz : BitVec 3) (s : State) : Host.Outcome State Fault Refusal :=
  runUnit (cwWriteLSD screen gsz) s

/-- CW.sizeField. -/
def execCwSizeField (t : ColorTable) (s : State) : Host.Outcome State Fault Refusal :=
  runRet .size (cwSizeField t) s

/-- CW.writeColorTable. -/
def execCwWriteColorTable (t : ColorTable) (s : State) : Host.Outcome State Fault Refusal :=
  runUnit (cwWriteColorTable t) s

/-- CW.writeGCE. -/
def execCwWriteGCE (g : GraphicControlExtension) (s : State) : Host.Outcome State Fault Refusal :=
  runUnit (cwWriteGCE g) s

/-- CW.writeImage. -/
def execCwWriteImage (f : FrameIn) (ct : ColorTable) (s : State) : Host.Outcome State Fault Refusal :=
  runUnit (cwWriteImage f ct) s

/-- CW.writeTrailer. -/
def execCwWriteTrailer (s : State) : Host.Outcome State Fault Refusal := runUnit cwWriteTrailer s

end Sys2Proof.Machine
end

