-- ==== Sys2Proof/Machine/Commands.lean ====
section
/-! DEFINITION. The host commands (40_commands.md). Each is one atomic transformation from its operands to
its result (R93, D1). -/

namespace Sys2Proof.Machine

/-- PARSE_CONTAINER's pseudocode (R162): at most `|IN| + 3` steps and the last test of the phase (R290). -/
def parseContainer (bytes : List Byte) : Op Value := do
  cpLoop (bytes.length + 4)
  let cp ← getCP
  return .document cp.doc

/-- "repeat R213 until LZD.phase = DONE" (R163), the argument bounding the steps. -/
def lzdLoop : Nat → Op Unit
  | 0        => stuck .loopBound
  | fuel + 1 => do
    let d ← getLZD
    if d.phase = .done then pure ()
    else
      lzdStep
      lzdLoop fuel

/-- The bits of a frame's sub-blocks (R82). Every code removes at least one of them (R168). -/
def bitSupply (subs : Blocks) : Nat := 8 * subs.flatten.length

/-- DECODE_FRAME's pseudocode (R163). The active colour table is accepted and not read (D11). -/
def decodeFrame (img : ImageBlock) : Op Value :=
  if !mcsInRange img.lzw.minCodeSize then raise .lzd (.formatError .badMinCodeSize)
  else do
    lzdInit img.lzw.minCodeSize img.lzw.subBlocks
    lzdLoop (bitSupply img.lzw.subBlocks + 1)
    let d ← getLZD
    return .indices d.out

/-- ENCODE_FRAME's pseudocode (R164). -/
def encodeFrame (m : Byte) (idx : List Nat) : Op Value :=
  if !mcsInRange m then raise .lze (.assertionFailure .badMinCodeSize)
  else if idx.isEmpty then raise .lze (.assertionFailure .emptyIndexStream)
  else do
    let data ← lzeEncodeFrame m idx
    return .bytes data

/-- ENCODE_CONTAINER's pseudocode (R165). -/
def encodeContainer (screen : ScreenIn) (ct : ColorTable) (frames : List FrameIn) : Op Value := do
  putCW { out := [] }
  cwEncodeContainer screen ct frames
  let cw ← getCW
  return .bytes cw.out

/-! ## Meanings -/

/-- PARSE_CONTAINER (R162). -/
def execParseContainer (bytes : List Byte) (s : State) : Host.Outcome State Fault Refusal :=
  runCommand 0x01#8 bytes (parseContainer bytes) s

/-- DECODE_FRAME (R163). -/
def execDecodeFrame (img : ImageBlock) (_act : Option ColorTable) (s : State) :
    Host.Outcome State Fault Refusal :=
  runCommand 0x02#8 [] (decodeFrame img) s

/-- ENCODE_FRAME (R164). -/
def execEncodeFrame (m : Byte) (idx : List Nat) (s : State) : Host.Outcome State Fault Refusal :=
  runCommand 0x03#8 [] (encodeFrame m idx) s

/-- ENCODE_CONTAINER (R165). -/
def execEncodeContainer (screen : ScreenIn) (ct : ColorTable) (frames : List FrameIn) (s : State) :
    Host.Outcome State Fault Refusal :=
  runCommand 0x04#8 [] (encodeContainer screen ct frames) s

/-- CMD.NONE: "Code 0x00 means no command" (R161); the block is idle and waits (R402). DESIGN CHOICE, safe,
log 3. -/
def execCmdNone (s : State) : Host.Outcome State Fault Refusal := .next s

/-- CMD.UNASSIGNED: "is refused: the block takes no step and HI.STATUS is unchanged. A model marks the run
as refused" (R161). -/
def execCmdUnassigned (_code : Byte) (_s : State) : Host.Outcome State Fault Refusal :=
  .refused .unassignedCommand

end Sys2Proof.Machine
end

