-- ==== Sys2Proof/Machine/Dispatch.lean ====
section
/-! DEFINITION. One arm per instruction, each one call of its meaning. -/

namespace Sys2Proof.Machine

def exec (i : Instr) (s : State) : Host.Outcome State Fault Refusal :=
  match i with
  | .parseContainer bytes => Sys2Proof.Machine.execParseContainer bytes s
  | .decodeFrame img act => Sys2Proof.Machine.execDecodeFrame img act s
  | .encodeFrame m idx => Sys2Proof.Machine.execEncodeFrame m idx s
  | .encodeContainer screen ct frames => Sys2Proof.Machine.execEncodeContainer screen ct frames s
  | .cmdNone => Sys2Proof.Machine.execCmdNone s
  | .cmdUnassigned code => Sys2Proof.Machine.execCmdUnassigned code s
  | .cpHeader => Sys2Proof.Machine.execCpHeader s
  | .cpLSD => Sys2Proof.Machine.execCpLSD s
  | .cpGCT => Sys2Proof.Machine.execCpGCT s
  | .cpIntroExt => Sys2Proof.Machine.execCpIntroExt s
  | .cpIntroImage => Sys2Proof.Machine.execCpIntroImage s
  | .cpIntroTrailer => Sys2Proof.Machine.execCpIntroTrailer s
  | .cpIntroBad t => Sys2Proof.Machine.execCpIntroBad t s
  | .cpLabelApp => Sys2Proof.Machine.execCpLabelApp s
  | .cpLabelComment => Sys2Proof.Machine.execCpLabelComment s
  | .cpLabelGce => Sys2Proof.Machine.execCpLabelGce s
  | .cpLabelText => Sys2Proof.Machine.execCpLabelText s
  | .cpLabelBad label => Sys2Proof.Machine.execCpLabelBad label s
  | .cpImageDesc => Sys2Proof.Machine.execCpImageDesc s
  | .cpSubBlock => Sys2Proof.Machine.execCpSubBlock s
  | .cpLzwData => Sys2Proof.Machine.execCpLzwData s
  | .cpDecodeLSDPacked p => Sys2Proof.Machine.execCpDecodeLSDPacked p s
  | .cpReadColorTable n => Sys2Proof.Machine.execCpReadColorTable n s
  | .cpReadSubBlockRun => Sys2Proof.Machine.execCpReadSubBlockRun s
  | .cpExpectBlockSize v => Sys2Proof.Machine.execCpExpectBlockSize v s
  | .cpCycleIndexOf subs => Sys2Proof.Machine.execCpCycleIndexOf subs s
  | .cpDecodeImagePacked p => Sys2Proof.Machine.execCpDecodeImagePacked p s
  | .cpReadLocalTable desc => Sys2Proof.Machine.execCpReadLocalTable desc s
  | .cpReadLZWData => Sys2Proof.Machine.execCpReadLZWData s
  | .lzwEoi c => Sys2Proof.Machine.execLzwEoi c s
  | .lzwClear c => Sys2Proof.Machine.execLzwClear c s
  | .lzwFirst c => Sys2Proof.Machine.execLzwFirst c s
  | .lzwHit c => Sys2Proof.Machine.execLzwHit c s
  | .lzwNext c => Sys2Proof.Machine.execLzwNext c s
  | .lzwBad c => Sys2Proof.Machine.execLzwBad c s
  | .bcConsume => Sys2Proof.Machine.execBcConsume s
  | .bcPeekRemaining => Sys2Proof.Machine.execBcPeekRemaining s
  | .bcTake n => Sys2Proof.Machine.execBcTake n s
  | .bcTakeExact n => Sys2Proof.Machine.execBcTakeExact n s
  | .bcReadLE16 => Sys2Proof.Machine.execBcReadLE16 s
  | .bswWrite code w => Sys2Proof.Machine.execBswWrite code w s
  | .bswClose => Sys2Proof.Machine.execBswClose s
  | .bsrPushBytes bytes => Sys2Proof.Machine.execBsrPushBytes bytes s
  | .bsrHasBits n => Sys2Proof.Machine.execBsrHasBits n s
  | .bsrReadBits n => Sys2Proof.Machine.execBsrReadBits n s
  | .lzePack m data => Sys2Proof.Machine.execLzePack m data s
  | .lzdInit m subs => Sys2Proof.Machine.execLzdInit m subs s
  | .lzdUnitReset => Sys2Proof.Machine.execLzdUnitReset s
  | .lzdFetchCode => Sys2Proof.Machine.execLzdFetchCode s
  | .lzdStep => Sys2Proof.Machine.execLzdStep s
  | .lzdAssign k => Sys2Proof.Machine.execLzdAssign k s
  | .lzeEncodeFrame m idx => Sys2Proof.Machine.execLzeEncodeFrame m idx s
  | .lzeInit m idx => Sys2Proof.Machine.execLzeInit m idx s
  | .lzeUnitReset => Sys2Proof.Machine.execLzeUnitReset s
  | .lzeCheckIndex k => Sys2Proof.Machine.execLzeCheckIndex k s
  | .lzeStep => Sys2Proof.Machine.execLzeStep s
  | .lzeExtend k => Sys2Proof.Machine.execLzeExtend k s
  | .lzeMiss k => Sys2Proof.Machine.execLzeMiss k s
  | .lzeResetUnit => Sys2Proof.Machine.execLzeResetUnit s
  | .lzeEmit code => Sys2Proof.Machine.execLzeEmit code s
  | .lzeFinish => Sys2Proof.Machine.execLzeFinish s
  | .cwEncodeContainer screen ct frames => Sys2Proof.Machine.execCwEncodeContainer screen ct frames s
  | .cwWriteHeader => Sys2Proof.Machine.execCwWriteHeader s
  | .cwWriteLSD screen gsz => Sys2Proof.Machine.execCwWriteLSD screen gsz s
  | .cwSizeField t => Sys2Proof.Machine.execCwSizeField t s
  | .cwWriteColorTable t => Sys2Proof.Machine.execCwWriteColorTable t s
  | .cwWriteGCE g => Sys2Proof.Machine.execCwWriteGCE g s
  | .cwWriteImage f ct => Sys2Proof.Machine.execCwWriteImage f ct s
  | .cwWriteTrailer => Sys2Proof.Machine.execCwWriteTrailer s

end Sys2Proof.Machine
end

