-- ==== Sys2Proof/Machine/Step.lean ====
section
/-! DEFINITION. One step. Between commands the block takes the host's next request and runs the command
whole (R93, D1, R402). In a state inside a command (HI.CMD not 0) it runs the next operation that the
sequencing state selects (R73), one rule at a time (R93). DEDUCED, log 1. -/

namespace Sys2Proof.Machine

/-- The end of the command in progress, once its sequencing state says so: CP.phase, LZD.phase or LZE.phase
is DONE (R162, R163, R250), or the writer has nothing queued (R165). Any other state goes on as it is. -/
def conclude (s : State) : Host.Outcome State Fault Refusal :=
  if s.hi.cmd = 0x01#8 ∧ s.cp.phase = .done then finish (.document s.cp.doc) s
  else if s.hi.cmd = 0x02#8 ∧ s.lzd.phase = .done then finish (.indices s.lzd.out) s
  else if s.hi.cmd = 0x03#8 ∧ s.lze.phase = .done then
    settle (fun data s' => finish (.bytes data) s') (lzePacked s.lze.minCodeSize s)
  else if s.hi.cmd = 0x04#8 ∧ s.todo = [] then finish (.bytes s.cw.out) s
  else .next s

/-- Run an instruction of the command in progress, and end the command if it was its last. -/
def execWithin (i : Instr) (s : State) : Host.Outcome State Fault Refusal :=
  match exec i s with
  | .next s'   => conclude s'
  | .fault f   => .fault f
  | .refused r => .refused r

/-- A parser step selected by CP.phase (R290): at a block boundary the introducer byte is fetched and
decoded (R299). -/
def stepParser (s : State) : Host.Outcome State Fault Refusal :=
  match s.cp.phase with
  | .header => execWithin .cpHeader s
  | .lsd    => execWithin .cpLSD s
  | .gct    => execWithin .cpGCT s
  | .block  => settle (fun t s' => execWithin (decodeIntro t) s') (bcConsume s)
  | .done   => conclude s
  | .error  => .fault .nothingToRun

/-- A decoder step (R213): the code is fetched and decoded against the decoder's state. -/
def stepDecoder (s : State) : Host.Outcome State Fault Refusal :=
  match s.lzd.phase with
  | .run   => settle (fun c s' => execWithin (decodeCode (codeContext s'.lzd) c) s') (lzdFetchCode s)
  | .done  => conclude s
  | .error => .fault .nothingToRun

/-- An encoder step (R250, R254): the next index is consumed and selects EXTEND or MISS; after the last one
the code stream is finished. -/
def stepEncoder (s : State) : Host.Outcome State Fault Refusal :=
  match s.lze.phase with
  | .run   =>
    if s.lze.inPos < s.lze.input.length then
      settle (fun k s' => execWithin (if lzeKnows s'.lze k then .lzeExtend k else .lzeMiss k) s')
        (lzeNextIndex s)
    else execWithin .lzeFinish s
  | .done  => conclude s
  | .error => .fault .nothingToRun

/-- Take the host's next request, when the block is idle. With none it waits (R402). -/
def stepIdle (s : State) : Host.Outcome State Fault Refusal :=
  match s.hi.inbox with
  | []        => exec .cmdNone s
  | q :: rest => exec (decodeRequest q) (s.setHI { s.hi with inbox := rest })

/-- One step of the machine. A queued operation runs first (log 7). -/
def step (s : State) : Host.Outcome State Fault Refusal :=
  match s.todo with
  | i :: rest => execWithin i (s.setTodo rest)
  | []        =>
    if s.hi.cmd = 0x00#8 then stepIdle s
    else if s.hi.cmd = 0x01#8 then stepParser s
    else if s.hi.cmd = 0x02#8 then stepDecoder s
    else if s.hi.cmd = 0x03#8 then stepEncoder s
    else if s.hi.cmd = 0x04#8 then conclude s
    else .fault .nothingToRun

/-- The state with a word of the opcode table where step takes its next instruction, operands zero (log
19): a command code as the host's next request; an introducer or a header as the next bytes of IN, inside
PARSE_CONTAINER; a label's operation as the next one queued there. -/
def State.withFetchWord (s : State) (nbits w : Nat) : State :=
  match tableWord nbits w with
  | none => s
  | some (.command b) =>
    (s.setHI { s.hi with cmd := 0#8, inbox := ⟨b, Operands.zero⟩ :: s.hi.inbox }).setTodo []
  | some (.intro t) =>
    (((s.setHI { s.hi with cmd := 0x01#8 }).setBC { buf := t :: List.replicate 16 0x00#8, pos := 0 }).setCP
      { s.cp with phase := .block }).setTodo []
  | some (.label l) =>
    (((s.setHI { s.hi with cmd := 0x01#8 }).setBC { buf := List.replicate 16 0x00#8, pos := 0 }).setCP
      { s.cp with phase := .block }).setTodo [decodeLabel l]
  | some (.header g) =>
    (((s.setHI { s.hi with cmd := 0x01#8 }).setBC { buf := signatureBytes g ++ List.replicate 16 0x00#8, pos := 0 }).setCP
      { s.cp with phase := .header }).setTodo []

end Sys2Proof.Machine
end

