-- ==== Sys2Proof/Safety.lean ====
section
/-! DEFINITION. What the claims are stated in: the legal states (the legal values and state rules of
10_state.md, R221, R222 and R262), the outcomes of a command, and a sequence of operations. -/

namespace Sys2Proof.Machine

/-! ## Legal states -/

/-- HI: STATUS is 0 with no result, or holds exactly the outcome delivered and no command is in progress;
CMD is 0 or an assigned code (R32, R33, R160, R161). -/
def HostLegal (h : HostInterface) : Prop :=
  h.cmd.toNat ≤ 4 ∧
  match h.result with
  | none   => h.status = 0#16
  | some r => h.status = statusOfResult r ∧ h.cmd = 0#8

/-- BC: `0 ≤ BC.pos ≤ |BC.buf|` (R35). -/
def CursorLegal (bc : ByteCursor) : Prop := bc.pos ≤ bc.buf.length

/-- BSW: 0 to 7 bits in the accumulator (R37). -/
def WriterBitsLegal (b : BitWriter) : Prop := b.acc.length ≤ 7

/-- The decoder's table has the shape of R44 and R222. -/
structure TableLegal (d : LZWDecoder) : Prop where
  /-- The canonical form (log 12). -/
  canonical : dictWf d.dict = true
  /-- "`dict[c] ≠ none` holds exactly for `c < clearCode` or `eoiCode < c ≤ lastAssignedCode`" (R44). -/
  defined : ∀ c, dictGet d.dict c ≠ none ↔ c < d.clearCode ∨ (d.eoiCode < c ∧ c ≤ d.lastAssignedCode)
  /-- The singletons (R44). -/
  singleton : ∀ c, c < d.clearCode → dictGet d.dict c = some [c]
  /-- Each entry above eoiCode is a defined entry and one index below clearCode (R222). -/
  grown : ∀ c s, d.eoiCode < c → dictGet d.dict c = some s →
    ∃ q p k, dictGet d.dict q = some p ∧ k < d.clearCode ∧ s = p ++ [k]
  /-- "The length of `dict[c]` is at most `c - eoiCode + 1`" (R222). -/
  bounded : ∀ c s, d.eoiCode < c → dictGet d.dict c = some s → s.length ≤ c - d.eoiCode + 1
  /-- Every element of a sequence is an index below clearCode (R223). -/
  alphabet : ∀ c s, dictGet d.dict c = some s → ∀ i ∈ s, i < d.clearCode

/-- LZD: the legal values of R39 to R48, and the table's shape. -/
structure DecoderLegal (d : LZWDecoder) : Prop where
  mcs       : mcsInRange d.minCodeSize = true
  clear     : d.clearCode = 2 ^ d.minCodeSize.toNat
  eoi       : d.eoiCode = d.clearCode + 1
  widthLow  : d.minCodeSize.toNat + 1 ≤ d.codeSize
  widthHigh : d.codeSize ≤ 12
  lastLow   : d.eoiCode ≤ d.lastAssignedCode
  lastHigh  : d.lastAssignedCode ≤ 4095
  threshold : d.growThreshold = 2 ^ d.codeSize - 1
  /-- Below the threshold, but for a full table at width 12 (R220, R221). -/
  below     : d.lastAssignedCode < d.growThreshold ∨ d.codeSize = 12
  table     : TableLegal d
  prev      : ∀ p, d.prev = some p → dictGet d.dict p ≠ none
  out       : ∀ i ∈ d.out, i < d.clearCode
  subIdx    : d.subIdx ≤ d.subs.length

/-- The encoder's map has the shape of R53 and R262. -/
structure MapLegal (e : LZWEncoder) : Prop where
  /-- The canonical form (log 12): among others, no code and no sequence stands twice. -/
  canonical : encWf e.dict = true
  /-- The singletons (R53). -/
  singleton : ∀ i, encGet e.dict [i] = if i < e.clearCode then some i else none
  /-- The multi-index sequences have the codes `eoiCode+1 .. nextCode-1` (R262). -/
  assigned : ∀ c, (∃ s, 2 ≤ s.length ∧ encGet e.dict s = some c) ↔ e.eoiCode < c ∧ c < e.nextCode

/-- LZE: the legal values of R50 to R55 and the invariants of R262, while no error has been raised. -/
structure EncoderLegal (e : LZWEncoder) : Prop where
  mcs       : mcsInRange e.minCodeSize = true
  clear     : e.clearCode = 2 ^ e.minCodeSize.toNat
  eoi       : e.eoiCode = e.clearCode + 1
  widthLow  : e.minCodeSize.toNat + 1 ≤ e.codeSize
  widthHigh : e.codeSize ≤ 12
  nextLow   : e.eoiCode + 1 ≤ e.nextCode
  nextWidth : e.nextCode ≤ 2 ^ e.codeSize
  nextHigh  : e.nextCode ≤ 4096
  map       : MapLegal e
  buffer    : encGet e.dict e.indexBuffer ≠ none
  inPos     : e.inPos ≤ e.input.length

/-- An image block as the parser builds it (R62, R67 to R69). -/
def ImageLegal (img : ImageBlock) : Prop :=
  blocksWf img.lzw.subBlocks = true ∧ img.lzw.terminator = 0x00#8 ∧
  match img.localColorTable with
  | none   => img.descriptor.localColorTableFlag = false
  | some t => img.descriptor.localColorTableFlag = true ∧
      t.length = tableLength img.descriptor.sizeOfLocalColorTable

/-- Whether a global table is there exactly when the screen's flag says so, with its length (R114, R298). -/
def ScreenLegal (scr : LogicalScreenDescriptor) : Option ColorTable → Prop
  | none   => scr.globalColorTableFlag = false
  | some t => scr.globalColorTableFlag = true ∧ t.length = tableLength scr.sizeOfGlobalColorTable

/-- The parts of a document that every block keeps (R61 to R63, R69, R70). -/
structure DocLegal (d : GIFDocument) : Prop where
  screen      : ScreenLegal d.screen d.globalColorTable
  application : ∀ a, d.application = some a →
    a.identifier.length = 8 ∧ a.authCode.length = 3 ∧ blocksWf a.subBlocks = true ∧
      a.cycleIndex = cycleIndexOf a.subBlocks
  images      : ∀ img ∈ d.images, ImageLegal img
  trailer     : d.trailer = Config.trailer

/-- CP: the document holds what the phases passed have filled in (R58, R290). -/
def ParserLegal (cp : ContainerParser) : Prop :=
  match cp.phase with
  | .header => cp.doc = GIFDocument.empty
  | .lsd    => ∃ h, cp.doc = { GIFDocument.empty with header := h }
  | .gct    => ∃ h scr, cp.doc = { GIFDocument.empty with header := h, screen := scr }
  | .block  => DocLegal cp.doc
  | .done   => DocLegal cp.doc
  | .error  => True

/-- The operations ENCODE_CONTAINER queues (R340). -/
def isWriterOp : Instr → Bool
  | .cwWriteHeader       => true
  | .cwWriteLSD _ _      => true
  | .cwWriteColorTable _ => true
  | .cwWriteGCE _        => true
  | .cwWriteImage _ _    => true
  | .cwWriteTrailer      => true
  | _                    => false

/-- The sequencing state: only the writer's operations are queued, inside ENCODE_CONTAINER, and a command
in progress has not failed (R73, R340, R380). -/
def SequencingLegal (s : State) : Prop :=
  (s.todo ≠ [] → s.hi.cmd = 0x04#8) ∧ s.todo.all isWriterOp = true ∧
  (s.hi.cmd = 0x01#8 → s.cp.phase ≠ .error) ∧
  (s.hi.cmd = 0x02#8 → s.lzd.phase ≠ .error) ∧
  (s.hi.cmd = 0x03#8 → s.lze.phase ≠ .error)

/-- A legal state: every state rule of 10_state.md holds. -/
structure Legal (s : State) : Prop where
  host       : HostLegal s.hi
  cursor     : CursorLegal s.bc
  writerBits : WriterBitsLegal s.bsw
  decoder    : DecoderLegal s.lzd
  encoder    : s.lze.phase ≠ .error → EncoderLegal s.lze
  parser     : ParserLegal s.cp
  sequencing : SequencingLegal s

/-! ## Outcomes -/

/-- The error `e` has been taken in `t` (R380). -/
def ErrorTaken (e : Err) (t : State) : Prop :=
  t.hi.status = statusOf e ∧ t.hi.cmd = 0#8 ∧ t.hi.result = some (.err e) ∧ t.todo = []

/-- The command has returned `v` in `t` (R160). -/
def Returned (v : Value) (t : State) : Prop :=
  t.hi.status = statusOk ∧ t.hi.cmd = 0#8 ∧ t.hi.result = some (.ok v) ∧ t.todo = []

/-- The four commands (R161). -/
def isCommand : Instr → Bool
  | .parseContainer _      => true
  | .decodeFrame _ _       => true
  | .encodeFrame _ _       => true
  | .encodeContainer _ _ _ => true
  | _                      => false

/-! ## Families -/

/-- The unit an operation belongs to. -/
inductive Family where
  | command
  | parser
  | cursor
  | writeBits
  | readBits
  | decoder
  | encoder
  | writer
  deriving DecidableEq, Repr

/-- The family of each row of the opcode table. -/
def familyOf : Instr → Family
  | .parseContainer _ | .decodeFrame _ _ | .encodeFrame _ _ | .encodeContainer _ _ _ | .cmdNone
  | .cmdUnassigned _ => .command
  | .cpHeader | .cpLSD | .cpGCT | .cpIntroExt | .cpIntroImage | .cpIntroTrailer | .cpIntroBad _
  | .cpLabelApp | .cpLabelComment | .cpLabelGce | .cpLabelText | .cpLabelBad _ | .cpImageDesc
  | .cpSubBlock | .cpLzwData | .cpDecodeLSDPacked _ | .cpReadColorTable _ | .cpReadSubBlockRun
  | .cpExpectBlockSize _ | .cpCycleIndexOf _ | .cpDecodeImagePacked _ | .cpReadLocalTable _
  | .cpReadLZWData => .parser
  | .bcConsume | .bcPeekRemaining | .bcTake _ | .bcTakeExact _ | .bcReadLE16 => .cursor
  | .bswWrite _ _ | .bswClose => .writeBits
  | .bsrPushBytes _ | .bsrHasBits _ | .bsrReadBits _ => .readBits
  | .lzwEoi _ | .lzwClear _ | .lzwFirst _ | .lzwHit _ | .lzwNext _ | .lzwBad _ | .lzdInit _ _
  | .lzdUnitReset | .lzdFetchCode | .lzdStep | .lzdAssign _ => .decoder
  | .lzePack _ _ | .lzeEncodeFrame _ _ | .lzeInit _ _ | .lzeUnitReset | .lzeCheckIndex _ | .lzeStep
  | .lzeExtend _ | .lzeMiss _ | .lzeResetUnit | .lzeEmit _ | .lzeFinish => .encoder
  | .cwEncodeContainer _ _ _ | .cwWriteHeader | .cwWriteLSD _ _ | .cwSizeField _
  | .cwWriteColorTable _ | .cwWriteGCE _ | .cwWriteImage _ _ | .cwWriteTrailer => .writer

/-! ## Sequences of operations -/

/-- Run operations one after another, stopping at the first fault or refusal. -/
def execAll : List Instr → State → Host.Outcome State Fault Refusal
  | [],      s => .next s
  | i :: is, s =>
    match exec i s with
    | .next t    => execAll is t
    | .fault f   => .fault f
    | .refused r => .refused r

/-- The operations of the writer for one frame, in the order of R347. -/
def frameOps (ct : ColorTable) (f : FrameIn) : List Instr :=
  (f.gce.toList.map .cwWriteGCE) ++ [.cwWriteImage f ct]

/-- The operations of `encodeContainer` after its check of the global table, in the order of R340. -/
def containerOps (screen : ScreenIn) (gsz : BitVec 3) (ct : ColorTable) (frames : List FrameIn) :
    List Instr :=
  [.cwWriteHeader, .cwWriteLSD screen gsz, .cwWriteColorTable ct] ++ frames.flatMap (frameOps ct)
    ++ [.cwWriteTrailer]

/-- The bits the decoder's next codes are read from: those pending, then those of the sub-blocks not yet
pushed (R82). -/
def codeSupply (s : State) : Bits :=
  s.bsr.bits ++ bytesBits (s.lzd.subs.drop s.lzd.subIdx).flatten

/-- The bytes of IN not read yet. -/
def unread (s : State) : List Byte := s.bc.buf.drop s.bc.pos

/-- The state after `n` more bytes of IN have been read. -/
def advance (s : State) (n : Nat) : State := s.setBC { s.bc with pos := s.bc.pos + n }

/-! ## What the rules make of the LZW units -/

/-- The state after the next `k` sub-blocks have been pushed (R212). -/
def pushed (s : State) (k : Nat) : State :=
  (s.setBSR { bits := s.bsr.bits ++ bytesBits ((s.lzd.subs.drop s.lzd.subIdx).take k).flatten }).setLZD
    { s.lzd with subIdx := s.lzd.subIdx + k }

/-- A fresh code unit of the decoder (R211). -/
def freshDecoder (d : LZWDecoder) : LZWDecoder :=
  { d with
    dict := dictSeed d.clearCode, codeSize := d.minCodeSize.toNat + 1, lastAssignedCode := d.eoiCode,
    growThreshold := 2 ^ (d.minCodeSize.toNat + 1) - 1, prev := none }

/-- The decoder after R220 with the sequence `q`, which is that of prev and one index. -/
def assigned (d : LZWDecoder) (q : List Nat) : LZWDecoder :=
  if d.lastAssignedCode < 4095 then
    { d with
      lastAssignedCode := d.lastAssignedCode + 1
      dict := dictSet d.dict (d.lastAssignedCode + 1) q
      codeSize := if d.lastAssignedCode + 1 = d.growThreshold ∧ d.lastAssignedCode + 1 < 4095 then
        d.codeSize + 1 else d.codeSize
      growThreshold := if d.lastAssignedCode + 1 = d.growThreshold ∧ d.lastAssignedCode + 1 < 4095 then
        2 ^ (d.codeSize + 1) - 1 else d.growThreshold }
  else d

/-- A fresh code unit of the encoder (R252). -/
def freshEncoder (e : LZWEncoder) : LZWEncoder :=
  { e with
    dict := encSeed e.clearCode, nextCode := e.eoiCode + 1, codeSize := e.minCodeSize.toNat + 1 }

/-- The encoder after a MISS that assigned the next code, 4095 or below (R256, R257). -/
def inserted (e : LZWEncoder) (k : Nat) : LZWEncoder :=
  { e with
    dict := encSet e.dict (e.indexBuffer ++ [k]) e.nextCode
    nextCode := e.nextCode + 1
    indexBuffer := [k]
    codeSize := if 2 ^ e.codeSize ≤ e.nextCode then e.codeSize + 1 else e.codeSize }

/-- `t` is `s` with the code written at width `w`: the bits of BSW's stream are those before and then
the bits of the code, bit 0 first, with at most seven of them in the accumulator (R190). -/
def Written (code : Nat) (w : Nat) (s t : State) : Prop :=
  t = s.setBSW t.bsw ∧ t.bsw.acc.length ≤ 7 ∧ s.bsw.out <+: t.bsw.out ∧
  bytesBits t.bsw.out ++ t.bsw.acc =
    bytesBits s.bsw.out ++ s.bsw.acc ++ (List.range w).map fun i => Nat.testBit code i

/-! ## Frames given to the writer -/

/-- The table a frame is written over: its local table, else the global one (R346). -/
def frameTable (f : FrameIn) (ct : ColorTable) : ColorTable := f.localColorTable.getD ct

/-- A frame the writer accepts: a local table of legal length, at least one index, and every index inside
the alphabet of the table's code size (R346, R404.4). -/
def FrameLegal (ct : ColorTable) (f : FrameIn) : Prop :=
  (∀ lt, f.localColorTable = some lt → isTable lt = true) ∧ f.indices ≠ [] ∧
  ∀ n, sizeFieldOf (frameTable f ct).length = some n → ∀ i ∈ f.indices, i < 2 ^ max 2 (n.toNat + 1)

/-- The descriptor a frame is written with: its fields, the flag and size of its local table, reserved
bits 0 (R346). -/
def frameDescriptor (f : FrameIn) : ImageDescriptor where
  left                  := f.descriptor.left
  top                   := f.descriptor.top
  width                 := f.descriptor.width
  height                := f.descriptor.height
  localColorTableFlag   := f.localColorTable.isSome
  interlaceFlag         := f.descriptor.interlaceFlag
  sortFlag              := f.descriptor.sortFlag
  reserved              := 0
  sizeOfLocalColorTable := (f.localColorTable.bind fun t => sizeFieldOf t.length).getD 0

/-! ## The container grammar (30_encoding.md R110) -/

/-- The bytes of the screen descriptor (R112, R113). -/
def screenDescriptorBytes (scr : LogicalScreenDescriptor) : List Byte :=
  toLE16 scr.width ++ toLE16 scr.height ++
    [packLSD { globalColorTableFlag := scr.globalColorTableFlag, colorResolution := scr.colorResolution,
               sortFlag := scr.sortFlag, sizeOfGlobalColorTable := scr.sizeOfGlobalColorTable },
     scr.backgroundColorIndex, scr.pixelAspectRatioRaw]

/-- The nine bytes of an image descriptor (R123, R124). -/
def imageDescriptorBytes (d : ImageDescriptor) : List Byte :=
  toLE16 d.left ++ toLE16 d.top ++ toLE16 d.width ++ toLE16 d.height ++
    [packImage { localColorTableFlag := d.localColorTableFlag, interlaceFlag := d.interlaceFlag,
                 sortFlag := d.sortFlag, reserved := d.reserved,
                 sizeOfLocalColorTable := d.sizeOfLocalColorTable }]

/-- The bytes of an optional colour table. -/
def tableOptBytes : Option ColorTable → List Byte
  | none   => []
  | some t => tableBytes t

/-- An extension as R118 to R122 lay it out. -/
inductive Extension where
  | app (identifier authCode : List Byte) (subs : Blocks)
  | comment (subs : Blocks)
  | gce (g : GraphicControlExtension)
  | text (pt : PlainTextExtension)
  deriving DecidableEq, Repr

/-- Its label byte (R116). -/
def Extension.label : Extension → Byte
  | .app _ _ _ => 0xFF#8
  | .comment _ => 0xFE#8
  | .gce _     => 0xF9#8
  | .text _    => 0x01#8

/-- The operation its label selects (R116). -/
def Extension.op : Extension → Instr
  | .app _ _ _ => .cpLabelApp
  | .comment _ => .cpLabelComment
  | .gce _     => .cpLabelGce
  | .text _    => .cpLabelText

/-- The bytes after its label (R118 to R122). -/
def Extension.body : Extension → List Byte
  | .app identifier authCode subs => 0x0B#8 :: (identifier ++ authCode ++ runBytes subs)
  | .comment subs => runBytes subs
  | .gce g => [0x04#8, packGCE g] ++ toLE16 g.delayTime ++ [g.transparencyIndex, 0x00#8]
  | .text pt =>
    0x0C#8 :: (toLE16 pt.gridLeft ++ toLE16 pt.gridTop ++ toLE16 pt.gridWidth ++ toLE16 pt.gridHeight ++
      [pt.cellWidth, pt.cellHeight, pt.foregroundColorIndex, pt.backgroundColorIndex] ++ runBytes pt.text)

/-- The field lengths of R118 and R117. -/
def Extension.Legal : Extension → Prop
  | .app identifier authCode subs =>
    identifier.length = 8 ∧ authCode.length = 3 ∧ blocksWf subs = true
  | .comment subs => blocksWf subs = true
  | .gce _ => True
  | .text pt => blocksWf pt.text = true

/-- What parsing it does to CP (R301 to R306). -/
def Extension.apply : Extension → ContainerParser → ContainerParser
  | .app identifier authCode subs, cp =>
    { cp with
      doc := { cp.doc with
        application := some ⟨identifier, authCode, subs, cycleIndexOf subs⟩ } }
  | .comment subs, cp => { cp with doc := { cp.doc with comment := some ⟨subs.flatten⟩ } }
  | .gce g, cp => { cp with pendingGCE := some g }
  | .text pt, cp =>
    { cp with doc := { cp.doc with images := cp.doc.images.dropLast ++
      (cp.doc.images.getLast?.map fun img => { img with plainText := some pt }).toList } }

/-- The bytes of an image block after its introducer (R123 to R125). -/
def imageBytes (img : ImageBlock) : List Byte :=
  imageDescriptorBytes img.descriptor ++ tableOptBytes img.localColorTable ++
    img.lzw.minCodeSize :: runBytes img.lzw.subBlocks

/-- What parsing an image block does to CP: it takes the pending GCE and is appended (R308, R311, R313). -/
def imageApply (img : ImageBlock) (cp : ContainerParser) : ContainerParser :=
  { cp with
    pendingGCE := none
    doc := { cp.doc with images := cp.doc.images ++
      [{ img with gce := cp.pendingGCE, plainText := none }] } }

/-- A block of the container (R110). -/
inductive Block where
  | extension (x : Extension)
  | image (img : ImageBlock)
  deriving DecidableEq, Repr

/-- The bytes of a block, with its introducer (R115). -/
def Block.bytes : Block → List Byte
  | .extension x => 0x21#8 :: x.label :: x.body
  | .image img   => 0x2C#8 :: imageBytes img

/-- A block whose fields have their lengths. -/
def Block.Legal : Block → Prop
  | .extension x => x.Legal
  | .image img   => ImageLegal img

/-- What parsing a block does to CP. -/
def Block.apply : Block → ContainerParser → ContainerParser
  | .extension x, cp => x.apply cp
  | .image img,   cp => imageApply img cp

/-- The bytes of a container (R110). -/
def containerBytes (sig : Signature) (scr : LogicalScreenDescriptor) (gct : Option ColorTable)
    (blocks : List Block) : List Byte :=
  signatureBytes sig ++ screenDescriptorBytes scr ++ tableOptBytes gct ++ blocks.flatMap Block.bytes ++
    [0x3B#8]

/-- CP before the first block. -/
def parserAtBlocks (sig : Signature) (scr : LogicalScreenDescriptor) (gct : Option ColorTable) :
    ContainerParser where
  phase      := .block
  doc        := { GIFDocument.empty with
                  header := { signature := sig }, screen := scr, globalColorTable := gct }
  pendingGCE := none

/-- The document of a container: its blocks taken in order, and the trailer (R290, R315). -/
def documentOf (sig : Signature) (scr : LogicalScreenDescriptor) (gct : Option ColorTable)
    (blocks : List Block) : GIFDocument :=
  { (blocks.foldl (fun cp b => b.apply cp) (parserAtBlocks sig scr gct)).doc with trailer := 0x3B#8 }

end Sys2Proof.Machine
end

