-- ==== Sys2Proof/Certificates/Slice0/Obligations.lean ====
section
/-! DEFINITION. The statements for the provers, from the numbered rules of spec/. -/

open Sys2Proof Sys2Proof.Machine

/-- O1. State.reset has HI.STATUS = 0 (DONE = 0, ERR = 0) and HI.CMD = 0. For every state with the same HI and
any values in the unit fields, each of the four commands ends with the same HI (STATUS, CMD and result) as
it does from State.reset. (R401) -/
def Obligations.PowerOnState : Prop :=
  State.reset.hi.status = 0#16 ∧ statusDone State.reset.hi.status = false ∧
  statusErr State.reset.hi.status = false ∧ State.reset.hi.cmd = 0#8 ∧
  ∀ (i : Instr) (s : State), isCommand i = true → s.hi = State.reset.hi →
    ∃ t u, exec i s = .next t ∧ exec i State.reset = .next u ∧ t.hi = u.hi

/-- O2. Every state rule of 10_state.md, R222 and R262 that the predicate Legal collects holds of State.reset.
The unit values are the model's choice (log 5, log 11). (10_state.md, 70_reset_and_hazards.md section 1, log
5, log 11) -/
def Obligations.ResetIsLegal : Prop :=
  Legal State.reset

/-- O3. With nothing queued: an idle block runs the instruction its next request decodes to; inside
PARSE_CONTAINER a step runs the header, screen or table operation by CP.phase, or at a block boundary the
instruction the next byte decodes to, past that byte; inside DECODE_FRAME it runs the instruction the next
codeSize bits decode to, after the fetch; inside ENCODE_FRAME it consumes the next index and runs EXTEND or
MISS, or runs finish after the last index. A queued operation runs first. Inside a command, what a step adds
to exec is the command's end, taken when the sequencing state says so. The step levels are the model's (log
1, log 7). (R73, R290, R213, R254, log 1, log 7) -/
def Obligations.StepRunsDecodedInstruction : Prop :=
  (∀ (s : State) (q : Request) (rest : List Request), s.todo = [] → s.hi.cmd = 0#8 →
    s.hi.inbox = q :: rest →
    step s = exec (decodeRequest q) (s.setHI { s.hi with inbox := rest })) ∧
  (∀ (s : State), s.todo = [] → s.hi.cmd = 0x01#8 →
    (s.cp.phase = .header → step s = execWithin .cpHeader s) ∧
    (s.cp.phase = .lsd → step s = execWithin .cpLSD s) ∧
    (s.cp.phase = .gct → step s = execWithin .cpGCT s) ∧
    ∀ i b rest, s.cp.phase = .block → unread s = b :: rest →
      decodeBytes .block (unread s) = .ok (i, rest) → step s = execWithin i (advance s 1)) ∧
  (∀ (s : State) (i : Instr) (rest : Bits), s.todo = [] → s.hi.cmd = 0x02#8 → s.lzd.phase = .run →
    1 ≤ s.lzd.codeSize → s.lzd.codeSize ≤ 12 →
    decodeBits (codeContext s.lzd) (codeSupply s) = .ok (i, rest) →
    ∃ u c, exec .lzdFetchCode s = .next (u.setRet (.code c)) ∧ u.ret = s.ret ∧ codeSupply u = rest ∧
      step s = execWithin i u) ∧
  (∀ (s : State), s.todo = [] → s.hi.cmd = 0x03#8 → s.lze.phase = .run →
    (∀ k, s.lze.input[s.lze.inPos]? = some k → k < s.lze.clearCode →
      step s = execWithin
        (if encGet s.lze.dict (s.lze.indexBuffer ++ [k]) ≠ none then .lzeExtend k else .lzeMiss k)
        (s.setLZE { s.lze with inPos := s.lze.inPos + 1 })) ∧
    (s.lze.input.length ≤ s.lze.inPos → step s = execWithin .lzeFinish s)) ∧
  (∀ (s : State) (i : Instr) (rest : List Instr), s.todo = i :: rest →
    step s = execWithin i (s.setTodo rest)) ∧
  (∀ (s t : State) (i : Instr), exec i s = .next t → execWithin i s = conclude t) ∧
  (∀ s : State,
    (s.hi.cmd = 0x01#8 → s.cp.phase ≠ .done → conclude s = .next s) ∧
    (s.hi.cmd = 0x02#8 → s.lzd.phase ≠ .done → conclude s = .next s) ∧
    (s.hi.cmd = 0x03#8 → s.lze.phase ≠ .done → conclude s = .next s) ∧
    (s.hi.cmd = 0x04#8 → s.todo ≠ [] → conclude s = .next s) ∧
    (s.hi.cmd = 0x00#8 → conclude s = .next s) ∧
    (s.hi.cmd = 0x01#8 → s.cp.phase = .done → conclude s = .next (commandEnd (.document s.cp.doc) s)) ∧
    (s.hi.cmd = 0x02#8 → s.lzd.phase = .done → conclude s = .next (commandEnd (.indices s.lzd.out) s)) ∧
    (s.hi.cmd = 0x03#8 → s.lze.phase = .done → s.bsw.acc.length ≤ 7 →
      ∃ t, exec .bswClose s = .next t ∧
        conclude s = .next (commandEnd (.bytes (packSubBlocks s.lze.minCodeSize t.bsw.out)) t)) ∧
    (s.hi.cmd = 0x04#8 → s.todo = [] → conclude s = .next (commandEnd (.bytes s.cw.out) s)))

/-- O4. One word of each kind, from R161, R111 to R117, R126 and R128: a command code, an introducer, a label, a
position, and codes of the golden frame's bit stream 001 000 ... read against the decoder's state. (R161,
R115, R116, R117, R126, R128) -/
def Obligations.SampleEncodingsDecode : Prop :=
  (∀ p : Operands, decodeRequest ⟨0x03#8, p⟩ = .encodeFrame p.m p.idx) ∧
  decodeBytes .block [0x2C#8, 0x00#8] = .ok (.cpIntroImage, [0x00#8]) ∧
  decodeBytes .label [0xF9#8, 0x04#8] = .ok (.cpLabelGce, [0x04#8]) ∧
  decodeBytes .subBlock [0x03#8] = .ok (.cpSubBlock, [0x03#8]) ∧
  decodeBits ⟨4, 5, 5, none, 3⟩ [false, false, true, false] = .ok (.lzwClear 4, [false]) ∧
  decodeBits ⟨4, 5, 5, none, 3⟩ [false, false, false, true] = .ok (.lzwFirst 0, [true]) ∧
  decodeBits ⟨4, 5, 7, some 1, 4⟩ [true, true, true, false] = .ok (.lzwHit 7, []) ∧
  decodeBits ⟨4, 5, 5, some 0, 3⟩ [false, true, true] = .ok (.lzwNext 6, []) ∧
  decodeBits ⟨4, 5, 9, some 1, 4⟩ [true, false, true, false] = .ok (.lzwEoi 5, []) ∧
  decodeBits ⟨4, 5, 5, none, 3⟩ [false, true, true] = .ok (.lzwBad 6, [])

/-- O5. For every well-formed instruction with an encoding, and all operands the encoding admits: the request of
a command decodes to it; the selector bytes of a container selector at its position decode to it and leave
the rest; the codeSize bits of an LZW code decode to it in a state that classifies the code so, and leave
the rest. Conversely, the command code, the selector byte and the code's bits are those of the decoded
instruction. (R161, R110, R115, R116, R126, R127, R86) -/
def Obligations.DecodeEncodeAgree : Prop :=
  (∀ (i : Instr) (q : Request), i.wf = true → encodeRequest i = some q → decodeRequest q = i) ∧
  (∀ (i : Instr) (site : Site) (bs rest : List Byte), i.wf = true → encodeBytes i = some (site, bs) →
    decodeBytes site (bs ++ rest) = .ok (i, rest)) ∧
  (∀ (i : Instr) (c : Nat) (k : CodeContext) (rest : Bits), codeOf i = some c → c < 2 ^ k.codeSize →
    decodeCode k c = i → ∃ bits, encodeBits k.codeSize i = some bits ∧
      decodeBits k (bits ++ rest) = .ok (i, rest)) ∧
  (∀ q : Request, (encodeRequest (decodeRequest q)).map (·.code) = some q.code) ∧
  (∀ (b : Byte) (rest : List Byte),
    (∃ i, decodeBytes .block (b :: rest) = .ok (i, rest) ∧ encodeBytes i = some (.block, [b])) ∧
    (∃ i, decodeBytes .label (b :: rest) = .ok (i, rest) ∧ encodeBytes i = some (.label, [b]))) ∧
  (∀ (k : CodeContext) (bits : Bits), k.codeSize ≤ bits.length →
    ∃ i, decodeBits k bits = .ok (i, bits.drop k.codeSize) ∧
      encodeBits k.codeSize i = some (bits.take k.codeSize))

/-- O6. For a decoder state with eoiCode = clearCode + 1 and lastAssignedCode not below eoiCode, the code c
decodes to EOI, CLEAR, FIRST, HIT, NEXT or BAD if and only if the class's condition of R128 holds, with
BAD's condition spelled out as the rule does; so exactly one class applies. (R128) -/
def Obligations.CodeClassesExclusive : Prop :=
  ∀ (k : CodeContext) (c : Nat), k.eoiCode = k.clearCode + 1 → k.eoiCode ≤ k.lastAssignedCode →
    (decodeCode k c = .lzwEoi c ↔ c = k.eoiCode) ∧
    (decodeCode k c = .lzwClear c ↔ c = k.clearCode) ∧
    (decodeCode k c = .lzwFirst c ↔ k.prev = none ∧ c < k.clearCode) ∧
    (decodeCode k c = .lzwHit c ↔
      k.prev ≠ none ∧ (c < k.clearCode ∨ (k.eoiCode < c ∧ c ≤ k.lastAssignedCode))) ∧
    (decodeCode k c = .lzwNext c ↔ k.prev ≠ none ∧ c = k.lastAssignedCode + 1) ∧
    (decodeCode k c = .lzwBad c ↔
      (k.prev = none ∧ k.eoiCode < c) ∨ (k.prev ≠ none ∧ k.lastAssignedCode + 1 < c)) ∧
    decodeCode k c ∈ [Instr.lzwEoi c, .lzwClear c, .lzwFirst c, .lzwHit c, .lzwNext c, .lzwBad c]

/-- O7. STATUS after success is 0x0001. After each of the 15 errors it is the word of the table in
95_test_vectors.md section 0. DONE and ERR are set, the CLASS and REASON fields read back as the codes of
R370 to R373, the reserved bits read 0, and two different errors never give the same word. (R32, R370, R371,
R372, R373, 95_test_vectors.md section 0) -/
def Obligations.StatusWordOfEveryError : Prop :=
  statusOk = 0x0001#16 ∧
  statusOf (.formatError .badSignature) = 0x0113#16 ∧
  statusOf (.formatError .badIntroducer) = 0x0213#16 ∧
  statusOf (.formatError .badLabel) = 0x0313#16 ∧
  statusOf (.formatError .badTerminator) = 0x0413#16 ∧
  statusOf (.formatError .badBlockSize) = 0x0513#16 ∧
  statusOf (.formatError .badMinCodeSize) = 0x0613#16 ∧
  statusOf (.truncatedInput .byteCursorEnd) = 0x0123#16 ∧
  statusOf (.truncatedInput .bitStreamEnd) = 0x0223#16 ∧
  statusOf (.truncatedInput .badCode) = 0x0323#16 ∧
  statusOf (.assertionFailure .badWidth) = 0x0133#16 ∧
  statusOf (.assertionFailure .emptyIndexStream) = 0x0233#16 ∧
  statusOf (.assertionFailure .indexOutOfAlphabet) = 0x0333#16 ∧
  statusOf (.assertionFailure .colorTableSize) = 0x0433#16 ∧
  statusOf (.assertionFailure .missingEntry) = 0x0533#16 ∧
  statusOf (.assertionFailure .badMinCodeSize) = 0x0633#16 ∧
  (∀ e : Err, statusDone (statusOf e) = true ∧ statusErr (statusOf e) = true ∧
    statusClass (statusOf e) = errClass e ∧ statusReason (statusOf e) = errReason e ∧
    statusOf e &&& 0xF0CC#16 = 0#16) ∧
  (∀ e e' : Err, statusOf e = statusOf e' → e = e')

/-- O8. Each of the four commands, issued with HI.CMD = 0, answers a next state in which HI.CMD is 0, STATUS is
the outcome's word and the host has the result. What it does depends on no BC, BSR, BSW, CP or CW value,
STATUS or result from before (R400), and it leaves the LZW unit it does not use as it was. The clauses on
three fields of the model's own are its design choices, no rule of the spec: the operation queue todo is
empty at the end and no input (log 7), the request queue inbox keeps its requests (log 2), and the latch ret
is unchanged (log 6). (R160, R168, R400, R30, log 2, log 6, log 7) -/
def Obligations.CommandLifecycle : Prop :=
  ∀ (i : Instr) (s : State), isCommand i = true → s.hi.cmd = 0#8 →
    (∃ t r, exec i s = .next t ∧ t.todo = [] ∧ t.ret = s.ret ∧
      t.hi = { status := statusOfResult r, cmd := 0#8, result := some r, inbox := s.hi.inbox } ∧
      (∀ img act, i = .decodeFrame img act → t.lze = s.lze) ∧
      (∀ m idx, i = .encodeFrame m idx → t.lzd = s.lzd) ∧
      (∀ screen ct frames, i = .encodeContainer screen ct frames → t.lzd = s.lzd) ∧
      (∀ bytes, i = .parseContainer bytes → t.lzd = s.lzd ∧ t.lze = s.lze)) ∧
    ∀ (bc : ByteCursor) (bsr : BitReader) (bsw : BitWriter) (cp : ContainerParser)
      (cw : ContainerWriter) (status : Half) (result : Option Result) (todo : List Instr),
      exec i { s with
        hi := { s.hi with status := status, result := result }, bc := bc, bsr := bsr, bsw := bsw,
        cp := cp, cw := cw, todo := todo } = exec i s

/-- O9. From any two states with HI.CMD = 0, whatever their units, STATUS and earlier results hold, the same
command with the same operands ends, with the same result and the same STATUS. Hence a repeated call fails
the same way. (R167) -/
def Obligations.CommandsAreDeterministic : Prop :=
  ∀ (i : Instr) (s s' : State), isCommand i = true → s.hi.cmd = 0#8 → s'.hi.cmd = 0#8 →
    ∃ t t', exec i s = .next t ∧ exec i s' = .next t' ∧ t.hi.result = t'.hi.result ∧
      t.hi.status = t'.hi.status ∧ t.hi.result ≠ none

/-- O10. Codes 0x01 to 0x04 decode to the four commands with their operands and 0x00 to no command. Every code
from 0x05 up decodes to the unassigned command, which exec refuses from every state; a step of an idle block
that takes such a request is refused. (R161) -/
def Obligations.CommandCodes : Prop :=
  (∀ p : Operands,
    decodeRequest ⟨0x01#8, p⟩ = .parseContainer p.bytes ∧
    decodeRequest ⟨0x02#8, p⟩ = .decodeFrame p.img p.act ∧
    decodeRequest ⟨0x03#8, p⟩ = .encodeFrame p.m p.idx ∧
    decodeRequest ⟨0x04#8, p⟩ = .encodeContainer p.screen p.ct p.frames ∧
    decodeRequest ⟨0x00#8, p⟩ = .cmdNone) ∧
  (∀ (c : Byte) (p : Operands), 0x05#8 ≤ c → decodeRequest ⟨c, p⟩ = .cmdUnassigned c) ∧
  (∀ (c : Byte) (s : State), exec (.cmdUnassigned c) s = .refused .unassignedCommand) ∧
  (∀ (s : State) (q : Request) (rest : List Request), s.todo = [] → s.hi.cmd = 0#8 →
    s.hi.inbox = q :: rest → 0x05#8 ≤ q.code → step s = .refused .unassignedCommand)

/-- O11. CMD.NONE answers the state it was given, and an idle block with no request waits: both are the model's
choice (log 3). Each of the four commands issued while HI.CMD is not 0 is refused as commandInProgress
(D42). (R402, 92_eei_decisions.md D42, log 3) -/
def Obligations.IdleAndBusy : Prop :=
  (∀ s : State, exec .cmdNone s = .next s) ∧
  (∀ s : State, s.todo = [] → s.hi.cmd = 0#8 → s.hi.inbox = [] → step s = .next s) ∧
  (∀ (i : Instr) (s : State), isCommand i = true → s.hi.cmd ≠ 0#8 →
    exec i s = .refused .commandInProgress)

/-- O12. For every instruction that is no host command: when exec answers a next state, either HI and the queue
are unchanged, or one error has been taken (R380): STATUS is its word, CMD is 0 and the result is Err. An
error of a parser or ByteCursor operation then has CP.phase at ERROR and LZD and LZE as they were; one of a
BSR or decoder operation LZD.phase, with CP and LZE as they were; one of a BSW or encoder operation
LZE.phase, with CP and LZD as they were. A writer operation leaves CP and LZD; its error is ColorTableSize
or EmptyIndexStream with LZE.phase as it was or, after an earlier frame, DONE; or else LZE.phase is ERROR.
Which unit is marked is the model's reading (log 8). That nothing stays queued in todo, the requests in
inbox are kept and ret is unchanged is about fields of the model's own (log 7, log 2, log 6). (R380, R381,
R375, log 2, log 6, log 7, log 8) -/
def Obligations.OperationsReachTheHostOnlyByErrors : Prop :=
  ∀ (i : Instr) (s t : State), isCommand i = false → exec i s = .next t →
    (t.hi = s.hi ∧ t.todo = s.todo) ∨
    ∃ e, ErrorTaken e t ∧ t.hi.inbox = s.hi.inbox ∧ t.ret = s.ret ∧
      match familyOf i with
      | .command              => False
      | .parser | .cursor     => t.cp.phase = .error ∧ t.lzd = s.lzd ∧ t.lze = s.lze
      | .readBits | .decoder  => t.lzd.phase = .error ∧ t.cp = s.cp ∧ t.lze = s.lze
      | .writeBits | .encoder => t.lze.phase = .error ∧ t.cp = s.cp ∧ t.lzd = s.lzd
      | .writer               => t.cp = s.cp ∧ t.lzd = s.lzd ∧
          (t.lze.phase = .error ∨
            (e = .assertionFailure .colorTableSize ∨ e = .assertionFailure .emptyIndexStream) ∧
              (t.lze.phase = s.lze.phase ∨ t.lze.phase = .done))

/-- O13. For every instruction and every next state, including the one an error leaves: a parser or ByteCursor
operation leaves BSR, BSW, LZD, LZE, CW and BC.buf, and BC.pos never decreases; a ByteCursor operation also
leaves the document and the pending GCE; a BSW operation leaves every unit but BSW and, of LZE, all but the
phase; a BSR operation every unit but BSR and, of LZD, all but the phase; a decoder operation every unit but
LZD and BSR; an encoder operation every unit but LZE and BSW; a writer operation leaves BC, BSR, LZD and CP,
and only appends to CW.out. Either HI and the operation queue todo are as they were, or CMD is 0, todo is
empty and ret is as it was. The host's request queue inbox is left by all. Which phase an error marks, and
what a failed operation leaves behind, is the model's reading (log 8, log 9); inbox, todo and ret are fields
of the model's own (log 2, log 7, log 6), and ret may hold what an operation returned. (R35, R80, R92, R95,
R380, log 2, log 6, log 7, log 8, log 9) -/
def Obligations.FamilyFrames : Prop :=
  ∀ (i : Instr) (s t : State), exec i s = .next t → t.hi.inbox = s.hi.inbox ∧
    (t.hi = s.hi ∧ t.todo = s.todo ∨ t.hi.cmd = 0#8 ∧ t.todo = [] ∧ t.ret = s.ret) ∧
    match familyOf i with
    | .command   => True
    | .parser    => t.bsr = s.bsr ∧ t.bsw = s.bsw ∧ t.lzd = s.lzd ∧ t.lze = s.lze ∧ t.cw = s.cw ∧
        t.bc.buf = s.bc.buf ∧ s.bc.pos ≤ t.bc.pos
    | .cursor    => t.bsr = s.bsr ∧ t.bsw = s.bsw ∧ t.lzd = s.lzd ∧ t.lze = s.lze ∧ t.cw = s.cw ∧
        t.bc.buf = s.bc.buf ∧ s.bc.pos ≤ t.bc.pos ∧ t.cp.doc = s.cp.doc ∧
        t.cp.pendingGCE = s.cp.pendingGCE
    | .writeBits => t.bc = s.bc ∧ t.bsr = s.bsr ∧ t.lzd = s.lzd ∧ t.cp = s.cp ∧ t.cw = s.cw ∧
        t.lze = { s.lze with phase := t.lze.phase } ∧ t.ret = s.ret
    | .readBits  => t.bc = s.bc ∧ t.bsw = s.bsw ∧ t.lze = s.lze ∧ t.cp = s.cp ∧ t.cw = s.cw ∧
        t.lzd = { s.lzd with phase := t.lzd.phase }
    | .decoder   => t.bc = s.bc ∧ t.bsw = s.bsw ∧ t.lze = s.lze ∧ t.cp = s.cp ∧ t.cw = s.cw
    | .encoder   => t.bc = s.bc ∧ t.bsr = s.bsr ∧ t.lzd = s.lzd ∧ t.cp = s.cp ∧ t.cw = s.cw
    | .writer    => t.bc = s.bc ∧ t.bsr = s.bsr ∧ t.lzd = s.lzd ∧ t.cp = s.cp ∧ s.cw.out <+: t.cw.out

/-- O14. BC.consume: with a byte left it answers the state with BC.pos one higher and that byte returned,
nothing else changed; with none left it takes TruncatedInput ByteCursorEnd. (R180) -/
def Obligations.ConsumeOneByte : Prop :=
  ∀ s : State,
    (∀ b, s.bc.buf[s.bc.pos]? = some b →
      exec .bcConsume s = .next ((advance s 1).setRet (.byte b))) ∧
    (s.bc.buf.length ≤ s.bc.pos →
      ∃ t, exec .bcConsume s = .next t ∧ ErrorTaken (.truncatedInput .byteCursorEnd) t)

/-- O15. BC.peekRemaining returns whether a byte is left and changes nothing else. BC.take returns up to n bytes
and advances by their number, and does not fail. BC.takeExact returns n bytes and advances by n, or takes
ByteCursorEnd when fewer are left. BC.readLE16 returns lo + hi * 256 and advances by 2, or takes
ByteCursorEnd with fewer than two bytes left. That a failed read has advanced past the bytes there were is
the model's reading (log 9): the spec observes no position after a failure. (R181, R182, R183, R184, log 9) -/
def Obligations.CursorOperations : Prop :=
  ∀ (s : State) (n : Nat),
    exec .bcPeekRemaining s =
      .next (s.setRet (.flag (decide (s.bc.pos < s.bc.buf.length)))) ∧
    exec (.bcTake n) s =
      .next ((advance s (min n (unread s).length)).setRet (.bytes ((unread s).take n))) ∧
    (n ≤ (unread s).length →
      exec (.bcTakeExact n) s = .next ((advance s n).setRet (.bytes ((unread s).take n)))) ∧
    ((unread s).length < n →
      ∃ t, exec (.bcTakeExact n) s = .next t ∧ ErrorTaken (.truncatedInput .byteCursorEnd) t ∧
        t.bc = { s.bc with pos := s.bc.pos + (unread s).length }) ∧
    (∀ lo hi rest, unread s = lo :: hi :: rest → ∃ v : Half, v.toNat = lo.toNat + hi.toNat * 256 ∧
      exec .bcReadLE16 s = .next ((advance s 2).setRet (.half v))) ∧
    ((unread s).length < 2 →
      ∃ t, exec .bcReadLE16 s = .next t ∧ ErrorTaken (.truncatedInput .byteCursorEnd) t ∧
        t.bc = { s.bc with pos := s.bc.pos + (unread s).length })

/-- O16. BSW.write with a width in 1..12 and a code that fits: the bits of BSW.out and BSW.acc are those before
and then the code's w bits, oldest first; at most 7 stay in the accumulator; nothing but BSW changes. With
any other width, or a code that does not fit, AssertionFailure BadWidth is taken. (R190) -/
def Obligations.WriteBits : Prop :=
  ∀ (code w : Nat) (s : State),
    (1 ≤ w → w ≤ 12 → code < 2 ^ w →
      ∃ t, exec (.bswWrite code w) s = .next t ∧ Written code w s t) ∧
    (w < 1 ∨ 12 < w ∨ 2 ^ w ≤ code →
      ∃ t, exec (.bswWrite code w) s = .next t ∧ ErrorTaken (.assertionFailure .badWidth) t)

/-- O17. BSW.close in a state whose accumulator holds at most 7 bits (R37): with none pending the state is
unchanged; otherwise BSW.out gets one byte, the pending bits from bit 0 up and zeros above, and the
accumulator becomes empty. (R191) -/
def Obligations.CloseBits : Prop :=
  ∀ s : State, s.bsw.acc.length ≤ 7 →
    (s.bsw.acc = [] → exec .bswClose s = .next s) ∧
    (s.bsw.acc ≠ [] → ∃ b : Byte,
      (∀ j, j < 8 → b.getLsbD j = (s.bsw.acc[j]?).getD false) ∧
      exec .bswClose s = .next (s.setBSW { acc := [], out := s.bsw.out ++ [b] }))

/-- O18. BSR.pushBytes appends each byte's bits from bit 0 to bit 7. For widths 1 to 12, BSR.hasBits returns
whether that many bits are pending, and BSR.readBits removes the oldest n and returns the number whose bit i
is the i-th of them, or takes BitStreamEnd when fewer are pending and consumes nothing. Any other width
takes BadWidth. (R194, R195, R196) -/
def Obligations.ReadSide : Prop :=
  ∀ s : State,
    (∀ bytes : List Byte, exec (.bsrPushBytes bytes) s = .next (s.setBSR
      { bits := s.bsr.bits ++ bytes.flatMap fun b => (List.range 8).map fun j => b.getLsbD j })) ∧
    (∀ n, 1 ≤ n → n ≤ 12 →
      exec (.bsrHasBits n) s = .next (s.setRet (.flag (decide (n ≤ s.bsr.bits.length)))) ∧
      (n ≤ s.bsr.bits.length → ∃ v, v < 2 ^ n ∧
        (∀ i, i < n → s.bsr.bits[i]? = some (Nat.testBit v i)) ∧
        exec (.bsrReadBits n) s =
          .next ((s.setBSR { bits := s.bsr.bits.drop n }).setRet (.code v))) ∧
      (s.bsr.bits.length < n → ∃ t, exec (.bsrReadBits n) s = .next t ∧
        ErrorTaken (.truncatedInput .bitStreamEnd) t ∧ t.bsr = s.bsr)) ∧
    (∀ n, n < 1 ∨ 12 < n →
      (∃ t, exec (.bsrHasBits n) s = .next t ∧ ErrorTaken (.assertionFailure .badWidth) t) ∧
      (∃ t, exec (.bsrReadBits n) s = .next t ∧ ErrorTaken (.assertionFailure .badWidth) t))

/-- O19. For any sequence of writes of legal widths and fitting codes into an empty BSW, followed by close:
pushing the resulting bytes into an empty BSR and reading the same widths in order returns every code, and
at most 7 bits, all zero, remain. The spec marks R197 as derived from R190, R191, R194 and R196.
(42_bitstream.md R197, R190, R191, R194, R196) -/
def Obligations.WriteReadInverse : Prop :=
  ∀ (ws : List (Nat × Nat)) (s : State),
    (∀ p ∈ ws, 1 ≤ p.2 ∧ p.2 ≤ 12 ∧ p.1 < 2 ^ p.2) → s.bsw = { acc := [], out := [] } →
    s.bsr.bits = [] →
    ∃ t u, execAll (ws.map (fun p => .bswWrite p.1 p.2) ++ [.bswClose]) s = .next t ∧
      exec (.bsrPushBytes t.bsw.out) t = .next u ∧
      (∀ k p, ws[k]? = some p → ∃ x y,
        execAll ((ws.take k).map fun p => .bsrReadBits p.2) u = .next x ∧
        exec (.bsrReadBits p.2) x = .next y ∧ y.ret = .code p.1) ∧
      ∃ z n, execAll (ws.map fun p => .bsrReadBits p.2) u = .next z ∧ n ≤ 7 ∧
        z.bsr.bits = List.replicate n false

/-- O20. LZE.pack returns m, then the data cut into payloads of exactly 254 bytes but for the last of 1 to 254,
each after its length byte, then 0x00. It changes nothing else. (R199) -/
def Obligations.PackSubBlocks : Prop :=
  ∀ (m : Byte) (data : List Byte) (s : State), ∃ chunks : Blocks, chunks.flatten = data ∧
    (∀ b ∈ chunks.dropLast, b.length = 254) ∧ (∀ b ∈ chunks, 1 ≤ b.length ∧ b.length ≤ 254) ∧
    exec (.lzePack m data) s = .next (s.setRet (.bytes
      (m :: (chunks.flatMap fun b => BitVec.ofNat 8 b.length :: b) ++ [0x00#8])))

/-- O21. LZD.init sets the frame's constants, its sub-blocks, an empty output, phase RUN and empty BSR bits, and
resets the unit. LZD.unitReset sets the width minCodeSize + 1, lastAssignedCode eoiCode, the threshold
2^codeSize - 1, prev none, and a table whose code c holds [c] for c below clearCode and nothing for every
other code of 0..4095. Nothing else changes. (R210, R211) -/
def Obligations.DecoderInit : Prop :=
  ∀ s : State,
    (∀ (m : Byte) (subs : Blocks), exec (.lzdInit m subs) s =
      .next ((s.setBSR { bits := [] }).setLZD (freshDecoder
        { s.lzd with
          minCodeSize := m, clearCode := 2 ^ m.toNat, eoiCode := 2 ^ m.toNat + 1, subs := subs,
          subIdx := 0, out := [], phase := .run }))) ∧
    exec .lzdUnitReset s = .next (s.setLZD (freshDecoder s.lzd)) ∧
    (∀ (d : LZWDecoder) (c : Nat), c ≤ 4095 →
      dictGet (freshDecoder d).dict c = if c < d.clearCode then some [c] else none)

/-- O22. LZD.fetchCode with a legal codeSize: when the bits still to come suffice, it pushes the fewest sub-
blocks that give codeSize pending bits, removes codeSize bits and returns the code whose bit i is the i-th
of them, changing only BSR.bits and LZD.subIdx; otherwise it takes TruncatedInput BitStreamEnd. (R212) -/
def Obligations.FetchCode : Prop :=
  ∀ s : State, 1 ≤ s.lzd.codeSize → s.lzd.codeSize ≤ 12 →
    (s.lzd.codeSize ≤ (codeSupply s).length → ∃ k c,
      s.lzd.codeSize ≤ (pushed s k).bsr.bits.length ∧
      (∀ j, j < k → (pushed s j).bsr.bits.length < s.lzd.codeSize) ∧
      c < 2 ^ s.lzd.codeSize ∧
      (∀ i, i < s.lzd.codeSize → (codeSupply s)[i]? = some (Nat.testBit c i)) ∧
      exec .lzdFetchCode s = .next
        (((pushed s k).setBSR { bits := (pushed s k).bsr.bits.drop s.lzd.codeSize }).setRet
          (.code c))) ∧
    ((codeSupply s).length < s.lzd.codeSize →
      ∃ t, exec .lzdFetchCode s = .next t ∧ ErrorTaken (.truncatedInput .bitStreamEnd) t)

/-- O23. LZD.step in a legal decoder state: with the code's bits available it fetches the code and runs the
instruction that the code is for the state; unless that is BAD it completes, changing only BSR and LZD. With
too few bits it takes BitStreamEnd. (R213) -/
def Obligations.DecoderStep : Prop :=
  ∀ s : State, DecoderLegal s.lzd →
    (s.lzd.codeSize ≤ (codeSupply s).length → ∃ c u,
      exec .lzdFetchCode s = .next (u.setRet (.code c)) ∧ u.ret = s.ret ∧
      exec .lzdStep s = exec (decodeCode (codeContext s.lzd) c) u ∧
      (decodeCode (codeContext s.lzd) c ≠ .lzwBad c →
        ∃ t, exec .lzdStep s = .next t ∧ t = (s.setBSR t.bsr).setLZD t.lzd)) ∧
    ((codeSupply s).length < s.lzd.codeSize →
      ∃ t, exec .lzdStep s = .next t ∧ ErrorTaken (.truncatedInput .bitStreamEnd) t)

/-- O24. LZW.EOI sets LZD.phase to DONE and leaves all else. LZW.CLEAR does LZD.unitReset and leaves all else; a
second one changes nothing. LZW.FIRST appends the code's sequence to LZD.out, which in a legal state is [c],
and sets prev to it; it leaves the table, lastAssignedCode and codeSize. (R214, R215, R216) -/
def Obligations.EoiClearFirst : Prop :=
  ∀ (c : Nat) (s : State),
    exec (.lzwEoi c) s = .next (s.setLZD { s.lzd with phase := .done }) ∧
    exec (.lzwClear c) s = .next (s.setLZD (freshDecoder s.lzd)) ∧
    freshDecoder (freshDecoder s.lzd) = freshDecoder s.lzd ∧
    (∀ q, dictGet s.lzd.dict c = some q →
      exec (.lzwFirst c) s = .next (s.setLZD { s.lzd with out := s.lzd.out ++ q, prev := some c })) ∧
    (TableLegal s.lzd → c < s.lzd.clearCode →
      exec (.lzwFirst c) s =
        .next (s.setLZD { s.lzd with out := s.lzd.out ++ [c], prev := some c }))

/-- O25. LZW.HIT for a code whose entry is k :: q, with the previous code's entry p: LZD.out gets k :: q, the
decoder assigns p ++ [k] as R220 does (nothing when the table is full), and prev becomes the code. Nothing
outside LZD changes. (R217) -/
def Obligations.HitOutputsAndAssigns : Prop :=
  ∀ (s : State) (c k r : Nat) (q p : List Nat), dictGet s.lzd.dict c = some (k :: q) →
    s.lzd.prev = some r → dictGet s.lzd.dict r = some p →
    exec (.lzwHit c) s = .next (s.setLZD
      { assigned { s.lzd with out := s.lzd.out ++ k :: q } (p ++ [k]) with prev := some c })

/-- O26. LZW.NEXT with the previous code's entry k :: p: LZD.out gets k :: p ++ [k], which the decoder assigns
as R220 does, and prev becomes the code; for c = lastAssignedCode + 1 below 4096 the table then holds that
sequence at c. Nothing outside LZD changes. (R218) -/
def Obligations.NextIsKwKwK : Prop :=
  ∀ (s : State) (c k r : Nat) (p : List Nat), s.lzd.prev = some r →
    dictGet s.lzd.dict r = some (k :: p) →
    ∃ t, exec (.lzwNext c) s = .next t ∧
      t = s.setLZD
        { assigned { s.lzd with out := s.lzd.out ++ k :: p ++ [k] } (k :: p ++ [k]) with
          prev := some c } ∧
      (c = s.lzd.lastAssignedCode + 1 → c ≤ 4095 → dictGet t.lzd.dict c = some (k :: p ++ [k]))

/-- O27. From every state LZW.BAD takes TruncatedInput BadCode and sets LZD.phase to ERROR; CP.INTRO.BAD takes
FormatError BadIntroducer and CP.LABEL.BAD FormatError BadLabel, and both set CP.phase to ERROR. STATUS is
0x0323, 0x0213 or 0x0313, CMD is 0, the host gets the Err, nothing stays queued, and all other state is
unchanged. (R219, R307, R316) -/
def Obligations.BadSelectorsStop : Prop :=
  ∀ s : State,
    (∀ c : Nat, exec (.lzwBad c) s = .next { s with
      lzd := { s.lzd with phase := .error }
      hi := { s.hi with
        status := 0x0323#16, cmd := 0#8, result := some (.err (.truncatedInput .badCode)) }
      todo := [] }) ∧
    (∀ b : Byte, exec (.cpIntroBad b) s = .next { s with
      cp := { s.cp with phase := .error }
      hi := { s.hi with
        status := 0x0213#16, cmd := 0#8, result := some (.err (.formatError .badIntroducer)) }
      todo := [] }) ∧
    (∀ b : Byte, exec (.cpLabelBad b) s = .next { s with
      cp := { s.cp with phase := .error }
      hi := { s.hi with
        status := 0x0313#16, cmd := 0#8, result := some (.err (.formatError .badLabel)) }
      todo := [] })

/-- O28. LZD.assign with lastAssignedCode below 4095 and the previous code's entry q: lastAssignedCode rises by
one, the table holds q ++ [K] there and every other entry as before, and the width and threshold change
exactly when the new code equals growThreshold and is below 4095. With lastAssignedCode at 4095 or above the
state is unchanged. (R220) -/
def Obligations.AssignEntry : Prop :=
  ∀ (s : State) (k : Nat),
    (∀ (p : Nat) (q : List Nat), s.lzd.lastAssignedCode < 4095 → s.lzd.prev = some p →
      dictGet s.lzd.dict p = some q →
      ∃ t, exec (.lzdAssign k) s = .next t ∧ t = s.setLZD (assigned s.lzd (q ++ [k])) ∧
        t.lzd.lastAssignedCode = s.lzd.lastAssignedCode + 1 ∧
        (∀ c, dictGet t.lzd.dict c =
          if c = s.lzd.lastAssignedCode + 1 then some (q ++ [k]) else dictGet s.lzd.dict c) ∧
        (t.lzd.lastAssignedCode = s.lzd.growThreshold → t.lzd.lastAssignedCode < 4095 →
          t.lzd.codeSize = s.lzd.codeSize + 1 ∧
          t.lzd.growThreshold = 2 ^ (s.lzd.codeSize + 1) - 1) ∧
        (t.lzd.lastAssignedCode ≠ s.lzd.growThreshold ∨ 4095 ≤ t.lzd.lastAssignedCode →
          t.lzd.codeSize = s.lzd.codeSize ∧ t.lzd.growThreshold = s.lzd.growThreshold)) ∧
    (4095 ≤ s.lzd.lastAssignedCode → exec (.lzdAssign k) s = .next s)

/-- O29. For a data code, EOI or assign in a legal decoder state: the new width is the old one, or the old one
plus one, at most 12; it grows exactly when lastAssignedCode has just reached 2^k - 1 for the old width k
below 12. A unit reset and CLEAR return it to minCodeSize + 1. (R221, R408, R409) -/
def Obligations.WidthGrowsByOne : Prop :=
  (∀ (s t : State) (i : Instr) (c : Nat), DecoderLegal s.lzd →
    i = .lzwEoi c ∨ i = .lzwFirst c ∨ i = .lzwHit c ∨ i = .lzwNext c ∨ i = .lzdAssign c →
    exec i s = .next t →
    s.lzd.codeSize ≤ t.lzd.codeSize ∧ t.lzd.codeSize ≤ s.lzd.codeSize + 1 ∧ t.lzd.codeSize ≤ 12 ∧
    (t.lzd.codeSize = s.lzd.codeSize + 1 ↔
      s.lzd.codeSize < 12 ∧ s.lzd.lastAssignedCode < t.lzd.lastAssignedCode ∧
        t.lzd.lastAssignedCode = 2 ^ s.lzd.codeSize - 1)) ∧
  (∀ (s t : State) (c : Nat), exec .lzdUnitReset s = .next t ∨ exec (.lzwClear c) s = .next t →
    t.lzd.codeSize = s.lzd.minCodeSize.toNat + 1)

/-- O30. LZE.init on a non-empty stream whose first index is in the alphabet sets the constants, the input,
phase RUN, an empty BSW, a fresh unit, indexBuffer [idx[0]] and inPos 1; with the first index outside it
takes IndexOutOfAlphabet. LZE.unitReset sets the singleton map, nextCode eoiCode + 1 and width minCodeSize +
1. LZE.checkIndex changes nothing for an index below clearCode and takes IndexOutOfAlphabet for any other.
(R251, R252, R253) -/
def Obligations.EncoderInit : Prop :=
  ∀ (s : State) (k : Nat),
    (∀ (m : Byte) (rest : List Nat),
      (k < 2 ^ m.toNat → exec (.lzeInit m (k :: rest)) s =
        .next ((s.setBSW { acc := [], out := [] }).setLZE
          { freshEncoder { s.lze with
              minCodeSize := m, clearCode := 2 ^ m.toNat, eoiCode := 2 ^ m.toNat + 1,
              input := k :: rest, phase := .run } with
            indexBuffer := [k], inPos := 1 })) ∧
      (2 ^ m.toNat ≤ k → ∃ t, exec (.lzeInit m (k :: rest)) s = .next t ∧
        ErrorTaken (.assertionFailure .indexOutOfAlphabet) t)) ∧
    exec .lzeUnitReset s = .next (s.setLZE (freshEncoder s.lze)) ∧
    (∀ (e : LZWEncoder) (q : List Nat) (c : Nat), encGet (freshEncoder e).dict q = some c ↔
      q = [c] ∧ c < e.clearCode) ∧
    (k < s.lze.clearCode → exec (.lzeCheckIndex k) s = .next s) ∧
    (s.lze.clearCode ≤ k → ∃ t, exec (.lzeCheckIndex k) s = .next t ∧
      ErrorTaken (.assertionFailure .indexOutOfAlphabet) t)

/-- O31. LZE.step with an index K left: it advances inPos; K outside the alphabet takes IndexOutOfAlphabet; else
it does EXTEND(K) when indexBuffer ++ [K] has a code and MISS(K) when it has none. LZE.EXTEND appends K to
indexBuffer and changes nothing else. (R254, R255) -/
def Obligations.EncoderStep : Prop :=
  ∀ (s : State) (k : Nat),
    (s.lze.input[s.lze.inPos]? = some k →
      (s.lze.clearCode ≤ k → ∃ t, exec .lzeStep s = .next t ∧
        ErrorTaken (.assertionFailure .indexOutOfAlphabet) t) ∧
      (k < s.lze.clearCode → encGet s.lze.dict (s.lze.indexBuffer ++ [k]) ≠ none →
        exec .lzeStep s = exec (.lzeExtend k) (s.setLZE { s.lze with inPos := s.lze.inPos + 1 })) ∧
      (k < s.lze.clearCode → encGet s.lze.dict (s.lze.indexBuffer ++ [k]) = none →
        exec .lzeStep s = exec (.lzeMiss k) (s.setLZE { s.lze with inPos := s.lze.inPos + 1 }))) ∧
    exec (.lzeExtend k) s =
      .next (s.setLZE { s.lze with indexBuffer := s.lze.indexBuffer ++ [k] })

/-- O32. LZE.step in a state that meets R262's invariants, with an index of the alphabet left: it answers a next
state that differs in BSW and LZE only, has inPos one higher and meets them again: the bounds on nextCode
and codeSize, indexBuffer a key, and the multi-index sequences one to one with eoiCode+1 .. nextCode-1. In
such a state the codes that can be emitted, indexBuffer's, CLEAR and EOI, are below 2^codeSize, and where
nextCode is 4096 the width is 12. The spec marks R262 as derived from R252 and R256 to R258.
(44_lzw_encoder.md R262, R252, R254, R256, R257, R258) -/
def Obligations.EncoderInvariants : Prop :=
  (∀ (s : State) (k : Nat), EncoderLegal s.lze → s.lze.input[s.lze.inPos]? = some k →
    k < s.lze.clearCode →
    ∃ t, exec .lzeStep s = .next t ∧ t = (s.setBSW t.bsw).setLZE t.lze ∧ EncoderLegal t.lze ∧
      t.lze.inPos = s.lze.inPos + 1) ∧
  (∀ e : LZWEncoder, EncoderLegal e →
    (∀ c, encGet e.dict e.indexBuffer = some c → c < 2 ^ e.codeSize) ∧
    e.clearCode < 2 ^ e.codeSize ∧ e.eoiCode < 2 ^ e.codeSize ∧
    (4095 < e.nextCode → e.codeSize = 12))

/-- O33. LZE.MISS(K) with indexBuffer's code fitting a legal width: it writes that code at the current width.
With nextCode c at most 4095 it maps indexBuffer ++ [K] to c and every other sequence as before, sets
nextCode to c + 1 and indexBuffer to [K], and widens by one exactly when c is at least 2^codeSize. With c
above 4095 it writes CLEAR at the same width, and the unit is fresh with indexBuffer [K]. Only BSW and LZE
change. (R256, R257, R258) -/
def Obligations.MissEmitsAndInserts : Prop :=
  ∀ (s : State) (k code : Nat), encGet s.lze.dict s.lze.indexBuffer = some code →
    code < 2 ^ s.lze.codeSize → 1 ≤ s.lze.codeSize → s.lze.codeSize ≤ 12 →
    (s.lze.nextCode ≤ 4095 → ∃ t, exec (.lzeMiss k) s = .next t ∧
      Written code s.lze.codeSize s (s.setBSW t.bsw) ∧
      t = (s.setBSW t.bsw).setLZE (inserted s.lze k) ∧
      (∀ q, encGet t.lze.dict q =
        if q = s.lze.indexBuffer ++ [k] then some s.lze.nextCode else encGet s.lze.dict q) ∧
      t.lze.codeSize =
        if 2 ^ s.lze.codeSize ≤ s.lze.nextCode then s.lze.codeSize + 1 else s.lze.codeSize) ∧
    (4095 < s.lze.nextCode → s.lze.clearCode < 2 ^ s.lze.codeSize →
      ∃ (b : BitWriter) (t : State), Written code s.lze.codeSize s (s.setBSW b) ∧
        exec (.lzeMiss k) s = .next t ∧
        Written s.lze.clearCode s.lze.codeSize (s.setBSW b) (s.setBSW t.bsw) ∧
        t = (s.setBSW t.bsw).setLZE { freshEncoder s.lze with indexBuffer := [k] }) ∧
    (s.lze.clearCode < 2 ^ s.lze.codeSize → ∃ t, exec .lzeResetUnit s = .next t ∧
      Written s.lze.clearCode s.lze.codeSize s (s.setBSW t.bsw) ∧
      t = (s.setBSW t.bsw).setLZE (freshEncoder s.lze))

/-- O34. LZE.emit of a code is BSW.write of it at LZE.codeSize, and for a legal width and a code that fits it
completes and appends the code's bits; LZE.emit of none takes AssertionFailure MissingEntry. (R259) -/
def Obligations.EmitCode : Prop :=
  ∀ s : State,
    (∀ code : Nat, exec (.lzeEmit (some code)) s = exec (.bswWrite code s.lze.codeSize) s ∧
      (1 ≤ s.lze.codeSize → s.lze.codeSize ≤ 12 → code < 2 ^ s.lze.codeSize →
        ∃ t, exec (.lzeEmit (some code)) s = .next t ∧ Written code s.lze.codeSize s t)) ∧
    ∃ t, exec (.lzeEmit none) s = .next t ∧ ErrorTaken (.assertionFailure .missingEntry) t

/-- O35. LZE.finish with indexBuffer's code and EOI fitting a legal width: it writes the code at codeSize; the
width rises by one exactly when nextCode is above eoiCode + 1, equals 2^codeSize and codeSize is below 12;
it writes EOI at that width and LZE.phase becomes DONE. Only BSW, LZE.codeSize and LZE.phase change. (R260) -/
def Obligations.FinishWritesEoi : Prop :=
  ∀ (s : State) (code w : Nat), encGet s.lze.dict s.lze.indexBuffer = some code →
    code < 2 ^ s.lze.codeSize → s.lze.eoiCode < 2 ^ s.lze.codeSize → 1 ≤ s.lze.codeSize →
    s.lze.codeSize ≤ 12 →
    (w = if s.lze.eoiCode + 1 < s.lze.nextCode ∧ s.lze.nextCode = 2 ^ s.lze.codeSize ∧
        s.lze.codeSize < 12 then s.lze.codeSize + 1 else s.lze.codeSize) →
    ∃ (b : BitWriter) (t : State), Written code s.lze.codeSize s (s.setBSW b) ∧
      exec .lzeFinish s = .next t ∧ Written s.lze.eoiCode w (s.setBSW b) (s.setBSW t.bsw) ∧
      t = (s.setBSW t.bsw).setLZE { s.lze with codeSize := w, phase := .done }

/-- O36. LZE.encodeFrame for m in 2..8 and a non-empty stream over the alphabet answers the state that init,
emit(clearCode), |idx| - 1 steps, finish and close lead to, returning the packed bytes; all input is
consumed, LZE.phase is DONE, the accumulator is empty, and only BSW and LZE have changed. With an index
outside the alphabet it takes IndexOutOfAlphabet. (R250) -/
def Obligations.EncodeFrameIsItsSteps : Prop :=
  ∀ (m : Byte) (idx : List Nat) (s : State), 2 ≤ m.toNat → m.toNat ≤ 8 → idx ≠ [] →
    ((∀ k ∈ idx, k < 2 ^ m.toNat) → ∃ u,
      execAll ([.lzeInit m idx, .lzeEmit (some (2 ^ m.toNat))] ++
        List.replicate (idx.length - 1) .lzeStep ++ [.lzeFinish, .bswClose]) s = .next u ∧
      u = (s.setBSW u.bsw).setLZE u.lze ∧ u.lze.inPos = idx.length ∧ u.lze.phase = .done ∧
      u.bsw.acc = [] ∧
      exec (.lzeEncodeFrame m idx) s = .next (u.setRet (.bytes (packSubBlocks m u.bsw.out)))) ∧
    ((∃ k ∈ idx, 2 ^ m.toNat ≤ k) → ∃ t, exec (.lzeEncodeFrame m idx) s = .next t ∧
      ErrorTaken (.assertionFailure .indexOutOfAlphabet) t)

/-- O37. CP.HEADER on a GIF87a or GIF89a signature, CP.LSD on seven bytes laid out as R112 says, and CP.GCT by
the screen's flag with a table of 2 << N entries, advance BC.pos by the layout's length, fill their field of
CP.doc, set the next phase and change nothing else. Six bytes that are no signature take BadSignature; too
few bytes take ByteCursorEnd. CP.GCT with the flag 0 consumes nothing. (R291, R292, R298) -/
def Obligations.ParserPrologue : Prop :=
  ∀ (s : State) (rest : List Byte),
    (∀ g : Signature, unread s = signatureBytes g ++ rest → exec .cpHeader s =
      .next ((advance s 6).setCP { s.cp with
        phase := .lsd, doc := { s.cp.doc with header := { signature := g } } })) ∧
    (6 ≤ (unread s).length → (∀ g : Signature, (unread s).take 6 ≠ signatureBytes g) →
      ∃ t, exec .cpHeader s = .next t ∧ ErrorTaken (.formatError .badSignature) t) ∧
    ((unread s).length < 6 →
      ∃ t, exec .cpHeader s = .next t ∧ ErrorTaken (.truncatedInput .byteCursorEnd) t) ∧
    (∀ scr : LogicalScreenDescriptor, unread s = screenDescriptorBytes scr ++ rest →
      exec .cpLSD s = .next ((advance s 7).setCP { s.cp with
        phase := .gct, doc := { s.cp.doc with screen := scr } })) ∧
    (7 ≤ (unread s).length → ∃ scr rest, unread s = screenDescriptorBytes scr ++ rest) ∧
    ((unread s).length < 7 →
      ∃ t, exec .cpLSD s = .next t ∧ ErrorTaken (.truncatedInput .byteCursorEnd) t) ∧
    (s.cp.doc.screen.globalColorTableFlag = false →
      exec .cpGCT s = .next (s.setCP { s.cp with phase := .block })) ∧
    (s.cp.doc.screen.globalColorTableFlag = true →
      (∀ tab : ColorTable, tab.length = 2 <<< s.cp.doc.screen.sizeOfGlobalColorTable.toNat →
        unread s = tableBytes tab ++ rest → exec .cpGCT s =
          .next ((advance s (3 * tab.length)).setCP { s.cp with
            phase := .block, doc := { s.cp.doc with globalColorTable := some tab } })) ∧
      ((unread s).length < 3 * 2 <<< s.cp.doc.screen.sizeOfGlobalColorTable.toNat →
        ∃ t, exec .cpGCT s = .next t ∧ ErrorTaken (.truncatedInput .byteCursorEnd) t))

/-- O38. CP.decodeLSDPacked and CP.decodeImagePacked return the fields p[7], p[6:4], p[3], p[2:0] and p[7],
p[6], p[5], p[4:3], p[2:0] of any byte. CP.cycleIndexOf returns LE16 of bytes 1 and 2 of the first sub-block
when it has at least 3 bytes, and none otherwise. They change nothing else. (R293, R309, R303) -/
def Obligations.PackedFieldsAndLoopCount : Prop :=
  ∀ s : State,
    (∀ p : Byte,
      exec (.cpDecodeLSDPacked p) s = .next (s.setRet (.lsdPacked
        { globalColorTableFlag := p.getLsbD 7, colorResolution := p.extractLsb' 4 3,
          sortFlag := p.getLsbD 3, sizeOfGlobalColorTable := p.extractLsb' 0 3 })) ∧
      exec (.cpDecodeImagePacked p) s = .next (s.setRet (.imagePacked
        { localColorTableFlag := p.getLsbD 7, interlaceFlag := p.getLsbD 6,
          sortFlag := p.getLsbD 5, reserved := p.extractLsb' 3 2,
          sizeOfLocalColorTable := p.extractLsb' 0 3 }))) ∧
    (∀ (x lo hi : Byte) (more : List Byte) (subs : Blocks), ∃ v : Half,
      v.toNat = lo.toNat + hi.toNat * 256 ∧
      exec (.cpCycleIndexOf ((x :: lo :: hi :: more) :: subs)) s =
        .next (s.setRet (.cycle (some v)))) ∧
    exec (.cpCycleIndexOf []) s = .next (s.setRet (.cycle none)) ∧
    (∀ (b : List Byte) (subs : Blocks), b.length < 3 →
      exec (.cpCycleIndexOf (b :: subs)) s = .next (s.setRet (.cycle none)))

/-- O39. CP.readColorTable on 3 * (2 << n) bytes returns the table whose entries they are and advances by them;
CP.readLocalTable does so for the descriptor's size when its flag is 1, and returns none and reads nothing
when it is 0. With too few bytes either takes ByteCursorEnd. Nothing else changes. (R294, R310) -/
def Obligations.ColorTables : Prop :=
  ∀ (s : State) (d : ImageDescriptor),
    (∀ (n : BitVec 3) (tab : ColorTable) (rest : List Byte), tab.length = 2 <<< n.toNat →
      unread s = (tab.flatMap fun e => [e.r, e.g, e.b]) ++ rest →
      exec (.cpReadColorTable n) s = .next ((advance s (3 * tab.length)).setRet (.table tab)) ∧
      (d.localColorTableFlag = true → d.sizeOfLocalColorTable = n →
        exec (.cpReadLocalTable d) s =
          .next ((advance s (3 * tab.length)).setRet (.localTable (some tab))))) ∧
    (∀ n : BitVec 3, (unread s).length < 3 * 2 <<< n.toNat →
      (∃ t, exec (.cpReadColorTable n) s = .next t ∧ ErrorTaken (.truncatedInput .byteCursorEnd) t) ∧
      (d.localColorTableFlag = true → d.sizeOfLocalColorTable = n →
        ∃ t, exec (.cpReadLocalTable d) s = .next t ∧ ErrorTaken (.truncatedInput .byteCursorEnd) t)) ∧
    (∀ n : BitVec 3, 3 * 2 <<< n.toNat ≤ (unread s).length → ∃ (tab : ColorTable) (rest : List Byte),
      tab.length = 2 <<< n.toNat ∧ unread s = (tab.flatMap fun e => [e.r, e.g, e.b]) ++ rest) ∧
    (d.localColorTableFlag = false →
      exec (.cpReadLocalTable d) s = .next (s.setRet (.localTable none)))

/-- O40. CP.SUBBLOCK returns none at a 0x00 length byte, and otherwise the payload of the length it names.
CP.readSubBlockRun returns the payloads of a run and advances past its terminator; where the unread bytes
hold no whole run it takes ByteCursorEnd. CP.readLZWData and CP.LZWDATA read the minimum code size,
unchecked, and a run, with the same error. Nothing else changes. CP.SUBBLOCK and CP.LZWDATA as operations
are the model's reading of their rows (log 18). (R295, R312, log 18) -/
def Obligations.SubBlockRuns : Prop :=
  ∀ s : State,
    (∀ rest, unread s = 0x00#8 :: rest →
      exec .cpSubBlock s = .next ((advance s 1).setRet (.subBlock none))) ∧
    (∀ (b rest : List Byte), 1 ≤ b.length → b.length ≤ 255 →
      unread s = BitVec.ofNat 8 b.length :: (b ++ rest) →
      exec .cpSubBlock s = .next ((advance s (b.length + 1)).setRet (.subBlock (some b)))) ∧
    (∀ (blocks : Blocks) (rest : List Byte), (∀ b ∈ blocks, 1 ≤ b.length ∧ b.length ≤ 255) →
      unread s = (blocks.flatMap fun b => BitVec.ofNat 8 b.length :: b) ++ 0x00#8 :: rest →
      exec .cpReadSubBlockRun s =
        .next ((advance s (runBytes blocks).length).setRet (.blocks blocks))) ∧
    (∀ (m : Byte) (blocks : Blocks) (rest : List Byte),
      (∀ b ∈ blocks, 1 ≤ b.length ∧ b.length ≤ 255) →
      unread s = m :: ((blocks.flatMap fun b => BitVec.ofNat 8 b.length :: b) ++ 0x00#8 :: rest) →
      ∀ i ∈ [Instr.cpReadLZWData, .cpLzwData],
        exec i s = .next ((advance s (1 + (runBytes blocks).length)).setRet
          (.lzw { minCodeSize := m, subBlocks := blocks, terminator := 0x00#8 }))) ∧
    ((∀ (blocks : Blocks) (rest : List Byte), (∀ b ∈ blocks, 1 ≤ b.length ∧ b.length ≤ 255) →
        unread s ≠ (blocks.flatMap fun b => BitVec.ofNat 8 b.length :: b) ++ 0x00#8 :: rest) →
      ∃ t, exec .cpReadSubBlockRun s = .next t ∧ ErrorTaken (.truncatedInput .byteCursorEnd) t) ∧
    ((∀ (m : Byte) (blocks : Blocks) (rest : List Byte),
        (∀ b ∈ blocks, 1 ≤ b.length ∧ b.length ≤ 255) →
        unread s ≠ m :: ((blocks.flatMap fun b => BitVec.ofNat 8 b.length :: b) ++ 0x00#8 :: rest)) →
      ∀ i ∈ [Instr.cpReadLZWData, .cpLzwData],
        ∃ t, exec i s = .next t ∧ ErrorTaken (.truncatedInput .byteCursorEnd) t)

/-- O41. Six bytes that are no signature take BadSignature; an introducer other than 0x21, 0x2C and 0x3B decodes
to the operation that takes BadIntroducer; a label other than 0xFF, 0xFE, 0xF9 and 0x01 takes BadLabel; a
non-zero GCE terminator takes BadTerminator; a block-size byte other than 0x0B, 0x04 or 0x0C takes
BadBlockSize in its extension; a BAD code takes BadCode. CP.expectBlockSize consumes one byte, and takes
BadBlockSize when it differs and ByteCursorEnd when there is none. (R132, R296) -/
def Obligations.IllegalEncodings : Prop :=
  ∀ (s : State) (rest : List Byte),
    (6 ≤ (unread s).length → (∀ g : Signature, (unread s).take 6 ≠ signatureBytes g) →
      ∃ t, exec .cpHeader s = .next t ∧ ErrorTaken (.formatError .badSignature) t) ∧
    (∀ b : Byte, b ≠ 0x21#8 → b ≠ 0x2C#8 → b ≠ 0x3B#8 →
      ∃ t, exec (decodeIntro b) s = .next t ∧ ErrorTaken (.formatError .badIntroducer) t) ∧
    (∀ l : Byte, l ≠ 0xFF#8 → l ≠ 0xFE#8 → l ≠ 0xF9#8 → l ≠ 0x01#8 → unread s = l :: rest →
      ∃ t, exec .cpIntroExt s = .next t ∧ ErrorTaken (.formatError .badLabel) t) ∧
    (∀ p d e ti x : Byte, x ≠ 0x00#8 → unread s = [0x04#8, p, d, e, ti, x] ++ rest →
      ∃ t, exec .cpLabelGce s = .next t ∧ ErrorTaken (.formatError .badTerminator) t) ∧
    (∀ b : Byte, unread s = b :: rest →
      (b ≠ 0x0B#8 → ∃ t, exec .cpLabelApp s = .next t ∧ ErrorTaken (.formatError .badBlockSize) t) ∧
      (b ≠ 0x04#8 → ∃ t, exec .cpLabelGce s = .next t ∧ ErrorTaken (.formatError .badBlockSize) t) ∧
      (b ≠ 0x0C#8 →
        ∃ t, exec .cpLabelText s = .next t ∧ ErrorTaken (.formatError .badBlockSize) t)) ∧
    (∀ c : Nat, ∃ t, exec (.lzwBad c) s = .next t ∧ ErrorTaken (.truncatedInput .badCode) t) ∧
    (∀ v : Byte, (unread s = v :: rest → exec (.cpExpectBlockSize v) s = .next (advance s 1)) ∧
      (∀ b : Byte, b ≠ v → unread s = b :: rest →
        ∃ t, exec (.cpExpectBlockSize v) s = .next t ∧ ErrorTaken (.formatError .badBlockSize) t) ∧
      (unread s = [] →
        ∃ t, exec (.cpExpectBlockSize v) s = .next t ∧ ErrorTaken (.truncatedInput .byteCursorEnd) t))

/-- O42. CP.IMAGE.DESC reads the nine bytes of R123 (as an operation it is the model's reading of its row, log
18). CP.INTRO.IMAGE on the bytes of an image block (descriptor, local table by its flag, minimum code size,
sub-block run) advances past them, appends the image with the pending GCE and plainText none, and clears the
pending slot; where the unread bytes hold no whole image block it takes ByteCursorEnd. CP.INTRO.TRAILER sets
the document's trailer to 0x3B, drops a pending GCE and sets the phase to DONE. (R308, R313, R315, log 18) -/
def Obligations.ImageBlocks : Prop :=
  ∀ (s : State) (rest : List Byte),
    (∀ d : ImageDescriptor, unread s = imageDescriptorBytes d ++ rest →
      exec .cpImageDesc s = .next ((advance s 9).setRet (.descriptor d))) ∧
    ((unread s).length < 9 →
      ∃ t, exec .cpImageDesc s = .next t ∧ ErrorTaken (.truncatedInput .byteCursorEnd) t) ∧
    (∀ img : ImageBlock, ImageLegal img → unread s = imageBytes img ++ rest →
      exec .cpIntroImage s = .next ((advance s (imageBytes img).length).setCP { s.cp with
        pendingGCE := none
        doc := { s.cp.doc with images := s.cp.doc.images ++
          [{ img with gce := s.cp.pendingGCE, plainText := none }] } })) ∧
    ((∀ (img : ImageBlock) (rest : List Byte), ImageLegal img →
        unread s ≠ imageBytes img ++ rest) →
      ∃ t, exec .cpIntroImage s = .next t ∧ ErrorTaken (.truncatedInput .byteCursorEnd) t) ∧
    exec .cpIntroTrailer s = .next (s.setCP
      { phase := .done, pendingGCE := none, doc := { s.cp.doc with trailer := 0x3B#8 } })

/-- O43. CP.LABEL.APP, CP.LABEL.COMMENT, CP.LABEL.GCE and CP.LABEL.TEXT on the bytes of R118 to R122 after the
label advance past them and, respectively: replace the document's application extension with its loop count;
replace its comment by the run's bytes joined; replace the pending GCE; set the last image's plainText, if
there is an image. CP.INTRO.EXT reads the label first and does the same. Nothing else changes. (R300, R301,
R302, R304, R305, R306) -/
def Obligations.ExtensionsAreParsed : Prop :=
  (∀ (s : State) (x : Extension) (rest : List Byte), x.Legal →
    (unread s = x.body ++ rest →
      exec x.op s = .next ((advance s x.body.length).setCP (x.apply s.cp))) ∧
    (unread s = x.label :: (x.body ++ rest) →
      exec .cpIntroExt s = .next ((advance s (1 + x.body.length)).setCP (x.apply s.cp)))) ∧
  (∀ (s : State) (l : Byte) (rest : List Byte), l ≠ 0xFF#8 → l ≠ 0xFE#8 → l ≠ 0xF9#8 → l ≠ 0x01#8 →
    unread s = l :: rest → exec .cpIntroExt s = exec (.cpLabelBad l) (advance s 1)) ∧
  (∀ (s : State) (p d e ti x : Byte) (rest : List Byte), x ≠ 0x00#8 →
    unread s = [0x04#8, p, d, e, ti, x] ++ rest →
    ∃ t, exec .cpLabelGce s = .next t ∧ ErrorTaken (.formatError .badTerminator) t) ∧
  (∀ (s : State) (b : Byte) (rest : List Byte), unread s = b :: rest →
    (b ≠ 0x0B#8 → ∃ t, exec .cpLabelApp s = .next t ∧ ErrorTaken (.formatError .badBlockSize) t) ∧
    (b ≠ 0x04#8 → ∃ t, exec .cpLabelGce s = .next t ∧ ErrorTaken (.formatError .badBlockSize) t) ∧
    (b ≠ 0x0C#8 →
      ∃ t, exec .cpLabelText s = .next t ∧ ErrorTaken (.formatError .badBlockSize) t)) ∧
  (∀ (s : State) (x : Extension), x.Legal →
    (unread s <+: x.body → unread s ≠ x.body →
      ∃ t, exec x.op s = .next t ∧ ErrorTaken (.truncatedInput .byteCursorEnd) t) ∧
    (unread s <+: x.label :: x.body → unread s ≠ x.label :: x.body →
      ∃ t, exec .cpIntroExt s = .next t ∧ ErrorTaken (.truncatedInput .byteCursorEnd) t))

/-- O44. CW.writeHeader appends GIF89a; CW.writeLSD the seven bytes of R112 with the table flag 1 and the given
size field; CW.writeColorTable each entry as r, g, b; CW.writeGCE the eight bytes of R120; CW.writeTrailer
0x3B. CW.encodeContainer, with a global table of 2 << n entries and legal frames, runs CW.writeTrailer last
and nowhere before (R348). CW.sizeField returns the n with 2 << n entries, and takes ColorTableSize for a
table of any other length. A piece changes nothing else. (R341, R342, R343, R344, R345, R348) -/
def Obligations.WriterPieces : Prop :=
  ∀ s : State,
    exec .cwWriteHeader s = .next (s.setCW
      { out := s.cw.out ++ [0x47#8, 0x49#8, 0x46#8, 0x38#8, 0x39#8, 0x61#8] }) ∧
    (∀ (screen : ScreenIn) (gsz : BitVec 3), exec (.cwWriteLSD screen gsz) s = .next (s.setCW
      { out := s.cw.out ++ screenDescriptorBytes
          { width := screen.width, height := screen.height, globalColorTableFlag := true,
            colorResolution := screen.colorResolution, sortFlag := screen.sortFlag,
            sizeOfGlobalColorTable := gsz, backgroundColorIndex := screen.backgroundColorIndex,
            pixelAspectRatioRaw := screen.pixelAspectRatioRaw } })) ∧
    (∀ t : ColorTable, exec (.cwWriteColorTable t) s = .next (s.setCW
      { out := s.cw.out ++ t.flatMap fun e => [e.r, e.g, e.b] })) ∧
    (∀ g : GraphicControlExtension, exec (.cwWriteGCE g) s = .next (s.setCW
      { out := s.cw.out ++ 0x21#8 :: 0xF9#8 :: (Extension.gce g).body })) ∧
    exec .cwWriteTrailer s = .next (s.setCW { out := s.cw.out ++ [0x3B#8] }) ∧
    (∀ (screen : ScreenIn) (n : BitVec 3) (ct : ColorTable) (frames : List FrameIn),
      ct.length = 2 <<< n.toNat → (∀ f ∈ frames, FrameLegal ct f) →
      .cwWriteTrailer ∉ (containerOps screen n ct frames).dropLast ∧
      ∃ u, execAll (containerOps screen n ct frames).dropLast s = .next u ∧
        exec (.cwEncodeContainer screen ct frames) s = exec .cwWriteTrailer u) ∧
    (∀ (t : ColorTable) (n : BitVec 3), t.length = 2 <<< n.toNat →
      exec (.cwSizeField t) s = .next (s.setRet (.size n))) ∧
    (∀ t : ColorTable, (∀ n : BitVec 3, t.length ≠ 2 <<< n.toNat) →
      ∃ u, exec (.cwSizeField t) s = .next u ∧ ErrorTaken (.assertionFailure .colorTableSize) u)

/-- O45. The screen descriptor's, the graphic control extension's and the image descriptor's packed bytes, as
numbers, are the sums of their fields shifted to their places. The bit places are general knowledge of the
format (log 16). (R113, R121, R124, R342, R345, R346, 93_implementation_defined.md G1, G2, G3) -/
def Obligations.PackedByteBits : Prop :=
  (∀ f : LSDPacked, (packLSD f).toNat = f.globalColorTableFlag.toNat * 128 +
    f.colorResolution.toNat * 16 + f.sortFlag.toNat * 8 + f.sizeOfGlobalColorTable.toNat) ∧
  (∀ g : GraphicControlExtension, (packGCE g).toNat = g.reserved.toNat * 32 +
    g.disposalMethod.toNat * 4 + g.userInputFlag.toNat * 2 + g.transparencyFlag.toNat) ∧
  (∀ f : ImagePacked, (packImage f).toNat = f.localColorTableFlag.toNat * 128 +
    f.interlaceFlag.toNat * 64 + f.sortFlag.toNat * 32 + f.reserved.toNat * 8 +
    f.sizeOfLocalColorTable.toNat)

/-- O46. CW.writeImage for a legal frame over a table of size field n: it runs the encoder at max(2, n + 1) on
the frame's indices and appends 0x2C, the descriptor with the local table's flag and size and reserved bits
0, the local table if any, and the encoder's bytes. Only CW.out and the encoder's state change. A local
table, or without one a global table, of a bad length takes ColorTableSize; an empty stream
EmptyIndexStream; an index outside the alphabet IndexOutOfAlphabet. (R346) -/
def Obligations.WriteImage : Prop :=
  ∀ (s : State) (f : FrameIn) (ct : ColorTable),
    (∀ n : BitVec 3, FrameLegal ct f → (frameTable f ct).length = 2 <<< n.toNat →
      ∃ (u : State) (data : List Byte),
        exec (.lzeEncodeFrame (BitVec.ofNat 8 (max 2 (n.toNat + 1))) f.indices) s =
          .next (u.setRet (.bytes data)) ∧
        u = (s.setBSW u.bsw).setLZE u.lze ∧
        exec (.cwWriteImage f ct) s = .next (u.setCW
          { out := s.cw.out ++ 0x2C#8 :: (imageDescriptorBytes (frameDescriptor f) ++
              tableOptBytes f.localColorTable ++ data) })) ∧
    ((∀ n : BitVec 3, (frameTable f ct).length ≠ 2 <<< n.toNat) →
      ∃ t, exec (.cwWriteImage f ct) s = .next t ∧
        ErrorTaken (.assertionFailure .colorTableSize) t) ∧
    (∀ n : BitVec 3, (frameTable f ct).length = 2 <<< n.toNat →
      (f.indices = [] → ∃ t, exec (.cwWriteImage f ct) s = .next t ∧
        ErrorTaken (.assertionFailure .emptyIndexStream) t) ∧
      ((∃ i ∈ f.indices, 2 ^ max 2 (n.toNat + 1) ≤ i) → ∃ t, exec (.cwWriteImage f ct) s = .next t ∧
        ErrorTaken (.assertionFailure .indexOutOfAlphabet) t))

/-- O47. CW.encodeContainer with a global table of 2 << n entries and legal frames is the header, the screen
descriptor with size n, the table, for each frame its GCE if any and then its image, and the trailer, run
one after another; it completes, changing CW and the encoder's state only. With a bad global table it takes
ColorTableSize and writes no byte; and where the frames before some frame are legal and that frame's image
takes an error after them, the whole takes that error: the host receives it, and no bytes. (R340) -/
def Obligations.EncodeContainerOrder : Prop :=
  ∀ (s : State) (screen : ScreenIn) (ct : ColorTable) (frames : List FrameIn),
    (∀ n : BitVec 3, ct.length = 2 <<< n.toNat → (∀ f ∈ frames, FrameLegal ct f) →
      ∃ t, execAll (containerOps screen n ct frames) s = .next t ∧
        exec (.cwEncodeContainer screen ct frames) s = .next t ∧
        t = ((s.setBSW t.bsw).setLZE t.lze).setCW t.cw) ∧
    ((∀ n : BitVec 3, ct.length ≠ 2 <<< n.toNat) →
      ∃ t, exec (.cwEncodeContainer screen ct frames) s = .next t ∧ t.cw = s.cw ∧
        ErrorTaken (.assertionFailure .colorTableSize) t) ∧
    (∀ (n : BitVec 3) (pre post : List FrameIn) (f : FrameIn) (u v : State) (e : Err),
      ct.length = 2 <<< n.toNat → frames = pre ++ f :: post → (∀ g ∈ pre, FrameLegal ct g) →
      execAll ((containerOps screen n ct pre).dropLast ++ f.gce.toList.map .cwWriteGCE) s = .next u →
      exec (.cwWriteImage f ct) u = .next v → ErrorTaken e v → ¬ ErrorTaken e u →
      exec (.cwEncodeContainer screen ct frames) s = .next v)

/-- O48. For an idle block and any bytes, PARSE_CONTAINER returns the document d if and only if the bytes are a
header, a screen descriptor, a global table exactly when the flag says so, any blocks in any order, the
trailer and anything after it, and d is the document those parts make: each block taken in order, with its
GCE, plain text, comment and application slots as the rules say. (R110, R162, R290, R299, R315) -/
def Obligations.ParseAcceptsTheGrammar : Prop :=
  ∀ (bytes : List Byte) (s : State) (d : GIFDocument), s.hi.cmd = 0#8 →
    ((∃ t, exec (.parseContainer bytes) s = .next t ∧ Returned (.document d) t) ↔
      ∃ (sig : Signature) (scr : LogicalScreenDescriptor) (gct : Option ColorTable)
        (blocks : List Block) (rest : List Byte),
        ScreenLegal scr gct ∧ (∀ b ∈ blocks, b.Legal) ∧
        bytes = containerBytes sig scr gct blocks ++ rest ∧ d = documentOf sig scr gct blocks)

/-- O49. For an idle block and every byte sequence, PARSE_CONTAINER completes: it returns a document whose
header and screen descriptor are the first 13 bytes and whose trailer is 0x3B, or it takes one FormatError
or TruncatedInput. There is no third outcome and no partial document. The spec marks R317 as derived from
R290 to R316 and quotes the source for it. (45_container_parser.md R317, R162, R290) -/
def Obligations.ParserTotality : Prop :=
  ∀ (bytes : List Byte) (s : State), s.hi.cmd = 0#8 →
    ∃ t, exec (.parseContainer bytes) s = .next t ∧
      ((∃ d, Returned (.document d) t ∧ d.trailer = 0x3B#8 ∧
          signatureBytes d.header.signature ++ screenDescriptorBytes d.screen <+: bytes) ∨
        (∃ r, ErrorTaken (.formatError r) t) ∨ (∃ r, ErrorTaken (.truncatedInput r) t))

/-- O50. For an idle block: a minimum code size outside 2..8 takes FormatError BadMinCodeSize. Otherwise there
is a number of decoder steps after LZD.init, all but the last leaving phase RUN, at which the phase is DONE
and the command returns LZD.out, or at which BitStreamEnd or BadCode is taken and the command ends with the
same error. The result is the same for every active colour table. (R163) -/
def Obligations.DecodeFrameOutcomes : Prop :=
  ∀ (img : ImageBlock) (act : Option ColorTable) (s : State), s.hi.cmd = 0#8 →
    (∀ act', exec (.decodeFrame img act') s = exec (.decodeFrame img act) s) ∧
    (img.lzw.minCodeSize.toNat < 2 ∨ 8 < img.lzw.minCodeSize.toNat →
      ∃ t, exec (.decodeFrame img act) s = .next t ∧
        ErrorTaken (.formatError .badMinCodeSize) t) ∧
    (2 ≤ img.lzw.minCodeSize.toNat → img.lzw.minCodeSize.toNat ≤ 8 → ∃ (n : Nat) (u t : State),
      execAll (.lzdInit img.lzw.minCodeSize img.lzw.subBlocks :: List.replicate n .lzdStep) s =
        .next u ∧
      (∀ j, j < n → ∃ v,
        execAll (.lzdInit img.lzw.minCodeSize img.lzw.subBlocks :: List.replicate j .lzdStep) s =
          .next v ∧ v.lzd.phase = .run) ∧
      exec (.decodeFrame img act) s = .next t ∧
      ((u.lzd.phase = .done ∧ Returned (.indices u.lzd.out) t) ∨
        ∃ e, (e = .truncatedInput .bitStreamEnd ∨ e = .truncatedInput .badCode) ∧
          u.lzd.phase = .error ∧ ErrorTaken e u ∧ ErrorTaken e t))

/-- O51. For an idle block: m outside 2..8 takes AssertionFailure BadMinCodeSize; then an empty stream takes
EmptyIndexStream; then an index outside the alphabet takes IndexOutOfAlphabet; otherwise the command returns
the bytes that LZE.encodeFrame returns, the first m and the last 0x00. (R164) -/
def Obligations.EncodeFrameOutcomes : Prop :=
  ∀ (m : Byte) (idx : List Nat) (s : State), s.hi.cmd = 0#8 →
    (m.toNat < 2 ∨ 8 < m.toNat → ∃ t, exec (.encodeFrame m idx) s = .next t ∧
      ErrorTaken (.assertionFailure .badMinCodeSize) t) ∧
    (2 ≤ m.toNat → m.toNat ≤ 8 →
      (idx = [] → ∃ t, exec (.encodeFrame m idx) s = .next t ∧
        ErrorTaken (.assertionFailure .emptyIndexStream) t) ∧
      ((∃ k ∈ idx, 2 ^ m.toNat ≤ k) → ∃ t, exec (.encodeFrame m idx) s = .next t ∧
        ErrorTaken (.assertionFailure .indexOutOfAlphabet) t) ∧
      (idx ≠ [] → (∀ k ∈ idx, k < 2 ^ m.toNat) → ∃ (t u : State) (data : List Byte),
        exec (.lzeEncodeFrame m idx) s = .next (u.setRet (.bytes data)) ∧
        exec (.encodeFrame m idx) s = .next t ∧ Returned (.bytes data) t ∧
        data.head? = some m ∧ data.getLast? = some 0x00#8))

/-- O52. For an idle block: a bad global table takes ColorTableSize. Otherwise, with every frame legal, the
command returns what the operations of R340 write from an empty CW.out. With the frames before the first
illegal one legal, that frame's bad local table takes ColorTableSize, else its empty stream
EmptyIndexStream, else IndexOutOfAlphabet is taken. (R165, R340, R350, R383) -/
def Obligations.EncodeContainerOutcomes : Prop :=
  ∀ (screen : ScreenIn) (ct : ColorTable) (frames : List FrameIn) (s : State), s.hi.cmd = 0#8 →
    ((∀ n : BitVec 3, ct.length ≠ 2 <<< n.toNat) →
      ∃ t, exec (.encodeContainer screen ct frames) s = .next t ∧
        ErrorTaken (.assertionFailure .colorTableSize) t) ∧
    (∀ n : BitVec 3, ct.length = 2 <<< n.toNat →
      ((∀ f ∈ frames, FrameLegal ct f) → ∃ t u,
        execAll (containerOps screen n ct frames) (s.setCW { out := [] }) = .next u ∧
        exec (.encodeContainer screen ct frames) s = .next t ∧ Returned (.bytes u.cw.out) t) ∧
      (∀ (pre post : List FrameIn) (f : FrameIn), frames = pre ++ f :: post →
        (∀ g ∈ pre, FrameLegal ct g) → ¬ FrameLegal ct f →
        ∃ t, exec (.encodeContainer screen ct frames) s = .next t ∧
          ErrorTaken (.assertionFailure
            (if isTable (frameTable f ct) = false then .colorTableSize
              else if f.indices = [] then .emptyIndexStream else .indexOutOfAlphabet)) t))

/-- O53. For any minimum code size in 2..8 and any non-empty index stream over its alphabet, ENCODE_FRAME on an
idle block returns bytes that are the minimum code size and a sub-block run, and DECODE_FRAME of any image
block whose LZW data they are, with any colour table, returns that index stream. (R224) -/
def Obligations.FrameRoundTrip : Prop :=
  ∀ (m : Byte) (idx : List Nat) (s : State), s.hi.cmd = 0#8 → 2 ≤ m.toNat → m.toNat ≤ 8 →
    idx ≠ [] → (∀ k ∈ idx, k < 2 ^ m.toNat) →
    ∃ (t : State) (blocks : Blocks), blocksWf blocks = true ∧
      exec (.encodeFrame m idx) s = .next t ∧ Returned (.bytes (m :: runBytes blocks)) t ∧
      ∀ (img : ImageBlock) (act : Option ColorTable),
        img.lzw = { minCodeSize := m, subBlocks := blocks, terminator := 0x00#8 } →
        ∃ v, exec (.decodeFrame img act) t = .next v ∧ Returned (.indices idx) v

/-- O54. Whenever ENCODE_CONTAINER on an idle block returns B: PARSE_CONTAINER of B returns a document with
signature GIF89a, the screen's six fields with the table flag 1 and the table's size field, the global
table, no application and no comment extension, and one image per frame with that frame's descriptor fields,
reserved 0, its local table and GCE and no plain text, whose DECODE_FRAME returns the frame's indices. The
spec marks R349 as derived from the writer's, the parser's and the decoder's rules. (46_container_writer.md
R349, R340, R224) -/
def Obligations.StructuralRoundTrip : Prop :=
  ∀ (screen : ScreenIn) (ct : ColorTable) (frames : List FrameIn) (s t : State) (bytes : List Byte),
    s.hi.cmd = 0#8 → exec (.encodeContainer screen ct frames) s = .next t →
    Returned (.bytes bytes) t →
    ∃ (u : State) (d : GIFDocument) (n : BitVec 3), sizeFieldOf ct.length = some n ∧
      exec (.parseContainer bytes) t = .next u ∧ Returned (.document d) u ∧
      d.header = { signature := .gif89a } ∧
      d.screen =
        { width := screen.width, height := screen.height, globalColorTableFlag := true,
          colorResolution := screen.colorResolution, sortFlag := screen.sortFlag,
          sizeOfGlobalColorTable := n, backgroundColorIndex := screen.backgroundColorIndex,
          pixelAspectRatioRaw := screen.pixelAspectRatioRaw } ∧
      d.globalColorTable = some ct ∧ d.application = none ∧ d.comment = none ∧
      d.images.length = frames.length ∧
      ∀ (i : Nat) (f : FrameIn), frames[i]? = some f → ∃ img : ImageBlock,
        d.images[i]? = some img ∧ img.descriptor = frameDescriptor f ∧
        img.localColorTable = f.localColorTable ∧ img.gce = f.gce ∧ img.plainText = none ∧
        ∀ act, ∃ v, exec (.decodeFrame img act) u = .next v ∧ Returned (.indices f.indices) v

/-- O55. From an idle block, running the machine one step at a time from the state PARSE_CONTAINER starts in
reaches, within |IN| + 3 steps, exactly the state the command answers, whether it returns or takes an error.
The two step levels are the model's reading (log 1). (R93, R162, R290, 92_eei_decisions.md D1, log 1) -/
def Obligations.ParseIsItsSteps : Prop :=
  ∀ (bytes : List Byte) (s : State), s.hi.cmd = 0#8 → ∃ k t, k ≤ bytes.length + 3 ∧
    Sys2Proof.core.run k (commandStart 0x01#8 bytes s) = .next t ∧
    exec (.parseContainer bytes) s = .next t

/-- O56. From an idle block: after LZD.init, running the machine one step at a time reaches exactly the state
DECODE_FRAME answers; after LZE.init and the initial CLEAR, within |idx| steps, that of ENCODE_FRAME; and
with the writer's operations queued, within their number, that of ENCODE_CONTAINER. The two step levels and
the queue are the model's reading (log 1, log 7). (R93, R163, R164, R165, 92_eei_decisions.md D1, log 1, log
7) -/
def Obligations.CodecCommandsAreTheirSteps : Prop :=
  (∀ (img : ImageBlock) (act : Option ColorTable) (s u : State), s.hi.cmd = 0#8 →
    2 ≤ img.lzw.minCodeSize.toNat → img.lzw.minCodeSize.toNat ≤ 8 →
    exec (.lzdInit img.lzw.minCodeSize img.lzw.subBlocks) (commandStart 0x02#8 [] s) = .next u →
    ∃ k t, k ≤ 8 * img.lzw.subBlocks.flatten.length + 1 ∧ Sys2Proof.core.run k u = .next t ∧
      exec (.decodeFrame img act) s = .next t) ∧
  (∀ (m : Byte) (idx : List Nat) (s u : State), s.hi.cmd = 0#8 → 2 ≤ m.toNat → m.toNat ≤ 8 →
    idx ≠ [] → idx.headI < 2 ^ m.toNat →
    execAll [.lzeInit m idx, .lzeEmit (some (2 ^ m.toNat))] (commandStart 0x03#8 [] s) = .next u →
    ∃ k t, k ≤ idx.length ∧ Sys2Proof.core.run k u = .next t ∧
      exec (.encodeFrame m idx) s = .next t) ∧
  (∀ (screen : ScreenIn) (ct : ColorTable) (frames : List FrameIn) (n : BitVec 3) (s : State),
    s.hi.cmd = 0#8 → ct.length = 2 <<< n.toNat →
    ∃ k t, k ≤ (containerOps screen n ct frames).length ∧
      Sys2Proof.core.run k
        ((commandStart 0x04#8 [] s).setTodo (containerOps screen n ct frames)) = .next t ∧
      exec (.encodeContainer screen ct frames) s = .next t)

/-- O57. If the state is legal and step answers a next state, then in it: STATUS and CMD fit the outcome
delivered; BC.pos is at most |BC.buf|; the accumulator holds at most 7 bits; CP.doc holds what CP.phase says
has been read, with legal tables and images, and a command in progress has not failed. That only writer
operations are queued in todo, inside ENCODE_CONTAINER, is about the model's own queue (log 7): R73 gives
the writer no sequencing state. What CP.doc holds in fields not read yet is the model's choice too (log 11).
(log 7, log 11, R32, R35, R37, R57, R58, R73, R160) -/
def Obligations.StepKeepsHostAndParser : Prop :=
  ∀ s t : State, Legal s → step s = .next t →
    HostLegal t.hi ∧ CursorLegal t.bc ∧ WriterBitsLegal t.bsw ∧ ParserLegal t.cp ∧ SequencingLegal t

/-- O58. If the state is legal and step answers a next state, then in it: the decoder has the legal values of
R39 to R48 and the table shape of R44 and R222; unless its phase is ERROR, the encoder meets R262; and both
tables, if canonical before, are canonical. (R44, R222, R223, R262, R54, log 12) -/
def Obligations.StepKeepsCodecs : Prop :=
  ∀ s t : State, Legal s → step s = .next t →
    DecoderLegal t.lzd ∧ (t.lze.phase ≠ .error → EncoderLegal t.lze) ∧
    (Memory.wf s = true → Memory.wf t = true)

/-- O59. From every legal state a step answers a next state or refuses the host's request; it never ends in a
fault. A refusal happens only to an idle block whose next request has an unassigned code. (R317, R161, R381,
log 13) -/
def Obligations.LegalStatesNeverFault : Prop :=
  ∀ s : State, Legal s →
    (∀ f : Fault, step s ≠ .fault f) ∧
    (∀ r : Refusal, step s = .refused r → r = .unassignedCommand ∧ s.hi.cmd = 0#8 ∧
      ∃ q rest, s.hi.inbox = q :: rest ∧ 0x05#8 ≤ q.code)
end

