-- ==== Sys2Proof/Laws/State.lean ====
section
/-! SUPPORT. One lemma per field of State and setter: the field written holds what was written, every other
field is as it was. -/

namespace Sys2Proof.Machine

variable (s : State)

@[simp] theorem State.setHI_hi (v : HostInterface) : (s.setHI v).hi = v := rfl
@[simp] theorem State.setHI_bc (v : HostInterface) : (s.setHI v).bc = s.bc := rfl
@[simp] theorem State.setHI_bsr (v : HostInterface) : (s.setHI v).bsr = s.bsr := rfl
@[simp] theorem State.setHI_bsw (v : HostInterface) : (s.setHI v).bsw = s.bsw := rfl
@[simp] theorem State.setHI_lzd (v : HostInterface) : (s.setHI v).lzd = s.lzd := rfl
@[simp] theorem State.setHI_lze (v : HostInterface) : (s.setHI v).lze = s.lze := rfl
@[simp] theorem State.setHI_cp (v : HostInterface) : (s.setHI v).cp = s.cp := rfl
@[simp] theorem State.setHI_cw (v : HostInterface) : (s.setHI v).cw = s.cw := rfl
@[simp] theorem State.setHI_ret (v : HostInterface) : (s.setHI v).ret = s.ret := rfl
@[simp] theorem State.setHI_todo (v : HostInterface) : (s.setHI v).todo = s.todo := rfl
@[simp] theorem State.setHI_setHI (v w : HostInterface) : (s.setHI v).setHI w = s.setHI w := rfl
@[simp] theorem State.setHI_self : s.setHI s.hi = s := rfl

@[simp] theorem State.setBC_hi (v : ByteCursor) : (s.setBC v).hi = s.hi := rfl
@[simp] theorem State.setBC_bc (v : ByteCursor) : (s.setBC v).bc = v := rfl
@[simp] theorem State.setBC_bsr (v : ByteCursor) : (s.setBC v).bsr = s.bsr := rfl
@[simp] theorem State.setBC_bsw (v : ByteCursor) : (s.setBC v).bsw = s.bsw := rfl
@[simp] theorem State.setBC_lzd (v : ByteCursor) : (s.setBC v).lzd = s.lzd := rfl
@[simp] theorem State.setBC_lze (v : ByteCursor) : (s.setBC v).lze = s.lze := rfl
@[simp] theorem State.setBC_cp (v : ByteCursor) : (s.setBC v).cp = s.cp := rfl
@[simp] theorem State.setBC_cw (v : ByteCursor) : (s.setBC v).cw = s.cw := rfl
@[simp] theorem State.setBC_ret (v : ByteCursor) : (s.setBC v).ret = s.ret := rfl
@[simp] theorem State.setBC_todo (v : ByteCursor) : (s.setBC v).todo = s.todo := rfl
@[simp] theorem State.setBC_setBC (v w : ByteCursor) : (s.setBC v).setBC w = s.setBC w := rfl
@[simp] theorem State.setBC_self : s.setBC s.bc = s := rfl

@[simp] theorem State.setBSR_hi (v : BitReader) : (s.setBSR v).hi = s.hi := rfl
@[simp] theorem State.setBSR_bc (v : BitReader) : (s.setBSR v).bc = s.bc := rfl
@[simp] theorem State.setBSR_bsr (v : BitReader) : (s.setBSR v).bsr = v := rfl
@[simp] theorem State.setBSR_bsw (v : BitReader) : (s.setBSR v).bsw = s.bsw := rfl
@[simp] theorem State.setBSR_lzd (v : BitReader) : (s.setBSR v).lzd = s.lzd := rfl
@[simp] theorem State.setBSR_lze (v : BitReader) : (s.setBSR v).lze = s.lze := rfl
@[simp] theorem State.setBSR_cp (v : BitReader) : (s.setBSR v).cp = s.cp := rfl
@[simp] theorem State.setBSR_cw (v : BitReader) : (s.setBSR v).cw = s.cw := rfl
@[simp] theorem State.setBSR_ret (v : BitReader) : (s.setBSR v).ret = s.ret := rfl
@[simp] theorem State.setBSR_todo (v : BitReader) : (s.setBSR v).todo = s.todo := rfl
@[simp] theorem State.setBSR_setBSR (v w : BitReader) : (s.setBSR v).setBSR w = s.setBSR w := rfl
@[simp] theorem State.setBSR_self : s.setBSR s.bsr = s := rfl

@[simp] theorem State.setBSW_hi (v : BitWriter) : (s.setBSW v).hi = s.hi := rfl
@[simp] theorem State.setBSW_bc (v : BitWriter) : (s.setBSW v).bc = s.bc := rfl
@[simp] theorem State.setBSW_bsr (v : BitWriter) : (s.setBSW v).bsr = s.bsr := rfl
@[simp] theorem State.setBSW_bsw (v : BitWriter) : (s.setBSW v).bsw = v := rfl
@[simp] theorem State.setBSW_lzd (v : BitWriter) : (s.setBSW v).lzd = s.lzd := rfl
@[simp] theorem State.setBSW_lze (v : BitWriter) : (s.setBSW v).lze = s.lze := rfl
@[simp] theorem State.setBSW_cp (v : BitWriter) : (s.setBSW v).cp = s.cp := rfl
@[simp] theorem State.setBSW_cw (v : BitWriter) : (s.setBSW v).cw = s.cw := rfl
@[simp] theorem State.setBSW_ret (v : BitWriter) : (s.setBSW v).ret = s.ret := rfl
@[simp] theorem State.setBSW_todo (v : BitWriter) : (s.setBSW v).todo = s.todo := rfl
@[simp] theorem State.setBSW_setBSW (v w : BitWriter) : (s.setBSW v).setBSW w = s.setBSW w := rfl
@[simp] theorem State.setBSW_self : s.setBSW s.bsw = s := rfl

@[simp] theorem State.setLZD_hi (v : LZWDecoder) : (s.setLZD v).hi = s.hi := rfl
@[simp] theorem State.setLZD_bc (v : LZWDecoder) : (s.setLZD v).bc = s.bc := rfl
@[simp] theorem State.setLZD_bsr (v : LZWDecoder) : (s.setLZD v).bsr = s.bsr := rfl
@[simp] theorem State.setLZD_bsw (v : LZWDecoder) : (s.setLZD v).bsw = s.bsw := rfl
@[simp] theorem State.setLZD_lzd (v : LZWDecoder) : (s.setLZD v).lzd = v := rfl
@[simp] theorem State.setLZD_lze (v : LZWDecoder) : (s.setLZD v).lze = s.lze := rfl
@[simp] theorem State.setLZD_cp (v : LZWDecoder) : (s.setLZD v).cp = s.cp := rfl
@[simp] theorem State.setLZD_cw (v : LZWDecoder) : (s.setLZD v).cw = s.cw := rfl
@[simp] theorem State.setLZD_ret (v : LZWDecoder) : (s.setLZD v).ret = s.ret := rfl
@[simp] theorem State.setLZD_todo (v : LZWDecoder) : (s.setLZD v).todo = s.todo := rfl
@[simp] theorem State.setLZD_setLZD (v w : LZWDecoder) : (s.setLZD v).setLZD w = s.setLZD w := rfl
@[simp] theorem State.setLZD_self : s.setLZD s.lzd = s := rfl

@[simp] theorem State.setLZE_hi (v : LZWEncoder) : (s.setLZE v).hi = s.hi := rfl
@[simp] theorem State.setLZE_bc (v : LZWEncoder) : (s.setLZE v).bc = s.bc := rfl
@[simp] theorem State.setLZE_bsr (v : LZWEncoder) : (s.setLZE v).bsr = s.bsr := rfl
@[simp] theorem State.setLZE_bsw (v : LZWEncoder) : (s.setLZE v).bsw = s.bsw := rfl
@[simp] theorem State.setLZE_lzd (v : LZWEncoder) : (s.setLZE v).lzd = s.lzd := rfl
@[simp] theorem State.setLZE_lze (v : LZWEncoder) : (s.setLZE v).lze = v := rfl
@[simp] theorem State.setLZE_cp (v : LZWEncoder) : (s.setLZE v).cp = s.cp := rfl
@[simp] theorem State.setLZE_cw (v : LZWEncoder) : (s.setLZE v).cw = s.cw := rfl
@[simp] theorem State.setLZE_ret (v : LZWEncoder) : (s.setLZE v).ret = s.ret := rfl
@[simp] theorem State.setLZE_todo (v : LZWEncoder) : (s.setLZE v).todo = s.todo := rfl
@[simp] theorem State.setLZE_setLZE (v w : LZWEncoder) : (s.setLZE v).setLZE w = s.setLZE w := rfl
@[simp] theorem State.setLZE_self : s.setLZE s.lze = s := rfl

@[simp] theorem State.setCP_hi (v : ContainerParser) : (s.setCP v).hi = s.hi := rfl
@[simp] theorem State.setCP_bc (v : ContainerParser) : (s.setCP v).bc = s.bc := rfl
@[simp] theorem State.setCP_bsr (v : ContainerParser) : (s.setCP v).bsr = s.bsr := rfl
@[simp] theorem State.setCP_bsw (v : ContainerParser) : (s.setCP v).bsw = s.bsw := rfl
@[simp] theorem State.setCP_lzd (v : ContainerParser) : (s.setCP v).lzd = s.lzd := rfl
@[simp] theorem State.setCP_lze (v : ContainerParser) : (s.setCP v).lze = s.lze := rfl
@[simp] theorem State.setCP_cp (v : ContainerParser) : (s.setCP v).cp = v := rfl
@[simp] theorem State.setCP_cw (v : ContainerParser) : (s.setCP v).cw = s.cw := rfl
@[simp] theorem State.setCP_ret (v : ContainerParser) : (s.setCP v).ret = s.ret := rfl
@[simp] theorem State.setCP_todo (v : ContainerParser) : (s.setCP v).todo = s.todo := rfl
@[simp] theorem State.setCP_setCP (v w : ContainerParser) : (s.setCP v).setCP w = s.setCP w := rfl
@[simp] theorem State.setCP_self : s.setCP s.cp = s := rfl

@[simp] theorem State.setCW_hi (v : ContainerWriter) : (s.setCW v).hi = s.hi := rfl
@[simp] theorem State.setCW_bc (v : ContainerWriter) : (s.setCW v).bc = s.bc := rfl
@[simp] theorem State.setCW_bsr (v : ContainerWriter) : (s.setCW v).bsr = s.bsr := rfl
@[simp] theorem State.setCW_bsw (v : ContainerWriter) : (s.setCW v).bsw = s.bsw := rfl
@[simp] theorem State.setCW_lzd (v : ContainerWriter) : (s.setCW v).lzd = s.lzd := rfl
@[simp] theorem State.setCW_lze (v : ContainerWriter) : (s.setCW v).lze = s.lze := rfl
@[simp] theorem State.setCW_cp (v : ContainerWriter) : (s.setCW v).cp = s.cp := rfl
@[simp] theorem State.setCW_cw (v : ContainerWriter) : (s.setCW v).cw = v := rfl
@[simp] theorem State.setCW_ret (v : ContainerWriter) : (s.setCW v).ret = s.ret := rfl
@[simp] theorem State.setCW_todo (v : ContainerWriter) : (s.setCW v).todo = s.todo := rfl
@[simp] theorem State.setCW_setCW (v w : ContainerWriter) : (s.setCW v).setCW w = s.setCW w := rfl
@[simp] theorem State.setCW_self : s.setCW s.cw = s := rfl

@[simp] theorem State.setRet_hi (v : Value) : (s.setRet v).hi = s.hi := rfl
@[simp] theorem State.setRet_bc (v : Value) : (s.setRet v).bc = s.bc := rfl
@[simp] theorem State.setRet_bsr (v : Value) : (s.setRet v).bsr = s.bsr := rfl
@[simp] theorem State.setRet_bsw (v : Value) : (s.setRet v).bsw = s.bsw := rfl
@[simp] theorem State.setRet_lzd (v : Value) : (s.setRet v).lzd = s.lzd := rfl
@[simp] theorem State.setRet_lze (v : Value) : (s.setRet v).lze = s.lze := rfl
@[simp] theorem State.setRet_cp (v : Value) : (s.setRet v).cp = s.cp := rfl
@[simp] theorem State.setRet_cw (v : Value) : (s.setRet v).cw = s.cw := rfl
@[simp] theorem State.setRet_ret (v : Value) : (s.setRet v).ret = v := rfl
@[simp] theorem State.setRet_todo (v : Value) : (s.setRet v).todo = s.todo := rfl
@[simp] theorem State.setRet_setRet (v w : Value) : (s.setRet v).setRet w = s.setRet w := rfl
@[simp] theorem State.setRet_self : s.setRet s.ret = s := rfl

@[simp] theorem State.setTodo_hi (v : List Instr) : (s.setTodo v).hi = s.hi := rfl
@[simp] theorem State.setTodo_bc (v : List Instr) : (s.setTodo v).bc = s.bc := rfl
@[simp] theorem State.setTodo_bsr (v : List Instr) : (s.setTodo v).bsr = s.bsr := rfl
@[simp] theorem State.setTodo_bsw (v : List Instr) : (s.setTodo v).bsw = s.bsw := rfl
@[simp] theorem State.setTodo_lzd (v : List Instr) : (s.setTodo v).lzd = s.lzd := rfl
@[simp] theorem State.setTodo_lze (v : List Instr) : (s.setTodo v).lze = s.lze := rfl
@[simp] theorem State.setTodo_cp (v : List Instr) : (s.setTodo v).cp = s.cp := rfl
@[simp] theorem State.setTodo_cw (v : List Instr) : (s.setTodo v).cw = s.cw := rfl
@[simp] theorem State.setTodo_ret (v : List Instr) : (s.setTodo v).ret = s.ret := rfl
@[simp] theorem State.setTodo_todo (v : List Instr) : (s.setTodo v).todo = v := rfl
@[simp] theorem State.setTodo_setTodo (v w : List Instr) : (s.setTodo v).setTodo w = s.setTodo w := rfl
@[simp] theorem State.setTodo_self : s.setTodo s.todo = s := rfl

end Sys2Proof.Machine
end

