-- ==== Sys2Proof/Laws/Op.lean ====
section
/-! SUPPORT. How unit operations compose: each primitive applied to a state, and what a sequence of two can
do. Later lemmas cite these and do not unfold the operation type. -/

namespace Sys2Proof.Machine

variable {α β : Type} (s s' : State)

@[simp] theorem op_pure (a : α) : (pure a : Op α) s = .ok a s := rfl

theorem op_bind (x : Op α) (f : α → Op β) :
    (x >>= f) s = match x s with
      | .ok a t    => f a t
      | .error e t => .error e t := by
  change EStateM.bind x f s = _
  unfold EStateM.bind
  cases x s <;> rfl

theorem op_map (f : α → β) (x : Op α) :
    (f <$> x) s = match x s with
      | .ok a t    => .ok (f a) t
      | .error e t => .error e t := by
  change EStateM.map f x s = _
  unfold EStateM.map
  cases x s <;> rfl

/-- A sequence goes on from a first operation that returned. -/
theorem op_bind_of_ok {x : Op α} {a : α} (f : α → Op β) (h : x s = .ok a s') : (x >>= f) s = f a s' := by
  rw [op_bind, h]

/-- A sequence ends where its first operation ended early. -/
theorem op_bind_of_error {x : Op α} {e : Stop} (f : α → Op β) (h : x s = .error e s') :
    (x >>= f) s = .error e s' := by
  rw [op_bind, h]

/-- What a sequence that returned did. -/
theorem op_bind_eq_ok {x : Op α} {f : α → Op β} {b : β} {s s' : State} :
    (x >>= f) s = .ok b s' ↔ ∃ a t, x s = .ok a t ∧ f a t = .ok b s' := by
  rw [op_bind]
  cases x s <;> simp

/-- What a sequence that ended early did. -/
theorem op_bind_eq_error {x : Op α} {f : α → Op β} {e : Stop} {s s' : State} :
    (x >>= f) s = .error e s' ↔
      x s = .error e s' ∨ ∃ a t, x s = .ok a t ∧ f a t = .error e s' := by
  rw [op_bind]
  cases x s <;> simp

@[simp] theorem op_raise (u : Runner) (e : Err) :
    (raise u e : Op α) s = .error (.raised e) (markError u s) := rfl
@[simp] theorem op_stuck (f : Fault) : (stuck f : Op α) s = .error (.stuck f) s := rfl

@[simp] theorem op_getBC : getBC s = .ok s.bc s := rfl
@[simp] theorem op_putBC (v : ByteCursor) : putBC v s = .ok () (s.setBC v) := rfl
@[simp] theorem op_getBSR : getBSR s = .ok s.bsr s := rfl
@[simp] theorem op_putBSR (v : BitReader) : putBSR v s = .ok () (s.setBSR v) := rfl
@[simp] theorem op_getBSW : getBSW s = .ok s.bsw s := rfl
@[simp] theorem op_putBSW (v : BitWriter) : putBSW v s = .ok () (s.setBSW v) := rfl
@[simp] theorem op_getLZD : getLZD s = .ok s.lzd s := rfl
@[simp] theorem op_putLZD (v : LZWDecoder) : putLZD v s = .ok () (s.setLZD v) := rfl
@[simp] theorem op_getLZE : getLZE s = .ok s.lze s := rfl
@[simp] theorem op_putLZE (v : LZWEncoder) : putLZE v s = .ok () (s.setLZE v) := rfl
@[simp] theorem op_getCP : getCP s = .ok s.cp s := rfl
@[simp] theorem op_putCP (v : ContainerParser) : putCP v s = .ok () (s.setCP v) := rfl
@[simp] theorem op_getCW : getCW s = .ok s.cw s := rfl
@[simp] theorem op_putCW (v : ContainerWriter) : putCW v s = .ok () (s.setCW v) := rfl

@[simp] theorem settle_ok (g : α → State → Host.Outcome State Fault Refusal) (a : α) :
    settle g (.ok a s) = g a s := rfl
@[simp] theorem settle_raised (g : α → State → Host.Outcome State Fault Refusal) (e : Err) :
    settle g (.error (.raised e) s) = .next (errorEntry e s) := rfl
@[simp] theorem settle_stuck (g : α → State → Host.Outcome State Fault Refusal) (f : Fault) :
    settle g (.error (.stuck f) s) = .fault f := rfl

/-- Everything an operation without a value can do. -/
theorem runUnit_eq (op : Op Unit) :
    runUnit op s = match op s with
      | .ok _ t              => .next t
      | .error (.raised e) t => .next (errorEntry e t)
      | .error (.stuck f) _  => .fault f := by
  unfold runUnit
  rcases op s with ⟨a, t⟩ | ⟨e | f, t⟩ <;> rfl

/-- Everything an operation with a value can do. -/
theorem runRet_eq (wrap : α → Value) (op : Op α) :
    runRet wrap op s = match op s with
      | .ok a t              => .next (t.setRet (wrap a))
      | .error (.raised e) t => .next (errorEntry e t)
      | .error (.stuck f) _  => .fault f := by
  unfold runRet
  rcases op s with ⟨a, t⟩ | ⟨e | f, t⟩ <;> rfl

/-- An operation that answers a next state returned, or raised an error that was taken. -/
theorem runUnit_next {op : Op Unit} {s t : State} (h : runUnit op s = .next t) :
    op s = .ok () t ∨ ∃ e u, op s = .error (.raised e) u ∧ t = errorEntry e u := by
  rw [runUnit_eq] at h
  split at h <;> simp_all

/-- A command while one is in progress is refused (D42). -/
theorem runCommand_busy (code : Byte) (input : List Byte) (op : Op Value) (h : s.hi.cmd ≠ 0#8) :
    runCommand code input op s = .refused .commandInProgress := by
  simp [runCommand, h]

/-- A command of an idle block runs from the reset state of R400. -/
theorem runCommand_idle (code : Byte) (input : List Byte) (op : Op Value) (h : s.hi.cmd = 0#8) :
    runCommand code input op s = settle finish (op (commandStart code input s)) := by
  simp [runCommand, h]

/-- With no MAX_OUTPUT set, the end of a command is never refused (R11). -/
@[simp] theorem finish_eq (v : Value) : finish v s = .next (commandEnd v s) := rfl

@[simp] theorem errorEntry_hi (e : Err) : (errorEntry e s).hi =
    { s.hi with status := statusOf e, cmd := 0#8, result := some (.err e) } := rfl
@[simp] theorem errorEntry_todo (e : Err) : (errorEntry e s).todo = [] := rfl
@[simp] theorem errorEntry_bc (e : Err) : (errorEntry e s).bc = s.bc := rfl
@[simp] theorem errorEntry_bsr (e : Err) : (errorEntry e s).bsr = s.bsr := rfl
@[simp] theorem errorEntry_bsw (e : Err) : (errorEntry e s).bsw = s.bsw := rfl
@[simp] theorem errorEntry_lzd (e : Err) : (errorEntry e s).lzd = s.lzd := rfl
@[simp] theorem errorEntry_lze (e : Err) : (errorEntry e s).lze = s.lze := rfl
@[simp] theorem errorEntry_cp (e : Err) : (errorEntry e s).cp = s.cp := rfl
@[simp] theorem errorEntry_cw (e : Err) : (errorEntry e s).cw = s.cw := rfl
@[simp] theorem errorEntry_ret (e : Err) : (errorEntry e s).ret = s.ret := rfl

@[simp] theorem commandEnd_hi (v : Value) : (commandEnd v s).hi =
    { s.hi with status := statusOk, cmd := 0#8, result := some (.ok v) } := rfl
@[simp] theorem commandEnd_todo (v : Value) : (commandEnd v s).todo = [] := rfl

end Sys2Proof.Machine
end

