-- ==== Sys2Proof/Laws/Operands.lean ====
section
/-! SUPPORT. The operand forms are inverse to each other: byte order, bit order, packed bytes, colour
tables and sub-block runs. -/

namespace Sys2Proof.Machine

/-- R16: the value of LE16. -/
theorem le16_toNat (lo hi : Byte) : (le16 lo hi).toNat = lo.toNat + hi.toNat * 256 := by
  have h := lo.isLt
  simp only [le16, BitVec.toNat_append]
  rw [← Nat.shiftLeft_add_eq_or_of_lt h, Nat.shiftLeft_eq]
  omega

/-- R16: toLE16 is the inverse of LE16. -/
theorem toLE16_le16 (lo hi : Byte) : toLE16 (le16 lo hi) = [lo, hi] := by
  simp only [toLE16, le16, List.cons.injEq, and_true]
  constructor
  · apply BitVec.eq_of_getLsbD_eq
    intro i hi'
    simp only [BitVec.getLsbD_extractLsb', BitVec.getLsbD_append]
    simp [hi']
  · apply BitVec.eq_of_getLsbD_eq
    intro i hi'
    simp only [BitVec.getLsbD_extractLsb', BitVec.getLsbD_append]
    simp [hi']

/-- R16: reading back what toLE16 wrote. -/
theorem le16_toLE16 (v : Half) :
    le16 (v.extractLsb' 0 8) (v.extractLsb' 8 8) = v := by
  apply BitVec.eq_of_getLsbD_eq
  intro i hi
  simp only [le16, BitVec.getLsbD_append, BitVec.getLsbD_extractLsb']
  by_cases h : i < 8
  · simp [h]
  · simp only [h, decide_false, if_false]
    rw [show 8 + (i - 8) = i by omega]
    simp
    omega

@[simp] theorem length_toLE16 (v : Half) : (toLE16 v).length = 2 := rfl

/-! ## Bits -/

@[simp] theorem length_byteBits (b : Byte) : (byteBits b).length = 8 := rfl

@[simp] theorem bytesBits_nil : bytesBits [] = [] := rfl
@[simp] theorem bytesBits_cons (b : Byte) (bs : List Byte) :
    bytesBits (b :: bs) = byteBits b ++ bytesBits bs := rfl
@[simp] theorem bytesBits_append (a b : List Byte) : bytesBits (a ++ b) = bytesBits a ++ bytesBits b := by
  simp [bytesBits]

theorem length_bytesBits (bs : List Byte) : (bytesBits bs).length = 8 * bs.length := by
  induction bs with
  | nil => rfl
  | cons b bs ih => simp [ih]; omega

@[simp] theorem length_codeBits (w : Nat) (c : Nat) : (codeBits w c).length = w := by
  induction w generalizing c with
  | zero => rfl
  | succ w ih => simp [codeBits, ih]

theorem bitsValue_lt (b : Bits) : bitsValue b < 2 ^ b.length := by
  induction b with
  | nil => simp [bitsValue]
  | cons x t ih =>
    simp only [bitsValue, List.length_cons, Nat.pow_succ]
    cases x <;> simp <;> omega

/-- R86: the bits of a code that fits its width have its value. -/
theorem bitsValue_codeBits (w : Nat) (c : Nat) (h : c < 2 ^ w) : bitsValue (codeBits w c) = c := by
  induction w generalizing c with
  | zero =>
    have : c = 0 := by simpa using h
    simp [codeBits, bitsValue, this]
  | succ w ih =>
    have hd : c / 2 < 2 ^ w := by rw [Nat.pow_succ] at h; omega
    have h2 : (c % 2 == 1).toNat = c % 2 := by
      rcases Nat.mod_two_eq_zero_or_one c with h | h <;> simp [h]
    rw [codeBits, bitsValue, ih _ hd, h2]
    exact Nat.mod_add_div c 2

/-- R86: a code of width `w` is its own bits. -/
theorem codeBits_bitsValue (b : Bits) : codeBits b.length (bitsValue b) = b := by
  induction b with
  | nil => rfl
  | cons x t ih =>
    have h1 : (x.toNat + 2 * bitsValue t) / 2 = bitsValue t := by
        have := x.toNat_lt
        omega
    have h2 : ((x.toNat + 2 * bitsValue t) % 2 == 1) = x := by cases x <;> simp
    simp only [List.length_cons, codeBits, bitsValue, h1, h2, ih]

theorem testBit_bitsValue (b : Bits) (i : Nat) : (bitsValue b).testBit i = b.getD i false := by
  induction b generalizing i with
  | nil => simp [bitsValue]
  | cons x t ih =>
    cases i with
    | zero =>
      simp only [bitsValue, Nat.testBit_zero, List.getD_cons_zero]
      cases x <;> simp
    | succ i =>
      have h1 : (x.toNat + 2 * bitsValue t) / 2 = bitsValue t := by
        have := x.toNat_lt
        omega
      simp only [bitsValue, Nat.testBit_succ, h1, ih, List.getD_cons_succ]

/-- R85: eight bits are the bits of the byte they make. -/
theorem byteBits_bitsByte (b0 b1 b2 b3 b4 b5 b6 b7 : Bool) :
    byteBits (bitsByte [b0, b1, b2, b3, b4, b5, b6, b7]) = [b0, b1, b2, b3, b4, b5, b6, b7] := by
  cases b0 <;> cases b1 <;> cases b2 <;> cases b3 <;> cases b4 <;> cases b5 <;> cases b6 <;> cases b7 <;>
    rfl

/-- R190: draining loses no bit, and leaves fewer than eight. -/
theorem drainBytes_spec (acc : Bits) :
    bytesBits (drainBytes acc).1 ++ (drainBytes acc).2 = acc ∧ (drainBytes acc).2.length ≤ 7 := by
  induction acc using drainBytes.induct with
  | case1 b0 b1 b2 b3 b4 b5 b6 b7 rest ih =>
    simp only [drainBytes, bytesBits_cons, byteBits_bitsByte]
    refine ⟨?_, ih.2⟩
    simp [ih.1]
  | case2 acc h =>
    have hd : drainBytes acc = ([], acc) := by
      unfold drainBytes
      split
      · exact (h _ _ _ _ _ _ _ _ _ rfl).elim
      · rfl
    rw [hd]
    refine ⟨rfl, ?_⟩
    rcases acc with _ | ⟨a0, _ | ⟨a1, _ | ⟨a2, _ | ⟨a3, _ | ⟨a4, _ | ⟨a5, _ | ⟨a6, _ | ⟨a7, t⟩⟩⟩⟩⟩⟩⟩⟩ <;>
      simp
    exact (h _ _ _ _ _ _ _ _ _ rfl).elim

/-! ## Packed bytes -/

theorem unpackLSD_packLSD (f : LSDPacked) : unpackLSD (packLSD f) = f := by
  rcases f with ⟨a, b, c, d⟩
  simp only [unpackLSD, packLSD, LSDPacked.mk.injEq]
  revert a b c d
  decide

theorem unpackImage_packImage (f : ImagePacked) : unpackImage (packImage f) = f := by
  rcases f with ⟨a, b, c, d, e⟩
  simp only [unpackImage, packImage, ImagePacked.mk.injEq]
  revert a b c d e
  decide

theorem unpackGCE_packGCE (g : GraphicControlExtension) :
    unpackGCE (packGCE g) g.delayTime g.transparencyIndex = g := by
  rcases g with ⟨a, b, c, d, e, f⟩
  simp only [unpackGCE, packGCE, GraphicControlExtension.mk.injEq, and_true]
  revert a b c d
  decide

/-! ## Colour tables -/

@[simp] theorem length_tableBytes (t : ColorTable) : (tableBytes t).length = 3 * t.length := by
  induction t with
  | nil => rfl
  | cons e t ih => simp [tableBytes] at *; omega

/-- R114: a table is read back from its bytes. -/
theorem tableOf_tableBytes (t : ColorTable) : tableOf (tableBytes t) = t := by
  induction t with
  | nil => rfl
  | cons e t ih => simpa [tableBytes, tableOf] using ih

theorem sizeFieldOf_spec {n : Nat} {f : BitVec 3} (h : sizeFieldOf n = some f) : tableLength f = n := by
  unfold sizeFieldOf at h
  split at h <;> first | (cases h; rfl) | cases h

theorem sizeFieldOf_tableLength (f : BitVec 3) : sizeFieldOf (tableLength f) = some f := by
  revert f
  decide

/-! ## Sub-block runs -/

/-- R199: the payloads of the packer are the data, in order. -/
theorem chunksOf_flatten (fuel : Nat) (data : List Byte) (h : data.length ≤ fuel) :
    (chunksOf fuel data).flatten = data := by
  induction fuel generalizing data with
  | zero => simp at h; simp [chunksOf, h]
  | succ fuel ih =>
    unfold chunksOf
    by_cases he : data = []
    · simp [he]
    · have hl : 0 < data.length := List.length_pos_iff.mpr he
      have := ih (data.drop 254) (by rw [List.length_drop]; omega)
      simp [he, Config.writeSubBlockMax, this]

/-- R199: each payload carries 1 to 254 bytes. -/
theorem chunksOf_length (fuel : Nat) (data : List Byte) :
    ∀ b ∈ chunksOf fuel data, 1 ≤ b.length ∧ b.length ≤ 254 := by
  induction fuel generalizing data with
  | zero => simp [chunksOf]
  | succ fuel ih =>
    unfold chunksOf
    by_cases he : data = []
    · simp [he]
    · have hl : 0 < data.length := List.length_pos_iff.mpr he
      intro b hb
      simp only [List.isEmpty_iff, he, if_false, Config.writeSubBlockMax, List.mem_cons] at hb
      rcases hb with rfl | hb
      · simp; omega
      · exact ih _ b hb

theorem runBytes_cons (b : List Byte) (bs : Blocks) :
    runBytes (b :: bs) = BitVec.ofNat 8 b.length :: b ++ runBytes bs := by
  simp [runBytes]

@[simp] theorem runBytes_nil : runBytes [] = [0x00#8] := rfl

/-! ## Classes -/

/-- R128: which codes each class holds, for a decoder whose codes are in order. -/
theorem classifyCode_eoi {k : CodeContext} {c : Nat} (h : c = k.eoiCode) : classifyCode k c = .eoi := by
  simp [classifyCode, h]

theorem classifyCode_clear {k : CodeContext} {c : Nat} (h : c = k.clearCode)
    (he : k.clearCode < k.eoiCode) : classifyCode k c = .clear := by
  subst h
  simp [classifyCode, Nat.ne_of_lt he]

end Sys2Proof.Machine
end

