-- ==== Sys2Proof/Laws/BitStream.lean ====
section
/-! SUPPORT. What each BitStream operation can do. -/

namespace Sys2Proof.Machine

variable (s : State)

/-- R91: the widths. -/
theorem isWidth_iff (w : Nat) : isWidth w = true ↔ 1 ≤ w ∧ w ≤ 12 := by
  simp only [isWidth, Bool.and_eq_true, decide_eq_true_eq]
  exact Iff.rfl

/-- BSW after a write (R190). -/
theorem bswWrite_eq (code w : Nat) : bswWrite code w s =
    if isWidth w = true ∧ code < 2 ^ w then
      .ok () (s.setBSW
        { acc := (drainBytes (s.bsw.acc ++ codeBits w code)).2,
          out := s.bsw.out ++ (drainBytes (s.bsw.acc ++ codeBits w code)).1 })
    else .error (.raised (.assertionFailure .badWidth)) (markError .lze s) := by
  unfold bswWrite
  by_cases h : isWidth w = true ∧ code < 2 ^ w
  · rw [if_pos h, if_neg (by simp [h.1, h.2])]
    simp [op_bind]
  · rw [if_neg h, if_pos]
    · rfl
    · by_cases hw : isWidth w = true
      · have : ¬ code < 2 ^ w := fun hc => h ⟨hw, hc⟩
        simp [Nat.le_of_not_lt this]
      · simp [hw]

theorem bswWrite_ok {code w : Nat} (hw : isWidth w = true) (hc : code < 2 ^ w) :
    bswWrite code w s = .ok () (s.setBSW
      { acc := (drainBytes (s.bsw.acc ++ codeBits w code)).2,
        out := s.bsw.out ++ (drainBytes (s.bsw.acc ++ codeBits w code)).1 }) := by
  rw [bswWrite_eq, if_pos ⟨hw, hc⟩]

/-- R190: a write adds exactly the code's bits to the stream written so far, and leaves at most seven in
the accumulator. -/
theorem drainBytes_stream (b : BitWriter) (bits : Bits) :
    bytesBits (b.out ++ (drainBytes (b.acc ++ bits)).1) ++ (drainBytes (b.acc ++ bits)).2 =
      bytesBits b.out ++ b.acc ++ bits ∧ (drainBytes (b.acc ++ bits)).2.length ≤ 7 := by
  have h := drainBytes_spec (b.acc ++ bits)
  refine ⟨?_, h.2⟩
  rw [bytesBits_append, List.append_assoc, h.1, List.append_assoc]

/-- R191: everything close can do. -/
theorem bswClose_eq : bswClose s =
    if s.bsw.acc = [] then .ok () s
    else if 8 < s.bsw.acc.length then .error (.stuck .accumulatorOverfull) s
    else .ok () (s.setBSW { acc := [], out := s.bsw.out ++ [bitsByte s.bsw.acc] }) := by
  unfold bswClose
  rw [op_bind, op_getBSW]
  by_cases h : s.bsw.acc = []
  · simp [h]
  · by_cases h' : 8 < s.bsw.acc.length <;> simp [h, h']

/-- The bits of a byte made of at most 8 bits are those bits and then zeros (R191). -/
theorem byteBits_bitsByte_pad (b : Bits) (h : b.length ≤ 8) :
    byteBits (bitsByte b) = b ++ List.replicate (8 - b.length) false := by
  have hv : bitsValue b < 2 ^ 8 := Nat.lt_of_lt_of_le (bitsValue_lt b) (Nat.pow_le_pow_right (by omega) h)
  have hbit : ∀ i, i < 8 → (bitsByte b).getLsbD i = b.getD i false := fun i hi => by
    rw [bitsByte, BitVec.getLsbD_ofNat, testBit_bitsValue]
    simp [hi]
  apply List.ext_getElem
  · simp; omega
  · intro i h1 h2
    have hi : i < 8 := by simpa using h1
    have hl : (byteBits (bitsByte b))[i] = (bitsByte b).getLsbD i := by
      unfold byteBits
      match i, hi with
      | 0, _ | 1, _ | 2, _ | 3, _ | 4, _ | 5, _ | 6, _ | 7, _ => rfl
    refine hl.trans ?_
    rw [hbit i hi, List.getElem_append]
    split
    · next h' => simp [h']
    · next h' => simp [Nat.le_of_not_lt h']

/-- R194: everything pushBytes can do. -/
theorem bsrPushBytes_eq (bytes : List Byte) :
    bsrPushBytes bytes s = .ok () (s.setBSR { bits := s.bsr.bits ++ bytesBits bytes }) := rfl

/-- R195: everything hasBits can do. -/
theorem bsrHasBits_eq (n : Nat) : bsrHasBits n s =
    if isWidth n = true then .ok (decide (n ≤ s.bsr.bits.length)) s
    else .error (.raised (.assertionFailure .badWidth)) (markError .lzd s) := by
  unfold bsrHasBits
  by_cases h : isWidth n = true <;> simp [h, op_bind]

/-- R196: everything readBits can do. -/
theorem bsrReadBits_eq (n : Nat) : bsrReadBits n s =
    if isWidth n = true then
      if s.bsr.bits.length < n then
        .error (.raised (.truncatedInput .bitStreamEnd)) (markError .lzd s)
      else .ok (bitsValue (s.bsr.bits.take n)) (s.setBSR { bits := s.bsr.bits.drop n })
    else .error (.raised (.assertionFailure .badWidth)) (markError .lzd s) := by
  unfold bsrReadBits
  by_cases h : isWidth n = true
  · by_cases h' : s.bsr.bits.length < n <;> simp [h, h', op_bind, op_map]
  · simp [h]

end Sys2Proof.Machine
end

