-- ==== Sys2Proof/Laws/ByteCursor.lean ====
section
/-! SUPPORT. What each ByteCursor operation can do, in terms of the bytes not read yet. -/

namespace Sys2Proof.Machine

variable (s : State)

@[simp] theorem advance_bc (n : Nat) : (advance s n).bc = { s.bc with pos := s.bc.pos + n } := rfl
@[simp] theorem advance_hi (n : Nat) : (advance s n).hi = s.hi := rfl
@[simp] theorem advance_bsr (n : Nat) : (advance s n).bsr = s.bsr := rfl
@[simp] theorem advance_bsw (n : Nat) : (advance s n).bsw = s.bsw := rfl
@[simp] theorem advance_lzd (n : Nat) : (advance s n).lzd = s.lzd := rfl
@[simp] theorem advance_lze (n : Nat) : (advance s n).lze = s.lze := rfl
@[simp] theorem advance_cp (n : Nat) : (advance s n).cp = s.cp := rfl
@[simp] theorem advance_cw (n : Nat) : (advance s n).cw = s.cw := rfl
@[simp] theorem advance_ret (n : Nat) : (advance s n).ret = s.ret := rfl
@[simp] theorem advance_todo (n : Nat) : (advance s n).todo = s.todo := rfl
@[simp] theorem advance_zero : advance s 0 = s := rfl

@[simp] theorem advance_advance (m n : Nat) : advance (advance s m) n = advance s (m + n) := by
  simp [advance, State.setBC, Nat.add_assoc]

theorem unread_advance (n : Nat) : unread (advance s n) = (unread s).drop n := by
  simp [unread, List.drop_drop]

/-- The byte at BC.pos is the first byte not read. -/
theorem getElem?_pos : s.bc.buf[s.bc.pos]? = (unread s).head? := by
  simp [unread]

theorem length_unread : (unread s).length = s.bc.buf.length - s.bc.pos := by
  simp [unread]

/-- R180: everything consume can do. -/
theorem bcConsume_eq : bcConsume s = match unread s with
    | []     => .error (.raised (.truncatedInput .byteCursorEnd)) (markError .cp s)
    | b :: _ => .ok b (advance s 1) := by
  unfold bcConsume
  rw [op_bind, op_getBC]
  simp only
  rw [getElem?_pos]
  cases unread s <;> simp [op_bind, advance]

theorem bcConsume_cons {b : Byte} {rest : List Byte} (h : unread s = b :: rest) :
    bcConsume s = .ok b (advance s 1) := by
  rw [bcConsume_eq, h]

theorem bcConsume_nil (h : unread s = []) :
    bcConsume s = .error (.raised (.truncatedInput .byteCursorEnd)) (markError .cp s) := by
  rw [bcConsume_eq, h]

/-- R182: everything take can do. -/
theorem bcTake_eq (n : Nat) :
    bcTake n s = .ok ((unread s).take n) (advance s (min n (unread s).length)) := by
  have h : (unread s).take (min n (unread s).length) = (unread s).take n := by
    rw [← List.take_take, List.take_length]
  unfold bcTake
  rw [op_bind, op_getBC]
  simp only [op_bind, op_putBC, op_pure]
  rw [← length_unread s]
  simp only [memRead]
  rw [show s.bc.buf.drop s.bc.pos = unread s from rfl, h]
  rfl

/-- R183: everything takeExact can do. -/
theorem bcTakeExact_eq (n : Nat) : bcTakeExact n s =
    if (unread s).length < n then
      .error (.raised (.truncatedInput .byteCursorEnd))
        (markError .cp (advance s (unread s).length))
    else .ok ((unread s).take n) (advance s n) := by
  unfold bcTakeExact
  rw [op_bind, bcTake_eq]
  simp only [List.length_take]
  by_cases h : (unread s).length < n
  · rw [if_pos (by omega), if_pos h, Nat.min_eq_right (by omega)]
    rfl
  · rw [if_neg (by omega), if_neg h, Nat.min_eq_left (by omega)]
    rfl

theorem bcTakeExact_append {front rest : List Byte} {n : Nat} (hn : front.length = n)
    (h : unread s = front ++ rest) : bcTakeExact n s = .ok front (advance s n) := by
  rw [bcTakeExact_eq, h, if_neg (by simp; omega)]
  simp [← hn]

/-- R184: a 16-bit read of two bytes that are there. -/
theorem bcReadLE16_cons {lo hi : Byte} {rest : List Byte} (h : unread s = lo :: hi :: rest) :
    bcReadLE16 s = .ok (le16 lo hi) (advance s 2) := by
  have h' : unread (advance s 1) = hi :: rest := by rw [unread_advance, h]; rfl
  unfold bcReadLE16
  rw [op_bind_of_ok s _ _ (bcConsume_cons s h), op_bind_of_ok _ _ _ (bcConsume_cons _ h')]
  simp

/-- R184: a 16-bit read with no byte left. -/
theorem bcReadLE16_nil (h : unread s = []) :
    bcReadLE16 s = .error (.raised (.truncatedInput .byteCursorEnd)) (markError .cp s) := by
  unfold bcReadLE16
  rw [op_bind_of_error s _ _ (bcConsume_nil s h)]

/-- R184: "With one byte left, the first consume succeeds and the second raises." -/
theorem bcReadLE16_one {lo : Byte} (h : unread s = [lo]) :
    bcReadLE16 s =
      .error (.raised (.truncatedInput .byteCursorEnd)) (markError .cp (advance s 1)) := by
  have h' : unread (advance s 1) = [] := by rw [unread_advance, h]; rfl
  unfold bcReadLE16
  rw [op_bind_of_ok s _ _ (bcConsume_cons s h), op_bind_of_error _ _ _ (bcConsume_nil _ h')]

end Sys2Proof.Machine
end

