-- ==== Sys2Proof/Laws/Dict.lean ====
section
/-! SUPPORT. The two dictionaries: a read after a write, the seed, and that every memory operation keeps the
canonical form. -/

namespace Sys2Proof.Machine

/-! ## The decoder's table -/

/-- The canonical form, spelled out. -/
theorem dictWf_iff (d : DecDict) : dictWf d = true ↔
    (d.Pairwise fun a b => a.1 < b.1) ∧ ∀ e ∈ d, e.1 < Config.dictEntries ∧ e.2 ≠ [] := by
  simp [dictWf]

/-- A write reads back, and leaves every other code alone. -/
theorem dictGet_dictSet (d : DecDict) (c c' : Nat) (v : List Nat) (h : dictWf d = true) :
    dictGet (dictSet d c v) c' = if c = c' then some v else dictGet d c' := by
  induction d with
  | nil => rfl
  | cons e d ih =>
    obtain ⟨k, w⟩ := e
    have hd : dictWf d = true := by
      rw [dictWf_iff] at h ⊢
      exact ⟨(List.pairwise_cons.mp h.1).2, fun e he => h.2 e (List.mem_cons_of_mem _ he)⟩
    unfold dictSet
    split
    · simp [dictGet]
    · split
      · next hck =>
        subst hck
        by_cases hc : c = c' <;> simp [dictGet, hc]
      · next hlt hne =>
        simp only [dictGet]
        rw [ih hd]
        by_cases hk : k = c'
        · subst hk
          simp [hne]
        · simp [hk]

theorem mem_dictSet {d : DecDict} {c : Nat} {v : List Nat} {e : Nat × List Nat}
    (h : e ∈ dictSet d c v) : e = (c, v) ∨ e ∈ d := by
  induction d with
  | nil => simpa [dictSet] using h
  | cons x d ih =>
    obtain ⟨k, w⟩ := x
    unfold dictSet at h
    split at h
    · simpa using h
    · split at h
      · rcases List.mem_cons.mp h with h | h
        · exact .inl h
        · exact .inr (List.mem_cons_of_mem _ h)
      · rcases List.mem_cons.mp h with h | h
        · exact .inr (h ▸ List.mem_cons_self)
        · rcases ih h with h | h
          · exact .inl h
          · exact .inr (List.mem_cons_of_mem _ h)

/-- A write of a non-empty sequence at one of the 4096 codes keeps the canonical form. -/
theorem dictWf_dictSet {d : DecDict} {c : Nat} {v : List Nat} (h : dictWf d = true)
    (hc : c < Config.dictEntries) (hv : v ≠ []) : dictWf (dictSet d c v) = true := by
  rw [dictWf_iff] at h ⊢
  refine ⟨?_, ?_⟩
  · obtain ⟨hp, -⟩ := h
    induction d with
    | nil => simp [dictSet]
    | cons x d ih =>
      obtain ⟨k, w⟩ := x
      rw [List.pairwise_cons] at hp
      unfold dictSet
      split
      · next hlt =>
        refine List.pairwise_cons.mpr ⟨fun e he => ?_, List.pairwise_cons.mpr hp⟩
        rcases List.mem_cons.mp he with rfl | he
        · exact hlt
        · exact Nat.lt_trans hlt (hp.1 e he)
      · split
        · next hck =>
          subst hck
          exact List.pairwise_cons.mpr ⟨fun e he => hp.1 e he, hp.2⟩
        · next hlt hne =>
          refine List.pairwise_cons.mpr ⟨fun e he => ?_, ih hp.2⟩
          rcases mem_dictSet he with rfl | he
          · exact Nat.lt_of_le_of_ne (Nat.le_of_not_lt hlt) (Ne.symm hne)
          · exact hp.1 e he
  · intro e he
    rcases mem_dictSet he with rfl | he
    · exact ⟨hc, hv⟩
    · exact h.2 e he

theorem dictGet_map_range (n c : Nat) (start : Nat) :
    dictGet ((List.range' start n).map fun c => (c, [c])) c =
      if start ≤ c ∧ c < start + n then some [c] else none := by
  induction n generalizing start with
  | zero =>
    rw [if_neg (by omega)]
    rfl
  | succ n ih =>
    simp only [List.range'_succ, List.map_cons, dictGet, ih]
    by_cases h : start = c
    · subst h
      simp
    · rw [if_neg h]
      by_cases h' : start + 1 ≤ c ∧ c < start + 1 + n
      · rw [if_pos h', if_pos (by omega)]
      · rw [if_neg h', if_neg (by omega)]

/-- R44, R211: the seed holds the singletons below clearCode and nothing else. -/
theorem dictGet_dictSeed (n c : Nat) :
    dictGet (dictSeed n) c = if c < n ∧ c < Config.dictEntries then some [c] else none := by
  unfold dictSeed
  rw [List.range_eq_range', dictGet_map_range]
  by_cases h : c < n ∧ c < Config.dictEntries
  · rw [if_pos h, if_pos (by omega)]
  · rw [if_neg h, if_neg (by omega)]

/-- The seed is in canonical form. -/
theorem dictWf_dictSeed (n : Nat) : dictWf (dictSeed n) = true := by
  rw [dictWf_iff]
  refine ⟨?_, fun e he => ?_⟩
  · unfold dictSeed
    rw [List.pairwise_map]
    exact List.pairwise_lt_range
  · simp only [dictSeed, List.mem_map, List.mem_range] at he
    obtain ⟨c, hc, rfl⟩ := he
    exact ⟨Nat.lt_of_lt_of_le hc (Nat.min_le_right _ _), List.cons_ne_nil _ _⟩

/-! ## The encoder's map -/

/-- The canonical form, spelled out. -/
theorem encWf_iff (d : EncDict) : encWf d = true ↔
    ((d.Pairwise fun a b => a.2 < b.2) ∧ d.Pairwise fun a b => a.1 ≠ b.1) ∧ ∀ e ∈ d, e.1 ≠ [] := by
  simp [encWf]

theorem encGet_encPlace (d : EncDict) (s t : List Nat) (c : Nat) (h : ∀ e ∈ d, e.1 ≠ s) :
    encGet (encPlace d s c) t = if s = t then some c else encGet d t := by
  induction d with
  | nil => rfl
  | cons e d ih =>
    obtain ⟨k, b⟩ := e
    have hk : k ≠ s := h (k, b) List.mem_cons_self
    unfold encPlace
    split
    · simp [encGet]
    · simp only [encGet]
      rw [ih fun e he => h e (List.mem_cons_of_mem _ he)]
      by_cases hkt : k = t
      · subst hkt
        simp [Ne.symm hk]
      · simp [hkt]

theorem encGet_filter (d : EncDict) (s t : List Nat) (h : s ≠ t) :
    encGet (d.filter fun e => e.1 ≠ s) t = encGet d t := by
  induction d with
  | nil => rfl
  | cons e d ih =>
    obtain ⟨k, b⟩ := e
    by_cases hk : k = s
    · subst hk
      rw [List.filter_cons_of_neg (by simp)]
      rw [ih, encGet, if_neg h]
    · rw [List.filter_cons_of_pos (by simpa using hk)]
      simp only [encGet, ih]

/-- A write reads back, and leaves every other sequence alone. -/
theorem encGet_encSet (d : EncDict) (s t : List Nat) (c : Nat) :
    encGet (encSet d s c) t = if s = t then some c else encGet d t := by
  unfold encSet
  rw [encGet_encPlace _ _ _ _ fun e he => by simpa using (List.mem_filter.mp he).2]
  by_cases h : s = t
  · simp [h]
  · rw [if_neg h, if_neg h, encGet_filter d s t h]

theorem mem_encPlace {d : EncDict} {s : List Nat} {c : Nat} {e : List Nat × Nat}
    (h : e ∈ encPlace d s c) : e = (s, c) ∨ e ∈ d := by
  induction d with
  | nil => simpa [encPlace] using h
  | cons x d ih =>
    obtain ⟨k, b⟩ := x
    unfold encPlace at h
    split at h
    · simpa using h
    · rcases List.mem_cons.mp h with h | h
      · exact .inr (h ▸ List.mem_cons_self)
      · rcases ih h with h | h
        · exact .inl h
        · exact .inr (List.mem_cons_of_mem _ h)

/-- A write of a non-empty sequence at a code not in use keeps the canonical form. -/
theorem encWf_encSet {d : EncDict} {s : List Nat} {c : Nat} (h : encWf d = true) (hs : s ≠ [])
    (hc : ∀ e ∈ d, e.2 ≠ c) : encWf (encSet d s c) = true := by
  rw [encWf_iff] at h ⊢
  obtain ⟨⟨hcodes, hkeys⟩, hne⟩ := h
  have hf : ∀ e ∈ d.filter (fun e => e.1 ≠ s), e ∈ d ∧ e.1 ≠ s := fun e he => by
    simpa using List.mem_filter.mp he
  refine ⟨⟨?_, ?_⟩, ?_⟩
  · have hp : (d.filter fun e => e.1 ≠ s).Pairwise fun a b => a.2 < b.2 := hcodes.filter _
    have hc' : ∀ e ∈ d.filter (fun e => e.1 ≠ s), e.2 ≠ c := fun e he => hc e (hf e he).1
    unfold encSet
    generalize d.filter (fun e => e.1 ≠ s) = d' at hp hc'
    clear hcodes hkeys hne hc hf
    induction d' with
    | nil => simp [encPlace]
    | cons x d' ih =>
      obtain ⟨k, b⟩ := x
      rw [List.pairwise_cons] at hp
      have hb : b ≠ c := hc' (k, b) List.mem_cons_self
      unfold encPlace
      split
      · next hlt =>
        refine List.pairwise_cons.mpr ⟨fun e he => ?_, List.pairwise_cons.mpr hp⟩
        rcases List.mem_cons.mp he with rfl | he
        · exact hlt
        · exact Nat.lt_trans hlt (hp.1 e he)
      · next hlt =>
        refine List.pairwise_cons.mpr ⟨fun e he => ?_, ih hp.2 fun e he => hc' e (List.mem_cons_of_mem _ he)⟩
        rcases mem_encPlace he with rfl | he
        · exact Nat.lt_of_le_of_ne (Nat.le_of_not_lt hlt) hb
        · exact hp.1 e he
  · have hp : (d.filter fun e => e.1 ≠ s).Pairwise fun a b => a.1 ≠ b.1 := hkeys.filter _
    have hs' : ∀ e ∈ d.filter (fun e => e.1 ≠ s), e.1 ≠ s := fun e he => (hf e he).2
    unfold encSet
    generalize d.filter (fun e => e.1 ≠ s) = d' at hp hs'
    clear hcodes hkeys hne hc hf
    induction d' with
    | nil => simp [encPlace]
    | cons x d' ih =>
      obtain ⟨k, b⟩ := x
      rw [List.pairwise_cons] at hp
      have hk : k ≠ s := hs' (k, b) List.mem_cons_self
      unfold encPlace
      split
      · refine List.pairwise_cons.mpr ⟨fun e he => ?_, List.pairwise_cons.mpr hp⟩
        exact Ne.symm (hs' e he)
      · refine List.pairwise_cons.mpr ⟨fun e he => ?_, ih hp.2 fun e he => hs' e (List.mem_cons_of_mem _ he)⟩
        rcases mem_encPlace he with rfl | he
        · exact hk
        · exact hp.1 e he
  · intro e he
    rcases mem_encPlace he with rfl | he
    · exact hs
    · exact hne e (hf e he).1

theorem encGet_map_range (n i start : Nat) (t : List Nat) :
    encGet ((List.range' start n).map fun i => ([i], i)) t = some i ↔
      t = [i] ∧ start ≤ i ∧ i < start + n := by
  induction n generalizing start with
  | zero => simp [encGet]
  | succ n ih =>
    simp only [List.range'_succ, List.map_cons, encGet]
    by_cases h : [start] = t
    · subst h
      rw [if_pos rfl]
      constructor
      · intro h
        cases h
        exact ⟨rfl, by omega, by omega⟩
      · rintro ⟨h, -, -⟩
        cases h
        rfl
    · rw [if_neg h, ih]
      constructor
      · rintro ⟨rfl, h1, h2⟩
        exact ⟨rfl, by omega, by omega⟩
      · rintro ⟨rfl, h1, h2⟩
        have : start ≠ i := fun e => h (by rw [e])
        exact ⟨rfl, by omega, by omega⟩

/-- R53, R252: the seed maps the singletons below clearCode to themselves and nothing else. -/
theorem encGet_encSeed (n i : Nat) (t : List Nat) :
    encGet (encSeed n) t = some i ↔ t = [i] ∧ i < n := by
  unfold encSeed
  rw [List.range_eq_range', encGet_map_range]
  simp

/-- The seed is in canonical form. -/
theorem encWf_encSeed (n : Nat) : encWf (encSeed n) = true := by
  rw [encWf_iff]
  refine ⟨⟨?_, ?_⟩, fun e he => ?_⟩
  · unfold encSeed
    rw [List.pairwise_map]
    exact List.pairwise_lt_range
  · unfold encSeed
    rw [List.pairwise_map]
    refine List.pairwise_lt_range.imp fun h e => ?_
    cases e
    exact Nat.lt_irrefl _ h
  · simp only [encSeed, List.mem_map] at he
    obtain ⟨c, -, rfl⟩ := he
    exact List.cons_ne_nil _ _

/-- The tables of the power-on state are in canonical form. -/
theorem reset_memory_wf : Memory.wf State.reset = true := by decide

end Sys2Proof.Machine
end

