-- ==== Sys2Proof/Laws/Decoder.lean ====
section
/-! SUPPORT. What each operation of the LZW decoder can do. -/

namespace Sys2Proof.Machine

variable (s : State)

/-- R211: everything unitReset can do. -/
theorem lzdUnitReset_eq : lzdUnitReset s = .ok () (s.setLZD (freshDecoder s.lzd)) := rfl

/-- R210: everything init can do. -/
theorem lzdInit_eq (m : Byte) (subs : Blocks) : lzdInit m subs s = .ok ()
    ((s.setBSR { bits := [] }).setLZD (freshDecoder
      { s.lzd with
        minCodeSize := m, clearCode := 2 ^ m.toNat, eoiCode := 2 ^ m.toNat + 1, subs := subs,
        subIdx := 0, out := [], phase := .run })) := rfl

/-! ## Fetching a code (R212) -/

@[simp] theorem pushed_zero : pushed s 0 = s := by
  simp [pushed, State.setBSR, State.setLZD]

@[simp] theorem pushed_lzd (k : Nat) : (pushed s k).lzd = { s.lzd with subIdx := s.lzd.subIdx + k } := rfl

@[simp] theorem pushed_bsr (k : Nat) : (pushed s k).bsr =
    { bits := s.bsr.bits ++ bytesBits ((s.lzd.subs.drop s.lzd.subIdx).take k).flatten } := rfl

/-- One push, then the others. -/
theorem pushed_succ {b : List Byte} (h : s.lzd.subs[s.lzd.subIdx]? = some b) (k : Nat) :
    pushed ((s.setBSR { bits := s.bsr.bits ++ bytesBits b }).setLZD
      { s.lzd with subIdx := s.lzd.subIdx + 1 }) k = pushed s (k + 1) := by
  have hd : s.lzd.subs.drop s.lzd.subIdx = b :: s.lzd.subs.drop (s.lzd.subIdx + 1) := by
    obtain ⟨hi, hb⟩ := List.getElem?_eq_some_iff.mp h
    rw [← hb, List.getElem_cons_drop]
  simp only [pushed, State.setBSR_bsr, State.setLZD_bsr, State.setLZD_lzd, hd, List.take_succ_cons,
    List.flatten_cons, bytesBits_append, ← List.append_assoc]
  simp [State.setLZD, State.setBSR, Nat.add_assoc, Nat.add_comm 1 k]

/-- Everything the loop of fetchCode can do: it pushes sub-blocks one at a time until the code's bits are
there, or none is left. -/
theorem lzdFill_spec (hw : isWidth s.lzd.codeSize = true) (left : Nat)
    (hl : left = s.lzd.subs.length - s.lzd.subIdx) :
    ∃ k, k ≤ left ∧ lzdFill left s = .ok () (pushed s k) ∧
      (∀ j, j < k → (pushed s j).bsr.bits.length < s.lzd.codeSize) ∧
      (s.lzd.codeSize ≤ (pushed s k).bsr.bits.length ∨ k = left) := by
  induction left generalizing s with
  | zero =>
    refine ⟨0, Nat.le_refl _, ?_, fun j hj => absurd hj (Nat.not_lt_zero _), .inr rfl⟩
    simp [lzdFill, op_bind, op_map, bsrHasBits_eq, hw]
  | succ left ih =>
    have hb : s.lzd.subIdx < s.lzd.subs.length := by omega
    have hget := List.getElem?_eq_getElem hb
    unfold lzdFill
    rw [op_bind, op_getLZD]
    simp only [op_bind, bsrHasBits_eq, hw, if_true]
    by_cases he : s.lzd.codeSize ≤ s.bsr.bits.length
    · refine ⟨0, Nat.zero_le _, ?_, fun j hj => absurd hj (Nat.not_lt_zero _), .inl (by simpa using he)⟩
      simp [he]
    · simp only [he, decide_false, Bool.false_eq_true, if_false, hget, bsrPushBytes_eq, op_bind,
        op_putLZD]
      obtain ⟨k, hk, hrun, hlt, hend⟩ := ih
        ((s.setBSR { bits := s.bsr.bits ++ bytesBits s.lzd.subs[s.lzd.subIdx] }).setLZD
          { s.lzd with subIdx := s.lzd.subIdx + 1 }) hw (by simp; omega)
      rw [pushed_succ s hget] at hrun hend
      refine ⟨k + 1, Nat.succ_le_succ hk, hrun, fun j hj => ?_, hend.imp id fun h => by rw [h]⟩
      cases j with
      | zero => simpa using Nat.lt_of_not_le he
      | succ j =>
        have := hlt j (Nat.lt_of_succ_lt_succ hj)
        rwa [pushed_succ s hget] at this

/-- Pushing sub-blocks leaves the bits to read as they are. -/
theorem codeSupply_pushed (k : Nat) : codeSupply (pushed s k) = codeSupply s := by
  simp only [codeSupply, pushed_bsr, pushed_lzd, List.append_assoc, ← bytesBits_append,
    ← List.flatten_append]
  rw [← List.drop_drop, List.take_append_drop]

/-- R212: a code whose bits are there is read whole, after as few pushes as give its bits. -/
theorem lzdFetchCode_ok (hw : isWidth s.lzd.codeSize = true)
    (h : s.lzd.codeSize ≤ (codeSupply s).length) :
    ∃ k, k ≤ s.lzd.subs.length - s.lzd.subIdx ∧ s.lzd.codeSize ≤ (pushed s k).bsr.bits.length ∧
      (∀ j, j < k → (pushed s j).bsr.bits.length < s.lzd.codeSize) ∧
      lzdFetchCode s = .ok (bitsValue ((codeSupply s).take s.lzd.codeSize))
        ((pushed s k).setBSR { bits := (pushed s k).bsr.bits.drop s.lzd.codeSize }) := by
  obtain ⟨k, hk, hrun, hlt, hend⟩ := lzdFill_spec s hw _ rfl
  have hsup := codeSupply_pushed s k
  have hlen : s.lzd.codeSize ≤ (pushed s k).bsr.bits.length := by
    rcases hend with h' | rfl
    · exact h'
    · have hnil : ((pushed s (s.lzd.subs.length - s.lzd.subIdx)).lzd.subs.drop
          (pushed s (s.lzd.subs.length - s.lzd.subIdx)).lzd.subIdx) = [] := by
        apply List.drop_eq_nil_of_le
        simp only [pushed_lzd]
        omega
      rw [← hsup, codeSupply, hnil] at h
      simpa using h
  refine ⟨k, hk, hlen, hlt, ?_⟩
  unfold lzdFetchCode
  rw [op_bind, op_getLZD]
  simp only
  rw [op_bind_of_ok s _ _ hrun, bsrReadBits_eq, if_pos hw, if_neg (Nat.not_lt.mpr hlen), ← hsup, codeSupply,
    List.take_append_of_le_length hlen]

/-- R212: a code whose bits are not all there. -/
theorem lzdFetchCode_short (hw : isWidth s.lzd.codeSize = true)
    (h : (codeSupply s).length < s.lzd.codeSize) :
    lzdFetchCode s = .error (.raised (.truncatedInput .bitStreamEnd))
      (markError .lzd (pushed s (s.lzd.subs.length - s.lzd.subIdx))) := by
  obtain ⟨k, hk, hrun, -, hend⟩ := lzdFill_spec s hw _ rfl
  have hsup := codeSupply_pushed s k
  have hlen : (pushed s k).bsr.bits.length < s.lzd.codeSize := by
    refine Nat.lt_of_le_of_lt ?_ h
    rw [← hsup, codeSupply, List.length_append]
    exact Nat.le_add_right _ _
  obtain rfl : k = s.lzd.subs.length - s.lzd.subIdx := by
    rcases hend with h' | h'
    · omega
    · exact h'
  unfold lzdFetchCode
  rw [op_bind, op_getLZD]
  simp only
  rw [op_bind_of_ok s _ _ hrun, bsrReadBits_eq, if_pos hw, if_pos hlen]

/-! ## Handling a code -/

theorem lzdEntry_eq (c : Nat) : lzdEntry c s =
    match dictGet s.lzd.dict c with
    | none   => .error (.stuck .entryMissing) s
    | some q => .ok q s := by
  unfold lzdEntry
  rw [op_bind, op_getLZD]
  simp only
  cases dictGet s.lzd.dict c <;> rfl

theorem headOf_cons (k : Nat) (w : List Nat) : headOf (k :: w) s = .ok k s := rfl

theorem lzdAppend_eq (q : List Nat) :
    lzdAppend q s = .ok () (s.setLZD { s.lzd with out := s.lzd.out ++ q }) := rfl

theorem lzdSetPrev_eq (c : Nat) : lzdSetPrev c s = .ok () (s.setLZD { s.lzd with prev := some c }) := rfl

theorem lzdPrevEntry_ok {p : Nat} {q : List Nat} (hp : s.lzd.prev = some p)
    (hq : dictGet s.lzd.dict p = some q) : lzdPrevEntry s = .ok q s := by
  unfold lzdPrevEntry
  rw [op_bind, op_getLZD]
  simp only [hp, lzdEntry_eq, hq]

/-- The two forms of R220's widening agree. -/
theorem assignNext_eq (d : LZWDecoder) (q : List Nat) (h : d.lastAssignedCode < 4095) :
    assignNext d q = assigned d q := by
  unfold assignNext assigned
  rw [if_pos h]
  by_cases hw : d.lastAssignedCode + 1 = d.growThreshold ∧ d.lastAssignedCode + 1 < 4095
  · have hw' : d.lastAssignedCode + 1 = d.growThreshold ∧ d.lastAssignedCode + 1 < Config.maxCode := hw
    rw [if_pos hw', if_pos hw, if_pos hw]
  · have hw' : ¬ (d.lastAssignedCode + 1 = d.growThreshold ∧ d.lastAssignedCode + 1 < Config.maxCode) := hw
    rw [if_neg hw', if_neg hw, if_neg hw]

/-- R220: everything assign can do, when prev has its sequence or the table is full. -/
theorem lzdAssign_ok {p : Nat} {q : List Nat} (k : Nat) (hp : s.lzd.prev = some p)
    (hq : dictGet s.lzd.dict p = some q) :
    lzdAssign k s = .ok () (s.setLZD (assigned s.lzd (q ++ [k]))) := by
  unfold lzdAssign
  rw [op_bind, op_getLZD]
  simp only
  by_cases h : s.lzd.lastAssignedCode < 4095
  · rw [if_pos (show s.lzd.lastAssignedCode < Config.maxCode from h),
      op_bind_of_ok s _ _ (lzdPrevEntry_ok s hp hq), op_putLZD, assignNext_eq _ _ h]
  · rw [if_neg (show ¬ s.lzd.lastAssignedCode < Config.maxCode from h), assigned, if_neg h]
    simp

/-- R220: a full table is left as it is. -/
theorem lzdAssign_full (k : Nat) (h : ¬ s.lzd.lastAssignedCode < 4095) : lzdAssign k s = .ok () s := by
  unfold lzdAssign
  rw [op_bind, op_getLZD]
  simp only
  rw [if_neg (show ¬ s.lzd.lastAssignedCode < Config.maxCode from h)]
  rfl

/-- R216: everything FIRST can do on a code that has a sequence. -/
theorem lzwFirst_ok {c : Nat} {q : List Nat} (hq : dictGet s.lzd.dict c = some q) :
    lzwFirst c s = .ok () (s.setLZD { s.lzd with out := s.lzd.out ++ q, prev := some c }) := by
  unfold lzwFirst
  rw [op_bind, lzdEntry_eq, hq]
  rfl

/-- R217: everything HIT can do on a code that has a sequence, when prev has one. -/
theorem lzwHit_ok {c p : Nat} {k : Nat} {w q : List Nat} (hc : dictGet s.lzd.dict c = some (k :: w))
    (hp : s.lzd.prev = some p) (hq : dictGet s.lzd.dict p = some q) :
    lzwHit c s = .ok () (s.setLZD
      { assigned { s.lzd with out := s.lzd.out ++ k :: w } (q ++ [k]) with prev := some c }) := by
  have h1 : lzdEntry c s = .ok (k :: w) s := by rw [lzdEntry_eq, hc]
  have h2 := lzdAssign_ok (s.setLZD { s.lzd with out := s.lzd.out ++ k :: w }) k hp hq
  unfold lzwHit
  rw [op_bind_of_ok s _ _ h1, op_bind_of_ok _ _ _ (lzdAppend_eq s (k :: w)),
    op_bind_of_ok _ _ _ (headOf_cons _ k w), op_bind_of_ok _ _ _ h2]
  rfl

/-- R218: everything NEXT can do when prev has its sequence. -/
theorem lzwNext_ok {c p : Nat} {k : Nat} {w : List Nat} (hp : s.lzd.prev = some p)
    (hq : dictGet s.lzd.dict p = some (k :: w)) :
    lzwNext c s = .ok () (s.setLZD
      { assigned { s.lzd with out := s.lzd.out ++ (k :: w ++ [k]) } (k :: w ++ [k]) with
        prev := some c }) := by
  have h2 := lzdAssign_ok (s.setLZD { s.lzd with out := s.lzd.out ++ (k :: w ++ [k]) }) k hp hq
  unfold lzwNext
  rw [op_bind_of_ok s _ _ (lzdPrevEntry_ok s hp hq), op_bind_of_ok _ _ _ (headOf_cons _ k w),
    op_bind_of_ok _ _ _ (lzdAppend_eq s _), op_bind_of_ok _ _ _ h2]
  rfl

/-- R219: BAD only raises. -/
theorem lzwBad_eq (c : Nat) :
    lzwBad c s = .error (.raised (.truncatedInput .badCode)) (markError .lzd s) := rfl

end Sys2Proof.Machine
end

