-- ==== Sys2Proof/Laws/Encoder.lean ====
section
/-! SUPPORT. What each operation of the LZW encoder can do. -/

namespace Sys2Proof.Machine

variable (s : State)

/-- R252: everything unitReset can do. -/
theorem lzeUnitReset_eq : lzeUnitReset s = .ok () (s.setLZE (freshEncoder s.lze)) := rfl

/-- R253: everything checkIndex can do. -/
theorem lzeCheckIndex_eq (k : Nat) : lzeCheckIndex k s =
    if k < s.lze.clearCode then .ok () s
    else .error (.raised (.assertionFailure .indexOutOfAlphabet)) (markError .lze s) := by
  unfold lzeCheckIndex
  rw [op_bind, op_getLZE]
  simp only
  by_cases h : k < s.lze.clearCode
  · rw [if_pos h, if_neg (Nat.not_le.mpr h)]
    rfl
  · rw [if_neg h, if_pos (Nat.le_of_not_lt h)]
    rfl

/-- LZE once its unit is set up, before the seed index is checked (R251). -/
theorem lzeInit_eq (m : Byte) (k : Nat) (rest : List Nat) : lzeInit m (k :: rest) s =
    if k < 2 ^ m.toNat then
      .ok () ((s.setBSW { acc := [], out := [] }).setLZE
        { freshEncoder { s.lze with
            minCodeSize := m, clearCode := 2 ^ m.toNat, eoiCode := 2 ^ m.toNat + 1,
            input := k :: rest, phase := .run } with indexBuffer := [k], inPos := 1 })
    else .error (.raised (.assertionFailure .indexOutOfAlphabet)) (markError .lze
      ((s.setBSW { acc := [], out := [] }).setLZE
        (freshEncoder { s.lze with
          minCodeSize := m, clearCode := 2 ^ m.toNat, eoiCode := 2 ^ m.toNat + 1,
          input := k :: rest, phase := .run }))) := by
  have h1 := lzeUnitReset_eq ((s.setLZE { s.lze with
    minCodeSize := m, clearCode := 2 ^ m.toNat, eoiCode := 2 ^ m.toNat + 1,
    input := k :: rest, phase := .run }).setBSW { acc := [], out := [] })
  have h2 := lzeCheckIndex_eq ((s.setBSW { acc := [], out := [] }).setLZE
    (freshEncoder { s.lze with
      minCodeSize := m, clearCode := 2 ^ m.toNat, eoiCode := 2 ^ m.toNat + 1,
      input := k :: rest, phase := .run })) k
  unfold lzeInit
  refine (op_bind_of_ok s _ _ (op_getLZE s)).trans ?_
  rw [op_bind_of_ok s _ _ (op_putLZE s _), op_bind_of_ok _ _ _ (op_putBSW _ _),
    op_bind_of_ok _ _ _ h1]
  by_cases h : k < 2 ^ m.toNat
  · rw [if_pos h]
    exact op_bind_of_ok _ _ _ (h2.trans (if_pos h))
  · rw [if_neg h]
    exact op_bind_of_error _ _ _ (h2.trans (if_neg h))

/-- R259: a code is written at the current width. -/
theorem lzeEmit_some (c : Nat) : lzeEmit (some c) s = bswWrite c s.lze.codeSize s := by
  unfold lzeEmit
  exact op_bind_of_ok s _ _ (op_getLZE s)

/-- R259: a code that is not there is a failed assertion. -/
theorem lzeEmit_none :
    lzeEmit none s = .error (.raised (.assertionFailure .missingEntry)) (markError .lze s) := rfl

/-- BSW with the bits of a code added (R190). -/
theorem lzeEmit_ok {c : Nat} (hw : isWidth s.lze.codeSize = true) (hc : c < 2 ^ s.lze.codeSize) :
    lzeEmit (some c) s = .ok () (s.setBSW
      { acc := (drainBytes (s.bsw.acc ++ codeBits s.lze.codeSize c)).2,
        out := s.bsw.out ++ (drainBytes (s.bsw.acc ++ codeBits s.lze.codeSize c)).1 }) := by
  rw [lzeEmit_some, bswWrite_ok s hw hc]

/-- Writing a code is writing its bits, bit 0 first. -/
theorem codeBits_eq_map (w c : Nat) : codeBits w c = (List.range w).map fun i => Nat.testBit c i := by
  induction w generalizing c with
  | zero => rfl
  | succ w ih =>
    rw [codeBits, ih, List.range_succ_eq_map, List.map_cons, List.map_map]
    refine congrArg₂ _ ?_ (List.map_congr_left fun i _ => ?_)
    · rw [Nat.testBit_zero]
      rfl
    · simp [Nat.testBit_succ]

/-- An emitted code has been written in the sense of R190. -/
theorem lzeEmit_written {c : Nat} (hw : isWidth s.lze.codeSize = true) (hc : c < 2 ^ s.lze.codeSize) :
    ∃ t, lzeEmit (some c) s = .ok () t ∧ Written c s.lze.codeSize s t := by
  refine ⟨_, lzeEmit_ok s hw hc, rfl, ?_, ?_, ?_⟩
  · exact (drainBytes_stream s.bsw _).2
  · exact List.prefix_append _ _
  · rw [← codeBits_eq_map]
    exact (drainBytes_stream s.bsw _).1

/-- R255: everything EXTEND can do. -/
theorem lzeExtend_eq (k : Nat) :
    lzeExtend k s = .ok () (s.setLZE { s.lze with indexBuffer := s.lze.indexBuffer ++ [k] }) := rfl

/-- R256, R257: everything MISS can do on a code of at most 4095, once its buffer's code is written. -/
theorem lzeMiss_insert {k : Nat} {t : State} (he : lzeEmit (encGet s.lze.dict s.lze.indexBuffer) s = .ok () t)
    (hn : s.lze.nextCode ≤ 4095) : lzeMiss k s = .ok () (t.setLZE (inserted s.lze k)) := by
  unfold lzeMiss
  rw [op_bind_of_ok s _ _ (op_getLZE s), op_bind_of_ok s _ _ he, op_bind_of_ok _ _ _ (op_putLZE _ _),
    if_neg (show ¬ Config.maxCode < s.lze.nextCode from Nat.not_lt.mpr hn)]
  by_cases h : 2 ^ s.lze.codeSize ≤ s.lze.nextCode
  · rw [if_pos h, inserted, if_pos h]
    rfl
  · rw [if_neg h, inserted, if_neg h]
    rfl

/-- R256, R258: everything MISS can do on the code 4096, once its buffer's code is written: a CLEAR at the
width as it is, and a fresh unit. -/
theorem lzeMiss_reset {k : Nat} {t u : State}
    (he : lzeEmit (encGet s.lze.dict s.lze.indexBuffer) s = .ok () t) (hn : 4095 < s.lze.nextCode)
    (hu : lzeEmit (some s.lze.clearCode) (t.setLZE (insertNext s.lze k)) = .ok () u) :
    lzeMiss k s = .ok () (u.setLZE (freshEncoder u.lze)) := by
  unfold lzeMiss lzeResetUnit
  rw [op_bind_of_ok s _ _ (op_getLZE s), op_bind_of_ok s _ _ he, op_bind_of_ok _ _ _ (op_putLZE _ _),
    if_pos (show Config.maxCode < s.lze.nextCode from hn), op_bind_of_ok _ _ _ (op_getLZE _)]
  exact op_bind_of_ok _ _ _ hu

/-- R258: everything resetUnit can do, once its CLEAR is written. -/
theorem lzeResetUnit_ok {t : State} (he : lzeEmit (some s.lze.clearCode) s = .ok () t) :
    lzeResetUnit s = .ok () (t.setLZE (freshEncoder t.lze)) := by
  unfold lzeResetUnit
  rw [op_bind_of_ok s _ _ (op_getLZE s), op_bind_of_ok s _ _ he, lzeUnitReset_eq]

/-- R254: the next index is consumed, if it lies in the alphabet. -/
theorem lzeNextIndex_eq {k : Nat} (hk : s.lze.input[s.lze.inPos]? = some k) : lzeNextIndex s =
    if k < s.lze.clearCode then .ok k (s.setLZE { s.lze with inPos := s.lze.inPos + 1 })
    else .error (.raised (.assertionFailure .indexOutOfAlphabet))
      (markError .lze (s.setLZE { s.lze with inPos := s.lze.inPos + 1 })) := by
  have h2 := lzeCheckIndex_eq (s.setLZE { s.lze with inPos := s.lze.inPos + 1 }) k
  unfold lzeNextIndex
  rw [op_bind_of_ok s _ _ (op_getLZE s)]
  simp only [hk]
  rw [op_bind_of_ok s _ _ (op_putLZE s _)]
  by_cases h : k < s.lze.clearCode
  · rw [if_pos (show k < (s.setLZE { s.lze with inPos := s.lze.inPos + 1 }).lze.clearCode from h)] at h2
    rw [if_pos h, op_bind_of_ok _ _ _ h2]
    rfl
  · rw [if_neg (show ¬ k < (s.setLZE { s.lze with inPos := s.lze.inPos + 1 }).lze.clearCode from h)] at h2
    rw [if_neg h, op_bind_of_error _ _ _ h2]

/-- R254: a step is the index consumed, then EXTEND or MISS as the dictionary says. -/
theorem lzeStep_eq {k : Nat} (hk : s.lze.input[s.lze.inPos]? = some k) (hc : k < s.lze.clearCode) :
    lzeStep s = (if lzeKnows s.lze k then lzeExtend k else lzeMiss k)
      (s.setLZE { s.lze with inPos := s.lze.inPos + 1 }) := by
  unfold lzeStep
  rw [op_bind_of_ok s _ _ ((lzeNextIndex_eq s hk).trans (if_pos hc)), op_bind_of_ok _ _ _ (op_getLZE _)]
  rfl

/-- R260, R261: everything finish can do, once its two codes are written. -/
theorem lzeFinish_ok {t u : State} (he : lzeEmit (encGet s.lze.dict s.lze.indexBuffer) s = .ok () t)
    (hu : lzeEmit (some s.lze.eoiCode) (t.setLZE { s.lze with
      codeSize := if widensAtEnd s.lze then s.lze.codeSize + 1 else s.lze.codeSize }) = .ok () u)
    (ht : t.lze = s.lze) :
    lzeFinish s = .ok () (u.setLZE { u.lze with phase := .done }) := by
  unfold lzeFinish
  rw [op_bind_of_ok s _ _ (op_getLZE s), op_bind_of_ok s _ _ he]
  by_cases h : widensAtEnd s.lze = true
  · rw [if_pos h] at hu ⊢
    rw [op_bind_of_ok _ _ _ (op_putLZE _ _)]
    exact op_bind_of_ok _ _ _ hu
  · rw [if_neg h] at hu ⊢
    have hs : t.setLZE s.lze = t := by rw [← ht]; rfl
    rw [show ({ s.lze with codeSize := s.lze.codeSize } : LZWEncoder) = s.lze from rfl, hs] at hu
    exact op_bind_of_ok _ _ _ hu

/-- A write changes BSW only. -/
theorem lzeEmit_lze {code : Option Nat} {t : State} (h : lzeEmit code s = .ok () t) : t = s.setBSW t.bsw := by
  cases code with
  | none => cases h
  | some c =>
    rw [lzeEmit_some, bswWrite_eq] at h
    split at h
    · cases h
      rfl
    · cases h

end Sys2Proof.Machine
end

