-- ==== Sys2Proof/Laws/Legal.lean ====
section
/-! SUPPORT. The dictionary operations of the two LZW units keep the legal shapes of 10_state.md, R222 and
R262. -/

namespace Sys2Proof.Machine

theorem mcsInRange_iff (m : Byte) : mcsInRange m = true ↔ 2 ≤ m.toNat ∧ m.toNat ≤ 8 := by
  simp only [mcsInRange, Bool.and_eq_true, decide_eq_true_eq]
  exact Iff.rfl

/-- The first width leaves room above the reserved codes (R210, R251). -/
theorem two_pow_mcs {m : Nat} (h : 2 ≤ m) (h8 : m ≤ 8) :
    4 ≤ 2 ^ m ∧ 2 ^ m ≤ 256 ∧ 2 ^ (m + 1) = 2 * 2 ^ m := by
  refine ⟨?_, ?_, ?_⟩
  · exact Nat.pow_le_pow_right (n := 2) (by omega) h
  · exact Nat.pow_le_pow_right (n := 2) (by omega) h8
  · rw [Nat.pow_succ]; omega

/-! ## The decoder -/

/-- R211: a fresh unit is legal, whatever the unit before it was. -/
theorem decoderLegal_fresh {d : LZWDecoder} (hm : mcsInRange d.minCodeSize = true)
    (hc : d.clearCode = 2 ^ d.minCodeSize.toNat) (he : d.eoiCode = d.clearCode + 1)
    (ho : ∀ i ∈ d.out, i < d.clearCode) (hs : d.subIdx ≤ d.subs.length) :
    DecoderLegal (freshDecoder d) := by
  obtain ⟨h2, h8⟩ := (mcsInRange_iff _).mp hm
  obtain ⟨p1, p2, p3⟩ := two_pow_mcs h2 h8
  have hget : ∀ c q, dictGet (dictSeed d.clearCode) c = some q → c < d.clearCode ∧ q = [c] := fun c q h => by
    rw [dictGet_dictSeed] at h
    split at h
    · next hc => cases h; exact ⟨hc.1, rfl⟩
    · cases h
  have hin : ∀ c, c < d.clearCode → dictGet (dictSeed d.clearCode) c = some [c] := fun c h => by
    have : c < 4096 := Nat.lt_of_lt_of_le h (by rw [hc]; omega)
    rw [dictGet_dictSeed, if_pos ⟨h, this⟩]
  refine
    { mcs := hm, clear := hc, eoi := he, widthLow := Nat.le_refl _, widthHigh := ?_,
      lastLow := Nat.le_refl _, lastHigh := ?_, threshold := rfl, below := .inl ?_, table := ?_,
      prev := fun p h => (by cases h), out := ho, subIdx := hs }
  · show d.minCodeSize.toNat + 1 ≤ 12
    omega
  · show d.eoiCode ≤ 4095
    omega
  · show d.eoiCode < 2 ^ (d.minCodeSize.toNat + 1) - 1
    omega
  · refine
      { canonical := dictWf_dictSeed _, defined := fun c => ?_, singleton := hin, grown := ?_, bounded := ?_,
        alphabet := ?_ }
    · show dictGet (dictSeed d.clearCode) c ≠ none ↔ c < d.clearCode ∨ (d.eoiCode < c ∧ c ≤ d.eoiCode)
      constructor
      · intro h
        obtain ⟨q, hq⟩ := Option.ne_none_iff_exists'.mp h
        exact .inl (hget c q hq).1
      · rintro (h | ⟨h1, h2⟩)
        · rw [hin c h]
          exact Option.some_ne_none _
        · exact absurd h1 (Nat.not_lt.mpr h2)
    · intro c q h1 h2
      have h3 : d.eoiCode < c := h1
      exact absurd (hget c q h2).1 (by omega)
    · intro c q h1 h2
      have h3 : d.eoiCode < c := h1
      exact absurd (hget c q h2).1 (by omega)
    · intro c q h i hi
      obtain ⟨h1, rfl⟩ := hget c q h
      rw [List.mem_singleton] at hi
      exact hi ▸ h1

/-- R220: the shape of the table is kept by the assignment of the next code. -/
theorem tableLegal_set {d : LZWDecoder} (h : TableLegal d) (he : d.eoiCode = d.clearCode + 1)
    (hll : d.eoiCode ≤ d.lastAssignedCode) (hlt : d.lastAssignedCode < 4095) {p : Nat} {q : List Nat}
    (hq : dictGet d.dict p = some q) {k : Nat} (hk : k < d.clearCode) (d' : LZWDecoder)
    (h1 : d'.clearCode = d.clearCode) (h2 : d'.eoiCode = d.eoiCode)
    (h3 : d'.lastAssignedCode = d.lastAssignedCode + 1)
    (h4 : d'.dict = dictSet d.dict (d.lastAssignedCode + 1) (q ++ [k])) : TableLegal d' := by
  have hget : ∀ c, dictGet d'.dict c =
      if d.lastAssignedCode + 1 = c then some (q ++ [k]) else dictGet d.dict c := fun c => by
    rw [h4, dictGet_dictSet _ _ _ _ h.canonical]
  have hold : ∀ (c : Nat), c ≤ d.lastAssignedCode → dictGet d'.dict c = dictGet d.dict c := fun c hc => by
    rw [hget, if_neg (by omega)]
  have hp := (h.defined p).mp (by rw [hq]; exact Option.some_ne_none _)
  have hplast : p ≤ d.lastAssignedCode := by
    rcases hp with hp | hp
    · have : p < d.clearCode := hp
      omega
    · exact hp.2
  have hqlen : q.length ≤ d.lastAssignedCode - d.eoiCode + 1 := by
    rcases hp with hp | hp
    · rw [h.singleton p hp] at hq
      cases hq
      simp
    · have := h.bounded p q hp.1 hq
      have h5 : p ≤ d.lastAssignedCode := hplast
      have h6 : d.eoiCode < p := hp.1
      have h7 : q.length ≤ p - d.eoiCode + 1 := this
      omega
  refine
    { canonical := ?_, defined := fun c => ?_, singleton := fun c hc => ?_, grown := fun c s hc hs => ?_,
      bounded := fun c s hc hs => ?_, alphabet := fun c s hs i hi => ?_ }
  · rw [h4]
    exact dictWf_dictSet h.canonical (show d.lastAssignedCode + 1 < 4096 by omega) (by simp)
  · rw [hget, h1, h2, h3]
    by_cases hc : d.lastAssignedCode + 1 = c
    · subst hc
      simp
      omega
    · rw [if_neg hc, h.defined]
      have hc' : d.lastAssignedCode + 1 ≠ c := hc
      constructor
      · rintro (h5 | h5)
        · exact .inl h5
        · exact .inr ⟨h5.1, Nat.le_succ_of_le h5.2⟩
      · rintro (h5 | h5)
        · exact .inl h5
        · refine .inr ⟨h5.1, ?_⟩
          have h6 : c ≤ d.lastAssignedCode + 1 := h5.2
          show c ≤ d.lastAssignedCode
          omega
  · rw [h1] at hc
    have hc' : c < d.clearCode := hc
    rw [hold c (by omega)]
    exact h.singleton c hc
  · rw [h2] at hc
    rw [hget] at hs
    split at hs
    · cases hs
      exact ⟨p, q, k, by rw [hold p hplast, hq], by rw [h1]; exact hk, rfl⟩
    · obtain ⟨r, w, j, hr, hj, rfl⟩ := h.grown c s hc hs
      refine ⟨r, w, j, ?_, by rw [h1]; exact hj, rfl⟩
      rw [hget, if_neg, hr]
      intro e
      have hr' := (h.defined r).mp (by rw [hr]; exact Option.some_ne_none _)
      rcases hr' with h5 | h5
      · have h6 : r < d.clearCode := h5
        have h7 : d.lastAssignedCode + 1 = r := e
        omega
      · have h6 : r ≤ d.lastAssignedCode := h5.2
        have h7 : d.lastAssignedCode + 1 = r := e
        omega
  · rw [h2] at hc ⊢
    rw [hget] at hs
    split at hs
    · next e =>
      cases hs
      have h7 : d.lastAssignedCode + 1 = c := e
      rw [List.length_append, ← h7]
      simp
      omega
    · exact h.bounded c s hc hs
  · rw [h1]
    rw [hget] at hs
    split at hs
    · cases hs
      rcases List.mem_append.mp hi with hi | hi
      · exact h.alphabet p q hq i hi
      · rw [List.mem_singleton] at hi
        exact hi ▸ hk
    · exact h.alphabet c s hs i hi

/-- R220, R221: the assignment of the next code keeps a legal decoder. -/
theorem decoderLegal_assigned {d : LZWDecoder} (h : DecoderLegal d) {p : Nat} {q : List Nat}
    (hq : dictGet d.dict p = some q) {k : Nat} (hk : k < d.clearCode) :
    DecoderLegal (assigned d (q ++ [k])) := by
  unfold assigned
  split
  case isFalse => exact h
  next hlt =>
  have hth := h.threshold
  have hprev : ∀ r, d.prev = some r → dictGet (dictSet d.dict (d.lastAssignedCode + 1) (q ++ [k])) r ≠ none :=
    fun r hr => by
      rw [dictGet_dictSet _ _ _ _ h.table.canonical]
      split
      · exact Option.some_ne_none _
      · exact h.prev r hr
  have hlast := h.lastLow
  by_cases hw : d.lastAssignedCode + 1 = d.growThreshold ∧ d.lastAssignedCode + 1 < 4095
  · have hcs : d.codeSize ≤ 11 := by
      by_contra hc
      have : d.codeSize = 12 := by have := h.widthHigh; omega
      rw [this] at hth
      omega
    have hpow : 2 ^ (d.codeSize + 1) = 2 * 2 ^ d.codeSize := by rw [Nat.pow_succ]; omega
    exact
      { mcs := h.mcs, clear := h.clear, eoi := h.eoi
        widthLow := by
          have := h.widthLow
          simp only [if_pos hw]
          omega
        widthHigh := by
          simp only [if_pos hw]
          omega
        lastLow := Nat.le_succ_of_le h.lastLow
        lastHigh := hlt
        threshold := by simp only [if_pos hw]
        below := .inl (by simp only [if_pos hw]; omega)
        table := tableLegal_set h.table h.eoi h.lastLow hlt hq hk _ rfl rfl rfl rfl
        prev := hprev
        out := h.out
        subIdx := h.subIdx }
  · exact
      { mcs := h.mcs, clear := h.clear, eoi := h.eoi
        widthLow := by simp only [if_neg hw]; exact h.widthLow
        widthHigh := by simp only [if_neg hw]; exact h.widthHigh
        lastLow := Nat.le_succ_of_le h.lastLow
        lastHigh := hlt
        threshold := by simp only [if_neg hw]; exact h.threshold
        below := by
          simp only [if_neg hw]
          rcases h.below with hb | hb
          · by_cases hle : d.lastAssignedCode + 1 < d.growThreshold
            · exact .inl hle
            · right
              have h12 := h.widthHigh
              by_contra hne
              have h11 : 2 ^ d.codeSize ≤ 2 ^ 11 := Nat.pow_le_pow_right (by omega) (by omega)
              omega
          · exact .inr hb
        table := tableLegal_set h.table h.eoi h.lastLow hlt hq hk _ rfl rfl rfl rfl
        prev := hprev
        out := h.out
        subIdx := h.subIdx }

/-! ## The encoder -/

theorem encGet_mem {d : EncDict} {s : List Nat} {c : Nat} (h : encGet d s = some c) : (s, c) ∈ d := by
  induction d with
  | nil => cases h
  | cons e d ih =>
    obtain ⟨k, b⟩ := e
    unfold encGet at h
    split at h
    · next hk =>
      cases h
      subst hk
      exact List.mem_cons_self
    · exact List.mem_cons_of_mem _ (ih h)

theorem mem_encGet {d : EncDict} (hd : encWf d = true) {s : List Nat} {c : Nat} (h : (s, c) ∈ d) :
    encGet d s = some c := by
  rw [encWf_iff] at hd
  have hp := hd.1.2
  clear hd
  induction d with
  | nil => cases h
  | cons e d ih =>
    obtain ⟨k, b⟩ := e
    rw [List.pairwise_cons] at hp
    unfold encGet
    rcases List.mem_cons.mp h with h' | h'
    · cases h'
      rw [if_pos rfl]
    · rw [if_neg (hp.1 _ h'), ih h' hp.2]

/-- A key of a legal map is not the empty sequence. -/
theorem encGet_ne_nil {d : EncDict} (hd : encWf d = true) {s : List Nat} {c : Nat}
    (h : encGet d s = some c) : s ≠ [] := ((encWf_iff d).mp hd).2 _ (encGet_mem h)

/-- R262: every code in use is a literal or an assigned one. -/
theorem encGet_code {e : LZWEncoder} (h : MapLegal e) {s : List Nat} {c : Nat}
    (hs : encGet e.dict s = some c) : c < e.clearCode ∨ (e.eoiCode < c ∧ c < e.nextCode) := by
  match s, hs with
  | [], hs => exact absurd rfl (encGet_ne_nil h.canonical hs)
  | [i], hs =>
    rw [h.singleton] at hs
    split at hs
    · cases hs; exact .inl ‹_›
    · cases hs
  | _ :: _ :: _, hs => exact .inr ((h.assigned c).mp ⟨_, by simp, hs⟩)

/-- R252: a fresh map is legal. -/
theorem mapLegal_fresh (e : LZWEncoder) : MapLegal (freshEncoder e) := by
  refine ⟨encWf_encSeed _, fun i => ?_, fun c => ?_⟩
  · show encGet (encSeed e.clearCode) [i] = if i < e.clearCode then some i else none
    split
    · next h => exact (encGet_encSeed _ _ _).mpr ⟨rfl, h⟩
    · next h =>
      cases hg : encGet (encSeed e.clearCode) [i] with
      | none => rfl
      | some c =>
        obtain ⟨h1, h2⟩ := (encGet_encSeed e.clearCode c [i]).mp hg
        cases h1
        exact absurd h2 h
  · show (∃ s, 2 ≤ s.length ∧ encGet (encSeed e.clearCode) s = some c) ↔ e.eoiCode < c ∧ c < e.eoiCode + 1
    constructor
    · rintro ⟨s, h1, h2⟩
      obtain ⟨rfl, -⟩ := (encGet_encSeed e.clearCode c s).mp h2
      simp at h1
    · rintro ⟨h1, h2⟩
      exact absurd (Nat.lt_of_lt_of_le h1 (Nat.le_of_lt_succ h2)) (Nat.lt_irrefl _)

/-- R252: a fresh unit is legal when the buffer is one literal. -/
theorem encoderLegal_fresh {e : LZWEncoder} (hm : mcsInRange e.minCodeSize = true)
    (hc : e.clearCode = 2 ^ e.minCodeSize.toNat) (he : e.eoiCode = e.clearCode + 1) {k : Nat}
    (hk : k < e.clearCode) (hb : e.indexBuffer = [k]) (hp : e.inPos ≤ e.input.length) :
    EncoderLegal (freshEncoder e) := by
  obtain ⟨h2, h8⟩ := (mcsInRange_iff _).mp hm
  obtain ⟨p1, p2, p3⟩ := two_pow_mcs h2 h8
  have hmap := mapLegal_fresh e
  refine
    { mcs := hm, clear := hc, eoi := he, widthLow := Nat.le_refl _, widthHigh := ?_,
      nextLow := Nat.le_refl _, nextWidth := ?_, nextHigh := ?_, map := hmap, buffer := ?_, inPos := hp }
  · show e.minCodeSize.toNat + 1 ≤ 12
    omega
  · show e.eoiCode + 1 ≤ 2 ^ (e.minCodeSize.toNat + 1)
    omega
  · show e.eoiCode + 1 ≤ 4096
    omega
  · show encGet (freshEncoder e).dict e.indexBuffer ≠ none
    rw [hb, hmap.singleton, if_pos (show k < (freshEncoder e).clearCode from hk)]
    exact Option.some_ne_none _

/-- R256, R257, R262: a MISS that assigns a code of at most 4095 keeps a legal encoder. -/
theorem encoderLegal_inserted {e : LZWEncoder} (h : EncoderLegal e) {k : Nat} (hk : k < e.clearCode)
    (hn : e.nextCode ≤ 4095) (hmiss : encGet e.dict (e.indexBuffer ++ [k]) = none) :
    EncoderLegal (inserted e k) := by
  obtain ⟨b, hb⟩ := Option.ne_none_iff_exists'.mp h.buffer
  have hne : e.indexBuffer ≠ [] := encGet_ne_nil h.map.canonical hb
  have hlen : 2 ≤ (e.indexBuffer ++ [k]).length := by
    have := List.length_pos_iff.mpr hne
    rw [List.length_append]
    simp
    omega
  have hget : ∀ s, encGet (inserted e k).dict s =
      if e.indexBuffer ++ [k] = s then some e.nextCode else encGet e.dict s := fun s => encGet_encSet _ _ _ _
  have heoi := h.eoi
  have hlow := h.nextLow
  have hw := h.nextWidth
  have hcs : (inserted e k).codeSize = if 2 ^ e.codeSize ≤ e.nextCode then e.codeSize + 1 else e.codeSize := rfl
  have hpow : 2 ^ (e.codeSize + 1) = 2 * 2 ^ e.codeSize := by rw [Nat.pow_succ]; omega
  have hmap : MapLegal (inserted e k) := by
    refine ⟨?_, fun i => ?_, fun c => ?_⟩
    · refine encWf_encSet h.map.canonical (by simp) fun x hx => ?_
      intro hxc
      have h1 := encGet_code h.map (mem_encGet h.map.canonical (s := x.1) (c := x.2) hx)
      have h2 : (x.2 : Nat) = e.nextCode := hxc
      omega
    · rw [hget, if_neg]
      · exact h.map.singleton i
      · intro heq
        rw [heq] at hlen
        simp at hlen
    · show _ ↔ e.eoiCode < c ∧ c < e.nextCode + 1
      constructor
      · rintro ⟨s, h1, h2⟩
        rw [hget] at h2
        split at h2
        · cases h2
          show e.eoiCode < e.nextCode ∧ e.nextCode < e.nextCode + 1
          omega
        · have h3 := (h.map.assigned c).mp ⟨s, h1, h2⟩
          exact ⟨h3.1, Nat.lt_succ_of_lt h3.2⟩
      · rintro ⟨h1, h2⟩
        by_cases hc : c = e.nextCode
        · exact ⟨_, hlen, by rw [hget, if_pos rfl, hc]⟩
        · have h3 : c < e.nextCode + 1 := h2
          obtain ⟨s, h4, h5⟩ := (h.map.assigned c).mpr ⟨h1, show c < e.nextCode by omega⟩
          refine ⟨s, h4, ?_⟩
          rw [hget, if_neg, h5]
          rintro rfl
          rw [hmiss] at h5
          cases h5
  refine
    { mcs := h.mcs, clear := h.clear, eoi := h.eoi, widthLow := ?_, widthHigh := ?_, nextLow := ?_,
      nextWidth := ?_, nextHigh := ?_, map := hmap, buffer := ?_, inPos := h.inPos }
  · rw [hcs]
    have := h.widthLow
    show e.minCodeSize.toNat + 1 ≤ _
    split <;> omega
  · rw [hcs]
    have h12 := h.widthHigh
    split
    · next hle =>
      by_contra hgt
      have : e.codeSize = 12 := by omega
      rw [this] at hle
      omega
    · exact h12
  · show e.eoiCode + 1 ≤ e.nextCode + 1
    omega
  · show e.nextCode + 1 ≤ 2 ^ (inserted e k).codeSize
    rw [hcs]
    split
    · have : 1 ≤ 2 ^ e.codeSize := Nat.one_le_two_pow
      omega
    · omega
  · show e.nextCode + 1 ≤ 4096
    omega
  · show encGet (inserted e k).dict [k] ≠ none
    rw [hmap.singleton, if_pos (show k < (inserted e k).clearCode from hk)]
    exact Option.some_ne_none _

end Sys2Proof.Machine
end

