-- ==== Sys2Proof/Laws/Parser.lean ====
section
/-! SUPPORT. What each operation of the container parser does on the bytes of its layout, and that none
changes the host interface or a unit other than BC and CP. -/

namespace Sys2Proof.Machine

variable (s : State)

/-! ## Reading layouts -/

/-- R184: a 16-bit field reads back. -/
theorem bcReadLE16_toLE16 {v : Half} {rest : List Byte} (h : unread s = toLE16 v ++ rest) :
    bcReadLE16 s = .ok v (advance s 2) := by
  rw [bcReadLE16_cons s h, le16_toLE16]

theorem unread_advance_toLE16 {v : Half} {rest : List Byte} (h : unread s = toLE16 v ++ rest) :
    unread (advance s 2) = rest := by
  rw [unread_advance, h]
  rfl

theorem unread_advance_cons {b : Byte} {rest : List Byte} (h : unread s = b :: rest) :
    unread (advance s 1) = rest := by
  rw [unread_advance, h]
  rfl

theorem unread_advance_append {front rest : List Byte} (h : unread s = front ++ rest) :
    unread (advance s front.length) = rest := by
  rw [unread_advance, h, List.drop_left]

/-- R294: a colour table reads back. -/
theorem cpReadColorTable_ok {n : BitVec 3} {t : ColorTable} {rest : List Byte}
    (ht : t.length = tableLength n) (h : unread s = tableBytes t ++ rest) :
    cpReadColorTable n s = .ok t (advance s (3 * t.length)) := by
  unfold cpReadColorTable
  rw [op_bind_of_ok s _ _ (bcTakeExact_append s (by rw [length_tableBytes, ht]) h), ← ht, tableOf_tableBytes]
  rfl

theorem isBlock_iff (b : List Byte) : isBlock b = true ↔ 1 ≤ b.length ∧ b.length ≤ 255 := by
  simp only [isBlock, Bool.and_eq_true, decide_eq_true_eq]
  exact Iff.rfl

/-- R117: one sub-block of a run. -/
theorem cpSubBlock_ok {b rest : List Byte} (hb : isBlock b = true)
    (h : unread s = BitVec.ofNat 8 b.length :: b ++ rest) :
    cpSubBlock s = .ok (some b) (advance s (b.length + 1)) := by
  obtain ⟨h1, h2⟩ := (isBlock_iff b).mp hb
  have hn : (BitVec.ofNat 8 b.length).toNat = b.length := by
    rw [BitVec.toNat_ofNat, Nat.mod_eq_of_lt (by omega)]
  have hz : BitVec.ofNat 8 b.length ≠ 0x00#8 := fun e => by
    have h0 := congrArg BitVec.toNat e
    rw [hn, BitVec.toNat_ofNat, Nat.zero_mod] at h0
    omega
  have h' : unread (advance s 1) = b ++ rest := unread_advance_cons s h
  unfold cpSubBlock
  rw [op_bind_of_ok s _ _ (bcConsume_cons s h), if_neg hz, hn,
    op_bind_of_ok _ _ _ (bcTakeExact_append _ rfl h'), advance_advance, Nat.add_comm 1]
  rfl

/-- R117: the terminator of a run. -/
theorem cpSubBlock_terminator {rest : List Byte} (h : unread s = 0x00#8 :: rest) :
    cpSubBlock s = .ok none (advance s 1) := by
  unfold cpSubBlock
  rw [op_bind_of_ok s _ _ (bcConsume_cons s h)]
  rfl

theorem length_runBytes (b : List Byte) (bs : Blocks) :
    (runBytes (b :: bs)).length = b.length + 1 + (runBytes bs).length := by
  rw [runBytes_cons]
  simp
  omega

/-- The loop of R295 reads a run to its terminator. -/
theorem cpRunLoop_ok (bs run : Blocks) (fuel : Nat) {rest : List Byte} (hb : blocksWf bs = true)
    (hf : bs.length < fuel) (h : unread s = runBytes bs ++ rest) :
    cpRunLoop fuel run s = .ok (run ++ bs) (advance s (runBytes bs).length) := by
  induction bs generalizing s run fuel with
  | nil =>
    obtain ⟨fuel, rfl⟩ := Nat.exists_eq_add_one.mpr hf
    unfold cpRunLoop
    rw [op_bind_of_ok s _ _ (cpSubBlock_terminator s h), List.append_nil]
    rfl
  | cons b bs ih =>
    obtain ⟨fuel, rfl⟩ : ∃ n, fuel = n + 1 := Nat.exists_eq_add_one.mpr (by simp at hf; omega)
    have hb1 : isBlock b = true ∧ blocksWf bs = true := by simpa [blocksWf] using hb
    have h1 : unread s = BitVec.ofNat 8 b.length :: b ++ (runBytes bs ++ rest) := by
      rw [h, runBytes_cons]; simp
    have h2 : unread (advance s (b.length + 1)) = runBytes bs ++ rest := by
      rw [unread_advance, h1]; simp
    unfold cpRunLoop
    rw [op_bind_of_ok s _ _ (cpSubBlock_ok s hb1.1 h1)]
    refine (ih (advance s (b.length + 1)) (run ++ [b]) fuel hb1.2 (by simpa using hf) h2).trans ?_
    rw [advance_advance, length_runBytes, List.append_assoc]
    rfl

theorem length_lt_length_runBytes (bs : Blocks) : bs.length < (runBytes bs).length := by
  induction bs with
  | nil => simp
  | cons b bs ih => rw [length_runBytes]; simp; omega

/-- R295: a sub-block run reads back. -/
theorem cpReadSubBlockRun_ok {bs : Blocks} {rest : List Byte} (hb : blocksWf bs = true)
    (h : unread s = runBytes bs ++ rest) :
    cpReadSubBlockRun s = .ok bs (advance s (runBytes bs).length) := by
  have hl := length_lt_length_runBytes bs
  have hu := length_unread s
  rw [h, List.length_append] at hu
  unfold cpReadSubBlockRun
  rw [op_bind_of_ok s _ _ (op_getBC s)]
  exact cpRunLoop_ok s bs [] _ hb (by omega) h

/-- R296: the block-size byte that is expected. -/
theorem cpExpectBlockSize_ok {v : Byte} {rest : List Byte} (h : unread s = v :: rest) :
    cpExpectBlockSize v s = .ok () (advance s 1) := by
  unfold cpExpectBlockSize
  rw [op_bind_of_ok s _ _ (bcConsume_cons s h), if_neg (by simp)]
  rfl

/-- R296: another block-size byte. -/
theorem cpExpectBlockSize_bad {v b : Byte} {rest : List Byte} (h : unread s = b :: rest) (hb : b ≠ v) :
    cpExpectBlockSize v s =
      .error (.raised (.formatError .badBlockSize)) (markError .cp (advance s 1)) := by
  unfold cpExpectBlockSize
  rw [op_bind_of_ok s _ _ (bcConsume_cons s h), if_pos hb]
  rfl

/-- R310: the table a descriptor asks for. -/
theorem cpReadLocalTable_some {d : ImageDescriptor} {t : ColorTable} {rest : List Byte}
    (hd : d.localColorTableFlag = true) (ht : t.length = tableLength d.sizeOfLocalColorTable)
    (h : unread s = tableBytes t ++ rest) :
    cpReadLocalTable d s = .ok (some t) (advance s (3 * t.length)) := by
  unfold cpReadLocalTable
  rw [if_pos hd, op_bind_of_ok s _ _ (cpReadColorTable_ok s ht h)]
  rfl

/-- R310: no table. -/
theorem cpReadLocalTable_none {d : ImageDescriptor} (hd : d.localColorTableFlag = false) :
    cpReadLocalTable d s = .ok none s := by
  unfold cpReadLocalTable
  rw [hd]
  rfl

/-- R312: the LZW data of a frame reads back. -/
theorem cpReadLZWData_ok {m : Byte} {bs : Blocks} {rest : List Byte} (hb : blocksWf bs = true)
    (h : unread s = m :: runBytes bs ++ rest) :
    cpReadLZWData s = .ok { minCodeSize := m, subBlocks := bs, terminator := 0x00#8 }
      (advance s ((runBytes bs).length + 1)) := by
  have h' : unread (advance s 1) = runBytes bs ++ rest := unread_advance_cons s h
  unfold cpReadLZWData
  rw [op_bind_of_ok s _ _ (bcConsume_cons s h), op_bind_of_ok _ _ _ (cpReadSubBlockRun_ok _ hb h'),
    advance_advance, Nat.add_comm 1]
  rfl

theorem unpackImage_imageDescriptor (d : ImageDescriptor) : descriptorOf d.left d.top d.width d.height
    (packImage { localColorTableFlag := d.localColorTableFlag, interlaceFlag := d.interlaceFlag,
                 sortFlag := d.sortFlag, reserved := d.reserved,
                 sizeOfLocalColorTable := d.sizeOfLocalColorTable }) = d := by
  simp only [descriptorOf, unpackImage_packImage]

theorem length_imageDescriptorBytes (d : ImageDescriptor) : (imageDescriptorBytes d).length = 9 := rfl

/-- R123, R308: an image descriptor reads back. -/
theorem cpImageDesc_ok {d : ImageDescriptor} {rest : List Byte}
    (h : unread s = imageDescriptorBytes d ++ rest) : cpImageDesc s = .ok d (advance s 9) := by
  simp only [imageDescriptorBytes, List.append_assoc] at h
  have h1 := unread_advance_toLE16 s h
  have h2 := unread_advance_toLE16 _ h1
  have h3 := unread_advance_toLE16 _ h2
  have h4 := unread_advance_toLE16 _ h3
  unfold cpImageDesc
  rw [op_bind_of_ok s _ _ (bcReadLE16_toLE16 s h), op_bind_of_ok _ _ _ (bcReadLE16_toLE16 _ h1),
    op_bind_of_ok _ _ _ (bcReadLE16_toLE16 _ h2), op_bind_of_ok _ _ _ (bcReadLE16_toLE16 _ h3),
    op_bind_of_ok _ _ _ (bcConsume_cons _ h4), unpackImage_imageDescriptor]
  rfl

/-! ## The steps -/

theorem length_signatureBytes (g : Signature) : (signatureBytes g).length = 6 := by cases g <;> rfl

theorem signatureOf_signatureBytes (g : Signature) : signatureOf (signatureBytes g) = some g := by
  cases g <;> decide

/-- R291: the header. -/
theorem cpHeader_ok {g : Signature} {rest : List Byte} (h : unread s = signatureBytes g ++ rest) :
    cpHeader s = .ok () ((advance s 6).setCP
      { s.cp with phase := .lsd, doc := { s.cp.doc with header := { signature := g } } }) := by
  unfold cpHeader
  rw [op_bind_of_ok s _ _ (bcTakeExact_append s (length_signatureBytes g) h)]
  simp only [signatureOf_signatureBytes]
  rfl

/-- R291: six bytes that are no header. -/
theorem cpHeader_bad {front rest : List Byte} (hl : front.length = 6) (hs : signatureOf front = none)
    (h : unread s = front ++ rest) :
    cpHeader s = .error (.raised (.formatError .badSignature)) (markError .cp (advance s 6)) := by
  unfold cpHeader
  rw [op_bind_of_ok s _ _ (bcTakeExact_append s hl h)]
  simp only [hs]
  rfl

theorem screenOf_pack (scr : LogicalScreenDescriptor) : screenOf scr.width scr.height
    (packLSD { globalColorTableFlag := scr.globalColorTableFlag, colorResolution := scr.colorResolution,
               sortFlag := scr.sortFlag, sizeOfGlobalColorTable := scr.sizeOfGlobalColorTable })
    scr.backgroundColorIndex scr.pixelAspectRatioRaw = scr := by
  simp only [screenOf, unpackLSD_packLSD]

/-- R292: the screen descriptor. -/
theorem cpLSD_ok {scr : LogicalScreenDescriptor} {rest : List Byte}
    (h : unread s = screenDescriptorBytes scr ++ rest) :
    cpLSD s = .ok () ((advance s 7).setCP
      { s.cp with phase := .gct, doc := { s.cp.doc with screen := scr } }) := by
  simp only [screenDescriptorBytes, List.append_assoc] at h
  have h1 := unread_advance_toLE16 s h
  have h2 := unread_advance_toLE16 _ h1
  have h3 := unread_advance_cons _ h2
  have h4 := unread_advance_cons _ h3
  unfold cpLSD
  rw [op_bind_of_ok s _ _ (bcReadLE16_toLE16 s h), op_bind_of_ok _ _ _ (bcReadLE16_toLE16 _ h1),
    op_bind_of_ok _ _ _ (bcConsume_cons _ h2), op_bind_of_ok _ _ _ (bcConsume_cons _ h3),
    op_bind_of_ok _ _ _ (bcConsume_cons _ h4), screenOf_pack]
  rfl

/-- R298: the global colour table, or none. -/
theorem cpGCT_ok {gct : Option ColorTable} {rest : List Byte} (hg : ScreenLegal s.cp.doc.screen gct)
    (hd : s.cp.doc.globalColorTable = none) (h : unread s = tableOptBytes gct ++ rest) :
    cpGCT s = .ok () ((advance s (tableOptBytes gct).length).setCP
      { s.cp with phase := .block, doc := { s.cp.doc with globalColorTable := gct } }) := by
  unfold cpGCT
  rw [op_bind_of_ok s _ _ (op_getCP s)]
  cases gct with
  | none =>
    rw [if_neg (by rw [show s.cp.doc.screen.globalColorTableFlag = false from hg]; simp)]
    simp only [tableOptBytes, List.length_nil, advance_zero]
    rw [← hd]
    rfl
  | some t =>
    obtain ⟨hf, ht⟩ := hg
    simp only [tableOptBytes, length_tableBytes]
    rw [if_pos hf, op_bind_of_ok s _ _ (cpReadColorTable_ok s ht h)]
    rfl

/-- R302: an application extension whose label has been consumed. -/
theorem cpApp_ok {id auth : List Byte} {subs : Blocks} (hx : (Extension.app id auth subs).Legal)
    {rest : List Byte} (h : unread s = (Extension.app id auth subs).body ++ rest) :
    cpApp s = .ok () ((advance s (Extension.app id auth subs).body.length).setCP
      ((Extension.app id auth subs).apply s.cp)) := by
  obtain ⟨hid, hauth, hsubs⟩ := hx
  have h0 : unread s = 0x0B#8 :: (id ++ (auth ++ (runBytes subs ++ rest))) := by
    rw [h]; simp [Extension.body]
  have h1 := unread_advance_cons s h0
  have h2 := unread_advance_append _ h1
  have h3 := unread_advance_append _ h2
  rw [hid] at h2 h3
  rw [hauth] at h3
  unfold cpApp
  rw [op_bind_of_ok s _ _ (cpExpectBlockSize_ok s h0), op_bind_of_ok _ _ _ (bcTakeExact_append _ hid h1),
    op_bind_of_ok _ _ _ (bcTakeExact_append _ hauth h2), op_bind_of_ok _ _ _ (cpReadSubBlockRun_ok _ hsubs h3)]
  have hl : (Extension.app id auth subs).body.length = 1 + (8 + (3 + (runBytes subs).length)) := by
    simp [Extension.body, hid, hauth]; omega
  rw [advance_advance, advance_advance, advance_advance, hl]
  rfl

/-- R304: a comment extension whose label has been consumed. -/
theorem cpComment_ok {subs : Blocks} (hx : blocksWf subs = true) {rest : List Byte}
    (h : unread s = runBytes subs ++ rest) :
    cpComment s = .ok () ((advance s (runBytes subs).length).setCP ((Extension.comment subs).apply s.cp)) := by
  unfold cpComment
  rw [op_bind_of_ok s _ _ (cpReadSubBlockRun_ok s hx h)]
  rfl

/-- R305: a graphic control extension whose label has been consumed. -/
theorem cpGCE_ok {g : GraphicControlExtension} {rest : List Byte}
    (h : unread s = (Extension.gce g).body ++ rest) :
    cpGCE s = .ok () ((advance s 6).setCP ((Extension.gce g).apply s.cp)) := by
  have h0 : unread s = 0x04#8 :: packGCE g :: (toLE16 g.delayTime ++ (g.transparencyIndex :: 0x00#8 :: rest)) := by
    rw [h]; simp [Extension.body]
  have h1 := unread_advance_cons s h0
  have h2 := unread_advance_cons _ h1
  have h3 := unread_advance_toLE16 _ h2
  have h4 := unread_advance_cons _ h3
  unfold cpGCE
  rw [op_bind_of_ok s _ _ (cpExpectBlockSize_ok s h0), op_bind_of_ok _ _ _ (bcConsume_cons _ h1),
    op_bind_of_ok _ _ _ (bcReadLE16_toLE16 _ h2), op_bind_of_ok _ _ _ (bcConsume_cons _ h3),
    op_bind_of_ok _ _ _ (bcConsume_cons _ h4), if_neg (by simp), op_bind_of_ok _ _ _ (op_getCP _),
    unpackGCE_packGCE]
  rfl

/-- R305: a non-zero byte at the terminator position. -/
theorem cpGCE_bad {p ti t : Byte} {d : Half} {rest : List Byte} (ht : t ≠ 0x00#8)
    (h : unread s = 0x04#8 :: p :: (toLE16 d ++ (ti :: t :: rest))) :
    cpGCE s = .error (.raised (.formatError .badTerminator)) (markError .cp (advance s 6)) := by
  have h1 := unread_advance_cons s h
  have h2 := unread_advance_cons _ h1
  have h3 := unread_advance_toLE16 _ h2
  have h4 := unread_advance_cons _ h3
  unfold cpGCE
  rw [op_bind_of_ok s _ _ (cpExpectBlockSize_ok s h), op_bind_of_ok _ _ _ (bcConsume_cons _ h1),
    op_bind_of_ok _ _ _ (bcReadLE16_toLE16 _ h2), op_bind_of_ok _ _ _ (bcConsume_cons _ h3),
    op_bind_of_ok _ _ _ (bcConsume_cons _ h4), if_pos ht]
  rfl

theorem attachText_eq (pt : PlainTextExtension) (images : List ImageBlock) : attachText pt images =
    images.dropLast ++ (images.getLast?.map fun img => { img with plainText := some pt }).toList := by
  induction images with
  | nil => rfl
  | cons img rest ih =>
    cases rest with
    | nil => rfl
    | cons img' rest => simpa [attachText] using ih

/-- R306: a plain text extension whose label has been consumed. -/
theorem cpText_ok {pt : PlainTextExtension} (hx : blocksWf pt.text = true) {rest : List Byte}
    (h : unread s = (Extension.text pt).body ++ rest) :
    cpText s = .ok () ((advance s (Extension.text pt).body.length).setCP
      ((Extension.text pt).apply s.cp)) := by
  have h0 : unread s = 0x0C#8 :: (toLE16 pt.gridLeft ++ (toLE16 pt.gridTop ++ (toLE16 pt.gridWidth ++
      (toLE16 pt.gridHeight ++ (pt.cellWidth :: pt.cellHeight :: pt.foregroundColorIndex ::
        pt.backgroundColorIndex :: (runBytes pt.text ++ rest)))))) := by
    rw [h]; simp [Extension.body]
  have h1 := unread_advance_cons s h0
  have h2 := unread_advance_toLE16 _ h1
  have h3 := unread_advance_toLE16 _ h2
  have h4 := unread_advance_toLE16 _ h3
  have h5 := unread_advance_toLE16 _ h4
  have h6 := unread_advance_cons _ h5
  have h7 := unread_advance_cons _ h6
  have h8 := unread_advance_cons _ h7
  have h9 := unread_advance_cons _ h8
  unfold cpText
  rw [op_bind_of_ok s _ _ (cpExpectBlockSize_ok s h0), op_bind_of_ok _ _ _ (bcReadLE16_toLE16 _ h1),
    op_bind_of_ok _ _ _ (bcReadLE16_toLE16 _ h2), op_bind_of_ok _ _ _ (bcReadLE16_toLE16 _ h3),
    op_bind_of_ok _ _ _ (bcReadLE16_toLE16 _ h4), op_bind_of_ok _ _ _ (bcConsume_cons _ h5),
    op_bind_of_ok _ _ _ (bcConsume_cons _ h6), op_bind_of_ok _ _ _ (bcConsume_cons _ h7),
    op_bind_of_ok _ _ _ (bcConsume_cons _ h8), op_bind_of_ok _ _ _ (cpReadSubBlockRun_ok _ hx h9)]
  have hl : (Extension.text pt).body.length = 13 + (runBytes pt.text).length := by
    simp [Extension.body]; omega
  simp only [attachText_eq, advance_advance, hl]
  rfl

/-- R116, R300: the extension step reads the label and runs what it selects. -/
theorem cpExtension_ok {x : Extension} (hx : x.Legal) {rest : List Byte}
    (h : unread s = x.label :: (x.body ++ rest)) :
    cpExtension s = .ok () ((advance s (x.body.length + 1)).setCP (x.apply s.cp)) := by
  have h1 := unread_advance_cons s h
  unfold cpExtension
  rw [op_bind_of_ok s _ _ (bcConsume_cons s h), Nat.add_comm, ← advance_advance]
  cases x with
  | app id auth subs => exact cpApp_ok _ hx h1
  | comment subs => exact cpComment_ok _ hx h1
  | gce g => exact cpGCE_ok _ h1
  | text pt => exact cpText_ok _ hx h1

/-- R308, R311, R313: an image block whose introducer has been consumed. -/
theorem cpImage_ok {img : ImageBlock} (hi : ImageLegal img) {rest : List Byte}
    (h : unread s = imageBytes img ++ rest) :
    cpImage s = .ok () ((advance s (imageBytes img).length).setCP (imageApply img s.cp)) := by
  obtain ⟨hb, hterm, htable⟩ := hi
  have h0 : unread s = imageDescriptorBytes img.descriptor ++ (tableOptBytes img.localColorTable ++
      (img.lzw.minCodeSize :: runBytes img.lzw.subBlocks ++ rest)) := by
    rw [h]; simp [imageBytes]
  have h1 := unread_advance_append s h0
  rw [length_imageDescriptorBytes] at h1
  have h2 := unread_advance_append _ h1
  have ht : cpReadLocalTable img.descriptor (advance s 9) = .ok img.localColorTable
      (advance (advance s 9) (tableOptBytes img.localColorTable).length) := by
    cases hl : img.localColorTable with
    | none =>
      rw [hl] at htable
      rw [cpReadLocalTable_none _ htable]
      rfl
    | some t =>
      rw [hl] at htable h1
      rw [cpReadLocalTable_some _ htable.1 htable.2 h1, tableOptBytes, length_tableBytes]
  have hlzw : ({ minCodeSize := img.lzw.minCodeSize, subBlocks := img.lzw.subBlocks, terminator := 0x00#8 } :
      LZWData) = img.lzw := by rw [← hterm]
  have hl : (imageBytes img).length = 9 + ((tableOptBytes img.localColorTable).length +
      ((runBytes img.lzw.subBlocks).length + 1)) := by
    simp [imageBytes, length_imageDescriptorBytes]
  unfold cpImage
  rw [op_bind_of_ok s _ _ (cpImageDesc_ok s h0), op_bind_of_ok _ _ _ ht,
    op_bind_of_ok _ _ _ (cpReadLZWData_ok _ hb h2), op_bind_of_ok _ _ _ (op_getCP _), hlzw, hl]
  simp only [advance_advance, Nat.add_assoc]
  rfl

/-- R299: a block step on a block of the grammar. -/
theorem cpBlock_ok {b : Block} (hb : b.Legal) {rest : List Byte} (h : unread s = b.bytes ++ rest) :
    cpBlock s = .ok () ((advance s b.bytes.length).setCP (b.apply s.cp)) := by
  unfold cpBlock
  cases b with
  | extension x =>
    have h0 : unread s = 0x21#8 :: (x.label :: (x.body ++ rest)) := h
    rw [op_bind_of_ok s _ _ (bcConsume_cons s h0)]
    refine (cpExtension_ok _ hb (unread_advance_cons s h0)).trans ?_
    rw [advance_advance, Nat.add_comm 1]
    rfl
  | image img =>
    have h0 : unread s = 0x2C#8 :: (imageBytes img ++ rest) := h
    rw [op_bind_of_ok s _ _ (bcConsume_cons s h0)]
    refine (cpImage_ok _ hb (unread_advance_cons s h0)).trans ?_
    rw [advance_advance, Nat.add_comm 1]
    rfl

/-- R299, R315: a block step on the trailer. -/
theorem cpBlock_trailer {rest : List Byte} (h : unread s = 0x3B#8 :: rest) :
    cpBlock s = .ok () ((advance s 1).setCP
      { s.cp with
        phase := .done, pendingGCE := none, doc := { s.cp.doc with trailer := 0x3B#8 } }) := by
  unfold cpBlock
  rw [op_bind_of_ok s _ _ (bcConsume_cons s h)]
  rfl

/-! ## What every parser operation does on any bytes -/

/-- How an operation that only reads on in IN and writes CP ends: it returns, or it raises an error that
marks the parser, with some bytes consumed; it meets no excluded state. -/
def ParseOutcome {α : Type} (s : State) : EStateM.Result Stop State α → Prop
  | .ok _ t              => ∃ n cp, n ≤ (unread s).length ∧ t = (advance s n).setCP cp
  | .error (.raised _) t => ∃ n cp, n ≤ (unread s).length ∧ t = markError .cp ((advance s n).setCP cp)
  | .error (.stuck _) _  => False

/-- An operation that ends so from every state. -/
def Parses {α : Type} (op : Op α) : Prop := ∀ s, ParseOutcome s (op s)

theorem advance_setCP (n : Nat) (cp : ContainerParser) :
    advance (s.setCP cp) n = (advance s n).setCP cp := rfl

theorem unread_setCP (cp : ContainerParser) : unread (s.setCP cp) = unread s := rfl

theorem parses_pure {α : Type} (a : α) : Parses (pure a : Op α) := fun s =>
  ⟨0, s.cp, Nat.zero_le _, rfl⟩

theorem parses_raise {α : Type} (e : Err) : Parses (raise .cp e : Op α) := fun s =>
  ⟨0, s.cp, Nat.zero_le _, rfl⟩

theorem parses_getCP : Parses getCP := fun s => ⟨0, s.cp, Nat.zero_le _, rfl⟩

theorem parses_getBC : Parses getBC := fun s => ⟨0, s.cp, Nat.zero_le _, rfl⟩

theorem parses_putCP (cp : ContainerParser) : Parses (putCP cp) := fun _ => ⟨0, cp, Nat.zero_le _, rfl⟩

/-- A sequence of two such operations is one. -/
theorem parses_bind {α β : Type} {x : Op α} {f : α → Op β} (hx : Parses x) (hf : ∀ a, Parses (f a)) :
    Parses (x >>= f) := by
  intro s
  have h1 := hx s
  rw [op_bind]
  rcases hxs : x s with ⟨a, t⟩ | ⟨e, t⟩ <;> rw [hxs] at h1
  · obtain ⟨n, cp, hn, rfl⟩ := h1
    have h2 := hf a ((advance s n).setCP cp)
    have hlen : (unread ((advance s n).setCP cp)).length = (unread s).length - n := by
      rw [unread_setCP, unread_advance, List.length_drop]
    simp only
    rcases hfs : f a ((advance s n).setCP cp) with ⟨b, u⟩ | ⟨e | e, u⟩ <;> rw [hfs] at h2
    · obtain ⟨m, cp', hm, rfl⟩ := h2
      exact ⟨n + m, cp', by omega, by rw [advance_setCP, advance_advance]; rfl⟩
    · obtain ⟨m, cp', hm, rfl⟩ := h2
      exact ⟨n + m, cp', by omega, by rw [advance_setCP, advance_advance]; rfl⟩
    · exact h2
  · rcases e with e | e <;> exact h1

theorem parses_ite {α : Type} {x y : Op α} (p : Prop) [Decidable p] (hx : Parses x) (hy : Parses y) :
    Parses (if p then x else y) := by
  split
  · exact hx
  · exact hy

theorem parses_bcConsume : Parses bcConsume := by
  intro s
  rw [bcConsume_eq]
  rcases h : unread s with _ | ⟨b, rest⟩
  · exact ⟨0, s.cp, Nat.zero_le _, rfl⟩
  · exact ⟨1, s.cp, by rw [h]; simp, rfl⟩

theorem parses_bcTakeExact (n : Nat) : Parses (bcTakeExact n) := by
  intro s
  rw [bcTakeExact_eq]
  split
  · exact ⟨_, s.cp, Nat.le_refl _, rfl⟩
  · exact ⟨n, s.cp, by omega, rfl⟩

theorem parses_bcReadLE16 : Parses bcReadLE16 :=
  parses_bind parses_bcConsume fun _ => parses_bind parses_bcConsume fun _ => parses_pure _

theorem parses_cpReadColorTable (n : BitVec 3) : Parses (cpReadColorTable n) :=
  parses_bind (parses_bcTakeExact _) fun _ => parses_pure _

theorem parses_cpSubBlock : Parses cpSubBlock :=
  parses_bind parses_bcConsume fun _ =>
    parses_ite _ (parses_pure _) (parses_bind (parses_bcTakeExact _) fun _ => parses_pure _)

/-- Every round of a run consumes at least one byte. -/
theorem cpSubBlock_consumes {a : Option (List Byte)} {t : State} (h : cpSubBlock s = .ok a t) :
    ∃ n cp, 1 ≤ n ∧ n ≤ (unread s).length ∧ t = (advance s n).setCP cp := by
  unfold cpSubBlock at h
  obtain ⟨l, u, h1, h2⟩ := op_bind_eq_ok.mp h
  rw [bcConsume_eq] at h1
  rcases hu : unread s with _ | ⟨b, rest⟩ <;> rw [hu] at h1
  · cases h1
  · cases h1
    have h3 := parses_ite (l = 0x00#8) (parses_pure none)
      (parses_bind (parses_bcTakeExact l.toNat) fun b => parses_pure (some b)) (advance s 1)
    rw [h2] at h3
    obtain ⟨n, cp, hn, rfl⟩ := h3
    rw [unread_advance_cons s hu] at hn
    exact ⟨1 + n, cp, by omega, by simp; omega, by rw [advance_advance]⟩

theorem parses_cpReadSubBlockRun : Parses cpReadSubBlockRun := by
  have key : ∀ (fuel : Nat) (run : Blocks) (s : State), (unread s).length < fuel →
      ParseOutcome s (cpRunLoop fuel run s) := by
    intro fuel
    induction fuel with
    | zero => exact fun run s h => absurd h (Nat.not_lt_zero _)
    | succ fuel ih =>
      intro run s hlt
      unfold cpRunLoop
      rw [op_bind]
      have h1 := parses_cpSubBlock s
      rcases hs : cpSubBlock s with ⟨a, t⟩ | ⟨e, t⟩
      · obtain ⟨n, cp, hn1, hn, rfl⟩ := cpSubBlock_consumes s hs
        cases a with
        | none => exact ⟨n, cp, hn, rfl⟩
        | some b =>
          have hlen : (unread ((advance s n).setCP cp)).length = (unread s).length - n := by
            rw [unread_setCP, unread_advance, List.length_drop]
          have h2 := ih (run ++ [b]) ((advance s n).setCP cp) (by omega)
          simp only
          rcases hfs : cpRunLoop fuel (run ++ [b]) ((advance s n).setCP cp) with ⟨c, u⟩ | ⟨e | e, u⟩ <;>
            rw [hfs] at h2
          · obtain ⟨m, cp', hm, rfl⟩ := h2
            exact ⟨n + m, cp', by omega, by rw [advance_setCP, advance_advance]; rfl⟩
          · obtain ⟨m, cp', hm, rfl⟩ := h2
            exact ⟨n + m, cp', by omega, by rw [advance_setCP, advance_advance]; rfl⟩
          · exact h2
      · rw [hs] at h1
        rcases e with e | e <;> exact h1
  intro s
  unfold cpReadSubBlockRun
  rw [op_bind_of_ok s _ _ (op_getBC s)]
  exact key (s.bc.buf.length - s.bc.pos + 1) [] s (by rw [length_unread]; omega)

theorem parses_cpExpectBlockSize (v : Byte) : Parses (cpExpectBlockSize v) :=
  parses_bind parses_bcConsume fun _ => parses_ite _ (parses_raise _) (parses_pure _)

theorem parses_cpReadLocalTable (d : ImageDescriptor) : Parses (cpReadLocalTable d) :=
  parses_ite _ (parses_bind (parses_cpReadColorTable _) fun _ => parses_pure _) (parses_pure _)

theorem parses_cpReadLZWData : Parses cpReadLZWData :=
  parses_bind parses_bcConsume fun _ => parses_bind parses_cpReadSubBlockRun fun _ => parses_pure _

theorem parses_cpImageDesc : Parses cpImageDesc :=
  parses_bind parses_bcReadLE16 fun _ => parses_bind parses_bcReadLE16 fun _ =>
    parses_bind parses_bcReadLE16 fun _ => parses_bind parses_bcReadLE16 fun _ =>
      parses_bind parses_bcConsume fun _ => parses_pure _

theorem parses_cpPutDoc (f : GIFDocument → GIFDocument) : Parses (cpPutDoc f) :=
  parses_bind parses_getCP fun _ => parses_putCP _

theorem parses_cpPutPhase (p : CPPhase) : Parses (cpPutPhase p) :=
  parses_bind parses_getCP fun _ => parses_putCP _

theorem parses_cpHeader : Parses cpHeader :=
  parses_bind (parses_bcTakeExact _) fun b => by
    cases signatureOf b with
    | none => exact parses_raise _
    | some g => exact parses_bind (parses_cpPutDoc _) fun _ => parses_cpPutPhase _

theorem parses_cpLSD : Parses cpLSD :=
  parses_bind parses_bcReadLE16 fun _ => parses_bind parses_bcReadLE16 fun _ =>
    parses_bind parses_bcConsume fun _ => parses_bind parses_bcConsume fun _ =>
      parses_bind parses_bcConsume fun _ => parses_bind (parses_cpPutDoc _) fun _ => parses_cpPutPhase _

theorem parses_cpApp : Parses cpApp :=
  parses_bind (parses_cpExpectBlockSize _) fun _ => parses_bind (parses_bcTakeExact _) fun _ =>
    parses_bind (parses_bcTakeExact _) fun _ => parses_bind parses_cpReadSubBlockRun fun _ =>
      parses_cpPutDoc _

theorem parses_cpComment : Parses cpComment :=
  parses_bind parses_cpReadSubBlockRun fun _ => parses_cpPutDoc _

theorem parses_cpGCE : Parses cpGCE :=
  parses_bind (parses_cpExpectBlockSize _) fun _ => parses_bind parses_bcConsume fun _ =>
    parses_bind parses_bcReadLE16 fun _ => parses_bind parses_bcConsume fun _ =>
      parses_bind parses_bcConsume fun _ => parses_ite _ (parses_raise _)
        (parses_bind parses_getCP fun _ => parses_putCP _)

theorem parses_cpText : Parses cpText :=
  parses_bind (parses_cpExpectBlockSize _) fun _ => parses_bind parses_bcReadLE16 fun _ =>
    parses_bind parses_bcReadLE16 fun _ => parses_bind parses_bcReadLE16 fun _ =>
      parses_bind parses_bcReadLE16 fun _ => parses_bind parses_bcConsume fun _ =>
        parses_bind parses_bcConsume fun _ => parses_bind parses_bcConsume fun _ =>
          parses_bind parses_bcConsume fun _ => parses_bind parses_cpReadSubBlockRun fun _ =>
            parses_cpPutDoc _

theorem parses_cpExtension : Parses cpExtension :=
  parses_bind parses_bcConsume fun l => by
    cases classifyLabel l with
    | app => exact parses_cpApp
    | comment => exact parses_cpComment
    | gce => exact parses_cpGCE
    | text => exact parses_cpText
    | bad => exact parses_raise _

theorem parses_cpImage : Parses cpImage :=
  parses_bind parses_cpImageDesc fun _ => parses_bind (parses_cpReadLocalTable _) fun _ =>
    parses_bind parses_cpReadLZWData fun _ => parses_bind parses_getCP fun _ => parses_putCP _

theorem parses_cpTrailer : Parses cpTrailer := parses_bind parses_getCP fun _ => parses_putCP _

theorem parses_cpBlock : Parses cpBlock :=
  parses_bind parses_bcConsume fun t => by
    cases classifyIntro t with
    | ext => exact parses_cpExtension
    | image => exact parses_cpImage
    | trailer => exact parses_cpTrailer
    | bad => exact parses_raise _

end Sys2Proof.Machine
end

