-- ==== Sys2Proof/Laws/PerInstr.lean ====
section
/-! SUPPORT. What holds of each instruction as syntax: it is selected in exactly one of the ways of
30_encoding.md. -/

namespace Sys2Proof.Laws.OneForm

open Sys2Proof

/-- An instruction is a command (R161), a container selector (R110 to R125), an LZW code (R126 to R128) or
"internal", and only one of these. -/
def Statement (i : Instr) : Prop :=
  (encodeRequest i).isSome.toNat + (encodeBytes i).isSome.toNat + (codeOf i).isSome.toNat +
    i.isInternal.toNat = 1

theorem parseContainer (bytes : List Byte) : Statement (.parseContainer bytes) := rfl
theorem decodeFrame (img : ImageBlock) (act : Option ColorTable) : Statement (.decodeFrame img act) := rfl
theorem encodeFrame (m : Byte) (idx : List Nat) : Statement (.encodeFrame m idx) := rfl
theorem encodeContainer (screen : ScreenIn) (ct : ColorTable) (frames : List FrameIn) : Statement (.encodeContainer screen ct frames) := rfl
theorem cmdNone : Statement .cmdNone := rfl
theorem cmdUnassigned (code : Byte) : Statement (.cmdUnassigned code) := rfl
theorem cpHeader : Statement .cpHeader := rfl
theorem cpLSD : Statement .cpLSD := rfl
theorem cpGCT : Statement .cpGCT := rfl
theorem cpIntroExt : Statement .cpIntroExt := rfl
theorem cpIntroImage : Statement .cpIntroImage := rfl
theorem cpIntroTrailer : Statement .cpIntroTrailer := rfl
theorem cpIntroBad (t : Byte) : Statement (.cpIntroBad t) := rfl
theorem cpLabelApp : Statement .cpLabelApp := rfl
theorem cpLabelComment : Statement .cpLabelComment := rfl
theorem cpLabelGce : Statement .cpLabelGce := rfl
theorem cpLabelText : Statement .cpLabelText := rfl
theorem cpLabelBad (label : Byte) : Statement (.cpLabelBad label) := rfl
theorem cpImageDesc : Statement .cpImageDesc := rfl
theorem cpSubBlock : Statement .cpSubBlock := rfl
theorem cpLzwData : Statement .cpLzwData := rfl
theorem cpDecodeLSDPacked (p : Byte) : Statement (.cpDecodeLSDPacked p) := rfl
theorem cpReadColorTable (n : BitVec 3) : Statement (.cpReadColorTable n) := rfl
theorem cpReadSubBlockRun : Statement .cpReadSubBlockRun := rfl
theorem cpExpectBlockSize (v : Byte) : Statement (.cpExpectBlockSize v) := rfl
theorem cpCycleIndexOf (subs : Blocks) : Statement (.cpCycleIndexOf subs) := rfl
theorem cpDecodeImagePacked (p : Byte) : Statement (.cpDecodeImagePacked p) := rfl
theorem cpReadLocalTable (desc : ImageDescriptor) : Statement (.cpReadLocalTable desc) := rfl
theorem cpReadLZWData : Statement .cpReadLZWData := rfl
theorem lzwEoi (c : Nat) : Statement (.lzwEoi c) := rfl
theorem lzwClear (c : Nat) : Statement (.lzwClear c) := rfl
theorem lzwFirst (c : Nat) : Statement (.lzwFirst c) := rfl
theorem lzwHit (c : Nat) : Statement (.lzwHit c) := rfl
theorem lzwNext (c : Nat) : Statement (.lzwNext c) := rfl
theorem lzwBad (c : Nat) : Statement (.lzwBad c) := rfl
theorem bcConsume : Statement .bcConsume := rfl
theorem bcPeekRemaining : Statement .bcPeekRemaining := rfl
theorem bcTake (n : Nat) : Statement (.bcTake n) := rfl
theorem bcTakeExact (n : Nat) : Statement (.bcTakeExact n) := rfl
theorem bcReadLE16 : Statement .bcReadLE16 := rfl
theorem bswWrite (code : Nat) (w : Nat) : Statement (.bswWrite code w) := rfl
theorem bswClose : Statement .bswClose := rfl
theorem bsrPushBytes (bytes : List Byte) : Statement (.bsrPushBytes bytes) := rfl
theorem bsrHasBits (n : Nat) : Statement (.bsrHasBits n) := rfl
theorem bsrReadBits (n : Nat) : Statement (.bsrReadBits n) := rfl
theorem lzePack (m : Byte) (data : List Byte) : Statement (.lzePack m data) := rfl
theorem lzdInit (m : Byte) (subs : Blocks) : Statement (.lzdInit m subs) := rfl
theorem lzdUnitReset : Statement .lzdUnitReset := rfl
theorem lzdFetchCode : Statement .lzdFetchCode := rfl
theorem lzdStep : Statement .lzdStep := rfl
theorem lzdAssign (k : Nat) : Statement (.lzdAssign k) := rfl
theorem lzeEncodeFrame (m : Byte) (idx : List Nat) : Statement (.lzeEncodeFrame m idx) := rfl
theorem lzeInit (m : Byte) (idx : List Nat) : Statement (.lzeInit m idx) := rfl
theorem lzeUnitReset : Statement .lzeUnitReset := rfl
theorem lzeCheckIndex (k : Nat) : Statement (.lzeCheckIndex k) := rfl
theorem lzeStep : Statement .lzeStep := rfl
theorem lzeExtend (k : Nat) : Statement (.lzeExtend k) := rfl
theorem lzeMiss (k : Nat) : Statement (.lzeMiss k) := rfl
theorem lzeResetUnit : Statement .lzeResetUnit := rfl
theorem lzeEmit (code : Option Nat) : Statement (.lzeEmit code) := rfl
theorem lzeFinish : Statement .lzeFinish := rfl
theorem cwEncodeContainer (screen : ScreenIn) (ct : ColorTable) (frames : List FrameIn) : Statement (.cwEncodeContainer screen ct frames) := rfl
theorem cwWriteHeader : Statement .cwWriteHeader := rfl
theorem cwWriteLSD (screen : ScreenIn) (gsz : BitVec 3) : Statement (.cwWriteLSD screen gsz) := rfl
theorem cwSizeField (t : ColorTable) : Statement (.cwSizeField t) := rfl
theorem cwWriteColorTable (t : ColorTable) : Statement (.cwWriteColorTable t) := rfl
theorem cwWriteGCE (g : GraphicControlExtension) : Statement (.cwWriteGCE g) := rfl
theorem cwWriteImage (f : FrameIn) (ct : ColorTable) : Statement (.cwWriteImage f ct) := rfl
theorem cwWriteTrailer : Statement .cwWriteTrailer := rfl

end Sys2Proof.Laws.OneForm
end

