-- ==== Sys2Proof/Laws/Writer.lean ====
section
/-! SUPPORT. What each operation of the container writer can do. -/

namespace Sys2Proof.Machine

variable (s : State)

theorem cwAppend_eq (bs : List Byte) : cwAppend bs s = .ok () (s.setCW { out := s.cw.out ++ bs }) := rfl

/-- R341. -/
theorem cwWriteHeader_eq : cwWriteHeader s = .ok ()
    (s.setCW { out := s.cw.out ++ [0x47#8, 0x49#8, 0x46#8, 0x38#8, 0x39#8, 0x61#8] }) := rfl

/-- R342: what the writer writes of a screen is what the parser reads as one. -/
theorem screenBytes_eq (screen : ScreenIn) (gsz : BitVec 3) : screenBytes screen gsz = screenDescriptorBytes
    { width := screen.width, height := screen.height, globalColorTableFlag := true,
      colorResolution := screen.colorResolution, sortFlag := screen.sortFlag,
      sizeOfGlobalColorTable := gsz, backgroundColorIndex := screen.backgroundColorIndex,
      pixelAspectRatioRaw := screen.pixelAspectRatioRaw } := rfl

/-- R345: what the writer writes of a GCE is what the parser reads as one. -/
theorem gceBytes_eq (g : GraphicControlExtension) :
    gceBytes g = 0x21#8 :: (Extension.gce g).label :: (Extension.gce g).body := rfl

/-- R346: what the writer writes of a descriptor is what the parser reads as one. -/
theorem descriptorBytes_eq (d : FrameDescriptor) (flag : Bool) (lsz : BitVec 3) :
    descriptorBytes d flag lsz = 0x2C#8 :: imageDescriptorBytes
      { left := d.left, top := d.top, width := d.width, height := d.height, localColorTableFlag := flag,
        interlaceFlag := d.interlaceFlag, sortFlag := d.sortFlag, reserved := 0,
        sizeOfLocalColorTable := lsz } := rfl

/-- R343: everything sizeField can do. -/
theorem cwSizeField_eq (t : ColorTable) : cwSizeField t s =
    match sizeFieldOf t.length with
    | none   => .error (.raised (.assertionFailure .colorTableSize)) s
    | some n => .ok n s := by
  unfold cwSizeField
  cases sizeFieldOf t.length <;> rfl

theorem cwSizeField_ok {t : ColorTable} {n : BitVec 3} (h : sizeFieldOf t.length = some n) :
    cwSizeField t s = .ok n s := by
  rw [cwSizeField_eq, h]

/-- R346: the minimum code size of a checked table is always legal (R374). -/
theorem mcsInRange_codeSizeFor (n : BitVec 3) : mcsInRange (codeSizeFor n) = true := by
  revert n
  decide

/-- The last lines of R346: the frame's bytes, once the encoder has given them. -/
theorem cwWriteData_ok {act : ColorTable} {n : BitVec 3} {indices : List Nat} {data : List Byte} {t : State}
    (hn : sizeFieldOf act.length = some n) (hi : indices ≠ [])
    (he : lzeEncodeFrame (codeSizeFor n) indices s = .ok data t) :
    cwWriteData indices act s = .ok () (t.setCW { out := t.cw.out ++ data }) := by
  unfold cwWriteData
  rw [op_bind_of_ok s _ _ (cwSizeField_ok s hn), if_neg (by simpa using hi), op_bind_of_ok s _ _ he]
  rfl

/-- R346, a frame without a local table. -/
theorem cwWriteImage_none (f : FrameIn) (ct : ColorTable) (h : f.localColorTable = none) :
    cwWriteImage f ct s = cwWriteData f.indices ct
      (s.setCW { out := s.cw.out ++ descriptorBytes f.descriptor false 0 }) := by
  unfold cwWriteImage
  rw [h]
  exact op_bind_of_ok s _ _ (cwAppend_eq s _)

/-- R346, a frame with a local table. -/
theorem cwWriteImage_some (f : FrameIn) (ct : ColorTable) {lt : ColorTable} {lsz : BitVec 3}
    (h : f.localColorTable = some lt) (hl : sizeFieldOf lt.length = some lsz) :
    cwWriteImage f ct s = cwWriteData f.indices lt
      (s.setCW { out := s.cw.out ++ descriptorBytes f.descriptor true lsz ++ tableBytes lt }) := by
  unfold cwWriteImage
  rw [h]
  refine (op_bind_of_ok s _ _ (cwSizeField_ok s hl)).trans ?_
  refine (op_bind_of_ok s _ _ (cwAppend_eq s _)).trans ?_
  exact op_bind_of_ok _ _ _ (cwAppend_eq _ _)

end Sys2Proof.Machine
end

