-- ==== Sys2Proof/Tests/Slice0.lean ====
section
/-! SUPPORT. The model's own tests: ill-formed terms that WellFormed refuses, encodings written out from the
spec, one step per instruction on values of 95_test_vectors.md and the rules' examples, and for each
statement with hypotheses a state and operands that meet them. -/

namespace Sys2Proof.Tests

set_option Elab.async false

open Sys2Proof Sys2Proof.Machine

/-! ## Helpers -/

/-- The next state of an outcome. -/
def after : Host.Outcome State Fault Refusal → Option State
  | .next s => some s
  | _       => none

theorem next_of_after {o : Host.Outcome State Fault Refusal} (h : (after o).isSome = true) :
    o = .next ((after o).getD State.reset) := by
  cases o <;> first | rfl | cases h

/-- The value an operation returned. -/
def retOf (o : Host.Outcome State Fault Refusal) : Option Value := (after o).map (·.ret)

/-- HI.STATUS after it. -/
def statusAfter (o : Host.Outcome State Fault Refusal) : Option Half := (after o).map (·.hi.status)

/-- The command's result after it. -/
def resultOf (o : Host.Outcome State Fault Refusal) : Option Result := (after o).bind (·.hi.result)

/-- A small state with these bytes in IN. -/
def input (bs : List Byte) (pos : Nat := 0) : State := State.reset.setBC { buf := bs, pos := pos }

/-- A small state with these bits pending for the decoder. -/
def reader (bits : Bits) : State := State.reset.setBSR { bits := bits }

/-- A small state with these pending and completed bits of the encoder. -/
def writer (acc : Bits) (out : List Byte) : State := State.reset.setBSW { acc := acc, out := out }

/-- `G2` of 95_test_vectors.md. -/
def g2 : ColorTable := [⟨0, 0, 0⟩, ⟨255, 255, 255⟩]

/-- The GCE of V-W2. -/
def gce2 : GraphicControlExtension := ⟨0, 2, false, true, 10, 3⟩

/-- The 1×1 screen of V-W1. -/
def screen1 : ScreenIn := ⟨1, 1, 0, false, 0, 0⟩

/-- The frame of V-W1. -/
def frame1 : FrameIn := ⟨⟨0, 0, 1, 1, false, false⟩, none, none, [0]⟩

/-- The descriptor of P1's image. -/
def desc1 : ImageDescriptor := ⟨0, 0, 1, 1, false, false, false, 0, 0⟩

/-- P1's image. -/
def image1 : ImageBlock := ⟨desc1, none, none, none, ⟨2, [[0x44#8, 0x01#8]], 0⟩⟩

/-- An image block with this LZW data. -/
def frameOf (m : Byte) (subs : Blocks) : ImageBlock := { image1 with lzw := ⟨m, subs, 0⟩ }

/-- The container of V-P23: `HDR 3B`. -/
def hdr3B : List Byte :=
  [0x47#8, 0x49#8, 0x46#8, 0x38#8, 0x39#8, 0x61#8, 0x01#8, 0x00#8, 0x01#8, 0x00#8, 0x80#8, 0x00#8,
   0x00#8, 0x00#8, 0x00#8, 0x00#8, 0xFF#8, 0xFF#8, 0xFF#8, 0x3B#8]

/-- The decoder of V-D1 after `CLEAR/3 0/3`. -/
def decFirst : LZWDecoder :=
  { freshDecoder { State.reset.lzd with subs := [[0x04#8, 0x72#8, 0x51#8]], out := [0] } with
    prev := some 0 }

/-- The decoder of V-D1 after `CLEAR/3 0/3 0/3 1/3`: last 7, width 4, prev 1. -/
def decMid : LZWDecoder :=
  { assigned { assigned decFirst [0, 0] with out := [0, 0, 1] } [0, 1] with
    prev := some 1, subIdx := 1 }

/-- The encoder of V-E1 after init. -/
def encFirst : LZWEncoder :=
  freshEncoder { State.reset.lze with input := [0, 0, 1, 0, 1, 1], indexBuffer := [0], inPos := 1 }

/-- The encoder of V-E1 after its first step: 6 = [0,0]. -/
def encMid : LZWEncoder := { inserted encFirst 0 with inPos := 2 }

/-- A document with P1's image read. -/
def docMid : GIFDocument :=
  { header := ⟨.gif89a⟩, screen := ⟨1, 1, true, 0, false, 0, 0, 0⟩, globalColorTable := some g2,
    application := none, comment := none, images := [image1], trailer := 0x3B#8 }

/-- A state in the middle of DECODE_FRAME of V-D1, every unit in use: 12 bits are pending. -/
def mid : State :=
  { hi := { status := 0, cmd := 0x02#8, result := none, inbox := [⟨0x03#8, Operands.zero⟩] }
    bc := { buf := hdr3B, pos := 19 }
    bsr := { bits := [true, true, true, false, true, false, false, false, true, false, true, false] }
    bsw := { acc := [false, false, true], out := [0x04#8] }
    lzd := decMid, lze := encMid
    cp := { phase := .block, doc := docMid, pendingGCE := some gce2 }
    cw := { out := [0x47#8] }, ret := .code 1, todo := [] }

/-! ## WellFormed refuses -/

theorem test_wf_local_table : Instr.wf (.decodeFrame { image1 with localColorTable := some [] } none) = false := by
  decide +kernel
theorem test_wf_block : Instr.wf (.decodeFrame (frameOf 2 [[]]) none) = false := by decide +kernel
theorem test_wf_terminator :
    Instr.wf (.decodeFrame { image1 with lzw := ⟨2, [], 1⟩ } none) = false := by decide +kernel
theorem test_wf_active_table : Instr.wf (.decodeFrame image1 (some [⟨0, 0, 0⟩])) = false := by decide +kernel
theorem test_wf_unassigned : Instr.wf (.cmdUnassigned 0x04#8) = false := by decide +kernel
theorem test_wf_intro : Instr.wf (.cpIntroBad 0x3B#8) = false := by decide +kernel
theorem test_wf_label : Instr.wf (.cpLabelBad 0x01#8) = false := by decide +kernel
theorem test_wf_block_size : Instr.wf (.cpExpectBlockSize 0x05#8) = false := by decide +kernel
theorem test_wf_cycle : Instr.wf (.cpCycleIndexOf [[]]) = false := by decide +kernel
theorem test_wf_codes :
    ([Instr.lzwEoi 4096, .lzwClear 4096, .lzwFirst 4096, .lzwHit 4096, .lzwNext 4096, .lzwBad 4096].any
      Instr.wf) = false := by decide +kernel
theorem test_wf_decoder_init : Instr.wf (.lzdInit 1 []) = false ∧ Instr.wf (.lzdInit 2 [[]]) = false := by
  decide +kernel
theorem test_wf_encoder :
    ([Instr.lzeEncodeFrame 9 [0], .lzeEncodeFrame 2 [], .lzeInit 9 [0], .lzeInit 2 []].any Instr.wf) = false := by
  decide +kernel
theorem test_wf_table : Instr.wf (.cwWriteColorTable [⟨0, 0, 0⟩]) = false := by decide +kernel

/-! ## Encodings written out from the spec -/

/-- R161's command codes. -/
theorem test_decode_commands :
    decodeRequest ⟨0x01#8, { Operands.zero with bytes := [0x47#8] }⟩ = .parseContainer [0x47#8] ∧
    decodeRequest ⟨0x02#8, { Operands.zero with img := image1, act := some g2 }⟩ =
      .decodeFrame image1 (some g2) ∧
    decodeRequest ⟨0x03#8, { Operands.zero with m := 2, idx := [0, 0, 1] }⟩ = .encodeFrame 2 [0, 0, 1] ∧
    decodeRequest ⟨0x04#8, { Operands.zero with screen := screen1, ct := g2, frames := [frame1] }⟩ =
      .encodeContainer screen1 g2 [frame1] ∧
    decodeRequest ⟨0x00#8, Operands.zero⟩ = .cmdNone ∧
    decodeRequest ⟨0x05#8, Operands.zero⟩ = .cmdUnassigned 0x05#8 ∧
    decodeRequest ⟨0xFF#8, Operands.zero⟩ = .cmdUnassigned 0xFF#8 := by decide +kernel

/-- R115's introducers. -/
theorem test_decode_introducers :
    decodeBytes .block [0b00100001#8, 0xF9#8] = .ok (.cpIntroExt, [0xF9#8]) ∧
    decodeBytes .block [0b00101100#8] = .ok (.cpIntroImage, []) ∧
    decodeBytes .block [0b00111011#8] = .ok (.cpIntroTrailer, []) ∧
    decodeBytes .block [0b00000000#8] = .ok (.cpIntroBad 0x00#8, []) ∧
    decodeBytes .block [] = .error .endOfInput := by decide +kernel

/-- R116's labels. -/
theorem test_decode_labels :
    decodeBytes .label [0b11111111#8, 0x0B#8] = .ok (.cpLabelApp, [0x0B#8]) ∧
    decodeBytes .label [0b11111110#8] = .ok (.cpLabelComment, []) ∧
    decodeBytes .label [0b11111001#8] = .ok (.cpLabelGce, []) ∧
    decodeBytes .label [0b00000001#8] = .ok (.cpLabelText, []) ∧
    decodeBytes .label [0b11111010#8] = .ok (.cpLabelBad 0xFA#8, []) ∧
    decodeBytes .label [] = .error .endOfInput := by decide +kernel

/-- The positions selected by layout (R111, R112, R114, R123, R117, R125): no selector byte. -/
theorem test_decode_positions :
    decodeBytes .header [0x47#8] = .ok (.cpHeader, [0x47#8]) ∧
    decodeBytes .lsd [0x01#8] = .ok (.cpLSD, [0x01#8]) ∧
    decodeBytes .gct [0xFF#8] = .ok (.cpGCT, [0xFF#8]) ∧
    decodeBytes .imageDesc [0x00#8] = .ok (.cpImageDesc, [0x00#8]) ∧
    decodeBytes .subBlock [0x03#8] = .ok (.cpSubBlock, [0x03#8]) ∧
    decodeBytes .lzwData [0x02#8] = .ok (.cpLzwData, [0x02#8]) := by decide +kernel

/-- Codes of V-D1, V-D2 and V-D6, bit 0 first (R86, R126, R128): 4/3, 5/4, 0/3, 7/4, 6/3, 7/3. -/
theorem test_decode_codes :
    decodeBits ⟨4, 5, 5, none, 3⟩ [false, false, true] = .ok (.lzwClear 4, []) ∧
    decodeBits ⟨4, 5, 9, some 1, 4⟩ [true, false, true, false] = .ok (.lzwEoi 5, []) ∧
    decodeBits ⟨4, 5, 5, none, 3⟩ [false, false, false] = .ok (.lzwFirst 0, []) ∧
    decodeBits ⟨4, 5, 7, some 1, 4⟩ [true, true, true, false] = .ok (.lzwHit 7, []) ∧
    decodeBits ⟨4, 5, 5, some 0, 3⟩ [false, true, true] = .ok (.lzwNext 6, []) ∧
    decodeBits ⟨4, 5, 5, none, 3⟩ [true, true, true] = .ok (.lzwBad 7, []) ∧
    decodeBits ⟨4, 5, 5, none, 3⟩ [true, true] = .error .shortOfBits := by decide +kernel

/-- Words as the opcode table numbers them: the header's first byte is the least significant. -/
theorem test_decode_table_words :
    decodeTableWord 8 0x21 = some .cpIntroExt ∧ decodeTableWord 8 0x2C = some .cpIntroImage ∧
    decodeTableWord 8 0x3B = some .cpIntroTrailer ∧ decodeTableWord 8 0xFF = some .cpLabelApp ∧
    decodeTableWord 8 0xFE = some .cpLabelComment ∧ decodeTableWord 8 0xF9 = some .cpLabelGce ∧
    decodeTableWord 16 0x0121 = some .cpLabelText ∧ decodeTableWord 48 0x613738464947 = some .cpHeader ∧
    decodeTableWord 48 0x613838464947 = none ∧ decodeTableWord 8 0x00 = some .cmdNone ∧
    decodeTableWord 8 0x03 = some (.encodeFrame 0 []) ∧ decodeTableWord 8 0x100 = none := by decide +kernel

/-- The internal rows have no encoding. -/
theorem test_internal_rows :
    ([Instr.cpReadColorTable 0, .bcConsume, .bswClose, .bsrReadBits 3, .lzePack 2 [], .lzdStep, .lzeStep,
      .cwWriteHeader].all Instr.isInternal) = true := by decide +kernel

/-- A word of the table placed for the fetch is what the next step runs. -/
theorem test_fetch_word :
    statusAfter (step (State.reset.withFetchWord 8 0x03)) = some 0x0633#16 ∧
    ((after (step (State.reset.withFetchWord 8 0x3B))).map (·.cp.phase)) = some .done ∧
    ((after (step (State.reset.withFetchWord 48 0x613938464947))).map (·.cp.phase)) = some .lsd := by
  decide +kernel

/-! ## Commands (R162 to R165; V-P23, V-P4, V-D1, V-D6, V-E4, V-E8, V-W3, V-W4, V-S1) -/

theorem test_parse :
    resultOf (exec (.parseContainer hdr3B) State.reset) = some (.ok (.document
      { header := ⟨.gif89a⟩, screen := ⟨1, 1, true, 0, false, 0, 0, 0⟩,
        globalColorTable := some g2, application := none, comment := none, images := [],
        trailer := 0x3B#8 })) := by decide +kernel
theorem test_parse_empty : statusAfter (exec (.parseContainer []) State.reset) = some 0x0123#16 := by decide +kernel
theorem test_decode_frame :
    resultOf (exec (.decodeFrame (frameOf 2 [[0x04#8, 0x72#8, 0x51#8]]) none) State.reset) =
      some (.ok (.indices [0, 0, 1, 0, 1, 1])) := by decide +kernel
theorem test_decode_frame_bad :
    statusAfter (exec (.decodeFrame (frameOf 2 [[0x3C#8]]) none) State.reset) = some 0x0323#16 := by decide +kernel
theorem test_encode_frame :
    resultOf (exec (.encodeFrame 2 [0, 0, 1, 0, 2, 0, 3, 1, 1, 2, 1]) State.reset) = some (.ok (.bytes
      [0x02#8, 0x07#8, 0x04#8, 0x02#8, 0x02#8, 0x13#8, 0x21#8, 0x51#8, 0x00#8, 0x00#8])) := by decide +kernel
theorem test_encode_frame_order : statusAfter (exec (.encodeFrame 9 []) State.reset) = some 0x0633#16 := by
  decide +kernel
theorem test_encode_container :
    resultOf (exec (.encodeContainer screen1 g2 []) State.reset) = some (.ok (.bytes hdr3B)) := by decide +kernel
theorem test_encode_container_table :
    statusAfter (exec (.encodeContainer screen1 (g2 ++ [⟨0, 0, 0⟩]) [frame1]) State.reset) =
      some 0x0433#16 := by decide +kernel
theorem test_cmd_none : after (exec .cmdNone mid) = some mid := by decide +kernel
theorem test_cmd_unassigned : after (exec (.cmdUnassigned 0x05#8) State.reset) = none := by decide +kernel

/-! ## Container selectors (the examples of R291 to R316) -/

theorem test_cp_header :
    ((after (exec .cpHeader (input [0x47#8, 0x49#8, 0x46#8, 0x38#8, 0x37#8, 0x61#8]))).map fun t =>
      (t.cp.doc.header, t.cp.phase, t.bc.pos)) = some (⟨.gif87a⟩, .lsd, 6) := by decide +kernel
theorem test_cp_header_bad :
    statusAfter (exec .cpHeader (input [0x47#8, 0x49#8, 0x46#8, 0x38#8, 0x38#8, 0x61#8])) =
      some 0x0113#16 := by decide +kernel
theorem test_cp_lsd :
    ((after (exec .cpLSD (input [0x02#8, 0x00#8, 0x01#8, 0x00#8, 0x91#8, 0x05#8, 0x31#8]))).map fun t =>
      t.cp.doc.screen) = some ⟨2, 1, true, 1, false, 1, 5, 0x31⟩ := by decide +kernel
theorem test_cp_gct :
    ((after (exec .cpGCT ((input hdr3B 13).setCP
      { phase := .gct, doc := { docMid with globalColorTable := none }, pendingGCE := none }))).map fun t =>
      (t.cp.doc.globalColorTable, t.bc.pos, t.cp.phase)) = some (some g2, 19, .block) := by decide +kernel
theorem test_cp_gct_absent :
    ((after (exec .cpGCT ((input hdr3B 13).setCP
      { phase := .gct, pendingGCE := none
        doc := { GIFDocument.empty with screen := ⟨1, 1, false, 0, false, 7, 0, 0⟩ } }))).map fun t =>
      (t.cp.doc.globalColorTable, t.bc.pos, t.cp.phase)) = some (none, 13, .block) := by decide +kernel
theorem test_cp_intro_ext :
    ((after (exec .cpIntroExt (input [0xFE#8, 0x02#8, 0x48#8, 0x69#8, 0x00#8]))).map fun t =>
      t.cp.doc.comment) = some (some ⟨[0x48#8, 0x69#8]⟩) := by decide +kernel
theorem test_cp_intro_ext_bad : statusAfter (exec .cpIntroExt (input [0xFA#8])) = some 0x0313#16 := by
  decide +kernel
theorem test_cp_intro_image :
    ((after (exec .cpIntroImage (input [0x00#8, 0x00#8, 0x00#8, 0x00#8, 0x01#8, 0x00#8, 0x01#8, 0x00#8,
      0x00#8, 0x02#8, 0x02#8, 0x44#8, 0x01#8, 0x00#8]))).map fun t => (t.cp.doc.images, t.bc.pos)) =
      some ([image1], 14) := by decide +kernel
theorem test_cp_intro_trailer :
    ((after (exec .cpIntroTrailer (mid.setCP { mid.cp with doc := { docMid with trailer := 0x00#8 } }))).map fun t =>
      (t.cp.phase, t.cp.pendingGCE, t.cp.doc.trailer)) = some (.done, none, 0x3B#8) := by decide +kernel
theorem test_cp_intro_bad : statusAfter (exec (.cpIntroBad 0x00#8) mid) = some 0x0213#16 := by decide +kernel
/-- V-P15: the loop count 5. -/
theorem test_cp_label_app :
    ((after (exec .cpLabelApp (input ([0x0B#8] ++ [0x4E#8, 0x45#8, 0x54#8, 0x53#8, 0x43#8, 0x41#8, 0x50#8,
      0x45#8] ++ [0x32#8, 0x2E#8, 0x30#8, 0x03#8, 0x01#8, 0x05#8, 0x00#8, 0x00#8])))).map fun t =>
      t.cp.doc.application.bind (·.cycleIndex)) = some (some 5) := by decide +kernel
/-- V-P17: two sub-blocks are joined, and a comment that is there is replaced. -/
theorem test_cp_label_comment :
    ((after (exec .cpLabelComment (input [0x01#8, 0x21#8, 0x01#8, 0x3F#8, 0x00#8]))).map fun t =>
      t.cp.doc.comment) = some (some ⟨[0x21#8, 0x3F#8]⟩) := by decide +kernel
/-- V-P13. -/
theorem test_cp_label_gce :
    ((after (exec .cpLabelGce (input [0x04#8, 0x09#8, 0x0A#8, 0x00#8, 0x03#8, 0x00#8]))).map fun t =>
      (t.cp.pendingGCE, t.bc.pos)) = some (some gce2, 6) := by decide +kernel
/-- V-P9. -/
theorem test_cp_label_gce_terminator :
    statusAfter (exec .cpLabelGce (input [0x04#8, 0x09#8, 0x0A#8, 0x00#8, 0x03#8, 0x01#8])) =
      some 0x0413#16 := by decide +kernel
/-- V-P19, and the pending GCE is left. -/
theorem test_cp_label_text :
    ((after (exec .cpLabelText ((input [0x0C#8, 0x01#8, 0x00#8, 0x02#8, 0x00#8, 0x08#8, 0x00#8, 0x08#8,
      0x00#8, 0x08#8, 0x08#8, 0x01#8, 0x00#8, 0x02#8, 0x48#8, 0x69#8, 0x00#8]).setCP mid.cp))).map fun t =>
      (t.cp.doc.images.map (·.plainText), t.cp.pendingGCE)) =
      some ([some ⟨1, 2, 8, 8, 8, 8, 1, 0, [[0x48#8, 0x69#8]]⟩], some gce2) := by decide +kernel
/-- V-P18: dropped before any image. -/
theorem test_cp_label_text_dropped :
    ((after (exec .cpLabelText (input ([0x0C#8] ++ List.replicate 13 0x00#8)))).map fun t =>
      (t.cp.doc, t.bc.pos)) = some (GIFDocument.empty, 14) := by decide +kernel
theorem test_cp_label_bad :
    ((after (exec (.cpLabelBad 0xFA#8) mid)).map fun t => (t.hi.status, t.cp.phase)) =
      some (0x0313#16, .error) := by decide +kernel
/-- R67, R124: V-P28's packed byte 0x5F. -/
theorem test_cp_image_desc :
    retOf (exec .cpImageDesc (input [0x0A#8, 0x01#8, 0x00#8, 0x00#8, 0x01#8, 0x00#8, 0x02#8, 0x00#8,
      0x5F#8])) = some (.descriptor ⟨266, 0, 1, 2, false, true, false, 3, 7⟩) := by decide +kernel
theorem test_cp_sub_block :
    retOf (exec .cpSubBlock (input [0x02#8, 0x48#8, 0x69#8, 0x00#8])) =
      some (.subBlock (some [0x48#8, 0x69#8])) := by decide +kernel
theorem test_cp_sub_block_end :
    retOf (exec .cpSubBlock (input [0x00#8, 0x48#8])) = some (.subBlock none) := by decide +kernel
theorem test_cp_lzw_data :
    retOf (exec .cpLzwData (input [0x09#8, 0x00#8])) = some (.lzw ⟨9, [], 0⟩) := by decide +kernel

/-! ## Parser helpers -/

/-- R293's example. -/
theorem test_cp_decode_lsd_packed :
    retOf (exec (.cpDecodeLSDPacked 0xF7#8) State.reset) = some (.lsdPacked ⟨true, 7, false, 7⟩) := by decide +kernel
theorem test_cp_read_color_table :
    retOf (exec (.cpReadColorTable 0) (input hdr3B 13)) = some (.table g2) := by decide +kernel
/-- V-P6. -/
theorem test_cp_read_color_table_short :
    statusAfter (exec (.cpReadColorTable 0) (input (hdr3B.take 17) 13)) = some 0x0123#16 := by decide +kernel
/-- R295's example. -/
theorem test_cp_read_run :
    retOf (exec .cpReadSubBlockRun (input [0x03#8, 0x04#8, 0x72#8, 0x51#8, 0x00#8])) =
      some (.blocks [[0x04#8, 0x72#8, 0x51#8]]) := by decide +kernel
theorem test_cp_read_run_short :
    statusAfter (exec .cpReadSubBlockRun (input [0x03#8, 0x04#8, 0x72#8])) = some 0x0123#16 := by decide +kernel
theorem test_cp_expect_block_size :
    statusAfter (exec (.cpExpectBlockSize 0x04#8) (input [0x05#8])) = some 0x0513#16 := by decide +kernel
/-- R303's examples. -/
theorem test_cp_cycle_index :
    retOf (exec (.cpCycleIndexOf [[0x01#8, 0x05#8, 0x00#8]]) State.reset) = some (.cycle (some 5)) ∧
    retOf (exec (.cpCycleIndexOf [[0x01#8, 0x05#8]]) State.reset) = some (.cycle none) := by decide +kernel
/-- R309's example. -/
theorem test_cp_decode_image_packed :
    retOf (exec (.cpDecodeImagePacked 0x81#8) State.reset) =
      some (.imagePacked ⟨true, false, false, 0, 1⟩) := by decide +kernel
theorem test_cp_read_local_table :
    retOf (exec (.cpReadLocalTable { desc1 with localColorTableFlag := true }) (input hdr3B 13)) =
      some (.localTable (some g2)) ∧
    retOf (exec (.cpReadLocalTable desc1) (input hdr3B 13)) = some (.localTable none) := by decide +kernel
/-- R312's example. -/
theorem test_cp_read_lzw_data :
    retOf (exec .cpReadLZWData (input [0x02#8, 0x02#8, 0x44#8, 0x01#8, 0x00#8])) =
      some (.lzw ⟨2, [[0x44#8, 0x01#8]], 0⟩) := by decide +kernel

/-! ## LZW codes (the trace of V-D1, V-D2) -/

theorem test_lzw_eoi : ((after (exec (.lzwEoi 5) mid)).map fun t => (t.lzd.phase, t.lzd.out)) =
    some (.done, [0, 0, 1]) := by decide +kernel
theorem test_lzw_clear : ((after (exec (.lzwClear 4) mid)).map fun t =>
    (t.lzd.lastAssignedCode, t.lzd.codeSize, t.lzd.prev, t.lzd.out, dictGet t.lzd.dict 6)) =
    some (5, 3, none, [0, 0, 1], none) := by decide +kernel
theorem test_lzw_first : ((after (exec (.lzwFirst 3) State.reset)).map fun t =>
    (t.lzd.out, t.lzd.prev, t.lzd.lastAssignedCode)) = some ([3], some 3, 5) := by decide +kernel
/-- V-D1: 7/4 appends [0,1] and assigns 8 = [1,0]. -/
theorem test_lzw_hit : ((after (exec (.lzwHit 7) mid)).map fun t =>
    (t.lzd.out, t.lzd.prev, t.lzd.lastAssignedCode, dictGet t.lzd.dict 8)) =
    some ([0, 0, 1, 0, 1], some 7, 8, some [1, 0]) := by decide +kernel
/-- V-D1: 1/3 assigns 7 = [0,1] and widens. -/
theorem test_lzw_hit_widens :
    ((after (exec (.lzwHit 1) (State.reset.setLZD (assigned decFirst [0, 0])))).map fun t =>
      (t.lzd.codeSize, t.lzd.growThreshold, dictGet t.lzd.dict 7)) = some (4, 15, some [0, 1]) := by decide +kernel
/-- V-D2. -/
theorem test_lzw_next : ((after (exec (.lzwNext 6) (State.reset.setLZD decFirst))).map fun t =>
    (t.lzd.out, t.lzd.prev, dictGet t.lzd.dict 6)) = some ([0, 0, 0], some 6, some [0, 0]) := by decide +kernel
theorem test_lzw_bad : ((after (exec (.lzwBad 9) mid)).map fun t => (t.hi.status, t.lzd.phase)) =
    some (0x0323#16, .error) := by decide +kernel

/-! ## ByteCursor (V-C1 to V-C12) -/

theorem test_bc_consume : ((after (exec .bcConsume (input [0x3B#8]))).map fun t => (t.ret, t.bc.pos)) =
    some (.byte 0x3B#8, 1) := by decide +kernel
theorem test_bc_consume_end : statusAfter (exec .bcConsume (input [0x3B#8] 1)) = some 0x0123#16 := by decide +kernel
theorem test_bc_peek : retOf (exec .bcPeekRemaining (input [0x3B#8] 1)) = some (.flag false) ∧
    retOf (exec .bcPeekRemaining (input [0x3B#8])) = some (.flag true) := by decide +kernel
theorem test_bc_take :
    ((after (exec (.bcTake 5) (input [0x01#8, 0x02#8, 0x03#8] 1))).map fun t => (t.ret, t.bc.pos)) =
      some (.bytes [0x02#8, 0x03#8], 3) := by decide +kernel
theorem test_bc_take_exact :
    statusAfter (exec (.bcTakeExact 6) (input [0x47#8, 0x49#8, 0x46#8])) = some 0x0123#16 := by decide +kernel
theorem test_bc_take_exact_none :
    retOf (exec (.bcTakeExact 0) (input [0x3B#8] 1)) = some (.bytes []) := by decide +kernel
theorem test_bc_read_le16 :
    ((after (exec .bcReadLE16 (input [0x0A#8, 0x01#8]))).map fun t => (t.ret, t.bc.pos)) =
      some (.half 266, 2) := by decide +kernel
theorem test_bc_read_le16_short : statusAfter (exec .bcReadLE16 (input [0x0A#8])) = some 0x0123#16 := by decide +kernel

/-! ## BitStream (V-B1 to V-B18) -/

/-- V-B3: two widths of byte at once, bit 0 first. -/
theorem test_bsw_write : ((after (exec (.bswWrite 0x5A5 12) State.reset)).map (·.bsw)) =
    some { acc := [true, false, true, false], out := [0xA5#8] } := by decide +kernel
/-- V-B6, V-B7. -/
theorem test_bsw_write_bad : statusAfter (exec (.bswWrite 8 3) State.reset) = some 0x0133#16 ∧
    statusAfter (exec (.bswWrite 0 13) State.reset) = some 0x0133#16 := by decide +kernel
/-- V-B4, V-B5. -/
theorem test_bsw_close :
    ((after (exec .bswClose (writer [true, false, true, false] [0xA5#8]))).map (·.bsw)) =
      some { acc := [], out := [0xA5#8, 0x05#8] } ∧
    ((after (exec .bswClose (writer [] [0xA5#8]))).map (·.bsw.out)) = some [0xA5#8] := by decide +kernel
/-- V-B8. -/
theorem test_bsr_push : ((after (exec (.bsrPushBytes [0x02#8]) (reader [true]))).map (·.bsr.bits)) =
    some [true, false, true, false, false, false, false, false, false] := by decide +kernel
/-- V-B10, V-B12. -/
theorem test_bsr_has : retOf (exec (.bsrHasBits 12) (reader (List.replicate 11 true))) = some (.flag false) ∧
    retOf (exec (.bsrHasBits 11) (reader (List.replicate 11 true))) = some (.flag true) ∧
    statusAfter (exec (.bsrHasBits 0) State.reset) = some 0x0133#16 := by decide +kernel
/-- V-B9: the first code of `04 72`. -/
theorem test_bsr_read :
    ((after (exec (.bsrReadBits 3) (reader [false, false, true, false]))).map fun t => (t.ret, t.bsr.bits)) =
      some (.code 4, [false]) := by decide +kernel
/-- V-B11, V-B12. -/
theorem test_bsr_read_short :
    statusAfter (exec (.bsrReadBits 4) (reader [true, true, true])) = some 0x0223#16 ∧
    statusAfter (exec (.bsrReadBits 13) (reader [])) = some 0x0133#16 := by decide +kernel
/-- V-B14. -/
theorem test_pack : retOf (exec (.lzePack 2 [0x04#8, 0x72#8, 0x51#8]) State.reset) =
    some (.bytes [0x02#8, 0x03#8, 0x04#8, 0x72#8, 0x51#8, 0x00#8]) := by decide +kernel
/-- V-B16: 255 bytes make sub-blocks of 254 and 1. -/
theorem test_pack_255 :
    ((retOf (exec (.lzePack 2 (List.replicate 255 0x07#8)) State.reset)).map fun v => match v with
      | .bytes b => (b.length, b[1]?, b.drop 256)
      | _ => (0, none, [])) = some (259, some 0xFE#8, [0x01#8, 0x07#8, 0x00#8]) := by decide +kernel

/-! ## LZW decoder -/

/-- R211's example: m = 8. -/
theorem test_lzd_init : ((after (exec (.lzdInit 8 [[0x00#8]]) mid)).map fun t =>
    (t.lzd.codeSize, t.lzd.lastAssignedCode, t.lzd.growThreshold, t.lzd.out, t.bsr.bits)) =
    some (9, 257, 511, [], []) := by decide +kernel
theorem test_lzd_unit_reset : ((after (exec .lzdUnitReset mid)).map fun t =>
    (dictGet t.lzd.dict 3, dictGet t.lzd.dict 7, t.lzd.codeSize, t.bsr)) = some (some [3], none, 3, mid.bsr) := by
  decide +kernel
/-- V-D12: a code that straddles a sub-block boundary. -/
theorem test_lzd_fetch :
    ((after (exec .lzdFetchCode ((reader [false, false]).setLZD
      { State.reset.lzd with subs := [[0x01#8], [0xAA#8]] }))).map fun t =>
      (t.ret, t.lzd.subIdx, t.bsr.bits.length)) = some (.code 4, 1, 7) := by decide +kernel
/-- V-D15. -/
theorem test_lzd_fetch_end : statusAfter (exec .lzdFetchCode State.reset) = some 0x0223#16 := by decide +kernel
/-- V-D1: the code 7/4 in the middle of the frame. -/
theorem test_lzd_step : ((after (exec .lzdStep mid)).map fun t => (t.lzd.out, t.bsr.bits.length)) =
    some ([0, 0, 1, 0, 1], 8) := by decide +kernel
theorem test_lzd_assign : ((after (exec (.lzdAssign 0) mid)).map fun t =>
    (t.lzd.lastAssignedCode, dictGet t.lzd.dict 8, t.lzd.codeSize)) = some (8, some [1, 0], 4) := by decide +kernel
/-- R409: a full table is left. -/
theorem test_lzd_assign_full :
    after (exec (.lzdAssign 0) (mid.setLZD { decMid with lastAssignedCode := 4095 })) =
      some (mid.setLZD { decMid with lastAssignedCode := 4095 }) := by decide +kernel

/-! ## LZW encoder (the trace of V-E1, V-E3) -/

theorem test_lze_encode_frame : retOf (exec (.lzeEncodeFrame 2 [0, 0, 1]) State.reset) =
    some (.bytes [0x02#8, 0x02#8, 0x04#8, 0x52#8, 0x00#8]) := by decide +kernel
/-- R251's example. -/
theorem test_lze_init : ((after (exec (.lzeInit 2 [0, 0, 1, 0, 1, 1]) mid)).map fun t => (t.lze, t.bsw)) =
    some (encFirst, { acc := [], out := [] }) := by decide +kernel
/-- V-E8. -/
theorem test_lze_init_bad : statusAfter (exec (.lzeInit 2 [4]) State.reset) = some 0x0333#16 := by decide +kernel
theorem test_lze_unit_reset : ((after (exec .lzeUnitReset mid)).map fun t =>
    (t.lze.nextCode, t.lze.codeSize, encGet t.lze.dict [0, 0], encGet t.lze.dict [3], t.lze.indexBuffer)) =
    some (6, 3, none, some 3, [0]) := by decide +kernel
theorem test_lze_check_index : statusAfter (exec (.lzeCheckIndex 4) mid) = some 0x0333#16 ∧
    after (exec (.lzeCheckIndex 3) mid) = some mid := by decide +kernel
/-- V-E1, step 1: emit 0/3, 6 = [0,0]. -/
theorem test_lze_step : ((after (exec .lzeStep (State.reset.setLZE encFirst))).map fun t =>
    (t.lze, t.bsw.acc)) = some (encMid, [false, false, false]) := by decide +kernel
theorem test_lze_extend : ((after (exec (.lzeExtend 1) mid)).map fun t => (t.lze.indexBuffer, t.bsw)) =
    some ([0, 1], mid.bsw) := by decide +kernel
/-- V-E1, step 3: c = 8 is assigned at width 3, and the width becomes 4. -/
theorem test_lze_miss_grows :
    ((after (exec (.lzeMiss 0) (State.reset.setLZE { encMid with nextCode := 8, indexBuffer := [1] }))).map
      fun t => (t.lze.codeSize, t.lze.nextCode, encGet t.lze.dict [1, 0], t.bsw.acc)) =
      some (4, 9, some 8, [true, false, false]) := by decide +kernel
/-- R258: c = 4096 writes CLEAR/12 and resets. -/
theorem test_lze_miss_resets :
    ((after (exec (.lzeMiss 2) (State.reset.setLZE
      { encMid with nextCode := 4096, codeSize := 12, indexBuffer := [1] }))).map
      fun t => (t.lze.codeSize, t.lze.nextCode, t.lze.indexBuffer, t.bsw)) =
      some (3, 6, [2], { acc := [], out := [0x01#8, 0x40#8, 0x00#8] }) := by decide +kernel
theorem test_lze_reset_unit : ((after (exec .lzeResetUnit (State.reset.setLZE encMid))).map fun t =>
    (t.bsw.acc, t.lze.nextCode, t.lze.indexBuffer)) = some ([false, false, true], 6, [0]) := by decide +kernel
/-- R259's example, and MissingEntry. -/
theorem test_lze_emit :
    ((after (exec (.lzeEmit (some 4)) State.reset)).map (·.bsw.acc)) = some [false, false, true] ∧
    statusAfter (exec (.lzeEmit none) State.reset) = some 0x0533#16 := by decide +kernel
/-- R261: nextCode 8 at width 3, so EOI takes 4 bits (V-E3). -/
theorem test_lze_finish :
    ((after (exec .lzeFinish (State.reset.setLZE { encMid with nextCode := 8, indexBuffer := [1] }))).map
      fun t => (t.bsw.acc, t.lze.phase)) =
      some ([true, false, false, true, false, true, false], .done) := by decide +kernel

/-! ## Container writer (V-W1, V-W2, the examples of R342 to R346) -/

theorem test_cw_encode_container :
    ((after (exec (.cwEncodeContainer screen1 g2 [frame1]) State.reset)).map (·.cw.out)) =
      some (hdr3B.dropLast ++ [0x2C#8, 0x00#8, 0x00#8, 0x00#8, 0x00#8, 0x01#8, 0x00#8, 0x01#8, 0x00#8,
        0x00#8, 0x02#8, 0x02#8, 0x44#8, 0x01#8, 0x00#8, 0x3B#8]) := by decide +kernel
theorem test_cw_header : ((after (exec .cwWriteHeader mid)).map (·.cw.out)) =
    some [0x47#8, 0x47#8, 0x49#8, 0x46#8, 0x38#8, 0x39#8, 0x61#8] := by decide +kernel
theorem test_cw_lsd :
    ((after (exec (.cwWriteLSD ⟨2, 2, 1, false, 0, 0⟩ 1) State.reset)).map (·.cw.out)) =
      some [0x02#8, 0x00#8, 0x02#8, 0x00#8, 0x91#8, 0x00#8, 0x00#8] := by decide +kernel
theorem test_cw_size_field : retOf (exec (.cwSizeField (g2 ++ g2)) State.reset) = some (.size 1) ∧
    statusAfter (exec (.cwSizeField (g2 ++ [⟨0, 0, 0⟩])) State.reset) = some 0x0433#16 := by decide +kernel
theorem test_cw_color_table : ((after (exec (.cwWriteColorTable g2) State.reset)).map (·.cw.out)) =
    some [0x00#8, 0x00#8, 0x00#8, 0xFF#8, 0xFF#8, 0xFF#8] := by decide +kernel
theorem test_cw_gce : ((after (exec (.cwWriteGCE gce2) State.reset)).map (·.cw.out)) =
    some [0x21#8, 0xF9#8, 0x04#8, 0x09#8, 0x0A#8, 0x00#8, 0x03#8, 0x00#8] := by decide +kernel
/-- P2's second frame, with a local table. -/
theorem test_cw_image :
    ((after (exec (.cwWriteImage ⟨⟨1, 1, 1, 1, false, false⟩, some g2, none, [1]⟩ []) State.reset)).map
      (·.cw.out)) =
      some [0x2C#8, 0x01#8, 0x00#8, 0x01#8, 0x00#8, 0x01#8, 0x00#8, 0x01#8, 0x00#8, 0x80#8, 0x00#8,
        0x00#8, 0x00#8, 0xFF#8, 0xFF#8, 0xFF#8, 0x02#8, 0x02#8, 0x4C#8, 0x01#8, 0x00#8] := by decide +kernel
theorem test_cw_image_empty :
    statusAfter (exec (.cwWriteImage { frame1 with indices := [] } g2) State.reset) = some 0x0233#16 := by
  decide +kernel
theorem test_cw_trailer : ((after (exec .cwWriteTrailer mid)).map (·.cw.out)) = some [0x47#8, 0x3B#8] := by
  decide +kernel

/-! ## Legal states other than reset -/

theorem decFirst_legal : DecoderLegal decFirst :=
  have h : DecoderLegal (freshDecoder
      { State.reset.lzd with subs := [[0x04#8, 0x72#8, 0x51#8]], out := [0] }) :=
    decoderLegal_fresh (by decide) (by decide) (by decide) (by decide) (by decide)
  { h with
    table := { h.table with }
    prev := fun p hp => by cases hp; decide +kernel
    out := by decide +kernel }

/-- The decoder in the middle of V-D1 meets every state rule. -/
theorem decMid_legal : DecoderLegal decMid :=
  have h1 : DecoderLegal (assigned decFirst ([0] ++ [0])) :=
    decoderLegal_assigned decFirst_legal (p := 0) (by decide +kernel) (by decide +kernel)
  have h2 : DecoderLegal { assigned decFirst [0, 0] with out := [0, 0, 1] } :=
    { h1 with table := { h1.table with }, out := by decide +kernel }
  have h3 : DecoderLegal (assigned { assigned decFirst [0, 0] with out := [0, 0, 1] } ([0] ++ [1])) :=
    decoderLegal_assigned h2 (p := 0) (by decide +kernel) (by decide +kernel)
  { h3 with
    table := { h3.table with }
    prev := fun p hp => by cases hp; decide +kernel
    out := by decide +kernel
    subIdx := by decide +kernel }

theorem encFirst_legal : EncoderLegal encFirst :=
  encoderLegal_fresh (by decide) (by decide) (by decide) (k := 0) (by decide) (by decide) (by decide)

/-- The encoder in the middle of V-E1 meets every state rule. -/
theorem encMid_legal : EncoderLegal encMid :=
  have h := encoderLegal_inserted encFirst_legal (k := 0) (by decide +kernel) (by decide +kernel)
    (by decide +kernel)
  { h with map := { h.map with }, inPos := by decide +kernel }

/-- `mid` with another command in progress. -/
def during (c : Byte) : State := mid.setHI { mid.hi with cmd := c }

theorem mid_parser : ParserLegal mid.cp := by
  refine ⟨⟨rfl, rfl⟩, fun a h => ?_, fun img h => ?_, rfl⟩
  · cases h
  · cases List.mem_singleton.mp h
    exact ⟨by decide +kernel, by decide +kernel, rfl⟩

/-- `during` is legal for every command code in use, and while idle. -/
theorem during_legal (c : Byte) (hc : c.toNat ≤ 4) : Legal (during c) where
  host := ⟨hc, rfl⟩
  cursor := by show CursorLegal mid.bc; unfold CursorLegal; decide +kernel
  writerBits := by show WriterBitsLegal mid.bsw; unfold WriterBitsLegal; decide +kernel
  decoder := decMid_legal
  encoder := fun _ => encMid_legal
  parser := mid_parser
  sequencing := ⟨fun h => absurd rfl h, rfl, fun _ h => (by cases h), fun _ h => (by cases h),
    fun _ h => (by cases h)⟩

/-- Inside ENCODE_CONTAINER with an operation queued. -/
theorem queued_legal : Legal ((during 0x04#8).setTodo [.cwWriteTrailer]) :=
  have h := during_legal 0x04#8 (by decide)
  { host := h.host, cursor := h.cursor, writerBits := h.writerBits, decoder := h.decoder
    encoder := h.encoder, parser := h.parser
    sequencing := ⟨fun _ => rfl, rfl, h.sequencing.2.2⟩ }

/-! ## Witnesses: for each statement with hypotheses, values that meet them, clause by clause -/

theorem witness_PowerOnState : isCommand (.encodeFrame 2 [0]) = true ∧
    (mid.setHI State.reset.hi).hi = State.reset.hi ∧ mid.setHI State.reset.hi ≠ State.reset := by
  decide +kernel

theorem witness_StepRunsDecodedInstruction :
    ((during 0#8).todo = [] ∧ (during 0#8).hi.cmd = 0#8 ∧
      (during 0#8).hi.inbox = [⟨0x03#8, Operands.zero⟩]) ∧
    ((during 1#8).todo = [] ∧ (during 1#8).hi.cmd = 0x01#8 ∧ (during 1#8).cp.phase = .block ∧
      unread (during 1#8) = [0x3B#8] ∧
      decodeBytes .block (unread (during 1#8)) = .ok (.cpIntroTrailer, [])) ∧
    ((during 1#8).setCP State.reset.cp).cp.phase = .header ∧
    (mid.todo = [] ∧ mid.hi.cmd = 0x02#8 ∧ mid.lzd.phase = .run ∧ mid.lzd.codeSize = 4 ∧
      decodeBits (codeContext mid.lzd) (codeSupply mid) = .ok (.lzwHit 7, mid.bsr.bits.drop 4)) ∧
    ((during 3#8).hi.cmd = 0x03#8 ∧ (during 3#8).lze.phase = .run ∧
      (during 3#8).lze.input[(during 3#8).lze.inPos]? = some 1 ∧ 1 < (during 3#8).lze.clearCode) ∧
    ({ encMid with inPos := 6 } : LZWEncoder).input.length ≤ 6 ∧
    (mid.setTodo [.cwWriteTrailer]).todo = .cwWriteTrailer :: [] ∧
    (after (exec (.lzwHit 7) mid)).isSome = true := by decide +kernel

/-- The ends of commands that conclude tells apart. -/
theorem witness_StepRunsDecodedInstruction_conclude :
    ((during 1#8).cp.phase ≠ .done ∧ (during 2#8).lzd.phase ≠ .done ∧ (during 3#8).lze.phase ≠ .done ∧
      ((during 4#8).setTodo [.cwWriteTrailer]).todo ≠ [] ∧ (during 4#8).todo = []) ∧
    ((during 1#8).setCP { mid.cp with phase := .done }).cp.phase = .done ∧
    ((during 2#8).setLZD { decMid with phase := .done }).lzd.phase = .done ∧
    (((during 3#8).setLZE { encMid with phase := .done }).lze.phase = .done ∧
      (during 3#8).bsw.acc.length ≤ 7) := by decide +kernel

theorem witness_DecodeEncodeAgree :
    (Instr.wf (.cmdUnassigned 0x05#8) = true ∧
      encodeRequest (.cmdUnassigned 0x05#8) = some ⟨0x05#8, Operands.zero⟩) ∧
    (Instr.wf (.cpIntroBad 0xFF#8) = true ∧
      encodeBytes (.cpIntroBad 0xFF#8) = some (.block, [0xFF#8])) ∧
    (codeOf (.lzwNext 15) = some 15 ∧ 15 < 2 ^ 4 ∧ decodeCode ⟨4, 5, 14, some 1, 4⟩ 15 = .lzwNext 15) ∧
    (⟨4, 5, 7, none, 4⟩ : CodeContext).codeSize ≤ [true, false, true, false].length := by decide +kernel

theorem witness_CodeClassesExclusive : (codeContext decMid).eoiCode = (codeContext decMid).clearCode + 1 ∧
    (codeContext decMid).eoiCode ≤ (codeContext decMid).lastAssignedCode := by decide +kernel

theorem witness_StatusWordOfEveryError : ∃ e e' : Err, statusOf e = statusOf e' :=
  ⟨.formatError .badLabel, _, rfl⟩

theorem witness_CommandLifecycle : isCommand (.parseContainer [0x47#8]) = true ∧ (during 0#8).hi.cmd = 0#8 ∧
    State.reset.hi.cmd = 0#8 := by decide +kernel

theorem witness_CommandsAreDeterministic : isCommand (.decodeFrame image1 (some g2)) = true ∧
    (during 0#8).hi.cmd = 0#8 ∧ State.reset.hi.cmd = 0#8 ∧ during 0#8 ≠ State.reset := by decide +kernel

theorem witness_CommandCodes : 0x05#8 ≤ 0x05#8 ∧ 0x05#8 ≤ 0xFF#8 ∧
    (State.reset.setHI { State.reset.hi with inbox := [⟨0x05#8, Operands.zero⟩] }).todo = [] := by
  decide +kernel

theorem witness_IdleAndBusy : State.reset.todo = [] ∧ State.reset.hi.cmd = 0#8 ∧ State.reset.hi.inbox = [] ∧
    isCommand (.encodeFrame 2 []) = true ∧ mid.hi.cmd ≠ 0#8 := by decide +kernel

/-- An operation that raises no error, and one of each family that raises one; the writer's own error, alone
and after a whole frame, and an encoder's error inside it. -/
theorem witness_OperationsReachTheHostOnlyByErrors :
    (isCommand (.cpIntroBad 0x00#8) = false ∧ isCommand .bcPeekRemaining = false ∧
      ((after (exec .bcPeekRemaining mid)).map (·.hi)) = some mid.hi) ∧
    [Instr.cpIntroBad 0x00#8, .bcTakeExact 2, .bsrReadBits 0, .lzwBad 9, .bswWrite 0 0, .lzeCheckIndex 4,
      .cwSizeField [], .cwEncodeContainer screen1 g2 [frame1, { frame1 with indices := [] }],
      .cwWriteImage { frame1 with indices := [4] } g2].map
        (fun i => (familyOf i, statusAfter (exec i mid))) =
      [(.parser, some 0x0213#16), (.cursor, some 0x0123#16), (.readBits, some 0x0133#16),
        (.decoder, some 0x0323#16), (.writeBits, some 0x0133#16), (.encoder, some 0x0333#16),
        (.writer, some 0x0433#16), (.writer, some 0x0233#16), (.writer, some 0x0333#16)] := by
  decide +kernel

/-- One next state for each family. -/
theorem witness_FamilyFrames :
    [Instr.encodeFrame 2 [0], .cpIntroTrailer, .bcConsume, .bswWrite 4 3, .bsrReadBits 12, .lzdStep, .lzeStep,
      .cwWriteTrailer].map (fun i => (familyOf i, (after (exec i (during 0#8))).isSome)) =
    [(.command, true), (.parser, true), (.cursor, true), (.writeBits, true), (.readBits, true),
      (.decoder, true), (.encoder, true), (.writer, true)] := by decide +kernel

theorem witness_ConsumeOneByte : mid.bc.buf[mid.bc.pos]? = some 0x3B#8 ∧
    (input [0x3B#8] 1).bc.buf.length ≤ (input [0x3B#8] 1).bc.pos := by decide +kernel

theorem witness_CursorOperations : 2 ≤ (unread (input [1, 2])).length ∧ (unread (input [1, 2])).length < 3 ∧
    unread (input [0x0A#8, 0x01#8]) = 0x0A#8 :: 0x01#8 :: [] ∧ (unread (input [0x0A#8])).length < 2 := by
  decide +kernel

/-- The widest code, and each way out of range. -/
theorem witness_WriteBits : (1 ≤ 12 ∧ 12 ≤ 12 ∧ 4095 < 2 ^ 12) ∧ (0 < 1 ∨ 12 < 0 ∨ 2 ^ 0 ≤ 0) ∧
    (13 < 1 ∨ 12 < 13 ∨ 2 ^ 13 ≤ 0) ∧ (3 < 1 ∨ 12 < 3 ∨ 2 ^ 3 ≤ 8) := by decide +kernel

theorem witness_CloseBits : (writer [] [1]).bsw.acc = [] ∧
    ((writer (List.replicate 7 true) [1]).bsw.acc.length ≤ 7 ∧
      (writer (List.replicate 7 true) [1]).bsw.acc ≠ []) := by decide +kernel

theorem witness_ReadSide : (1 ≤ 12 ∧ 12 ≤ 12 ∧ 12 ≤ mid.bsr.bits.length) ∧
    (reader (List.replicate 11 true)).bsr.bits.length < 12 ∧ (0 < 1 ∨ 12 < 0) ∧ (13 < 1 ∨ 12 < 13) := by
  decide +kernel

theorem witness_WriteReadInverse :
    (∀ p ∈ [(4, 3), (4095, 12), (0, 1)], 1 ≤ p.2 ∧ p.2 ≤ 12 ∧ p.1 < 2 ^ p.2) ∧
    State.reset.bsw = { acc := [], out := [] } ∧ State.reset.bsr.bits = [] := by decide +kernel

theorem witness_DecoderInit : (4095 ≤ 4095) := by decide

theorem witness_FetchCode : (1 ≤ mid.lzd.codeSize ∧ mid.lzd.codeSize ≤ 12 ∧
      mid.lzd.codeSize ≤ (codeSupply mid).length) ∧
    (1 ≤ State.reset.lzd.codeSize ∧ (codeSupply State.reset).length < State.reset.lzd.codeSize) := by
  decide +kernel

theorem witness_DecoderStep : DecoderLegal mid.lzd ∧ mid.lzd.codeSize ≤ (codeSupply mid).length ∧
    decodeCode (codeContext mid.lzd) 7 ≠ .lzwBad 7 ∧
    (codeSupply (mid.setBSR { bits := [] })).length < mid.lzd.codeSize :=
  ⟨decMid_legal, by decide +kernel, by decide +kernel, by decide +kernel⟩

theorem witness_EoiClearFirst : dictGet State.reset.lzd.dict 3 = some [3] ∧ TableLegal mid.lzd ∧
    3 < mid.lzd.clearCode := ⟨by decide +kernel, decMid_legal.table, by decide +kernel⟩

/-- An entry just assigned, and a full table. -/
theorem witness_HitOutputsAndAssigns : dictGet mid.lzd.dict 7 = some (0 :: [1]) ∧ mid.lzd.prev = some 1 ∧
    dictGet mid.lzd.dict 1 = some [1] ∧
    (mid.setLZD { decMid with lastAssignedCode := 4095 }).lzd.prev = some 1 := by decide +kernel

theorem witness_NextIsKwKwK : mid.lzd.prev = some 1 ∧ dictGet mid.lzd.dict 1 = some (1 :: []) ∧
    8 = mid.lzd.lastAssignedCode + 1 ∧ 8 ≤ 4095 := by decide +kernel

/-- Below the threshold, at it, and with a full table. -/
theorem witness_AssignEntry :
    (decMid.lastAssignedCode < 4095 ∧ decMid.prev = some 1 ∧ dictGet decMid.dict 1 = some [1] ∧
      decMid.lastAssignedCode + 1 ≠ decMid.growThreshold) ∧
    ((assigned decFirst [0, 0]).lastAssignedCode + 1 = (assigned decFirst [0, 0]).growThreshold ∧
      (assigned decFirst [0, 0]).prev = some 0 ∧ dictGet (assigned decFirst [0, 0]).dict 0 = some [0]) ∧
    4095 ≤ ({ decMid with lastAssignedCode := 4095 } : LZWDecoder).lastAssignedCode := by decide +kernel

theorem witness_WidthGrowsByOne : DecoderLegal mid.lzd ∧ (after (exec (.lzwEoi 5) mid)).isSome = true ∧
    (after (exec (.lzwFirst 0) mid)).isSome = true ∧ (after (exec (.lzwHit 7) mid)).isSome = true ∧
    (after (exec (.lzwNext 8) mid)).isSome = true ∧ (after (exec (.lzdAssign 0) mid)).isSome = true ∧
    (after (exec .lzdUnitReset mid)).isSome = true ∧ (after (exec (.lzwClear 4) mid)).isSome = true :=
  ⟨decMid_legal, by decide +kernel, by decide +kernel, by decide +kernel, by decide +kernel,
    by decide +kernel, by decide +kernel, by decide +kernel⟩

theorem witness_EncoderInit : 3 < 2 ^ (2#8).toNat ∧ 2 ^ (2#8).toNat ≤ 4 ∧ 3 < mid.lze.clearCode ∧
    mid.lze.clearCode ≤ 4 := by decide +kernel

theorem witness_EncoderStep :
    (mid.lze.input[mid.lze.inPos]? = some 1 ∧ 1 < mid.lze.clearCode ∧
      encGet mid.lze.dict (mid.lze.indexBuffer ++ [1]) = none) ∧
    ({ encMid with input := [0, 0, 0] } : LZWEncoder).input[2]? = some 0 ∧
    encGet encMid.dict (encMid.indexBuffer ++ [0]) ≠ none ∧
    (({ encMid with input := [0, 0, 4] } : LZWEncoder).input[2]? = some 4 ∧ encMid.clearCode ≤ 4) := by
  decide +kernel

theorem witness_EncoderInvariants : EncoderLegal mid.lze ∧ mid.lze.input[mid.lze.inPos]? = some 1 ∧
    1 < mid.lze.clearCode := ⟨encMid_legal, by decide +kernel, by decide +kernel⟩

/-- A full map: 4096 is next, at width 12. -/
theorem witness_MissEmitsAndInserts :
    (encGet encMid.dict encMid.indexBuffer = some 0 ∧ 0 < 2 ^ encMid.codeSize ∧ encMid.codeSize = 3 ∧
      encMid.nextCode ≤ 4095 ∧ encMid.clearCode < 2 ^ encMid.codeSize) ∧
    (4095 < ({ encMid with nextCode := 4096, codeSize := 12 } : LZWEncoder).nextCode ∧
      encMid.clearCode < 2 ^ 12) := by decide +kernel

theorem witness_EmitCode : 1 ≤ encMid.codeSize ∧ encMid.codeSize ≤ 12 ∧ 7 < 2 ^ encMid.codeSize := by
  decide +kernel

/-- Without and with the end-of-input widening. -/
theorem witness_FinishWritesEoi :
    (encGet encMid.dict encMid.indexBuffer = some 0 ∧ encMid.eoiCode < 2 ^ encMid.codeSize ∧
      ¬ (encMid.nextCode = 2 ^ encMid.codeSize)) ∧
    (encMid.eoiCode + 1 < ({ encMid with nextCode := 8 } : LZWEncoder).nextCode ∧ 8 = 2 ^ encMid.codeSize ∧
      encMid.codeSize < 12) := by decide +kernel

theorem witness_EncodeFrameIsItsSteps : (2 ≤ (2#8).toNat ∧ (8#8).toNat ≤ 8 ∧ [0, 3] ≠ []) ∧
    (∀ k ∈ [0, 3], k < 2 ^ (2#8).toNat) ∧ (∃ k ∈ [0, 4], 2 ^ (2#8).toNat ≤ k) := by decide +kernel

theorem witness_ParserPrologue :
    unread (input hdr3B) = signatureBytes .gif89a ++ hdr3B.drop 6 ∧
    (6 ≤ (unread (input hdr3B 1)).length ∧
      ∀ g : Signature, (unread (input hdr3B 1)).take 6 ≠ signatureBytes g) ∧
    (unread (input (hdr3B.take 5))).length < 6 ∧
    unread (input hdr3B 6) = screenDescriptorBytes ⟨1, 1, true, 0, false, 0, 0, 0⟩ ++ hdr3B.drop 13 ∧
    7 ≤ (unread (input hdr3B 6)).length ∧ (unread (input (hdr3B.take 6))).length < 7 ∧
    (mid.cp.doc.screen.globalColorTableFlag = true ∧ State.reset.cp.doc.screen.globalColorTableFlag = false) ∧
    mid.cp.doc.screen.sizeOfGlobalColorTable = 0#3 ∧ g2.length = 2 <<< (0#3).toNat ∧
    unread (input hdr3B 13) = tableBytes g2 ++ [0x3B#8] ∧
    (unread (input (hdr3B.take 18) 13)).length < 3 * 2 <<< (0#3).toNat :=
  ⟨by decide +kernel, ⟨by decide +kernel, fun g => by cases g <;> decide +kernel⟩, by decide +kernel,
    by decide +kernel, by decide +kernel, by decide +kernel, by decide +kernel, by decide +kernel,
    by decide +kernel, by decide +kernel⟩

theorem witness_PackedFieldsAndLoopCount : ([0x01#8, 0x05#8] : List Byte).length < 3 := by decide

theorem witness_ColorTables :
    (g2.length = 2 <<< (0#3).toNat ∧
      unread (input hdr3B 13) = (g2.flatMap fun e => [e.r, e.g, e.b]) ++ [0x3B#8]) ∧
    (({ desc1 with localColorTableFlag := true } : ImageDescriptor).localColorTableFlag = true ∧
      desc1.sizeOfLocalColorTable = 0#3) ∧
    (unread (input (hdr3B.take 18) 13)).length < 3 * 2 <<< (0#3).toNat ∧
    3 * 2 <<< (0#3).toNat ≤ (unread (input hdr3B 13)).length ∧ desc1.localColorTableFlag = false := by
  decide +kernel

theorem unread_empty : unread (input []) = [] := by decide +kernel

/-- Runs with a block of one byte and with none, and input that ends before the terminator. -/
theorem witness_SubBlockRuns :
    unread (input [0x00#8]) = 0x00#8 :: [] ∧
    (1 ≤ ([0x07#8] : List Byte).length ∧ (List.replicate 255 0x07#8).length ≤ 255 ∧
      unread (input [0x01#8, 0x07#8]) = BitVec.ofNat 8 ([0x07#8] : List Byte).length :: ([0x07#8] ++ [])) ∧
    unread (input [0x01#8, 0x07#8, 0x00#8, 0x3B#8]) =
      (([[0x07#8]] : Blocks).flatMap fun b => BitVec.ofNat 8 b.length :: b) ++ 0x00#8 :: [0x3B#8] ∧
    unread (input [0x02#8, 0x00#8]) =
      0x02#8 :: ((([] : Blocks).flatMap fun b => BitVec.ofNat 8 b.length :: b) ++ 0x00#8 :: []) ∧
    (∀ (blocks : Blocks) (rest : List Byte), (∀ b ∈ blocks, 1 ≤ b.length ∧ b.length ≤ 255) →
      unread (input []) ≠ (blocks.flatMap fun b => BitVec.ofNat 8 b.length :: b) ++ 0x00#8 :: rest) ∧
    (∀ (m : Byte) (blocks : Blocks) (rest : List Byte), (∀ b ∈ blocks, 1 ≤ b.length ∧ b.length ≤ 255) →
      unread (input []) ≠
        m :: ((blocks.flatMap fun b => BitVec.ofNat 8 b.length :: b) ++ 0x00#8 :: rest)) :=
  ⟨by decide +kernel, by decide +kernel, by decide +kernel, by decide +kernel,
    fun _ _ _ => by simp [unread_empty], fun _ _ _ _ => by simp [unread_empty]⟩

theorem witness_IllegalEncodings :
    (6 ≤ (unread (input hdr3B 1)).length ∧
      ∀ g : Signature, (unread (input hdr3B 1)).take 6 ≠ signatureBytes g) ∧
    ((0x00#8 : Byte) ≠ 0x21#8 ∧ (0x00#8 : Byte) ≠ 0x2C#8 ∧ (0x00#8 : Byte) ≠ 0x3B#8) ∧
    ((0xFA#8 : Byte) ≠ 0xFF#8 ∧ (0xFA#8 : Byte) ≠ 0xF9#8 ∧ unread (input [0xFA#8]) = 0xFA#8 :: []) ∧
    ((0x01#8 : Byte) ≠ 0x00#8 ∧ unread (input [0x04#8, 0x09#8, 0x0A#8, 0x00#8, 0x03#8, 0x01#8]) =
      [0x04#8, 0x09#8, 0x0A#8, 0x00#8, 0x03#8, 0x01#8] ++ []) ∧
    (unread (input [0x05#8]) = 0x05#8 :: [] ∧ (0x05#8 : Byte) ≠ 0x0B#8 ∧ (0x05#8 : Byte) ≠ 0x04#8 ∧
      (0x05#8 : Byte) ≠ 0x0C#8) ∧
    unread (input [0x0B#8]) = 0x0B#8 :: [] ∧ unread (input []) = [] :=
  ⟨⟨by decide +kernel, fun g => by cases g <;> decide +kernel⟩, by decide +kernel, by decide +kernel,
    by decide +kernel, by decide +kernel, by decide +kernel, by decide +kernel⟩

theorem witness_ImageBlocks :
    unread (input (imageDescriptorBytes desc1)) = imageDescriptorBytes desc1 ++ [] ∧
    (unread (input ((imageDescriptorBytes desc1).take 8))).length < 9 ∧
    (ImageLegal image1 ∧ unread (input (imageBytes image1)) = imageBytes image1 ++ []) ∧
    (∀ (img : ImageBlock) (rest : List Byte), ImageLegal img →
      unread (input []) ≠ imageBytes img ++ rest) :=
  ⟨by decide +kernel, by decide +kernel, ⟨⟨by decide +kernel, by decide +kernel, rfl⟩, by decide +kernel⟩,
    fun _ _ _ => by simp [unread_empty, imageBytes]⟩

/-- Each extension, whole and cut before its last byte. -/
theorem witness_ExtensionsAreParsed :
    ∀ x ∈ [Extension.app (List.replicate 8 0x4E#8) (List.replicate 3 0x32#8) [[0x01#8]], .comment [],
        .gce gce2, .text ⟨1, 2, 8, 8, 8, 8, 1, 0, []⟩],
      x.Legal ∧ unread (input x.body) = x.body ++ [] ∧
      unread (input (x.label :: x.body)) = x.label :: (x.body ++ []) ∧
      (unread (input x.body.dropLast) <+: x.body ∧ unread (input x.body.dropLast) ≠ x.body) ∧
      (unread (input []) <+: x.label :: x.body ∧ unread (input []) ≠ x.label :: x.body) := by
  intro x hx
  simp only [List.mem_cons, List.not_mem_nil, or_false] at hx
  obtain rfl | rfl | rfl | rfl := hx <;>
    exact ⟨by simp [Extension.Legal, blocksWf, isBlock, Config.readSubBlockMax], by decide +kernel,
      by decide +kernel, by decide +kernel, by decide +kernel⟩

theorem frame1_legal : FrameLegal g2 frame1 := by
  refine ⟨fun lt h => ?_, by decide, fun n hn i hi => ?_⟩
  · cases h
  · cases List.mem_singleton.mp hi
    exact Nat.two_pow_pos _

theorem witness_WriterPieces : g2.length = 2 <<< (0#3).toNat ∧
    (∀ n : BitVec 3, ([] : ColorTable).length ≠ 2 <<< n.toNat) ∧ (∀ f ∈ [frame1], FrameLegal g2 f) :=
  ⟨by decide +kernel, by decide +kernel, fun f h => by cases List.mem_singleton.mp h; exact frame1_legal⟩

/-- A legal frame, one over a bad table, one with no index and one with an index outside the alphabet. -/
theorem witness_WriteImage :
    (FrameLegal g2 frame1 ∧ (frameTable frame1 g2).length = 2 <<< (0#3).toNat) ∧
    (∀ n : BitVec 3, (frameTable frame1 []).length ≠ 2 <<< n.toNat) ∧
    ({ frame1 with indices := [] } : FrameIn).indices = [] ∧
    (∃ i ∈ ({ frame1 with indices := [4] } : FrameIn).indices, 2 ^ max 2 ((0#3).toNat + 1) ≤ i) :=
  ⟨⟨frame1_legal, by decide +kernel⟩, by decide +kernel, rfl, by decide +kernel⟩

theorem witness_EncodeContainerOrder :
    (g2.length = 2 <<< (0#3).toNat ∧ ∀ f ∈ [frame1], FrameLegal g2 f) ∧
    (∀ n : BitVec 3, ([] : ColorTable).length ≠ 2 <<< n.toNat) ∧
    ∃ u v : State,
      execAll ((containerOps screen1 0 g2 [frame1]).dropLast ++
        ({ frame1 with indices := [] } : FrameIn).gce.toList.map .cwWriteGCE) State.reset = .next u ∧
      exec (.cwWriteImage { frame1 with indices := [] } g2) u = .next v ∧
      ErrorTaken (.assertionFailure .emptyIndexStream) v ∧
      ¬ ErrorTaken (.assertionFailure .emptyIndexStream) u :=
  ⟨⟨by decide +kernel, fun f h => by cases List.mem_singleton.mp h; exact frame1_legal⟩, by decide +kernel,
    _, _, next_of_after (by decide +kernel), next_of_after (by decide +kernel),
    by unfold ErrorTaken; decide +kernel, by unfold ErrorTaken; decide +kernel⟩

theorem witness_ParseAcceptsTheGrammar :
    State.reset.hi.cmd = 0#8 ∧
    Returned (.document (documentOf .gif89a ⟨1, 1, true, 0, false, 0, 0, 0⟩ (some g2) []))
      ((after (exec (.parseContainer hdr3B) State.reset)).getD State.reset) ∧
    ScreenLegal ⟨1, 1, true, 0, false, 0, 0, 0⟩ (some g2) ∧ (Block.image image1).Legal ∧
    hdr3B = containerBytes .gif89a ⟨1, 1, true, 0, false, 0, 0, 0⟩ (some g2) [] ++ [] :=
  ⟨by decide +kernel, by unfold Returned; decide +kernel, ⟨rfl, rfl⟩,
    ⟨by decide +kernel, by decide +kernel, rfl⟩, by decide +kernel⟩

theorem witness_ParserTotality : (during 0#8).hi.cmd = 0#8 := by decide +kernel

theorem witness_DecodeFrameOutcomes : (during 0#8).hi.cmd = 0#8 ∧
    ((frameOf 1 []).lzw.minCodeSize.toNat < 2 ∨ 8 < (frameOf 1 []).lzw.minCodeSize.toNat) ∧
    ((frameOf 9 []).lzw.minCodeSize.toNat < 2 ∨ 8 < (frameOf 9 []).lzw.minCodeSize.toNat) ∧
    (2 ≤ (frameOf 2 []).lzw.minCodeSize.toNat ∧ (frameOf 8 []).lzw.minCodeSize.toNat ≤ 8) := by
  decide +kernel

theorem witness_EncodeFrameOutcomes : (during 0#8).hi.cmd = 0#8 ∧
    ((1#8).toNat < 2 ∨ 8 < (1#8).toNat) ∧ ((9#8).toNat < 2 ∨ 8 < (9#8).toNat) ∧ 2 ≤ (2#8).toNat ∧
    (8#8).toNat ≤ 8 ∧ (∃ k ∈ [256], 2 ^ (8#8).toNat ≤ k) ∧ ([255] ≠ []) ∧
    (∀ k ∈ [255], k < 2 ^ (8#8).toNat) := by decide +kernel

theorem witness_EncodeContainerOutcomes : (during 0#8).hi.cmd = 0#8 ∧
    (∀ n : BitVec 3, ([] : ColorTable).length ≠ 2 <<< n.toNat) ∧ g2.length = 2 <<< (0#3).toNat ∧
    (∀ f ∈ [frame1], FrameLegal g2 f) ∧ ¬ FrameLegal g2 { frame1 with indices := [] } ∧
    ¬ FrameLegal g2 { frame1 with localColorTable := some [] } :=
  ⟨by decide +kernel, by decide +kernel, by decide +kernel,
    fun f h => by cases List.mem_singleton.mp h; exact frame1_legal, fun h => h.2.1 rfl,
    fun h => absurd (h.1 [] rfl) (by decide)⟩

theorem witness_FrameRoundTrip : (during 0#8).hi.cmd = 0#8 ∧ 2 ≤ (2#8).toNat ∧ (2#8).toNat ≤ 8 ∧
    [0, 3] ≠ [] ∧ (∀ k ∈ [0, 3], k < 2 ^ (2#8).toNat) ∧
    (frameOf 2 [[0x44#8, 0x01#8]]).lzw = ⟨2, [[0x44#8, 0x01#8]], 0x00#8⟩ := by decide +kernel

theorem witness_StructuralRoundTrip : (during 0#8).hi.cmd = 0#8 ∧
    ∃ t bytes, exec (.encodeContainer screen1 g2 [frame1]) (during 0#8) = .next t ∧
      Returned (.bytes bytes) t :=
  ⟨by decide +kernel, _, hdr3B.dropLast ++ [0x2C#8, 0x00#8, 0x00#8, 0x00#8, 0x00#8, 0x01#8, 0x00#8, 0x01#8,
      0x00#8, 0x00#8, 0x02#8, 0x02#8, 0x44#8, 0x01#8, 0x00#8, 0x3B#8],
    next_of_after (by decide +kernel), by unfold Returned; decide +kernel⟩

theorem witness_ParseIsItsSteps : (during 0#8).hi.cmd = 0#8 := by decide +kernel

theorem witness_CodecCommandsAreTheirSteps : (during 0#8).hi.cmd = 0#8 ∧
    (2 ≤ image1.lzw.minCodeSize.toNat ∧ image1.lzw.minCodeSize.toNat ≤ 8) ∧
    (after (exec (.lzdInit 2 image1.lzw.subBlocks) (commandStart 0x02#8 [] mid))).isSome = true ∧
    (([0, 4] : List Nat) ≠ [] ∧ ([0, 4] : List Nat).headI < 2 ^ (2#8).toNat ∧
      (after (execAll [.lzeInit 2 [0, 4], .lzeEmit (some 4)] (commandStart 0x03#8 [] mid))).isSome = true) ∧
    g2.length = 2 <<< (0#3).toNat := by decide +kernel

/-- A step from a legal state inside each command, and while idle. -/
theorem witness_StepKeepsHostAndParser : Legal mid ∧ (after (step mid)).isSome = true ∧
    (Legal (during 0#8) ∧ (after (step (during 0#8))).isSome = true) ∧
    (Legal (during 1#8) ∧ (after (step (during 1#8))).isSome = true) ∧
    (Legal ((during 0x04#8).setTodo [.cwWriteTrailer]) ∧
      (after (step ((during 0x04#8).setTodo [.cwWriteTrailer]))).isSome = true) :=
  ⟨during_legal 2#8 (by decide), by decide +kernel, ⟨during_legal 0#8 (by decide), by decide +kernel⟩,
    ⟨during_legal 1#8 (by decide), by decide +kernel⟩, queued_legal, by decide +kernel⟩

theorem witness_StepKeepsCodecs : Legal (during 3#8) ∧ (after (step (during 3#8))).isSome = true ∧
    ((after (step (during 3#8))).map (·.lze.phase)) = some .run ∧ Memory.wf (during 3#8) = true :=
  ⟨during_legal 3#8 (by decide), by decide +kernel, by decide +kernel, by decide +kernel⟩

theorem witness_LegalStatesNeverFault : Legal (during 0#8) ∧
    after (step ((during 0#8).setHI { mid.hi with cmd := 0#8, inbox := [⟨0x05#8, Operands.zero⟩] })) = none :=
  ⟨during_legal 0#8 (by decide), by decide +kernel⟩

end Sys2Proof.Tests
end

section
/-! How an operation ends, said once for a sequence, a test, an error and an excluded unit state, so that what
an operation keeps is read off its pseudocode line by line. -/

namespace Sys2Proof.Machine

variable {α β : Type} {P P' E E' : State → Prop} {Q Q' : α → State → Prop}

/-- How an operation ends: it returns with `Q`, or raises an error in a state with `E`. An excluded unit
state (log 13) leaves no next state, so nothing is asked of it. -/
def Ends (Q : α → State → Prop) (E : State → Prop) : EStateM.Result Stop State α → Prop
  | .ok a t              => Q a t
  | .error (.raised _) t => E t
  | .error (.stuck _) _  => True

/-- From every state with `P` the operation ends with `Q`, or with `E` after an error. -/
def Triple (P : State → Prop) (op : Op α) (Q : α → State → Prop) (E : State → Prop) : Prop :=
  ∀ s, P s → Ends Q E (op s)

/-- The operation keeps `P`, errors included. -/
abbrev Keeps (P : State → Prop) (op : Op α) : Prop := Triple P op (fun _ => P) P

theorem Ends.imp {r : EStateM.Result Stop State α} (h : Ends Q E r) (hQ : ∀ a t, Q a t → Q' a t)
    (hE : ∀ t, E t → E' t) : Ends Q' E' r := by
  rcases r with ⟨a, t⟩ | ⟨e | f, t⟩
  · exact hQ a t h
  · exact hE t h
  · trivial

theorem Ends.and {r : EStateM.Result Stop State α} (h : Ends Q E r) (h' : Ends Q' E' r) :
    Ends (fun a t => Q a t ∧ Q' a t) (fun t => E t ∧ E' t) r := by
  rcases r with ⟨a, t⟩ | ⟨e | f, t⟩
  · exact ⟨h, h'⟩
  · exact ⟨h, h'⟩
  · trivial

/-- A sequence ends as its second operation does, or as its first where that one raised. -/
theorem Ends.bind {s : State} {x : Op α} {f : α → Op β} {R : β → State → Prop} (hx : Ends Q E (x s))
    (hf : ∀ a t, Q a t → Ends R E (f a t)) : Ends R E ((x >>= f) s) := by
  rw [op_bind]
  rcases h : x s with ⟨a, t⟩ | ⟨e | e, t⟩ <;> rw [h] at hx
  · exact hf a t hx
  · exact hx
  · trivial

theorem Triple.imp {op : Op α} (h : Triple P op Q E) (hP : ∀ s, P' s → P s)
    (hQ : ∀ a t, Q a t → Q' a t) (hE : ∀ t, E t → E' t) : Triple P' op Q' E' :=
  fun s hs => (h s (hP s hs)).imp hQ hE

theorem Triple.bind {x : Op α} {f : α → Op β} {R : β → State → Prop} (hx : Triple P x Q E)
    (hf : ∀ a, Triple (Q a) (f a) R E) : Triple P (x >>= f) R E :=
  fun s hs => (hx s hs).bind fun a t h => hf a t h

theorem triple_pure (a : α) (h : ∀ s, P s → Q a s) : Triple P (pure a) Q E := h

theorem triple_raise (u : Runner) (e : Err) (h : ∀ s, P s → E (markError u s)) :
    Triple P (raise u e) Q E := h

theorem triple_stuck (f : Fault) : Triple P (stuck f) Q E := fun _ _ => trivial

theorem triple_ite {x y : Op α} (p : Prop) [Decidable p] (hx : p → Triple P x Q E)
    (hy : ¬ p → Triple P y Q E) : Triple P (if p then x else y) Q E := by
  split
  · next h => exact hx h
  · next h => exact hy h

theorem keeps_pure (a : α) : Keeps P (pure a) := fun _ h => h

theorem keeps_getBC : Keeps P getBC := fun _ h => h
theorem keeps_getBSR : Keeps P getBSR := fun _ h => h
theorem keeps_getBSW : Keeps P getBSW := fun _ h => h
theorem keeps_getLZD : Keeps P getLZD := fun _ h => h
theorem keeps_getLZE : Keeps P getLZE := fun _ h => h
theorem keeps_getCP : Keeps P getCP := fun _ h => h
theorem keeps_getCW : Keeps P getCW := fun _ h => h

/-- An operation that answers a next state went on from its return, or its error was taken. -/
theorem settle_next {r : EStateM.Result Stop State α} {t : State}
    {g : α → State → Host.Outcome State Fault Refusal} (h : Ends Q E r) (ht : settle g r = .next t) :
    (∃ a u, Q a u ∧ g a u = .next t) ∨ ∃ e u, E u ∧ t = errorEntry e u := by
  rcases r with ⟨a, u⟩ | ⟨e | f, u⟩
  · exact .inl ⟨a, u, h, ht⟩
  · cases ht
    exact .inr ⟨e, u, h, rfl⟩
  · cases ht

end Sys2Proof.Machine
end

section
/-! Which units the operations of each family write: an operation keeps whatever is closed under the writes
of its family (10_state.md R92, R95). -/

namespace Sys2Proof.Machine

variable {α : Type} {P : State → Prop}

/-! ## The bit streams and the decoder -/

/-- Closed under what a BSR operation does. -/
structure ReadBitsClosed (P : State → Prop) : Prop where
  setBSR : ∀ s v, P s → P (s.setBSR v)
  mark   : ∀ s, P s → P (markError .lzd s)

/-- Closed under what a decoder operation does. -/
structure DecoderClosed (P : State → Prop) : Prop where
  setBSR : ∀ s v, P s → P (s.setBSR v)
  setLZD : ∀ s v, P s → P (s.setLZD v)

/-- Closed under what a BSW operation does. -/
structure WriteBitsClosed (P : State → Prop) : Prop where
  setBSW : ∀ s v, P s → P (s.setBSW v)
  mark   : ∀ s, P s → P (markError .lze s)

/-- Closed under what an encoder operation does. -/
structure EncoderClosed (P : State → Prop) : Prop where
  setBSW : ∀ s v, P s → P (s.setBSW v)
  setLZE : ∀ s v, P s → P (s.setLZE v)

theorem DecoderClosed.readBits (h : DecoderClosed P) : ReadBitsClosed P :=
  ⟨h.setBSR, fun s => h.setLZD s _⟩

theorem EncoderClosed.writeBits (h : EncoderClosed P) : WriteBitsClosed P :=
  ⟨h.setBSW, fun s => h.setLZE s _⟩

section
variable (h : ReadBitsClosed P)
include h

theorem keeps_putBSR (v : BitReader) : Keeps P (putBSR v) := fun s => h.setBSR s v

theorem keeps_bsrPushBytes (bytes : List Byte) : Keeps P (bsrPushBytes bytes) :=
  keeps_getBSR.bind fun _ => keeps_putBSR h _

theorem keeps_bsrHasBits (n : Nat) : Keeps P (bsrHasBits n) :=
  triple_ite _ (fun _ => triple_raise _ _ h.mark) fun _ => keeps_getBSR.bind fun _ => keeps_pure _

theorem keeps_bsrReadBits (n : Nat) : Keeps P (bsrReadBits n) :=
  triple_ite _ (fun _ => triple_raise _ _ h.mark) fun _ => keeps_getBSR.bind fun _ =>
    triple_ite _ (fun _ => triple_raise _ _ h.mark) fun _ =>
      (keeps_putBSR h _).bind fun _ => keeps_pure _
end

section
variable (h : WriteBitsClosed P)
include h

theorem keeps_putBSW (v : BitWriter) : Keeps P (putBSW v) := fun s => h.setBSW s v

theorem keeps_bswWrite (code w : Nat) : Keeps P (bswWrite code w) :=
  triple_ite _ (fun _ => triple_raise _ _ h.mark) fun _ => keeps_getBSW.bind fun _ => keeps_putBSW h _

theorem keeps_bswClose : Keeps P bswClose :=
  keeps_getBSW.bind fun _ => triple_ite _ (fun _ => keeps_pure _) fun _ =>
    triple_ite _ (fun _ => triple_stuck _) fun _ => keeps_putBSW h _
end

section
variable (h : DecoderClosed P)
include h

theorem keeps_putLZD (d : LZWDecoder) : Keeps P (putLZD d) := fun s => h.setLZD s d

theorem keeps_lzdUnitReset : Keeps P lzdUnitReset := keeps_getLZD.bind fun _ => keeps_putLZD h _

theorem keeps_lzdInit (m : Byte) (subs : Blocks) : Keeps P (lzdInit m subs) :=
  keeps_getLZD.bind fun _ => (keeps_putLZD h _).bind fun _ =>
    (keeps_putBSR h.readBits _).bind fun _ => keeps_lzdUnitReset h

theorem keeps_lzdFill (left : Nat) : Keeps P (lzdFill left) := by
  induction left with
  | zero => exact keeps_getLZD.bind fun _ => (keeps_bsrHasBits h.readBits _).bind fun _ => keeps_pure _
  | succ left ih =>
    refine keeps_getLZD.bind fun d => (keeps_bsrHasBits h.readBits _).bind fun _ =>
      triple_ite _ (fun _ => keeps_pure _) fun _ => ?_
    cases d.subs[d.subIdx]? with
    | none => exact keeps_pure _
    | some b => exact (keeps_bsrPushBytes h.readBits b).bind fun _ => (keeps_putLZD h _).bind fun _ => ih

theorem keeps_lzdFetchCode : Keeps P lzdFetchCode :=
  keeps_getLZD.bind fun _ => (keeps_lzdFill h _).bind fun _ => keeps_bsrReadBits h.readBits _

omit h in
theorem keeps_lzdEntry (c : Nat) : Keeps P (lzdEntry c) :=
  keeps_getLZD.bind fun d => by
    cases dictGet d.dict c with
    | none => exact triple_stuck _
    | some _ => exact keeps_pure _

omit h in
theorem keeps_lzdPrevEntry : Keeps P lzdPrevEntry :=
  keeps_getLZD.bind fun d => by
    cases d.prev with
    | none => exact triple_stuck _
    | some p => exact keeps_lzdEntry p

omit h in
theorem keeps_headOf (q : List Nat) : Keeps P (headOf q) := by
  cases q with
  | nil => exact triple_stuck _
  | cons k _ => exact keeps_pure k

theorem keeps_lzdAppend (q : List Nat) : Keeps P (lzdAppend q) := keeps_getLZD.bind fun _ => keeps_putLZD h _

theorem keeps_lzdSetPrev (c : Nat) : Keeps P (lzdSetPrev c) := keeps_getLZD.bind fun _ => keeps_putLZD h _

theorem keeps_lzdAssign (k : Nat) : Keeps P (lzdAssign k) :=
  keeps_getLZD.bind fun _ => triple_ite _
    (fun _ => keeps_lzdPrevEntry.bind fun _ => keeps_putLZD h _) fun _ => keeps_pure _

theorem keeps_lzwEoi (c : Nat) : Keeps P (lzwEoi c) := keeps_getLZD.bind fun _ => keeps_putLZD h _

theorem keeps_lzwFirst (c : Nat) : Keeps P (lzwFirst c) :=
  (keeps_lzdEntry c).bind fun _ => (keeps_lzdAppend h _).bind fun _ => keeps_lzdSetPrev h c

theorem keeps_lzwHit (c : Nat) : Keeps P (lzwHit c) :=
  (keeps_lzdEntry c).bind fun _ => (keeps_lzdAppend h _).bind fun _ => (keeps_headOf _).bind fun _ =>
    (keeps_lzdAssign h _).bind fun _ => keeps_lzdSetPrev h c

theorem keeps_lzwNext (c : Nat) : Keeps P (lzwNext c) :=
  keeps_lzdPrevEntry.bind fun _ => (keeps_headOf _).bind fun _ => (keeps_lzdAppend h _).bind fun _ =>
    (keeps_lzdAssign h _).bind fun _ => keeps_lzdSetPrev h c

theorem keeps_lzwBad (c : Nat) : Keeps P (lzwBad c) := triple_raise _ _ fun s => h.setLZD s _

theorem keeps_lzwDispatch (k : CodeContext) (c : Nat) : Keeps P (lzwDispatch k c) := by
  unfold lzwDispatch
  cases classifyCode k c with
  | eoi => exact keeps_lzwEoi h c
  | clear => exact keeps_lzdUnitReset h
  | first => exact keeps_lzwFirst h c
  | hit => exact keeps_lzwHit h c
  | next => exact keeps_lzwNext h c
  | bad => exact keeps_lzwBad h c

theorem keeps_lzdStep : Keeps P lzdStep :=
  (keeps_lzdFetchCode h).bind fun c => keeps_getLZD.bind fun _ => keeps_lzwDispatch h _ c

theorem keeps_lzdLoop (fuel : Nat) : Keeps P (lzdLoop fuel) := by
  induction fuel with
  | zero => exact triple_stuck _
  | succ fuel ih =>
    exact keeps_getLZD.bind fun _ => triple_ite _ (fun _ => keeps_pure _) fun _ =>
      (keeps_lzdStep h).bind fun _ => ih

theorem keeps_decodeFrame (img : ImageBlock) : Keeps P (decodeFrame img) :=
  triple_ite _ (fun _ => triple_raise _ _ fun s => h.setLZD s _) fun _ =>
    (keeps_lzdInit h _ _).bind fun _ => (keeps_lzdLoop h _).bind fun _ => keeps_getLZD.bind fun _ =>
      keeps_pure _
end

/-! ## The encoder -/

section
variable (h : EncoderClosed P)
include h

theorem keeps_putLZE (e : LZWEncoder) : Keeps P (putLZE e) := fun s => h.setLZE s e

theorem keeps_lzeUnitReset : Keeps P lzeUnitReset := keeps_getLZE.bind fun _ => keeps_putLZE h _

theorem keeps_lzeCheckIndex (k : Nat) : Keeps P (lzeCheckIndex k) :=
  keeps_getLZE.bind fun _ => triple_ite _ (fun _ => triple_raise _ _ fun s => h.setLZE s _) fun _ =>
    keeps_pure _

theorem keeps_lzeInit (m : Byte) (idx : List Nat) : Keeps P (lzeInit m idx) := by
  cases idx with
  | nil => exact triple_stuck _
  | cons k rest =>
    exact keeps_getLZE.bind fun _ => (keeps_putLZE h _).bind fun _ =>
      (keeps_putBSW h.writeBits _).bind fun _ => (keeps_lzeUnitReset h).bind fun _ =>
        (keeps_lzeCheckIndex h k).bind fun _ => keeps_getLZE.bind fun _ => keeps_putLZE h _

theorem keeps_lzeEmit (code : Option Nat) : Keeps P (lzeEmit code) := by
  cases code with
  | none => exact triple_raise _ _ fun s => h.setLZE s _
  | some c => exact keeps_getLZE.bind fun _ => keeps_bswWrite h.writeBits c _

theorem keeps_lzeResetUnit : Keeps P lzeResetUnit :=
  keeps_getLZE.bind fun _ => (keeps_lzeEmit h _).bind fun _ => keeps_lzeUnitReset h

theorem keeps_lzeExtend (k : Nat) : Keeps P (lzeExtend k) := keeps_getLZE.bind fun _ => keeps_putLZE h _

theorem keeps_lzeMiss (k : Nat) : Keeps P (lzeMiss k) :=
  keeps_getLZE.bind fun _ => (keeps_lzeEmit h _).bind fun _ => (keeps_putLZE h _).bind fun _ =>
    triple_ite _ (fun _ => keeps_lzeResetUnit h) fun _ =>
      triple_ite _ (fun _ => keeps_putLZE h _) fun _ => keeps_pure _

theorem keeps_lzeNextIndex : Keeps P lzeNextIndex :=
  keeps_getLZE.bind fun e => by
    cases e.input[e.inPos]? with
    | none => exact triple_stuck _
    | some k => exact (keeps_putLZE h _).bind fun _ => (keeps_lzeCheckIndex h k).bind fun _ => keeps_pure k

theorem keeps_lzeStep : Keeps P lzeStep :=
  (keeps_lzeNextIndex h).bind fun k => keeps_getLZE.bind fun _ =>
    triple_ite _ (fun _ => keeps_lzeExtend h k) fun _ => keeps_lzeMiss h k

theorem keeps_lzeFinish : Keeps P lzeFinish := by
  refine keeps_getLZE.bind fun e => (keeps_lzeEmit h _).bind fun _ => ?_
  have last : Keeps P (do lzeEmit (some e.eoiCode); let e ← getLZE; putLZE { e with phase := .done }) :=
    (keeps_lzeEmit h _).bind fun _ => keeps_getLZE.bind fun _ => keeps_putLZE h _
  exact triple_ite _ (fun _ => (keeps_putLZE h _).bind fun _ => last) fun _ => last

theorem keeps_lzeLoop (fuel : Nat) : Keeps P (lzeLoop fuel) := by
  induction fuel with
  | zero => exact keeps_getLZE.bind fun _ => triple_ite _ (fun _ => triple_stuck _) fun _ => keeps_pure _
  | succ fuel ih =>
    exact keeps_getLZE.bind fun _ => triple_ite _
      (fun _ => (keeps_lzeStep h).bind fun _ => ih) fun _ => keeps_pure _

theorem keeps_lzePacked (m : Byte) : Keeps P (lzePacked m) :=
  (keeps_bswClose h.writeBits).bind fun _ => keeps_getBSW.bind fun _ => keeps_pure _

theorem keeps_lzeBegin (m : Byte) (idx : List Nat) : Keeps P (lzeBegin m idx) :=
  (keeps_lzeInit h m idx).bind fun _ => keeps_getLZE.bind fun _ => keeps_lzeEmit h _

theorem keeps_lzeEncodeFrame (m : Byte) (idx : List Nat) : Keeps P (lzeEncodeFrame m idx) :=
  (keeps_lzeBegin h m idx).bind fun _ => (keeps_lzeLoop h _).bind fun _ => (keeps_lzeFinish h).bind fun _ =>
    keeps_lzePacked h m

theorem keeps_encodeFrame (m : Byte) (idx : List Nat) : Keeps P (encodeFrame m idx) :=
  triple_ite _ (fun _ => triple_raise _ _ fun s => h.setLZE s _) fun _ =>
    triple_ite _ (fun _ => triple_raise _ _ fun s => h.setLZE s _) fun _ =>
      (keeps_lzeEncodeFrame h m idx).bind fun _ => keeps_pure _
end

/-! ## The writer -/

/-- Closed under what a writer operation does, given that it keeps the encoding of a frame, for a legal code
size, as a whole. -/
structure WriterClosed (P : State → Prop) : Prop where
  append : ∀ s bs, P s → P (s.setCW { out := s.cw.out ++ bs })
  frame  : ∀ m idx, mcsInRange m = true → Keeps P (lzeEncodeFrame m idx)

section
variable (h : WriterClosed P)
include h

theorem keeps_cwAppend (bs : List Byte) : Keeps P (cwAppend bs) := fun s => h.append s bs

omit h in
theorem keeps_cwSizeField (t : ColorTable) : Keeps P (cwSizeField t) := by
  unfold cwSizeField
  cases sizeFieldOf t.length with
  | none => exact triple_raise _ _ fun _ hs => hs
  | some _ => exact keeps_pure _

theorem keeps_cwWriteData (indices : List Nat) (act : ColorTable) : Keeps P (cwWriteData indices act) :=
  (keeps_cwSizeField act).bind fun n => triple_ite _ (fun _ => triple_raise _ _ fun _ hs => hs) fun _ =>
    (h.frame _ indices (mcsInRange_codeSizeFor n)).bind fun _ => keeps_cwAppend h _

theorem keeps_cwWriteImage (f : FrameIn) (ct : ColorTable) : Keeps P (cwWriteImage f ct) := by
  unfold cwWriteImage
  cases f.localColorTable with
  | none => exact (keeps_cwAppend h _).bind fun _ => keeps_cwWriteData h _ ct
  | some lt =>
    exact (keeps_cwSizeField lt).bind fun _ => (keeps_cwAppend h _).bind fun _ =>
      (keeps_cwAppend h _).bind fun _ => keeps_cwWriteData h _ lt

theorem keeps_cwWriteFrame (ct : ColorTable) (f : FrameIn) : Keeps P (cwWriteFrame ct f) := by
  unfold cwWriteFrame
  cases f.gce with
  | none => exact keeps_cwWriteImage h f ct
  | some g => exact (keeps_cwAppend h _).bind fun _ => keeps_cwWriteImage h f ct

theorem keeps_cwWriteFrames (ct : ColorTable) (frames : List FrameIn) : Keeps P (cwWriteFrames ct frames) := by
  induction frames with
  | nil => exact keeps_pure _
  | cons f rest ih => exact (keeps_cwWriteFrame h ct f).bind fun _ => ih

theorem keeps_cwEncodeContainer (screen : ScreenIn) (ct : ColorTable) (frames : List FrameIn) :
    Keeps P (cwEncodeContainer screen ct frames) :=
  (keeps_cwSizeField ct).bind fun _ => (keeps_cwAppend h _).bind fun _ => (keeps_cwAppend h _).bind fun _ =>
    (keeps_cwAppend h _).bind fun _ => (keeps_cwWriteFrames h ct frames).bind fun _ => keeps_cwAppend h _
end

/-! ## The cursor and the parser -/

/-- Closed under what a ByteCursor operation does. -/
structure CursorClosed (P : State → Prop) : Prop where
  advance : ∀ s n, n ≤ (unread s).length → P s → P (advance s n)
  mark    : ∀ s, P s → P (markError .cp s)

/-- Closed under what a parser operation does. -/
structure ParserClosed (P : State → Prop) : Prop where
  advance : ∀ s n, n ≤ (unread s).length → P s → P (advance s n)
  setCP   : ∀ s v, P s → P (s.setCP v)

section
variable (h : CursorClosed P)
include h

theorem keeps_bcConsume : Keeps P bcConsume := fun s hs => by
  rw [bcConsume_eq]
  rcases hu : unread s with _ | ⟨b, rest⟩
  · exact h.mark s hs
  · exact h.advance s 1 (by simp [hu]) hs

theorem keeps_bcTake (n : Nat) : Keeps P (bcTake n) := fun s hs => by
  rw [bcTake_eq]
  exact h.advance s _ (Nat.min_le_right _ _) hs

theorem keeps_bcTakeExact (n : Nat) : Keeps P (bcTakeExact n) :=
  (keeps_bcTake h n).bind fun _ => triple_ite _ (fun _ => triple_raise _ _ h.mark) fun _ => keeps_pure _

theorem keeps_bcReadLE16 : Keeps P bcReadLE16 :=
  (keeps_bcConsume h).bind fun _ => (keeps_bcConsume h).bind fun _ => keeps_pure _

omit h in
theorem keeps_bcPeekRemaining : Keeps P bcPeekRemaining := keeps_getBC.bind fun _ => keeps_pure _
end

theorem parses_cpGCT : Parses cpGCT :=
  parses_bind parses_getCP fun _ => parses_ite _
    (parses_bind (parses_cpReadColorTable _) fun _ => parses_bind (parses_cpPutDoc _) fun _ =>
      parses_cpPutPhase _) (parses_cpPutPhase _)

section
variable (h : ParserClosed P)
include h

/-- An operation that only reads on in IN and writes CP keeps what is closed under both. -/
theorem Parses.keeps {op : Op α} (hop : Parses op) : Keeps P op := fun s hs => by
  have ho := hop s
  rcases hr : op s with ⟨a, t⟩ | ⟨e | f, t⟩ <;> rw [hr] at ho
  · obtain ⟨n, cp, hn, rfl⟩ := ho
    exact h.setCP _ _ (h.advance s n hn hs)
  · obtain ⟨n, cp, hn, rfl⟩ := ho
    exact h.setCP _ _ (h.setCP _ _ (h.advance s n hn hs))
  · trivial

theorem keeps_cpStep (phase : CPPhase) : Keeps P (cpStep phase) := by
  cases phase with
  | header => exact parses_cpHeader.keeps h
  | lsd => exact parses_cpLSD.keeps h
  | gct => exact parses_cpGCT.keeps h
  | block => exact parses_cpBlock.keeps h
  | done => exact keeps_pure _
  | error => exact keeps_pure _

theorem keeps_cpLoop (fuel : Nat) : Keeps P (cpLoop fuel) := by
  induction fuel with
  | zero => exact triple_stuck _
  | succ fuel ih =>
    exact keeps_getCP.bind fun _ => triple_ite _ (fun _ => keeps_pure _) fun _ =>
      (keeps_cpStep h _).bind fun _ => ih

theorem keeps_parseContainer (bytes : List Byte) : Keeps P (parseContainer bytes) :=
  (keeps_cpLoop h _).bind fun _ => keeps_getCP.bind fun _ => keeps_pure _
end

end Sys2Proof.Machine
end

section
/-! What the parser's operations read, and that its steps keep CP legal (R58, R290): the document holds what
the phases passed have filled in. -/

namespace Sys2Proof.Machine

variable {α β : Type} {p : ContainerParser → Prop} {q : β → ContainerParser → Prop} {V : α → Prop}
  {W : β → Prop}

/-- From a CP with `p` the operation returns with `q`, or it raises an error that marks CP. -/
def CPTriple (p : ContainerParser → Prop) (op : Op β) (q : β → ContainerParser → Prop) : Prop :=
  Triple (fun s => p s.cp) op (fun b t => q b t.cp) fun t => t.cp.phase = .error

/-- The operation leaves CP as it is, unless it raises an error that marks it; what it returns has `V`. -/
def Reads (op : Op α) (V : α → Prop) : Prop := ∀ p, CPTriple p op fun a cp => V a ∧ p cp

/-- A value is read, and what follows may use what is known of it. -/
theorem Reads.then {x : Op α} {f : α → Op β} (hx : Reads x V) (hf : ∀ a, V a → CPTriple p (f a) q) :
    CPTriple p (x >>= f) q :=
  fun s hs => (hx p s hs).bind fun a t ha => hf a ha.1 t ha.2

theorem Reads.bind {x : Op α} {f : α → Op β} (hx : Reads x V) (hf : ∀ a, V a → Reads (f a) W) :
    Reads (x >>= f) W :=
  fun p => hx.then fun a ha => hf a ha p

theorem reads_pure {a : α} (h : V a) : Reads (pure a) V := fun _ _ hs => ⟨h, hs⟩

theorem cpTriple_raise (e : Err) : CPTriple p (raise .cp e) q := fun _ _ => rfl

/-- A write of CP that depends on CP alone. -/
theorem cpTriple_modify {f : ContainerParser → ContainerParser} {q : ContainerParser → Prop}
    (h : ∀ cp, p cp → q (f cp)) : CPTriple p (do let cp ← getCP; putCP (f cp)) fun _ => q :=
  fun s hs => h s.cp hs

theorem CPTriple.bind {x : Op α} {f : α → Op β} {r : α → ContainerParser → Prop} (hx : CPTriple p x r)
    (hf : ∀ a, CPTriple (r a) (f a) q) : CPTriple p (x >>= f) q := Triple.bind hx hf

/-! ## The values read -/

theorem reads_bcConsume : Reads bcConsume fun _ => True := fun p s hs => by
  rw [bcConsume_eq]
  rcases unread s with _ | ⟨b, rest⟩
  · rfl
  · exact ⟨trivial, hs⟩

theorem reads_bcTakeExact (n : Nat) : Reads (bcTakeExact n) (·.length = n) := fun p s hs => by
  rw [bcTakeExact_eq]
  split
  · rfl
  · exact ⟨List.length_take_of_le (by omega), hs⟩

theorem reads_bcReadLE16 : Reads bcReadLE16 fun _ => True :=
  reads_bcConsume.bind fun _ _ => reads_bcConsume.bind fun _ _ => reads_pure trivial

theorem length_tableOf (n : Nat) (bs : List Byte) (h : bs.length = 3 * n) : (tableOf bs).length = n := by
  induction n generalizing bs with
  | zero => rw [List.length_eq_zero_iff.mp h]; rfl
  | succ n ih =>
    match bs, h with
    | r :: g :: b :: rest, h =>
      rw [tableOf, List.length_cons, ih rest (by simp only [List.length_cons] at h; omega)]
    | [], h | [_], h | [_, _], h => simp only [List.length_cons, List.length_nil] at h; omega

theorem reads_cpReadColorTable (n : BitVec 3) : Reads (cpReadColorTable n) (·.length = tableLength n) :=
  (reads_bcTakeExact _).bind fun b hb => reads_pure (length_tableOf _ b hb)

theorem reads_cpSubBlock : Reads cpSubBlock fun a => ∀ b, a = some b → isBlock b = true :=
  reads_bcConsume.bind fun l _ p => triple_ite _ (fun _ => reads_pure (fun _ h => by cases h) p) fun hl =>
    (reads_bcTakeExact _).then fun b hb => reads_pure (fun b' h => by
      cases h
      rw [isBlock_iff, hb]
      refine ⟨Nat.pos_of_ne_zero fun h0 => hl ?_, Nat.le_of_lt_succ l.isLt⟩
      exact BitVec.eq_of_toNat_eq h0) p

theorem reads_cpRunLoop (fuel : Nat) (run : Blocks) (h : blocksWf run = true) :
    Reads (cpRunLoop fuel run) (blocksWf · = true) := by
  induction fuel generalizing run with
  | zero => exact fun _ => triple_stuck _
  | succ fuel ih =>
    refine reads_cpSubBlock.bind fun a ha => ?_
    cases a with
    | none => exact reads_pure h
    | some b => exact ih _ (by simpa [blocksWf, ha b rfl] using h)

/-- R117, R295: the payloads of a run carry 1 to 255 bytes. -/
theorem reads_cpReadSubBlockRun : Reads cpReadSubBlockRun (blocksWf · = true) :=
  Reads.bind (V := fun _ => True) (fun _ _ hs => ⟨trivial, hs⟩) fun _ _ => reads_cpRunLoop _ [] rfl

theorem reads_cpExpectBlockSize (v : Byte) : Reads (cpExpectBlockSize v) fun _ => True :=
  reads_bcConsume.bind fun _ _ p =>
    triple_ite _ (fun _ => triple_raise _ _ fun _ _ => rfl) fun _ => reads_pure trivial p

/-- A table is there exactly when the descriptor's flag says so, with its length (R67, R310). -/
def LocalTableLegal (d : ImageDescriptor) : Option ColorTable → Prop
  | none   => d.localColorTableFlag = false
  | some t => d.localColorTableFlag = true ∧ t.length = tableLength d.sizeOfLocalColorTable

theorem reads_cpReadLocalTable (d : ImageDescriptor) : Reads (cpReadLocalTable d) (LocalTableLegal d) :=
  fun p => triple_ite _
    (fun hd => ((reads_cpReadColorTable _).bind fun _ ht => reads_pure ⟨hd, ht⟩) p)
    fun hd => reads_pure (show LocalTableLegal d none from Bool.eq_false_iff.mpr hd) p

theorem reads_cpReadLZWData :
    Reads cpReadLZWData fun d => blocksWf d.subBlocks = true ∧ d.terminator = 0x00#8 :=
  reads_bcConsume.bind fun _ _ => reads_cpReadSubBlockRun.bind fun _ h => reads_pure ⟨h, rfl⟩

theorem reads_cpImageDesc : Reads cpImageDesc fun _ => True :=
  reads_bcReadLE16.bind fun _ _ => reads_bcReadLE16.bind fun _ _ => reads_bcReadLE16.bind fun _ _ =>
    reads_bcReadLE16.bind fun _ _ => reads_bcConsume.bind fun _ _ => reads_pure trivial

/-! ## The steps -/

/-- CP is legal in the phase `ph`. -/
def ParserAt (ph : CPPhase) (cp : ContainerParser) : Prop := cp.phase = ph ∧ ParserLegal cp

/-- CP is legal and has not failed. -/
def ParserRuns (cp : ContainerParser) : Prop := cp.phase ≠ .error ∧ ParserLegal cp

theorem ParserAt.runs {ph : CPPhase} {cp : ContainerParser} (h : ParserAt ph cp) (hph : ph ≠ .error) :
    ParserRuns cp := ⟨h.1 ▸ hph, h.2⟩

theorem CPTriple.runs {ph : CPPhase} {op : Op α} (h : CPTriple p op fun _ => ParserAt ph)
    (hph : ph ≠ .error) : CPTriple p op fun _ => ParserRuns :=
  Triple.imp h (fun _ h => h) (fun _ _ h => h.runs hph) fun _ h => h

/-- What a block does to the document leaves CP at a block boundary when it leaves the document legal. -/
theorem cpTriple_block {f : ContainerParser → ContainerParser} (hph : ∀ cp, (f cp).phase = cp.phase)
    (hdoc : ∀ cp, DocLegal cp.doc → DocLegal (f cp).doc) :
    CPTriple (ParserAt .block) (do let cp ← getCP; putCP (f cp)) fun _ => ParserAt .block :=
  cpTriple_modify fun cp h => by
    obtain ⟨hb, hl⟩ := h
    refine ⟨(hph cp).trans hb, ?_⟩
    simp only [ParserLegal, hph, hb] at hl ⊢
    exact hdoc cp hl

theorem cpTriple_cpHeader : CPTriple (ParserAt .header) cpHeader fun _ => ParserAt .lsd :=
  (reads_bcTakeExact 6).then fun b _ => by
    cases signatureOf b with
    | none => exact cpTriple_raise _
    | some g =>
      refine CPTriple.bind (r := fun _ cp => ∃ h, cp.doc = { GIFDocument.empty with header := h })
        (cpTriple_modify ?_) fun _ => cpTriple_modify fun cp h => ⟨rfl, h⟩
      rintro ⟨_, doc, gce⟩ ⟨rfl, rfl⟩
      exact ⟨_, rfl⟩

theorem cpTriple_cpLSD : CPTriple (ParserAt .lsd) cpLSD fun _ => ParserAt .gct :=
  reads_bcReadLE16.then fun _ _ => reads_bcReadLE16.then fun _ _ => reads_bcConsume.then fun _ _ =>
    reads_bcConsume.then fun _ _ => reads_bcConsume.then fun _ _ => by
      refine CPTriple.bind
        (r := fun _ cp => ∃ h scr, cp.doc = { GIFDocument.empty with header := h, screen := scr })
        (cpTriple_modify ?_) fun _ => cpTriple_modify fun cp h => ⟨rfl, h⟩
      rintro ⟨_, doc, gce⟩ ⟨rfl, h, rfl⟩
      exact ⟨h, _, rfl⟩

/-- The document before its first block is legal once its table is (R298). -/
theorem docLegal_prologue (h : Header) {scr : LogicalScreenDescriptor} {gct : Option ColorTable}
    (hg : ScreenLegal scr gct) : DocLegal
      { GIFDocument.empty with header := h, screen := scr, globalColorTable := gct } :=
  { screen := hg, application := fun _ h => (by cases h), images := fun _ h => (by cases h), trailer := rfl }

theorem cpTriple_cpGCT : CPTriple (ParserAt .gct) cpGCT fun _ => ParserAt .block := fun s hs => by
  obtain ⟨hph, hl⟩ := hs
  simp only [ParserLegal, hph] at hl
  obtain ⟨h, scr, hdoc⟩ := hl
  have last : ∀ gct, ScreenLegal scr gct → CPTriple
      (fun cp => cp.doc = { GIFDocument.empty with header := h, screen := scr, globalColorTable := gct })
      (cpPutPhase .block) fun _ => ParserAt .block := fun gct hg => cpTriple_modify fun cp hcp =>
    ⟨rfl, show DocLegal cp.doc from hcp ▸ docLegal_prologue h hg⟩
  unfold cpGCT
  rw [op_bind_of_ok s _ _ (op_getCP s), hdoc]
  split
  · next hf =>
    refine Reads.then (p := fun cp => cp.doc = { GIFDocument.empty with header := h, screen := scr })
      (reads_cpReadColorTable scr.sizeOfGlobalColorTable) (fun t ht => ?_) s hdoc
    exact CPTriple.bind (cpTriple_modify fun cp hcp => by rw [hcp]) fun _ => last (some t) ⟨hf, ht⟩
  · next hf => exact last none (Bool.eq_false_iff.mpr hf) s hdoc

theorem cpTriple_cpApp : CPTriple (ParserAt .block) cpApp fun _ => ParserAt .block :=
  (reads_cpExpectBlockSize _).then fun _ _ => (reads_bcTakeExact 8).then fun _ hid =>
    (reads_bcTakeExact 3).then fun _ hauth => reads_cpReadSubBlockRun.then fun _ hsubs =>
      cpTriple_block (fun _ => rfl) fun _ hd =>
        { hd with application := fun a ha => (by cases ha; exact ⟨hid, hauth, hsubs, rfl⟩) }

theorem cpTriple_cpComment : CPTriple (ParserAt .block) cpComment fun _ => ParserAt .block :=
  reads_cpReadSubBlockRun.then fun _ _ => cpTriple_block (fun _ => rfl) fun _ hd => { hd with }

theorem cpTriple_cpGCE : CPTriple (ParserAt .block) cpGCE fun _ => ParserAt .block :=
  (reads_cpExpectBlockSize _).then fun _ _ => reads_bcConsume.then fun _ _ =>
    reads_bcReadLE16.then fun _ _ => reads_bcConsume.then fun _ _ => reads_bcConsume.then fun _ _ =>
      triple_ite _ (fun _ => cpTriple_raise _) fun _ => cpTriple_block (fun _ => rfl) fun _ hd => hd

/-- R306: an image with a plain text extension attached is as legal as before. -/
theorem imageLegal_attachText (pt : PlainTextExtension) {images : List ImageBlock}
    (h : ∀ img ∈ images, ImageLegal img) : ∀ img ∈ attachText pt images, ImageLegal img := by
  intro img hi
  rw [attachText_eq, List.mem_append, Option.mem_toList, Option.map_eq_some_iff] at hi
  rcases hi with hi | ⟨last, hl, rfl⟩
  · exact h img (List.dropLast_subset _ hi)
  · exact h last (List.mem_of_getLast? hl)

theorem cpTriple_cpText : CPTriple (ParserAt .block) cpText fun _ => ParserAt .block :=
  (reads_cpExpectBlockSize _).then fun _ _ => reads_bcReadLE16.then fun _ _ =>
    reads_bcReadLE16.then fun _ _ => reads_bcReadLE16.then fun _ _ => reads_bcReadLE16.then fun _ _ =>
      reads_bcConsume.then fun _ _ => reads_bcConsume.then fun _ _ => reads_bcConsume.then fun _ _ =>
        reads_bcConsume.then fun _ _ => reads_cpReadSubBlockRun.then fun _ _ =>
          cpTriple_block (fun _ => rfl) fun _ hd => { hd with images := imageLegal_attachText _ hd.images }

theorem cpTriple_cpExtension : CPTriple (ParserAt .block) cpExtension fun _ => ParserAt .block :=
  reads_bcConsume.then fun l _ => by
    cases classifyLabel l with
    | app => exact cpTriple_cpApp
    | comment => exact cpTriple_cpComment
    | gce => exact cpTriple_cpGCE
    | text => exact cpTriple_cpText
    | bad => exact cpTriple_raise _

theorem imageLegal_mk {d : ImageDescriptor} {lct : Option ColorTable} {lzw : LZWData}
    (hl : LocalTableLegal d lct) (hz : blocksWf lzw.subBlocks = true ∧ lzw.terminator = 0x00#8)
    (gce : Option GraphicControlExtension) : ImageLegal
      { descriptor := d, localColorTable := lct, gce := gce, plainText := none, lzw := lzw } := by
  refine ⟨hz.1, hz.2, ?_⟩
  cases lct with
  | none => exact hl
  | some t => exact hl

theorem cpTriple_cpImage : CPTriple (ParserAt .block) cpImage fun _ => ParserAt .block :=
  reads_cpImageDesc.then fun _ _ => (reads_cpReadLocalTable _).then fun _ hl =>
    reads_cpReadLZWData.then fun _ hz => cpTriple_block (fun _ => rfl) fun cp hd =>
      { hd with images := fun img hi => (by
          rcases List.mem_append.mp hi with hi | hi
          · exact hd.images img hi
          · rw [List.mem_singleton.mp hi]
            exact imageLegal_mk hl hz _) }

theorem cpTriple_cpTrailer : CPTriple (ParserAt .block) cpTrailer fun _ => ParserAt .done :=
  cpTriple_modify fun cp h => by
    obtain ⟨hb, hl⟩ := h
    simp only [ParserLegal, hb] at hl
    exact ⟨rfl, show DocLegal _ from { hl with trailer := rfl }⟩

/-- The operation an introducer selects, from the byte after it on: the dispatch of `cpBlock` (R115, R299). -/
def introOp (t : Byte) : Op Unit :=
  match classifyIntro t with
  | .ext     => cpExtension
  | .image   => cpImage
  | .trailer => cpTrailer
  | .bad     => cpBadIntro t

theorem exec_decodeIntro (t : Byte) (s : State) : exec (decodeIntro t) s = runUnit (introOp t) s := by
  unfold decodeIntro introOp
  cases classifyIntro t <;> rfl

theorem parses_introOp (t : Byte) : Parses (introOp t) := by
  unfold introOp
  cases classifyIntro t with
  | ext => exact parses_cpExtension
  | image => exact parses_cpImage
  | trailer => exact parses_cpTrailer
  | bad => exact parses_raise _

theorem cpTriple_introOp (t : Byte) : CPTriple (ParserAt .block) (introOp t) fun _ => ParserRuns := by
  unfold introOp
  cases classifyIntro t with
  | ext => exact cpTriple_cpExtension.runs nofun
  | image => exact cpTriple_cpImage.runs nofun
  | trailer => exact cpTriple_cpTrailer.runs nofun
  | bad => exact cpTriple_raise _

/-- R290: a step in the phase CP is in. -/
theorem cpTriple_cpStep {ph : CPPhase} (hph : ph ≠ .error) :
    CPTriple (ParserAt ph) (cpStep ph) fun _ => ParserRuns := by
  cases ph with
  | header => exact cpTriple_cpHeader.runs nofun
  | lsd => exact cpTriple_cpLSD.runs nofun
  | gct => exact cpTriple_cpGCT.runs nofun
  | block => exact reads_bcConsume.then fun t _ => cpTriple_introOp t
  | done => exact triple_pure _ fun _ h => h.runs nofun
  | error => exact absurd rfl hph

theorem cpTriple_cpLoop (fuel : Nat) : CPTriple ParserRuns (cpLoop fuel) fun _ => ParserRuns := by
  induction fuel with
  | zero => exact triple_stuck _
  | succ fuel ih =>
    intro s hs
    unfold cpLoop
    rw [op_bind_of_ok s _ _ (op_getCP s)]
    split
    · exact hs
    · exact CPTriple.bind (cpTriple_cpStep hs.1) (fun _ => ih) s ⟨rfl, hs.2⟩

theorem cpTriple_parseContainer (bytes : List Byte) :
    CPTriple ParserRuns (parseContainer bytes) fun _ => ParserRuns :=
  (cpTriple_cpLoop _).bind fun _ _ hs => hs

end Sys2Proof.Machine
end

section
/-! That the decoder's operations keep the legal values of R39 to R48 and the table's shape (R44, R222), from a
legal decoder on. -/

namespace Sys2Proof.Machine

variable (s : State)

/-- R128: what each class that reads the table says of its code. -/
theorem classifyCode_first {k : CodeContext} {c : Nat} (h : classifyCode k c = .first) : c < k.clearCode := by
  unfold classifyCode at h
  split_ifs at h with _ _ hf
  exact hf.2

theorem classifyCode_hit {k : CodeContext} {c : Nat} (h : classifyCode k c = .hit) :
    k.prev ≠ none ∧ (c < k.clearCode ∨ (k.eoiCode < c ∧ c ≤ k.lastAssignedCode)) := by
  unfold classifyCode at h
  split_ifs at h with _ _ _ hh
  exact hh

theorem classifyCode_next {k : CodeContext} {c : Nat} (h : classifyCode k c = .next) :
    k.prev ≠ none ∧ c = k.lastAssignedCode + 1 := by
  unfold classifyCode at h
  split_ifs at h with _ _ _ _ hn
  exact hn

/-- The fields beside the table may change within their legal values. -/
theorem DecoderLegal.update {d : LZWDecoder} (h : DecoderLegal d) {prev : Option Nat} {out : List Nat}
    {subIdx : Nat} {phase : Phase} (hprev : ∀ p, prev = some p → dictGet d.dict p ≠ none)
    (hout : ∀ i ∈ out, i < d.clearCode) (hsub : subIdx ≤ d.subs.length) :
    DecoderLegal { d with prev := prev, out := out, subIdx := subIdx, phase := phase } :=
  { mcs := h.mcs, clear := h.clear, eoi := h.eoi, widthLow := h.widthLow, widthHigh := h.widthHigh,
    lastLow := h.lastLow, lastHigh := h.lastHigh, threshold := h.threshold, below := h.below,
    table := { h.table with }, prev := hprev, out := hout, subIdx := hsub }

theorem DecoderLegal.setPhase {d : LZWDecoder} (h : DecoderLegal d) (phase : Phase) :
    DecoderLegal { d with phase := phase } := h.update h.prev h.out h.subIdx

theorem DecoderLegal.isWidth {d : LZWDecoder} (h : DecoderLegal d) : isWidth d.codeSize = true :=
  (isWidth_iff _).mpr ⟨by have := h.widthLow; omega, h.widthHigh⟩

/-- A legal decoder that has not failed. -/
def DecoderRuns (d : LZWDecoder) : Prop := d.phase ≠ .error ∧ DecoderLegal d

/-- How a decoder operation ends that keeps the decoder legal. -/
abbrev DecoderEnds {α : Type} (r : EStateM.Result Stop State α) : Prop :=
  Ends (fun _ t => DecoderRuns t.lzd) (fun t => DecoderLegal t.lzd) r

/-- R212: a fetch keeps the decoder legal, and its code has at most 12 bits. -/
theorem lzdFetchCode_ends (h : DecoderRuns s.lzd) :
    Ends (fun c t => c < 4096 ∧ DecoderRuns t.lzd) (fun t => DecoderLegal t.lzd) (lzdFetchCode s) := by
  obtain ⟨hph, hd⟩ := h
  by_cases hlen : s.lzd.codeSize ≤ (codeSupply s).length
  · obtain ⟨k, hk, -, -, hrun⟩ := lzdFetchCode_ok s hd.isWidth hlen
    rw [hrun]
    refine ⟨?_, hph, hd.update hd.prev hd.out ?_⟩
    · have hpow : 2 ^ ((codeSupply s).take s.lzd.codeSize).length ≤ 2 ^ 12 :=
        Nat.pow_le_pow_right (by omega) (Nat.le_trans (List.length_take_le _ _) hd.widthHigh)
      exact Nat.lt_of_lt_of_le (bitsValue_lt _) hpow
    · have := hd.subIdx
      omega
  · rw [lzdFetchCode_short s hd.isWidth (Nat.lt_of_not_le hlen)]
    refine hd.update hd.prev hd.out ?_
    have := hd.subIdx
    simp only [pushed_lzd]
    omega

section
variable (d : LZWDecoder) (w : List Nat)
@[simp] theorem assigned_clearCode : (assigned d w).clearCode = d.clearCode := by unfold assigned; split <;> rfl
@[simp] theorem assigned_eoiCode : (assigned d w).eoiCode = d.eoiCode := by unfold assigned; split <;> rfl
@[simp] theorem assigned_phase : (assigned d w).phase = d.phase := by unfold assigned; split <;> rfl
theorem assigned_lastAssignedCode : (assigned d w).lastAssignedCode =
    if d.lastAssignedCode < 4095 then d.lastAssignedCode + 1 else d.lastAssignedCode := by
  unfold assigned
  split <;> rfl
end

/-- A defined code of a legal decoder has a sequence, whose indices lie in the alphabet. -/
theorem DecoderLegal.entry {d : LZWDecoder} (h : DecoderLegal d) {c : Nat}
    (hc : c < d.clearCode ∨ (d.eoiCode < c ∧ c ≤ d.lastAssignedCode)) :
    ∃ k w, dictGet d.dict c = some (k :: w) ∧ ∀ i ∈ k :: w, i < d.clearCode := by
  obtain ⟨q, hq⟩ := Option.ne_none_iff_exists'.mp ((h.table.defined c).mpr hc)
  match q, hq with
  | k :: w, hq => exact ⟨k, w, hq, h.table.alphabet c _ hq⟩
  | [], hq =>
    rcases hc with hc | hc
    · rw [h.table.singleton c hc] at hq
      cases hq
    · obtain ⟨_, _, _, _, _, he⟩ := h.table.grown c [] hc.1 hq
      simp at he

theorem DecoderLegal.prevEntry {d : LZWDecoder} (h : DecoderLegal d) (hp : d.prev ≠ none) :
    ∃ p k w, d.prev = some p ∧ dictGet d.dict p = some (k :: w) ∧ ∀ i ∈ k :: w, i < d.clearCode := by
  obtain ⟨p, hp⟩ := Option.ne_none_iff_exists'.mp hp
  obtain ⟨k, w, hq, hi⟩ := h.entry ((h.table.defined p).mp (h.prev p hp))
  exact ⟨p, k, w, hp, hq, hi⟩

/-- R217, R218: the output of a code, the assignment of the next one and prev, taken together, keep a legal
decoder, when the code is defined once the next one is. -/
theorem decoderLegal_handled {d : LZWDecoder} (h : DecoderLegal d) {p k c : Nat} {q out : List Nat}
    (hq : dictGet d.dict p = some q) (hk : k < d.clearCode) (hout : ∀ i ∈ out, i < d.clearCode)
    (hc : c < d.clearCode ∨ (d.eoiCode < c ∧ c ≤ d.lastAssignedCode + 1 ∧ c ≤ 4095)) :
    DecoderLegal { assigned { d with out := d.out ++ out } (q ++ [k]) with prev := some c } := by
  have h1 : DecoderLegal { d with out := d.out ++ out } :=
    h.update h.prev (fun i hi => (List.mem_append.mp hi).elim (h.out i) (hout i)) h.subIdx
  have h2 := decoderLegal_assigned h1 hq hk
  refine h2.update (fun c' hc' => ?_) h2.out h2.subIdx
  cases hc'
  have hlast := h.lastHigh
  rw [h2.table.defined, assigned_lastAssignedCode, assigned_clearCode, assigned_eoiCode]
  show c < d.clearCode ∨ d.eoiCode < c ∧
    c ≤ if d.lastAssignedCode < 4095 then d.lastAssignedCode + 1 else d.lastAssignedCode
  split <;> omega

/-- R213 to R219: handling a code of at most 12 bits, by its class, keeps the decoder legal. -/
theorem lzwDispatch_ends {c : Nat} (h : DecoderRuns s.lzd) (hc : c < 4096) :
    DecoderEnds (lzwDispatch (codeContext s.lzd) c s) := by
  obtain ⟨hph, hd⟩ := h
  unfold lzwDispatch
  cases hcls : classifyCode (codeContext s.lzd) c with
  | eoi => exact ⟨nofun, hd.setPhase _⟩
  | clear => exact ⟨hph, decoderLegal_fresh hd.mcs hd.clear hd.eoi hd.out hd.subIdx⟩
  | first =>
    obtain ⟨k, w, hq, hi⟩ := hd.entry (.inl (classifyCode_first hcls))
    simp only
    rw [lzwFirst_ok s hq]
    refine ⟨hph, hd.update (fun p hp => ?_)
      (fun i hm => (List.mem_append.mp hm).elim (hd.out i) (hi i)) hd.subIdx⟩
    cases hp
    rw [hq]
    exact Option.some_ne_none _
  | hit =>
    obtain ⟨hprev, hdef⟩ := classifyCode_hit hcls
    obtain ⟨p, k', w', hp, hq, -⟩ := hd.prevEntry hprev
    obtain ⟨k, w, hcode, hi⟩ := hd.entry hdef
    simp only
    rw [lzwHit_ok s hcode hp hq]
    exact ⟨(assigned_phase _ _).trans_ne hph, decoderLegal_handled hd hq (hi k List.mem_cons_self) hi
      (hdef.imp id fun hr => ⟨hr.1, Nat.le_succ_of_le hr.2, by omega⟩)⟩
  | next =>
    obtain ⟨hprev, rfl⟩ := classifyCode_next hcls
    obtain ⟨p, k, w, hp, hq, hi⟩ := hd.prevEntry hprev
    have hk := hi k List.mem_cons_self
    have hlast : s.lzd.lastAssignedCode + 1 < 4096 := hc
    simp only
    rw [lzwNext_ok s hp hq]
    refine ⟨(assigned_phase _ _).trans_ne hph, decoderLegal_handled hd hq hk (fun i hm => ?_)
      (.inr ⟨Nat.lt_succ_of_le hd.lastLow, Nat.le_refl _, by omega⟩)⟩
    rcases List.mem_append.mp hm with hm | hm
    · exact hi i hm
    · exact List.mem_singleton.mp hm ▸ hk
  | bad => exact hd.setPhase _

theorem triple_lzdStep :
    Triple (fun s => DecoderRuns s.lzd) lzdStep (fun _ t => DecoderRuns t.lzd) fun t => DecoderLegal t.lzd :=
  fun s hs => (lzdFetchCode_ends s hs).bind fun _ t ht => lzwDispatch_ends t ht.2 ht.1

theorem triple_lzdLoop (fuel : Nat) :
    Triple (fun s => DecoderRuns s.lzd) (lzdLoop fuel) (fun _ t => DecoderRuns t.lzd)
      fun t => DecoderLegal t.lzd := by
  induction fuel with
  | zero => exact triple_stuck _
  | succ fuel ih =>
    intro s hs
    unfold lzdLoop
    rw [op_bind_of_ok s _ _ (op_getLZD s)]
    split
    · exact hs
    · exact (triple_lzdStep.bind fun _ => ih) s hs

/-- R163: DECODE_FRAME leaves a legal decoder, whatever its operands. -/
theorem triple_decodeFrame (img : ImageBlock) :
    Triple (fun s => DecoderLegal s.lzd) (decodeFrame img) (fun _ t => DecoderRuns t.lzd)
      fun t => DecoderLegal t.lzd := by
  refine triple_ite _ (fun _ => triple_raise _ _ fun s hs => hs.setPhase _) fun hm => ?_
  refine Triple.bind (Q := fun _ t => DecoderRuns t.lzd) (fun s _ => ?_) fun _ =>
    (triple_lzdLoop _).bind fun _ => fun s hs => hs
  rw [lzdInit_eq]
  exact ⟨nofun, decoderLegal_fresh (by simpa using hm) rfl rfl (fun _ hi => by cases hi) (Nat.zero_le _)⟩

end Sys2Proof.Machine
end

section
/-! That the encoder's operations keep the invariants of R262 while no error has been raised, and leave a map in
canonical form and at most seven pending bits in any case. -/

namespace Sys2Proof.Machine

variable (s : State)

/-- What every operation leaves of the encoder, errors included. -/
def EncoderSound (e : LZWEncoder) : Prop := encWf e.dict = true ∧ (e.phase ≠ .error → EncoderLegal e)

/-- A legal encoder that has not failed, with its bits (R262, R37). -/
structure EncoderRuns (s : State) : Prop where
  phase  : s.lze.phase ≠ .error
  legal  : EncoderLegal s.lze
  bits   : WriterBitsLegal s.bsw

/-- What an encoder operation leaves in any case. -/
structure EncoderLeft (s : State) : Prop where
  sound : EncoderSound s.lze
  bits  : WriterBitsLegal s.bsw

theorem EncoderRuns.left {s : State} (h : EncoderRuns s) : EncoderLeft s :=
  ⟨⟨h.legal.map.canonical, fun _ => h.legal⟩, h.bits⟩

/-- A failed encoder keeps its map. -/
theorem encoderLeft_mark {s : State} (hd : encWf s.lze.dict = true) (hb : WriterBitsLegal s.bsw) :
    EncoderLeft (markError .lze s) := ⟨⟨hd, fun h => absurd rfl h⟩, hb⟩

/-- The fields beside the map and its counters may change within their legal values. -/
theorem EncoderLegal.update {e : LZWEncoder} (h : EncoderLegal e) {codeSize inPos : Nat}
    {indexBuffer : List Nat} {phase : Phase} (hlow : e.codeSize ≤ codeSize) (hhigh : codeSize ≤ 12)
    (hbuf : encGet e.dict indexBuffer ≠ none) (hpos : inPos ≤ e.input.length) :
    EncoderLegal { e with
      codeSize := codeSize, indexBuffer := indexBuffer, inPos := inPos, phase := phase } :=
  { mcs := h.mcs, clear := h.clear, eoi := h.eoi, widthLow := Nat.le_trans h.widthLow hlow,
    widthHigh := hhigh, nextLow := h.nextLow,
    nextWidth := Nat.le_trans h.nextWidth (Nat.pow_le_pow_right (by omega) hlow), nextHigh := h.nextHigh,
    map := { h.map with }, buffer := hbuf, inPos := hpos }

theorem EncoderLegal.isWidth {e : LZWEncoder} (h : EncoderLegal e) : isWidth e.codeSize = true :=
  (isWidth_iff _).mpr ⟨by have := h.widthLow; omega, h.widthHigh⟩

/-- R262: the CLEAR and EOI codes fit the width. -/
theorem EncoderLegal.reserved_lt {e : LZWEncoder} (h : EncoderLegal e) :
    e.clearCode < 2 ^ e.codeSize ∧ e.eoiCode < 2 ^ e.codeSize := by
  have h1 := h.eoi
  have h2 := h.nextLow
  have h3 := h.nextWidth
  omega

/-- R262: the code of the buffer is there and fits the width. -/
theorem EncoderLegal.buffer_code {e : LZWEncoder} (h : EncoderLegal e) :
    ∃ c, encGet e.dict e.indexBuffer = some c ∧ c < 2 ^ e.codeSize := by
  obtain ⟨c, hc⟩ := Option.ne_none_iff_exists'.mp h.buffer
  refine ⟨c, hc, ?_⟩
  have h1 := h.reserved_lt
  have h2 := h.nextWidth
  rcases encGet_code h.map hc with hc | hc <;> omega

/-- R190, R259: a code that fits is written, which changes BSW only and leaves at most seven bits pending. -/
theorem lzeEmit_fits {c : Nat} (hw : isWidth s.lze.codeSize = true) (hc : c < 2 ^ s.lze.codeSize) :
    ∃ b, WriterBitsLegal b ∧ lzeEmit (some c) s = .ok () (s.setBSW b) := by
  refine ⟨_, ?_, lzeEmit_ok s hw hc⟩
  exact (drainBytes_spec _).2

theorem lzeEmit_buffer (h : EncoderLegal s.lze) : ∃ b, WriterBitsLegal b ∧
    lzeEmit (encGet s.lze.dict s.lze.indexBuffer) s = .ok () (s.setBSW b) := by
  obtain ⟨c, hc, hlt⟩ := h.buffer_code
  rw [hc]
  exact lzeEmit_fits s h.isWidth hlt

/-- R251: init leaves a legal encoder, or one that has failed on its seed index. -/
theorem triple_lzeInit {m : Byte} (idx : List Nat) (hm : mcsInRange m = true) :
    Triple (fun _ => True) (lzeInit m idx) (fun _ => EncoderRuns) EncoderLeft := by
  cases idx with
  | nil => exact triple_stuck _
  | cons k rest =>
    intro s _
    rw [lzeInit_eq]
    split
    · next hk =>
      have hl := encoderLegal_fresh (e := { s.lze with
        minCodeSize := m, clearCode := 2 ^ m.toNat, eoiCode := 2 ^ m.toNat + 1, input := k :: rest,
        phase := .run, indexBuffer := [k], inPos := 1 }) hm rfl rfl hk rfl (by simp)
      exact ⟨nofun, hl, Nat.zero_le _⟩
    · exact encoderLeft_mark (encWf_encSeed _) (Nat.zero_le _)

/-- R250: the initial CLEAR fits the first width. -/
theorem triple_lzeBegin {m : Byte} (idx : List Nat) (hm : mcsInRange m = true) :
    Triple (fun _ => True) (lzeBegin m idx) (fun _ => EncoderRuns) EncoderLeft :=
  (triple_lzeInit idx hm).bind fun _ => fun s hs => by
    obtain ⟨b, hb, hrun⟩ := lzeEmit_fits s hs.legal.isWidth hs.legal.reserved_lt.1
    rw [op_bind_of_ok s _ _ (op_getLZE s), hrun]
    exact ⟨hs.phase, hs.legal, hb⟩

/-- R254: the next index is consumed, and lies in the alphabet. -/
theorem lzeNextIndex_ends {s : State} (h : EncoderRuns s) :
    Ends (fun k t => EncoderRuns t ∧ k < t.lze.clearCode) EncoderLeft (lzeNextIndex s) := by
  cases hk : s.lze.input[s.lze.inPos]? with
  | none =>
    unfold lzeNextIndex
    rw [op_bind_of_ok s _ _ (op_getLZE s)]
    simp only [hk]
    trivial
  | some k =>
    obtain ⟨hlt, -⟩ := List.getElem?_eq_some_iff.mp hk
    rw [lzeNextIndex_eq s hk]
    split
    · next hc =>
      exact ⟨⟨h.phase, h.legal.update (Nat.le_refl _) h.legal.widthHigh h.legal.buffer hlt, h.bits⟩, hc⟩
    · exact encoderLeft_mark h.legal.map.canonical h.bits

/-- R256 to R258: a MISS keeps a legal encoder, at a code of at most 4095 and at the reset. -/
theorem lzeMiss_ends {s : State} {k : Nat} (h : EncoderRuns s) (hk : k < s.lze.clearCode)
    (hmiss : encGet s.lze.dict (s.lze.indexBuffer ++ [k]) = none) :
    Ends (fun _ => EncoderRuns) EncoderLeft (lzeMiss k s) := by
  obtain ⟨hph, hl, -⟩ := h
  obtain ⟨b, hb, he⟩ := lzeEmit_buffer s hl
  by_cases hn : s.lze.nextCode ≤ 4095
  · rw [lzeMiss_insert s he hn]
    exact ⟨hph, encoderLegal_inserted hl hk hn hmiss, hb⟩
  · obtain ⟨b', hb', hu⟩ := lzeEmit_fits ((s.setBSW b).setLZE (insertNext s.lze k)) hl.isWidth
      hl.reserved_lt.1
    rw [lzeMiss_reset s he (Nat.lt_of_not_le hn) hu]
    exact ⟨hph, encoderLegal_fresh hl.mcs hl.clear hl.eoi hk rfl hl.inPos, hb'⟩

/-- What handles an index: EXTEND or MISS, as the dictionary says (R254). -/
def lzeHandle (e : LZWEncoder) (k : Nat) : Op Unit := if lzeKnows e k then lzeExtend k else lzeMiss k

theorem exec_lzeHandle (e : LZWEncoder) (k : Nat) :
    exec (if lzeKnows e k then .lzeExtend k else .lzeMiss k) s = runUnit (lzeHandle e k) s := by
  unfold lzeHandle
  split <;> rfl

theorem lzeHandle_ends {s : State} {k : Nat} (h : EncoderRuns s) (hk : k < s.lze.clearCode) :
    Ends (fun _ => EncoderRuns) EncoderLeft (lzeHandle s.lze k s) := by
  unfold lzeHandle lzeKnows
  cases hg : encGet s.lze.dict (s.lze.indexBuffer ++ [k]) with
  | none => exact lzeMiss_ends h hk hg
  | some c =>
    exact ⟨h.phase, h.legal.update (Nat.le_refl _) h.legal.widthHigh (by rw [hg]; nofun) h.legal.inPos, h.bits⟩

theorem triple_lzeStep : Triple EncoderRuns lzeStep (fun _ => EncoderRuns) EncoderLeft :=
  fun _ hs => (lzeNextIndex_ends hs).bind fun _ _ ht => lzeHandle_ends ht.1 ht.2

theorem triple_lzeLoop (fuel : Nat) :
    Triple EncoderRuns (lzeLoop fuel) (fun _ => EncoderRuns) EncoderLeft := by
  have get : Triple EncoderRuns getLZE (fun _ => EncoderRuns) EncoderLeft := fun _ hs => hs
  induction fuel with
  | zero => exact get.bind fun _ => triple_ite _ (fun _ => triple_stuck _) fun _ => triple_pure _ fun _ h => h
  | succ fuel ih =>
    exact get.bind fun _ => triple_ite _ (fun _ => triple_lzeStep.bind fun _ => ih) fun _ =>
      triple_pure _ fun _ h => h

/-- R260, R261: the end of the input keeps the encoder legal. -/
theorem triple_lzeFinish : Triple EncoderRuns lzeFinish (fun _ => EncoderRuns) EncoderLeft := by
  intro s hs
  obtain ⟨hph, hl, -⟩ := hs
  obtain ⟨b, -, he⟩ := lzeEmit_buffer s hl
  have hwide : s.lze.codeSize ≤ (if widensAtEnd s.lze then s.lze.codeSize + 1 else s.lze.codeSize) ∧
      (if widensAtEnd s.lze then s.lze.codeSize + 1 else s.lze.codeSize) ≤ 12 := by
    split
    · next hw =>
      simp only [widensAtEnd, Bool.and_eq_true, decide_eq_true_eq] at hw
      exact ⟨Nat.le_succ _, hw.2⟩
    · exact ⟨Nat.le_refl _, hl.widthHigh⟩
  have hl' := hl.update (phase := s.lze.phase) hwide.1 hwide.2 hl.buffer hl.inPos
  obtain ⟨b', hb', hu⟩ := lzeEmit_fits ((s.setBSW b).setLZE { s.lze with
    codeSize := if widensAtEnd s.lze then s.lze.codeSize + 1 else s.lze.codeSize }) hl'.isWidth
    hl'.reserved_lt.2
  rw [lzeFinish_ok s he hu rfl]
  exact ⟨nofun, hl.update hwide.1 hwide.2 hl.buffer hl.inPos, hb'⟩

/-- R191: closing raises no error and changes BSW only. -/
theorem lzePacked_ends (m : Byte) {s : State} (hs : WriterBitsLegal s.bsw) :
    Ends (fun _ t => ∃ b, WriterBitsLegal b ∧ t = s.setBSW b) (fun _ => False) (lzePacked m s) := by
  refine Ends.bind (Q := fun _ t => ∃ b, WriterBitsLegal b ∧ t = s.setBSW b) ?_ fun _ _ h => h
  rw [bswClose_eq]
  split
  · exact ⟨s.bsw, hs, rfl⟩
  · split
    · trivial
    · exact ⟨_, Nat.zero_le _, rfl⟩

theorem triple_lzePacked (m : Byte) : Triple EncoderRuns (lzePacked m) (fun _ => EncoderRuns) EncoderLeft := by
  intro s hs
  refine (lzePacked_ends m hs.bits).imp ?_ fun _ h => h.elim
  rintro _ _ ⟨b, hb, rfl⟩
  exact ⟨hs.phase, hs.legal, hb⟩

/-- R250: the encoding of a frame leaves a legal encoder, or one that has failed. -/
theorem triple_lzeEncodeFrame {m : Byte} (idx : List Nat) (hm : mcsInRange m = true) :
    Triple (fun _ => True) (lzeEncodeFrame m idx) (fun _ => EncoderRuns) EncoderLeft :=
  (triple_lzeBegin idx hm).bind fun _ => (triple_lzeLoop _).bind fun _ => triple_lzeFinish.bind fun _ =>
    triple_lzePacked m

end Sys2Proof.Machine
end

section
/-! Every step from a legal state leads to a legal state: the units an operation writes stay legal, the others
are as they were, and the command's end or the error's entry writes HI as R160 and R380 say. -/

namespace Sys2Proof.Machine

variable {α : Type} {s c t u : State}

/-! ## Frames: `t` is `s` with the units of a family written -/

/-- Some bytes have been read and CP written. -/
def ParserFrame (s t : State) : Prop := ∃ n cp, t = (advance s n).setCP cp

/-- LZD and BSR have been written. -/
def DecoderFrame (s t : State) : Prop := ∃ d b, t = (s.setLZD d).setBSR b

/-- LZE and BSW have been written. -/
def EncoderFrame (s t : State) : Prop := ∃ e b, t = (s.setLZE e).setBSW b

/-- LZE and BSW have been written, and bytes appended to CW.out. -/
def WriterFrame (s t : State) : Prop :=
  ∃ e b bs, t = ((s.setLZE e).setBSW b).setCW { out := s.cw.out ++ bs }

theorem parserFrame_closed (s : State) : ParserClosed (ParserFrame s) where
  advance := by
    rintro _ n - ⟨m, cp, rfl⟩
    exact ⟨m + n, cp, by rw [← advance_advance]; rfl⟩
  setCP := by
    rintro _ v ⟨m, cp, rfl⟩
    exact ⟨m, v, rfl⟩

theorem cursorLegal_closed : ParserClosed fun t => CursorLegal t.bc where
  advance t n hn ht := by
    rw [length_unread] at hn
    unfold CursorLegal at ht ⊢
    simp only [advance_bc]
    omega
  setCP _ _ ht := ht

theorem decoderFrame_closed (s : State) : DecoderClosed (DecoderFrame s) where
  setBSR := by
    rintro _ v ⟨d, b, rfl⟩
    exact ⟨d, v, rfl⟩
  setLZD := by
    rintro _ v ⟨d, b, rfl⟩
    exact ⟨v, b, rfl⟩

theorem encoderFrame_closed (s : State) : EncoderClosed (EncoderFrame s) where
  setBSW := by
    rintro _ v ⟨e, b, rfl⟩
    exact ⟨e, v, rfl⟩
  setLZE := by
    rintro _ v ⟨e, b, rfl⟩
    exact ⟨v, b, rfl⟩

theorem writerFrame_encoderClosed (s : State) : EncoderClosed (WriterFrame s) where
  setBSW := by
    rintro _ v ⟨e, b, bs, rfl⟩
    exact ⟨e, v, bs, rfl⟩
  setLZE := by
    rintro _ v ⟨e, b, bs, rfl⟩
    exact ⟨v, b, bs, rfl⟩

theorem writerFrame_refl (s : State) : WriterFrame s s :=
  ⟨s.lze, s.bsw, [], by rw [List.append_nil]; rfl⟩

theorem WriterFrame.append (h : WriterFrame s t) (bs : List Byte) :
    WriterFrame s (t.setCW { out := t.cw.out ++ bs }) := by
  obtain ⟨e, b, bs', rfl⟩ := h
  exact ⟨e, b, bs' ++ bs, by simp only [State.setCW_cw, State.setCW_setCW, List.append_assoc]⟩

theorem writerFrame_closed (s : State) : WriterClosed (WriterFrame s) where
  append _ bs h := h.append bs
  frame m idx _ := keeps_lzeEncodeFrame (writerFrame_encoderClosed s) m idx

/-! ## The units of a state -/

/-- The units of `t` are legal, and its encoder's map is canonical if that of `s` is. -/
structure UnitsKept (s t : State) : Prop where
  cursor     : CursorLegal t.bc
  writerBits : WriterBitsLegal t.bsw
  decoder    : DecoderLegal t.lzd
  encoder    : t.lze.phase ≠ .error → EncoderLegal t.lze
  parser     : ParserLegal t.cp
  map        : encWf s.lze.dict = true → encWf t.lze.dict = true

theorem unitsKept_refl (h : Legal s) : UnitsKept s s :=
  { cursor := h.cursor, writerBits := h.writerBits, decoder := h.decoder, encoder := h.encoder,
    parser := h.parser, map := id }

/-- R400: the command-start reset sets up every unit but the codecs, which it leaves. -/
theorem UnitsKept.commandStart (h : UnitsKept s c) (code : Byte) (input : List Byte) :
    UnitsKept s (commandStart code input c) :=
  { h with cursor := Nat.zero_le _, writerBits := Nat.zero_le _, parser := rfl }

/-- What an operation of the command in progress leaves when it returns: legal units, HI as it was, and a
sequencing state that goes on. -/
structure Stepped (s c t : State) : Prop where
  units      : UnitsKept s t
  hi         : t.hi = c.hi
  sequencing : SequencingLegal c → SequencingLegal t

theorem parser_ends {op : Op α} {p : ContainerParser → Prop}
    (hop : ∀ {P : State → Prop}, ParserClosed P → Keeps P op) (hcp : CPTriple p op fun _ => ParserRuns)
    (hc : UnitsKept s c) (hp : p c.cp) : Ends (fun _ => Stepped s c) (UnitsKept s) (op c) := by
  have hframe := hop (parserFrame_closed c) c ⟨0, c.cp, rfl⟩
  have hcursor := hop cursorLegal_closed c hc.cursor
  refine ((hframe.and hcursor).and (hcp c hp)).imp ?_ ?_
  · rintro a _ ⟨⟨⟨n, cp, rfl⟩, hcur⟩, hph, hl⟩
    exact ⟨{ hc with cursor := hcur, parser := hl }, rfl,
      fun ⟨h1, h2, _, h4, h5⟩ => ⟨h1, h2, fun _ => hph, h4, h5⟩⟩
  · rintro _ ⟨⟨⟨n, cp, rfl⟩, hcur⟩, hph⟩
    have hl : ParserLegal cp := by
      have hph' : cp.phase = .error := hph
      simp only [ParserLegal, hph']
    exact { hc with cursor := hcur, parser := hl }

theorem decoder_ends {op : Op α} (hop : ∀ {P : State → Prop}, DecoderClosed P → Keeps P op)
    (hd : DecoderEnds (op c)) (hc : UnitsKept s c) :
    Ends (fun _ => Stepped s c) (UnitsKept s) (op c) := by
  refine ((hop (decoderFrame_closed c) c ⟨c.lzd, c.bsr, rfl⟩).and hd).imp ?_ ?_
  · rintro a _ ⟨⟨d, b, rfl⟩, hph, hl⟩
    exact ⟨{ hc with decoder := hl }, rfl, fun ⟨h1, h2, h3, _, h5⟩ => ⟨h1, h2, h3, fun _ => hph, h5⟩⟩
  · rintro _ ⟨⟨d, b, rfl⟩, hl⟩
    exact { hc with decoder := hl }

theorem EncoderLeft.units (h : EncoderLeft t) (hc : UnitsKept s c) (hf : EncoderFrame c t) :
    UnitsKept s t := by
  obtain ⟨e, b, rfl⟩ := hf
  exact { hc with writerBits := h.bits, encoder := h.sound.2, map := fun _ => h.sound.1 }

theorem encoder_ends {op : Op α} (hop : ∀ {P : State → Prop}, EncoderClosed P → Keeps P op)
    (he : Ends (fun _ => EncoderRuns) EncoderLeft (op c)) (hc : UnitsKept s c) :
    Ends (fun _ => Stepped s c) (UnitsKept s) (op c) := by
  refine ((hop (encoderFrame_closed c) c ⟨c.lze, c.bsw, rfl⟩).and he).imp ?_ ?_
  · rintro a t ⟨hf, hr⟩
    refine ⟨hr.left.units hc hf, ?_, ?_⟩
    · obtain ⟨e, b, rfl⟩ := hf
      rfl
    · obtain ⟨e, b, rfl⟩ := hf
      exact fun ⟨h1, h2, h3, h4, _⟩ => ⟨h1, h2, h3, h4, fun _ => hr.phase⟩
  · rintro t ⟨hf, hl⟩
    exact hl.units hc hf

/-- The writer's operations write CW, and the encoder's units when they encode a frame. -/
theorem writerClosed_units (s c : State) : WriterClosed fun t => WriterFrame c t ∧ UnitsKept s t where
  append t bs h := ⟨h.1.append bs, { h.2 with }⟩
  frame m idx hm t h := by
    have hunits := encoder_ends (fun hP => keeps_lzeEncodeFrame hP m idx)
      (triple_lzeEncodeFrame idx hm t trivial) h.2
    exact ((keeps_lzeEncodeFrame (writerFrame_encoderClosed c) m idx t h.1).and hunits).imp
      (fun _ _ h => ⟨h.1, h.2.units⟩) fun _ h => h

/-! ## The state with its host interface -/

/-- `t` is legal, and its encoder's map is canonical if that of `s` is. -/
structure Kept (s t : State) : Prop where
  legal : Legal t
  map   : encWf s.lze.dict = true → encWf t.lze.dict = true

theorem Kept.units (h : Kept s t) : UnitsKept s t :=
  { unitsKept_refl h.legal with map := h.map }

theorem UnitsKept.kept (h : UnitsKept s t) (hh : HostLegal t.hi) (hs : SequencingLegal t) : Kept s t :=
  ⟨{ host := hh, cursor := h.cursor, writerBits := h.writerBits, decoder := h.decoder,
     encoder := h.encoder, parser := h.parser, sequencing := hs }, h.map⟩

/-- R380: once an error is taken no command is in progress and STATUS holds the error. -/
theorem UnitsKept.errorEntry (h : UnitsKept s u) (e : Err) : Kept s (errorEntry e u) :=
  UnitsKept.kept { h with } ⟨by simp, rfl, rfl⟩ ⟨nofun, rfl, nofun, nofun, nofun⟩

/-- R160: once a command has returned none is in progress and STATUS says so. -/
theorem UnitsKept.commandEnd (h : UnitsKept s u) (v : Value) : Kept s (commandEnd v u) :=
  UnitsKept.kept { h with } ⟨by simp, rfl, rfl⟩ ⟨nofun, rfl, nofun, nofun, nofun⟩

/-- The command's end keeps a legal state. -/
theorem kept_conclude (h : Kept s u) (ht : conclude u = .next t) : Kept s t := by
  unfold conclude at ht
  split_ifs at ht
  · cases ht
    exact h.units.commandEnd _
  · cases ht
    exact h.units.commandEnd _
  · rcases settle_next (lzePacked_ends _ h.legal.writerBits) ht with
      ⟨data, _, ⟨b, hb, rfl⟩, ht⟩ | ⟨_, _, hfalse, _⟩
    · cases ht
      exact UnitsKept.commandEnd (u := u.setBSW b) { h.units with writerBits := hb } _
    · exact hfalse.elim
  · cases ht
    exact h.units.commandEnd _
  · cases ht
    exact h

/-- An operation of the command in progress, run by a step, and the command's end after it. -/
theorem kept_execWithin {i : Instr} {op : Op Unit} (hexec : exec i c = runUnit op c)
    (hh : HostLegal c.hi) (hs : SequencingLegal c) (h : Ends (fun _ => Stepped s c) (UnitsKept s) (op c))
    (ht : execWithin i c = .next t) : Kept s t := by
  unfold execWithin at ht
  rw [hexec] at ht
  cases hu : runUnit op c with
  | fault f => rw [hu] at ht; cases ht
  | refused r => rw [hu] at ht; cases ht
  | next u =>
    rw [hu] at ht
    refine kept_conclude ?_ ht
    rcases settle_next h hu with ⟨_, v, hv, hvu⟩ | ⟨e, v, hv, rfl⟩
    · cases hvu
      exact hv.units.kept (hv.hi ▸ hh) (hv.sequencing hs)
    · exact hv.errorEntry e

/-- A command run whole, from its reset to its end. -/
theorem kept_runCommand {code : Byte} {input : List Byte} {op : Op Value}
    (h : Ends (fun _ => UnitsKept s) (UnitsKept s) (op (commandStart code input c)))
    (ht : runCommand code input op c = .next t) : Kept s t := by
  unfold runCommand at ht
  split at ht
  · cases ht
  · rcases settle_next h ht with ⟨v, u, hu, hut⟩ | ⟨e, u, hu, rfl⟩
    · cases hut
      exact hu.commandEnd v
    · exact hu.errorEntry e

/-! ## The four commands -/

theorem ends_parseContainer (bytes : List Byte) (h : UnitsKept s c) : Ends (fun _ => UnitsKept s)
    (UnitsKept s) (parseContainer bytes (commandStart 0x01#8 bytes c)) :=
  (parser_ends (fun hP => keeps_parseContainer hP bytes) (cpTriple_parseContainer bytes)
    (h.commandStart _ bytes) ⟨nofun, rfl⟩).imp (fun _ _ ht => ht.units) fun _ ht => ht

theorem ends_decodeFrame (img : ImageBlock) (h : UnitsKept s c) : Ends (fun _ => UnitsKept s)
    (UnitsKept s) (decodeFrame img (commandStart 0x02#8 [] c)) :=
  have hc := h.commandStart 0x02#8 []
  (decoder_ends (fun hP => keeps_decodeFrame hP img) (triple_decodeFrame img _ hc.decoder) hc).imp
    (fun _ _ ht => ht.units) fun _ ht => ht

/-- A failed encoder has no invariant left but its map's form. -/
theorem UnitsKept.markEncoder (h : UnitsKept s c) : UnitsKept s (markError .lze c) :=
  { h with encoder := fun hph => absurd rfl hph }

theorem keeps_encodeFrame_units (m : Byte) (idx : List Nat) : Keeps (UnitsKept s) (encodeFrame m idx) := by
  refine triple_ite _ (fun _ => triple_raise _ _ fun _ h => h.markEncoder) fun hm =>
    triple_ite _ (fun _ => triple_raise _ _ fun _ h => h.markEncoder) fun _ =>
      Triple.bind (Q := fun _ => UnitsKept s) (fun c h => ?_) fun _ => keeps_pure _
  exact (encoder_ends (fun hP => keeps_lzeEncodeFrame hP m idx)
    (triple_lzeEncodeFrame idx (by simpa using hm) c trivial) h).imp (fun _ _ ht => ht.units) fun _ ht => ht

theorem ends_encodeContainer (screen : ScreenIn) (ct : ColorTable) (frames : List FrameIn)
    (h : UnitsKept s c) : Ends (fun _ => UnitsKept s) (UnitsKept s)
      (encodeContainer screen ct frames (commandStart 0x04#8 [] c)) := by
  refine Ends.bind (Q := fun _ => UnitsKept s) { h.commandStart 0x04#8 [] with } fun _ u hu => ?_
  refine Ends.bind (Q := fun _ => UnitsKept s) ?_ fun _ _ ht => ht
  exact (keeps_cwEncodeContainer (writerClosed_units s u) screen ct frames u
    ⟨writerFrame_refl u, hu⟩).imp (fun _ _ ht => ht.2) fun _ ht => ht.2

/-- What the host's request selects keeps a legal state (R160, R161). -/
theorem kept_request {q : Request} (h : Kept s c) (ht : exec (decodeRequest q) c = .next t) : Kept s t := by
  unfold decodeRequest at ht
  split_ifs at ht
  · cases ht
    exact h
  · exact kept_runCommand (ends_parseContainer _ h.units) ht
  · exact kept_runCommand (ends_decodeFrame _ h.units) ht
  · exact kept_runCommand (keeps_encodeFrame_units _ _ _ (h.units.commandStart _ _)) ht
  · exact kept_runCommand (ends_encodeContainer _ _ _ h.units) ht
  · cases ht

/-! ## The steps -/

theorem kept_stepIdle (h : Legal s) (ht : stepIdle s = .next t) : Kept s t := by
  unfold stepIdle at ht
  split at ht
  · cases ht
    exact ⟨h, id⟩
  · refine kept_request ?_ ht
    exact ⟨{ h with }, id⟩

theorem kept_stepParser (h : Legal s) (ht : stepParser s = .next t) : Kept s t := by
  have hu := unitsKept_refl h
  unfold stepParser at ht
  split at ht
  case h_1 hph =>
    exact kept_execWithin rfl h.host h.sequencing (parser_ends (fun hP => parses_cpHeader.keeps hP)
      (cpTriple_cpHeader.runs nofun) hu ⟨hph, h.parser⟩) ht
  case h_2 hph =>
    exact kept_execWithin rfl h.host h.sequencing (parser_ends (fun hP => parses_cpLSD.keeps hP)
      (cpTriple_cpLSD.runs nofun) hu ⟨hph, h.parser⟩) ht
  case h_3 hph =>
    exact kept_execWithin rfl h.host h.sequencing (parser_ends (fun hP => parses_cpGCT.keeps hP)
      (cpTriple_cpGCT.runs nofun) hu ⟨hph, h.parser⟩) ht
  case h_4 hph =>
    have hread := (parser_ends (fun hP => parses_bcConsume.keeps hP)
      (Triple.imp (reads_bcConsume (ParserAt .block)) (fun _ h => h) (fun _ _ h => h.2.runs nofun)
        fun _ h => h) hu ⟨hph, h.parser⟩).and (reads_bcConsume (ParserAt .block) s ⟨hph, h.parser⟩)
    rcases settle_next hread ht with ⟨b, c, ⟨hc, -, hat⟩, ht⟩ | ⟨e, c, ⟨hc, -⟩, rfl⟩
    · exact kept_execWithin (exec_decodeIntro b c) (hc.hi ▸ h.host) (hc.sequencing h.sequencing)
        (parser_ends (fun hP => (parses_introOp b).keeps hP) (cpTriple_introOp b) hc.units hat) ht
    · exact hc.errorEntry e
  case h_5 => exact kept_conclude ⟨h, id⟩ ht
  case h_6 => cases ht

/-- The operation a code selects is the dispatch of R213 on its class. -/
theorem exec_decodeCode (k : CodeContext) (code : Nat) (s : State) :
    exec (decodeCode k code) s = runUnit (lzwDispatch k code) s := by
  unfold decodeCode lzwDispatch
  cases classifyCode k code <;> rfl

theorem kept_stepDecoder (h : Legal s) (ht : stepDecoder s = .next t) : Kept s t := by
  unfold stepDecoder at ht
  split at ht
  case h_1 hph =>
    have hruns : DecoderRuns s.lzd := ⟨by rw [hph]; nofun, h.decoder⟩
    have hfetch := lzdFetchCode_ends s hruns
    have hstep := decoder_ends (fun hP => keeps_lzdFetchCode hP)
      (hfetch.imp (fun _ _ h => h.2) fun _ h => h) (unitsKept_refl h)
    rcases settle_next (hstep.and hfetch) ht with ⟨code, c, ⟨hc, hlt, hrun⟩, ht⟩ | ⟨e, c, ⟨hc, -⟩, rfl⟩
    · exact kept_execWithin (exec_decodeCode _ code c) (hc.hi ▸ h.host) (hc.sequencing h.sequencing)
        (decoder_ends (fun hP => keeps_lzwDispatch hP _ code) (lzwDispatch_ends c hrun hlt) hc.units) ht
    · exact hc.errorEntry e
  case h_2 => exact kept_conclude ⟨h, id⟩ ht
  case h_3 => cases ht

theorem keeps_lzeHandle {P : State → Prop} (h : EncoderClosed P) (e : LZWEncoder) (k : Nat) :
    Keeps P (lzeHandle e k) :=
  triple_ite _ (fun _ => keeps_lzeExtend h k) fun _ => keeps_lzeMiss h k

theorem kept_stepEncoder (h : Legal s) (ht : stepEncoder s = .next t) : Kept s t := by
  unfold stepEncoder at ht
  split at ht
  case h_1 hph =>
    have hne : s.lze.phase ≠ .error := by rw [hph]; nofun
    have hruns : EncoderRuns s := ⟨hne, h.encoder hne, h.writerBits⟩
    split at ht
    · have hnext := lzeNextIndex_ends hruns
      have hstep := encoder_ends (fun hP => keeps_lzeNextIndex hP)
        (hnext.imp (fun _ _ h => h.1) fun _ h => h) (unitsKept_refl h)
      rcases settle_next (hstep.and hnext) ht with ⟨k, c, ⟨hc, hrun, hk⟩, ht⟩ | ⟨e, c, ⟨hc, -⟩, rfl⟩
      · exact kept_execWithin (exec_lzeHandle c c.lze k) (hc.hi ▸ h.host) (hc.sequencing h.sequencing)
          (encoder_ends (fun hP => keeps_lzeHandle hP c.lze k) (lzeHandle_ends hrun hk) hc.units) ht
      · exact hc.errorEntry e
    · exact kept_execWithin rfl h.host h.sequencing (encoder_ends (fun hP => keeps_lzeFinish hP)
        (triple_lzeFinish s hruns) (unitsKept_refl h)) ht
  case h_2 => exact kept_conclude ⟨h, id⟩ ht
  case h_3 => cases ht

/-- A queued operation is one of the writer's. -/
theorem exec_writerOp {i : Instr} (hi : isWriterOp i = true) :
    ∃ op : Op Unit, (∀ s, exec i s = runUnit op s) ∧ ∀ {P : State → Prop}, WriterClosed P → Keeps P op := by
  cases i with
  | cwWriteHeader => exact ⟨cwWriteHeader, fun _ => rfl, fun h => keeps_cwAppend h _⟩
  | cwWriteLSD screen gsz => exact ⟨cwWriteLSD screen gsz, fun _ => rfl, fun h => keeps_cwAppend h _⟩
  | cwWriteColorTable t => exact ⟨cwWriteColorTable t, fun _ => rfl, fun h => keeps_cwAppend h _⟩
  | cwWriteGCE g => exact ⟨cwWriteGCE g, fun _ => rfl, fun h => keeps_cwAppend h _⟩
  | cwWriteImage f ct => exact ⟨cwWriteImage f ct, fun _ => rfl, fun h => keeps_cwWriteImage h f ct⟩
  | cwWriteTrailer => exact ⟨cwWriteTrailer, fun _ => rfl, fun h => keeps_cwAppend h _⟩
  | _ => cases hi

theorem kept_stepQueued {i : Instr} {rest : List Instr} (h : Legal s) (htodo : s.todo = i :: rest)
    (ht : execWithin i (s.setTodo rest) = .next t) : Kept s t := by
  obtain ⟨h1, h2, -, -, -⟩ := h.sequencing
  have hcmd : s.hi.cmd = 0x04#8 := h1 (by rw [htodo]; nofun)
  rw [htodo, List.all_cons, Bool.and_eq_true] at h2
  obtain ⟨hi, hrest⟩ := h2
  have hseq : ∀ u : State, u.hi = s.hi → u.todo = rest → SequencingLegal u := fun u hu hr => by
    rw [SequencingLegal, hu, hr, hcmd]
    exact ⟨fun _ => rfl, hrest, nofun, nofun, nofun⟩
  obtain ⟨op, hexec, hop⟩ := exec_writerOp hi
  refine kept_execWithin (c := s.setTodo rest) (hexec _) h.host (hseq _ rfl rfl) ?_ ht
  refine (hop (writerClosed_units s (s.setTodo rest)) (s.setTodo rest)
    ⟨writerFrame_refl _, { unitsKept_refl h with }⟩).imp ?_ fun _ hu => hu.2
  rintro _ _ ⟨⟨e, b, bs, rfl⟩, hu⟩
  exact ⟨hu, rfl, fun _ => hseq _ rfl rfl⟩

/-- Legality is kept by every step. -/
theorem kept_step (h : Legal s) (ht : step s = .next t) : Kept s t := by
  unfold step at ht
  split at ht
  · next htodo => exact kept_stepQueued h htodo ht
  · split_ifs at ht
    · exact kept_stepIdle h ht
    · exact kept_stepParser h ht
    · exact kept_stepDecoder h ht
    · exact kept_stepEncoder h ht
    · exact kept_conclude ⟨h, id⟩ ht

/-- Settles O57: legality as a whole is kept by every step, and these are five of its parts. -/
theorem stepKeepsHostAndParser : Obligations.StepKeepsHostAndParser := by
  unfold Obligations.StepKeepsHostAndParser
  intro s t hs ht
  have h := (kept_step hs ht).legal
  exact ⟨h.host, h.cursor, h.writerBits, h.parser, h.sequencing⟩

/-- Settles O58: the codecs' parts of what every step keeps. The decoder's table is canonical in every legal
state; the encoder's stays so in a state whose encoder has failed as well. -/
theorem stepKeepsCodecs : Obligations.StepKeepsCodecs := by
  unfold Obligations.StepKeepsCodecs
  intro s t hs ht
  have h := kept_step hs ht
  refine ⟨h.legal.decoder, h.legal.encoder, fun hwf => ?_⟩
  rw [Memory.wf, Bool.and_eq_true] at hwf ⊢
  exact ⟨h.legal.decoder.table.canonical, h.map hwf.2⟩

end Sys2Proof.Machine
end

section
/-! What each family of operations leaves unchanged, whether the operation returns or its error is taken
(R92, R95, R380). -/

namespace Sys2Proof.Machine

variable {α : Type} {P : State → Prop} {s t : State}

/-- Some bytes have been read and CP.phase written. -/
def CursorFrame (s t : State) : Prop := ∃ n ph, t = (advance s n).setCP { s.cp with phase := ph }

/-- BSW and LZE.phase have been written. -/
def WriteBitsFrame (s t : State) : Prop := ∃ b ph, t = (s.setBSW b).setLZE { s.lze with phase := ph }

/-- BSR and LZD.phase have been written. -/
def ReadBitsFrame (s t : State) : Prop := ∃ b ph, t = (s.setBSR b).setLZD { s.lzd with phase := ph }

theorem cursorFrame_closed (s : State) : CursorClosed (CursorFrame s) where
  advance := by
    rintro _ n - ⟨m, ph, rfl⟩
    exact ⟨m + n, ph, by rw [← advance_advance]; rfl⟩
  mark := by
    rintro _ ⟨m, ph, rfl⟩
    exact ⟨m, .error, rfl⟩

theorem writeBitsFrame_closed (s : State) : WriteBitsClosed (WriteBitsFrame s) where
  setBSW := by
    rintro _ v ⟨b, ph, rfl⟩
    exact ⟨v, ph, rfl⟩
  mark := by
    rintro _ ⟨b, ph, rfl⟩
    exact ⟨b, .error, rfl⟩

theorem readBitsFrame_closed (s : State) : ReadBitsClosed (ReadBitsFrame s) where
  setBSR := by
    rintro _ v ⟨b, ph, rfl⟩
    exact ⟨v, ph, rfl⟩
  mark := by
    rintro _ ⟨b, ph, rfl⟩
    exact ⟨b, .error, rfl⟩

/-! ## From an operation to the state exec answers -/

/-- What an operation that leaves `P` becomes: its value latched, or its error taken. -/
def Settled (P : State → Prop) (t : State) : Prop :=
  ∃ u, P u ∧ ((∃ v, t = u.setRet v) ∨ ∃ e, t = errorEntry e u)

theorem settled_runUnit {op : Op Unit} (h : Keeps P op) (hs : P s) (ht : runUnit op s = .next t) :
    Settled P t := by
  rcases settle_next (h s hs) ht with ⟨_, u, hu, hut⟩ | ⟨e, u, hu, hut⟩
  · cases hut
    exact ⟨t, hu, .inl ⟨t.ret, rfl⟩⟩
  · exact ⟨u, hu, .inr ⟨e, hut⟩⟩

theorem settled_runRet {op : Op α} {wrap : α → Value} (h : Keeps P op) (hs : P s)
    (ht : runRet wrap op s = .next t) : Settled P t := by
  rcases settle_next (h s hs) ht with ⟨a, u, hu, hut⟩ | ⟨e, u, hu, hut⟩
  · cases hut
    exact ⟨u, hu, .inl ⟨wrap a, rfl⟩⟩
  · exact ⟨u, hu, .inr ⟨e, hut⟩⟩

theorem settled_parses {op : Op Unit} (hop : Parses op) (ht : runUnit op s = .next t) :
    Settled (ParserFrame s) t :=
  settled_runUnit (hop.keeps (parserFrame_closed s)) ⟨0, s.cp, rfl⟩ ht

theorem settled_parsesRet {op : Op α} {wrap : α → Value} (hop : Parses op)
    (ht : runRet wrap op s = .next t) : Settled (ParserFrame s) t :=
  settled_runRet (hop.keeps (parserFrame_closed s)) ⟨0, s.cp, rfl⟩ ht

/-- The host's part of a frame, with `units` of the units: the requests stay, and HI and the queue stay too
or the command has ended. -/
def Framed (s t : State) (units : Prop) : Prop :=
  t.hi.inbox = s.hi.inbox ∧
  (t.hi = s.hi ∧ t.todo = s.todo ∨ t.hi.cmd = 0#8 ∧ t.todo = [] ∧ t.ret = s.ret) ∧ units

/-! ## The frame of each family -/

theorem framed_cursor (h : Settled (CursorFrame s) t) : Framed s t
    (t.bsr = s.bsr ∧ t.bsw = s.bsw ∧ t.lzd = s.lzd ∧ t.lze = s.lze ∧ t.cw = s.cw ∧ t.bc.buf = s.bc.buf ∧
      s.bc.pos ≤ t.bc.pos ∧ t.cp.doc = s.cp.doc ∧ t.cp.pendingGCE = s.cp.pendingGCE) := by
  obtain ⟨_, ⟨n, ph, rfl⟩, ⟨v, rfl⟩ | ⟨e, rfl⟩⟩ := h <;> simp [Framed]

theorem framed_parser (h : Settled (ParserFrame s) t) : Framed s t
    (t.bsr = s.bsr ∧ t.bsw = s.bsw ∧ t.lzd = s.lzd ∧ t.lze = s.lze ∧ t.cw = s.cw ∧ t.bc.buf = s.bc.buf ∧
      s.bc.pos ≤ t.bc.pos) := by
  obtain ⟨_, ⟨n, cp, rfl⟩, ⟨v, rfl⟩ | ⟨e, rfl⟩⟩ := h <;> simp [Framed]

theorem framed_readBits (h : Settled (ReadBitsFrame s) t) : Framed s t
    (t.bc = s.bc ∧ t.bsw = s.bsw ∧ t.lze = s.lze ∧ t.cp = s.cp ∧ t.cw = s.cw ∧
      t.lzd = { s.lzd with phase := t.lzd.phase }) := by
  obtain ⟨_, ⟨b, ph, rfl⟩, ⟨v, rfl⟩ | ⟨e, rfl⟩⟩ := h <;> simp [Framed]

theorem framed_decoder (h : Settled (DecoderFrame s) t) : Framed s t
    (t.bc = s.bc ∧ t.bsw = s.bsw ∧ t.lze = s.lze ∧ t.cp = s.cp ∧ t.cw = s.cw) := by
  obtain ⟨_, ⟨d, b, rfl⟩, ⟨v, rfl⟩ | ⟨e, rfl⟩⟩ := h <;> simp [Framed]

theorem framed_encoder (h : Settled (EncoderFrame s) t) : Framed s t
    (t.bc = s.bc ∧ t.bsr = s.bsr ∧ t.lzd = s.lzd ∧ t.cp = s.cp ∧ t.cw = s.cw) := by
  obtain ⟨_, ⟨e, b, rfl⟩, ⟨v, rfl⟩ | ⟨e, rfl⟩⟩ := h <;> simp [Framed]

theorem framed_writer (h : Settled (WriterFrame s) t) : Framed s t
    (t.bc = s.bc ∧ t.bsr = s.bsr ∧ t.lzd = s.lzd ∧ t.cp = s.cp ∧ s.cw.out <+: t.cw.out) := by
  obtain ⟨_, ⟨e, b, bs, rfl⟩, ⟨v, rfl⟩ | ⟨e, rfl⟩⟩ := h <;> simp [Framed]

/-- A BSW operation returns nothing, so it leaves the latch too. -/
theorem framed_writeBits {op : Op Unit} (hop : Keeps (WriteBitsFrame s) op) (ht : runUnit op s = .next t) :
    Framed s t (t.bc = s.bc ∧ t.bsr = s.bsr ∧ t.lzd = s.lzd ∧ t.cp = s.cp ∧ t.cw = s.cw ∧
      t.lze = { s.lze with phase := t.lze.phase } ∧ t.ret = s.ret) := by
  rcases settle_next (hop s ⟨s.bsw, s.lze.phase, rfl⟩) ht with ⟨_, u, hu, hut⟩ | ⟨e, u, hu, rfl⟩
  · obtain ⟨b, ph, rfl⟩ := hu
    cases hut
    simp [Framed]
  · obtain ⟨b, ph, rfl⟩ := hu
    simp [Framed]

/-! ## The commands -/

/-- The request queue and the latch are as in `s`. -/
def Quiet (s t : State) : Prop := t.hi.inbox = s.hi.inbox ∧ t.ret = s.ret

theorem quiet_encoderClosed (s : State) : EncoderClosed (Quiet s) := ⟨fun _ _ h => h, fun _ _ h => h⟩

theorem keeps_encodeContainer_quiet (screen : ScreenIn) (ct : ColorTable) (frames : List FrameIn) :
    Keeps (Quiet s) (encodeContainer screen ct frames) := by
  have hclosed : WriterClosed (Quiet s) :=
    ⟨fun _ _ h => h, fun m idx _ => keeps_lzeEncodeFrame (quiet_encoderClosed s) m idx⟩
  exact Triple.bind (Q := fun _ => Quiet s) (fun _ h => h) fun _ =>
    (keeps_cwEncodeContainer hclosed screen ct frames).bind fun _ => keeps_getCW.bind fun _ => keeps_pure _

theorem framed_runCommand {code : Byte} {input : List Byte} {op : Op Value} (hop : Keeps (Quiet s) op)
    (ht : runCommand code input op s = .next t) : Framed s t True := by
  unfold runCommand at ht
  split at ht
  · cases ht
  · rcases settle_next (hop (commandStart code input s) ⟨rfl, rfl⟩) ht with
      ⟨v, u, ⟨hinbox, hret⟩, hut⟩ | ⟨e, u, ⟨hinbox, hret⟩, rfl⟩
    · cases hut
      exact ⟨hinbox, .inr ⟨rfl, rfl, hret⟩, trivial⟩
    · exact ⟨hinbox, .inr ⟨rfl, rfl, hret⟩, trivial⟩

/-- Settles O13: each instruction is one operation of its family, and the operation keeps its family's frame. -/
theorem familyFrames : Obligations.FamilyFrames := by
  unfold Obligations.FamilyFrames
  intro i s t h
  have hc := cursorFrame_closed s
  have hb := writeBitsFrame_closed s
  have hr := readBitsFrame_closed s
  have hd := decoderFrame_closed s
  have he := encoderFrame_closed s
  have hw := writerFrame_closed s
  have c0 : CursorFrame s s := ⟨0, s.cp.phase, rfl⟩
  have r0 : ReadBitsFrame s s := ⟨s.bsr, s.lzd.phase, rfl⟩
  have d0 : DecoderFrame s s := ⟨s.lzd, s.bsr, rfl⟩
  have e0 : EncoderFrame s s := ⟨s.lze, s.bsw, rfl⟩
  have w0 := writerFrame_refl s
  cases i with
  | parseContainer bytes =>
    exact framed_runCommand (keeps_parseContainer ⟨fun _ _ _ h => h, fun _ _ h => h⟩ bytes) h
  | decodeFrame img act =>
    exact framed_runCommand (keeps_decodeFrame ⟨fun _ _ h => h, fun _ _ h => h⟩ img) h
  | encodeFrame m idx => exact framed_runCommand (keeps_encodeFrame (quiet_encoderClosed s) m idx) h
  | encodeContainer screen ct frames => exact framed_runCommand (keeps_encodeContainer_quiet screen ct frames) h
  | cmdNone => cases h; exact ⟨rfl, .inl ⟨rfl, rfl⟩, trivial⟩
  | cmdUnassigned code => cases h
  | cpHeader => exact framed_parser (settled_parses parses_cpHeader h)
  | cpLSD => exact framed_parser (settled_parses parses_cpLSD h)
  | cpGCT => exact framed_parser (settled_parses parses_cpGCT h)
  | cpIntroExt => exact framed_parser (settled_parses parses_cpExtension h)
  | cpIntroImage => exact framed_parser (settled_parses parses_cpImage h)
  | cpIntroTrailer => exact framed_parser (settled_parses parses_cpTrailer h)
  | cpIntroBad b => exact framed_parser (settled_parses (parses_raise _) h)
  | cpLabelApp => exact framed_parser (settled_parses parses_cpApp h)
  | cpLabelComment => exact framed_parser (settled_parses parses_cpComment h)
  | cpLabelGce => exact framed_parser (settled_parses parses_cpGCE h)
  | cpLabelText => exact framed_parser (settled_parses parses_cpText h)
  | cpLabelBad l => exact framed_parser (settled_parses (parses_raise _) h)
  | cpImageDesc => exact framed_parser (settled_parsesRet parses_cpImageDesc h)
  | cpSubBlock => exact framed_parser (settled_parsesRet parses_cpSubBlock h)
  | cpLzwData => exact framed_parser (settled_parsesRet parses_cpReadLZWData h)
  | cpDecodeLSDPacked p => exact framed_parser (settled_parsesRet (parses_pure _) h)
  | cpReadColorTable n => exact framed_parser (settled_parsesRet (parses_cpReadColorTable n) h)
  | cpReadSubBlockRun => exact framed_parser (settled_parsesRet parses_cpReadSubBlockRun h)
  | cpExpectBlockSize v => exact framed_parser (settled_parses (parses_cpExpectBlockSize v) h)
  | cpCycleIndexOf subs => exact framed_parser (settled_parsesRet (parses_pure _) h)
  | cpDecodeImagePacked p => exact framed_parser (settled_parsesRet (parses_pure _) h)
  | cpReadLocalTable desc => exact framed_parser (settled_parsesRet (parses_cpReadLocalTable desc) h)
  | cpReadLZWData => exact framed_parser (settled_parsesRet parses_cpReadLZWData h)
  | bcConsume => exact framed_cursor (settled_runRet (keeps_bcConsume hc) c0 h)
  | bcPeekRemaining => exact framed_cursor (settled_runRet keeps_bcPeekRemaining c0 h)
  | bcTake n => exact framed_cursor (settled_runRet (keeps_bcTake hc n) c0 h)
  | bcTakeExact n => exact framed_cursor (settled_runRet (keeps_bcTakeExact hc n) c0 h)
  | bcReadLE16 => exact framed_cursor (settled_runRet (keeps_bcReadLE16 hc) c0 h)
  | bswWrite code w => exact framed_writeBits (keeps_bswWrite hb code w) h
  | bswClose => exact framed_writeBits (keeps_bswClose hb) h
  | bsrPushBytes bytes => exact framed_readBits (settled_runUnit (keeps_bsrPushBytes hr bytes) r0 h)
  | bsrHasBits n => exact framed_readBits (settled_runRet (keeps_bsrHasBits hr n) r0 h)
  | bsrReadBits n => exact framed_readBits (settled_runRet (keeps_bsrReadBits hr n) r0 h)
  | lzwEoi c => exact framed_decoder (settled_runUnit (keeps_lzwEoi hd c) d0 h)
  | lzwClear c => exact framed_decoder (settled_runUnit (keeps_lzdUnitReset hd) d0 h)
  | lzwFirst c => exact framed_decoder (settled_runUnit (keeps_lzwFirst hd c) d0 h)
  | lzwHit c => exact framed_decoder (settled_runUnit (keeps_lzwHit hd c) d0 h)
  | lzwNext c => exact framed_decoder (settled_runUnit (keeps_lzwNext hd c) d0 h)
  | lzwBad c => exact framed_decoder (settled_runUnit (keeps_lzwBad hd c) d0 h)
  | lzdInit m subs => exact framed_decoder (settled_runUnit (keeps_lzdInit hd m subs) d0 h)
  | lzdUnitReset => exact framed_decoder (settled_runUnit (keeps_lzdUnitReset hd) d0 h)
  | lzdFetchCode => exact framed_decoder (settled_runRet (keeps_lzdFetchCode hd) d0 h)
  | lzdStep => exact framed_decoder (settled_runUnit (keeps_lzdStep hd) d0 h)
  | lzdAssign k => exact framed_decoder (settled_runUnit (keeps_lzdAssign hd k) d0 h)
  | lzePack m data => exact framed_encoder (settled_runRet (keeps_pure _) e0 h)
  | lzeEncodeFrame m idx => exact framed_encoder (settled_runRet (keeps_lzeEncodeFrame he m idx) e0 h)
  | lzeInit m idx => exact framed_encoder (settled_runUnit (keeps_lzeInit he m idx) e0 h)
  | lzeUnitReset => exact framed_encoder (settled_runUnit (keeps_lzeUnitReset he) e0 h)
  | lzeCheckIndex k => exact framed_encoder (settled_runUnit (keeps_lzeCheckIndex he k) e0 h)
  | lzeStep => exact framed_encoder (settled_runUnit (keeps_lzeStep he) e0 h)
  | lzeExtend k => exact framed_encoder (settled_runUnit (keeps_lzeExtend he k) e0 h)
  | lzeMiss k => exact framed_encoder (settled_runUnit (keeps_lzeMiss he k) e0 h)
  | lzeResetUnit => exact framed_encoder (settled_runUnit (keeps_lzeResetUnit he) e0 h)
  | lzeEmit code => exact framed_encoder (settled_runUnit (keeps_lzeEmit he code) e0 h)
  | lzeFinish => exact framed_encoder (settled_runUnit (keeps_lzeFinish he) e0 h)
  | cwEncodeContainer screen ct frames =>
    exact framed_writer (settled_runUnit (keeps_cwEncodeContainer hw screen ct frames) w0 h)
  | cwWriteHeader => exact framed_writer (settled_runUnit (keeps_cwAppend hw _) w0 h)
  | cwWriteLSD screen gsz => exact framed_writer (settled_runUnit (keeps_cwAppend hw _) w0 h)
  | cwSizeField ct => exact framed_writer (settled_runRet (keeps_cwSizeField ct) w0 h)
  | cwWriteColorTable ct => exact framed_writer (settled_runUnit (keeps_cwAppend hw _) w0 h)
  | cwWriteGCE g => exact framed_writer (settled_runUnit (keeps_cwAppend hw _) w0 h)
  | cwWriteImage f ct => exact framed_writer (settled_runUnit (keeps_cwWriteImage hw f ct) w0 h)
  | cwWriteTrailer => exact framed_writer (settled_runUnit (keeps_cwAppend hw _) w0 h)

end Sys2Proof.Machine
end

section
/-! What a step runs in each sequencing state (R73), and when the command's end is taken (R160). -/

namespace Sys2Proof.Machine

variable (s : State)

/-! ## The command's end -/

theorem conclude_parse (hc : s.hi.cmd = 0x01#8) (hp : s.cp.phase = .done) :
    conclude s = .next (commandEnd (.document s.cp.doc) s) := by
  simp [conclude, hc, hp]

theorem conclude_decode (hc : s.hi.cmd = 0x02#8) (hp : s.lzd.phase = .done) :
    conclude s = .next (commandEnd (.indices s.lzd.out) s) := by
  simp [conclude, hc, hp]

theorem conclude_write (hc : s.hi.cmd = 0x04#8) (ht : s.todo = []) :
    conclude s = .next (commandEnd (.bytes s.cw.out) s) := by
  simp [conclude, hc, ht]

/-- R191, R250: inside ENCODE_FRAME the pending bits are closed before the bytes are packed. -/
theorem conclude_encode (hc : s.hi.cmd = 0x03#8) (hp : s.lze.phase = .done) (hb : s.bsw.acc.length ≤ 7) :
    ∃ t, exec .bswClose s = .next t ∧
      conclude s = .next (commandEnd (.bytes (packSubBlocks s.lze.minCodeSize t.bsw.out)) t) := by
  have hclose : ∃ t, bswClose s = .ok () t := by
    rw [bswClose_eq]
    split
    · exact ⟨s, rfl⟩
    · rw [if_neg (by omega)]
      exact ⟨_, rfl⟩
  obtain ⟨t, ht⟩ := hclose
  have hpack : lzePacked s.lze.minCodeSize s = .ok (packSubBlocks s.lze.minCodeSize t.bsw.out) t := by
    unfold lzePacked
    rw [op_bind_of_ok s _ _ ht, op_bind_of_ok _ _ _ (op_getBSW _)]
    rfl
  refine ⟨t, ?_, ?_⟩
  · show runUnit bswClose s = _
    rw [runUnit_eq, ht]
  · simp [conclude, hc, hp, hpack]

theorem execWithin_next {i : Instr} {t : State} (h : exec i s = .next t) : execWithin i s = conclude t := by
  simp [execWithin, h]

/-! ## What a step runs -/

section
variable (ht : s.todo = [])
include ht

theorem step_idle (hc : s.hi.cmd = 0x00#8) : step s = stepIdle s := by simp [step, ht, hc]
theorem step_parse (hc : s.hi.cmd = 0x01#8) : step s = stepParser s := by simp [step, ht, hc]
theorem step_decode (hc : s.hi.cmd = 0x02#8) : step s = stepDecoder s := by simp [step, ht, hc]
theorem step_encode (hc : s.hi.cmd = 0x03#8) : step s = stepEncoder s := by simp [step, ht, hc]
end

theorem step_queued {i : Instr} {rest : List Instr} (h : s.todo = i :: rest) :
    step s = execWithin i (s.setTodo rest) := by
  simp [step, h]

theorem stepIdle_request {q : Request} {rest : List Request} (h : s.hi.inbox = q :: rest) :
    stepIdle s = exec (decodeRequest q) (s.setHI { s.hi with inbox := rest }) := by
  simp [stepIdle, h]

/-- R299: at a block boundary the step runs what the next byte selects, past that byte. -/
theorem stepParser_block {b : Byte} {rest : List Byte} (hp : s.cp.phase = .block)
    (h : unread s = b :: rest) : stepParser s = execWithin (decodeIntro b) (advance s 1) := by
  simp [stepParser, hp, bcConsume_cons s h]

/-- R213: the step runs what the next codeSize bits decode to, after the fetch. -/
theorem stepDecoder_run (hp : s.lzd.phase = .run) (hw : isWidth s.lzd.codeSize = true)
    (hl : s.lzd.codeSize ≤ (codeSupply s).length) :
    ∃ u, lzdFetchCode s = .ok (bitsValue ((codeSupply s).take s.lzd.codeSize)) u ∧ u.ret = s.ret ∧
      codeSupply u = (codeSupply s).drop s.lzd.codeSize ∧ stepDecoder s =
        execWithin (decodeCode (codeContext s.lzd) (bitsValue ((codeSupply s).take s.lzd.codeSize))) u := by
  obtain ⟨k, -, hk, -, hrun⟩ := lzdFetchCode_ok s hw hl
  refine ⟨_, hrun, rfl, ?_, ?_⟩
  · rw [← codeSupply_pushed s k]
    exact (List.drop_append_of_le_length hk).symm
  · unfold stepDecoder
    rw [hrun, hp]
    rfl

/-- R254: the step consumes the next index and runs EXTEND or MISS. -/
theorem stepEncoder_index {k : Nat} (hp : s.lze.phase = .run) (hk : s.lze.input[s.lze.inPos]? = some k)
    (hc : k < s.lze.clearCode) : stepEncoder s = execWithin
      (if encGet s.lze.dict (s.lze.indexBuffer ++ [k]) ≠ none then .lzeExtend k else .lzeMiss k)
      (s.setLZE { s.lze with inPos := s.lze.inPos + 1 }) := by
  obtain ⟨hlt, -⟩ := List.getElem?_eq_some_iff.mp hk
  have hsel : (if lzeKnows s.lze k then Instr.lzeExtend k else .lzeMiss k) =
      if encGet s.lze.dict (s.lze.indexBuffer ++ [k]) ≠ none then .lzeExtend k else .lzeMiss k := by
    unfold lzeKnows
    cases encGet s.lze.dict (s.lze.indexBuffer ++ [k]) <;> rfl
  unfold stepEncoder
  split
  · rw [if_pos hlt, lzeNextIndex_eq s hk, if_pos hc, ← hsel]
    rfl
  · next h => exact absurd (hp.symm.trans h) nofun
  · next h => exact absurd (hp.symm.trans h) nofun

theorem stepEncoder_finish (hp : s.lze.phase = .run) (hl : s.lze.input.length ≤ s.lze.inPos) :
    stepEncoder s = execWithin .lzeFinish s := by
  simp [stepEncoder, hp, Nat.not_lt.mpr hl]

/-- Inside DECODE_FRAME, stated of the decoder's own reading of its bits (R126). -/
theorem step_decodeBits {i : Instr} {rest : Bits} (ht : s.todo = []) (hc : s.hi.cmd = 0x02#8)
    (hp : s.lzd.phase = .run) (h1 : 1 ≤ s.lzd.codeSize) (h12 : s.lzd.codeSize ≤ 12)
    (hd : decodeBits (codeContext s.lzd) (codeSupply s) = .ok (i, rest)) :
    ∃ u c, exec .lzdFetchCode s = .next (u.setRet (.code c)) ∧ u.ret = s.ret ∧ codeSupply u = rest ∧
      step s = execWithin i u := by
  unfold decodeBits at hd
  split at hd
  · cases hd
  · next hl =>
    cases hd
    obtain ⟨u, hrun, hret, hsup, hstep⟩ := stepDecoder_run s hp ((isWidth_iff _).mpr ⟨h1, h12⟩)
      (Nat.le_of_not_lt hl)
    refine ⟨u, bitsValue ((codeSupply s).take s.lzd.codeSize), ?_, hret, hsup, (step_decode s ht hc).trans hstep⟩
    show runRet .code lzdFetchCode s = _
    rw [runRet_eq, hrun]

/-- Settles O3: one lemma for each sequencing state and for each way a command ends. -/
theorem stepRunsDecodedInstruction : Obligations.StepRunsDecodedInstruction := by
  unfold Obligations.StepRunsDecodedInstruction
  refine ⟨?_, ?_, ?_, ?_, fun s i rest => step_queued s, fun s t i => execWithin_next s, ?_⟩
  · intro s q rest ht hc hq
    rw [step_idle s ht hc, stepIdle_request s hq]
  · intro s ht hc
    rw [step_parse s ht hc]
    refine ⟨fun hp => ?_, fun hp => ?_, fun hp => ?_, fun i b rest hp hu hd => ?_⟩
    · simp [stepParser, hp]
    · simp [stepParser, hp]
    · simp [stepParser, hp]
    · rw [hu] at hd
      cases hd
      exact stepParser_block s hp hu
  · exact fun s i rest => step_decodeBits s
  · intro s ht hc hp
    rw [step_encode s ht hc]
    exact ⟨fun k => stepEncoder_index s hp, stepEncoder_finish s hp⟩
  · intro s
    refine ⟨fun hc hp => ?_, fun hc hp => ?_, fun hc hp => ?_, fun hc hp => ?_, fun hc => ?_,
      conclude_parse s, conclude_decode s, conclude_encode s, conclude_write s⟩
    · simp [conclude, hc, hp]
    · simp [conclude, hc, hp]
    · simp [conclude, hc, hp]
    · simp [conclude, hc, hp]
    · simp [conclude, hc]

end Sys2Proof.Machine
end

section
/-! The status words of the errors (R32, R370 to R373). -/

namespace Sys2Proof.Machine

/-- The errors of R371 to R373. -/
def allErrors : List Err :=
  [.formatError .badSignature, .formatError .badIntroducer, .formatError .badLabel,
   .formatError .badTerminator, .formatError .badBlockSize, .formatError .badMinCodeSize,
   .truncatedInput .byteCursorEnd, .truncatedInput .bitStreamEnd, .truncatedInput .badCode,
   .assertionFailure .badWidth, .assertionFailure .emptyIndexStream, .assertionFailure .indexOutOfAlphabet,
   .assertionFailure .colorTableSize, .assertionFailure .missingEntry, .assertionFailure .badMinCodeSize]

theorem mem_allErrors (e : Err) : e ∈ allErrors := by
  rcases e with r | r | r <;> cases r <;> decide

/-- No two errors share a status word, since the words of the list are distinct. -/
theorem statusOf_injective : Function.Injective statusOf := fun e e' h =>
  List.inj_on_of_nodup_map (f := statusOf) (l := allErrors) (by decide) (mem_allErrors e)
    (mem_allErrors e') h

/-- R32: what the fields of an error's word read, for each error of the list. -/
theorem statusOf_fields (e : Err) : statusDone (statusOf e) = true ∧ statusErr (statusOf e) = true ∧
    statusClass (statusOf e) = errClass e ∧ statusReason (statusOf e) = errReason e ∧
    statusOf e &&& 0xF0CC#16 = 0#16 := by
  have h : ∀ e ∈ allErrors, statusDone (statusOf e) = true ∧ statusErr (statusOf e) = true ∧
      statusClass (statusOf e) = errClass e ∧ statusReason (statusOf e) = errReason e ∧
      statusOf e &&& 0xF0CC#16 = 0#16 := by decide
  exact h e (mem_allErrors e)

/-- Settles O7: the words are evaluated; the fields and the distinctness are read off the list of errors. -/
theorem statusWordOfEveryError : Obligations.StatusWordOfEveryError := by
  unfold Obligations.StatusWordOfEveryError
  exact ⟨rfl, rfl, rfl, rfl, rfl, rfl, rfl, rfl, rfl, rfl, rfl, rfl, rfl, rfl, rfl, rfl, statusOf_fields,
    fun _ _ h => statusOf_injective h⟩

end Sys2Proof.Machine
end

section
/-! A command as its steps (R93, D1): from a state inside a command, running the machine one step at a time
reaches what the rest of the command's pseudocode answers. -/

namespace Sys2Proof.Machine

variable {α β : Type} {Q Q' : α → State → Prop} {E : State → Prop}

/-! ## Operations that meet no excluded state -/

/-- The operation has returned with `Q` or has raised an error: it has met no excluded unit state (log 13). -/
def Completes (Q : α → State → Prop) : EStateM.Result Stop State α → Prop
  | .ok a t              => Q a t
  | .error (.raised _) _ => True
  | .error (.stuck _) _  => False

theorem Completes.imp {r : EStateM.Result Stop State α} (h : Completes Q r) (hQ : ∀ a t, Q a t → Q' a t) :
    Completes Q' r := by
  rcases r with ⟨a, t⟩ | ⟨e | f, t⟩
  · exact hQ a t h
  · trivial
  · exact h

/-- What is known of an operation's end may be used of one that completes. -/
theorem Completes.and {r : EStateM.Result Stop State α} (h : Completes Q r) (h' : Ends Q' E r) :
    Completes (fun a t => Q a t ∧ Q' a t) r := by
  rcases r with ⟨a, t⟩ | ⟨e | f, t⟩
  · exact ⟨h, h'⟩
  · trivial
  · exact h

theorem Completes.bind {s : State} {x : Op α} {f : α → Op β} {R : β → State → Prop}
    (hx : Completes Q (x s)) (hf : ∀ a t, Q a t → Completes R (f a t)) : Completes R ((x >>= f) s) := by
  rw [op_bind]
  rcases h : x s with ⟨a, t⟩ | ⟨e | e, t⟩ <;> rw [h] at hx
  · exact hf a t hx
  · trivial
  · exact hx

theorem completes_of_ok {r : EStateM.Result Stop State α} {a : α} {t : State} (h : r = .ok a t) (hQ : Q a t) :
    Completes Q r := by
  rw [h]
  exact hQ

theorem completes_ite {x y : Op α} {s : State} (p : Prop) [Decidable p] (hx : p → Completes Q (x s))
    (hy : ¬ p → Completes Q (y s)) : Completes Q ((if p then x else y) s) := by
  split
  · next h => exact hx h
  · next h => exact hy h

/-! ## Runs of the machine -/

/-- At most `n` steps of the machine from `s` reach the state the outcome `o` answers. -/
def Reaches (n : Nat) (s : State) (o : Host.Outcome State Fault Refusal) : Prop :=
  ∃ k t, k ≤ n ∧ Sys2Proof.core.run k s = .next t ∧ o = .next t

theorem reaches_refl (n : Nat) (s : State) : Reaches n s (.next s) := ⟨0, s, Nat.zero_le _, rfl, rfl⟩

theorem Reaches.mono {n n' : Nat} {s : State} {o : Host.Outcome State Fault Refusal} (h : Reaches n s o)
    (hn : n ≤ n') : Reaches n' s o := by
  obtain ⟨k, t, hk, hrun, ho⟩ := h
  exact ⟨k, t, Nat.le_trans hk hn, hrun, ho⟩

theorem run_succ (M : Host.Core) {s u : M.State} (h : M.step s = .next u) (k : Nat) :
    M.run (k + 1) s = M.run k u := by
  rw [Host.Core.run, h]

theorem Reaches.step {n : Nat} {s u : State} {o : Host.Outcome State Fault Refusal}
    (hs : Machine.step s = .next u) (h : Reaches n u o) : Reaches (n + 1) s o := by
  obtain ⟨k, t, hk, hrun, ho⟩ := h
  exact ⟨k + 1, t, Nat.succ_le_succ hk, (run_succ Sys2Proof.core hs k).trans hrun, ho⟩

/-- A step that runs the operation the command runs next: where it returns the machine goes on as the command
does, and an error is taken at both levels alike (R380). -/
theorem Reaches.operation {n : Nat} {s : State} {r : EStateM.Result Stop State α}
    {c g : α → State → Host.Outcome State Fault Refusal} (hs : Machine.step s = settle c r)
    (h : Completes (fun a t => ∃ u, c a t = .next u ∧ Reaches n u (g a t)) r) :
    Reaches (n + 1) s (settle g r) := by
  rcases r with ⟨a, t⟩ | ⟨e | f, t⟩
  · obtain ⟨u, hc, hu⟩ := h
    exact hu.step (hs.trans hc)
  · exact (reaches_refl n _).step hs
  · exact h.elim

theorem settle_bind (g : β → State → Host.Outcome State Fault Refusal) (x : Op α) (f : α → Op β) (s : State) :
    settle g ((x >>= f) s) = settle (fun a t => settle g (f a t)) (x s) := by
  rw [op_bind]
  rcases x s with ⟨a, t⟩ | ⟨e | f, t⟩ <;> rfl

/-- An operation run by a step, and the command's end where it returns; after an error no command is in
progress, so none ends. -/
theorem execWithin_eq {i : Instr} {op : Op Unit} {s : State} (h : exec i s = runUnit op s) :
    execWithin i s = settle (fun _ t => conclude t) (op s) := by
  unfold execWithin
  rw [h, runUnit_eq]
  rcases op s with ⟨a, t⟩ | ⟨e | f, t⟩
  · rfl
  · simp [conclude]
  · rfl

end Sys2Proof.Machine
end

section
/-! PARSE_CONTAINER as its steps (R162, R290): a step of the machine is a step of the parser, and the bytes left
bound how many there are. -/

namespace Sys2Proof.Machine

variable {α β : Type}

/-- `t` is `s` with at least `d` bytes read and CP written. -/
def ReadOn (d : Nat) (s t : State) : Prop :=
  ∃ n cp, d ≤ n ∧ n ≤ (unread s).length ∧ t = (advance s n).setCP cp

theorem ReadOn.length_unread {d : Nat} {s t : State} (h : ReadOn d s t) :
    (unread t).length + d ≤ (unread s).length := by
  obtain ⟨n, cp, hd, hn, rfl⟩ := h
  rw [unread_setCP, unread_advance, List.length_drop]
  omega

theorem ReadOn.hi {d : Nat} {s t : State} (h : ReadOn d s t) : t.hi = s.hi := by
  obtain ⟨n, cp, -, -, rfl⟩ := h
  rfl

theorem ReadOn.todo {d : Nat} {s t : State} (h : ReadOn d s t) : t.todo = s.todo := by
  obtain ⟨n, cp, -, -, rfl⟩ := h
  rfl

theorem ReadOn.trans {d : Nat} {s t u : State} (h : ReadOn d s t) (h' : ReadOn 0 t u) : ReadOn d s u := by
  have hlen := h.length_unread
  obtain ⟨n, cp, hd, hn, rfl⟩ := h
  obtain ⟨m, cp', -, hm, rfl⟩ := h'
  rw [unread_setCP, unread_advance, List.length_drop] at hm
  exact ⟨n + m, cp', by omega, by omega, by rw [advance_setCP, advance_advance]; rfl⟩

theorem Parses.completes {op : Op α} (h : Parses op) (s : State) : Completes (fun _ => ReadOn 0 s) (op s) := by
  have hs := h s
  rcases hr : op s with ⟨a, t⟩ | ⟨e | f, t⟩ <;> rw [hr] at hs
  · obtain ⟨n, cp, hn, rfl⟩ := hs
    exact ⟨n, cp, Nat.zero_le n, hn, rfl⟩
  · trivial
  · exact hs

/-- The bytes a first operation reads stay read. -/
theorem Completes.thenParses {d : Nat} {s : State} {x : Op α} {f : α → Op β}
    (hx : Completes (fun _ => ReadOn d s) (x s)) (hf : ∀ a, Parses (f a)) :
    Completes (fun _ => ReadOn d s) ((x >>= f) s) :=
  hx.bind fun a t ht => ((hf a).completes t).imp fun _ _ hu => ht.trans hu

theorem completes_bcConsume (s : State) : Completes (fun _ => ReadOn 1 s) (bcConsume s) := by
  rw [bcConsume_eq]
  rcases hu : unread s with _ | ⟨b, rest⟩
  · trivial
  · exact ⟨1, s.cp, Nat.le_refl 1, by simp [hu], rfl⟩

theorem completes_bcTakeExact (n : Nat) (s : State) : Completes (fun _ => ReadOn n s) (bcTakeExact n s) := by
  rw [bcTakeExact_eq]
  split
  · trivial
  · exact ⟨n, s.cp, Nat.le_refl n, by omega, rfl⟩

theorem completes_cpHeader (s : State) : Completes (fun _ => ReadOn 6 s) (cpHeader s) :=
  (completes_bcTakeExact 6 s).thenParses fun b => by
    cases signatureOf b with
    | none => exact parses_raise _
    | some g => exact parses_bind (parses_cpPutDoc _) fun _ => parses_cpPutPhase _

theorem completes_cpBlock (s : State) : Completes (fun _ => ReadOn 1 s) (cpBlock s) :=
  (completes_bcConsume s).thenParses parses_introOp

/-- A bound on the steps from a phase on that read no byte: a header step that returns reads six, and a block
step that returns reads its introducer, so only LSD, GCT and one raising block step may count. -/
def idleSteps : CPPhase → Nat
  | .header => 3
  | .lsd    => 3
  | .gct    => 2
  | .block  => 1
  | .done   => 0
  | .error  => 0

/-- What bounds the parser's steps: the bytes left, and the steps that may read none (R290). -/
def parseWork (s : State) : Nat := (unread s).length + idleSteps s.cp.phase

/-- CP is legal, has not failed, and is in a phase with at most `n` such steps to come. -/
def ParserWithin (n : Nat) (cp : ContainerParser) : Prop := ParserRuns cp ∧ idleSteps cp.phase ≤ n

theorem CPTriple.within {op : Op α} {p : ContainerParser → Prop} {ph : CPPhase} {n : Nat}
    (h : CPTriple p op fun _ => ParserAt ph) (hph : ph ≠ .error) (hn : idleSteps ph ≤ n) :
    CPTriple p op fun _ => ParserWithin n :=
  Triple.imp h (fun _ h => h) (fun _ _ h => ⟨h.runs hph, h.1 ▸ hn⟩) fun _ h => h

theorem cpTriple_cpBlock : CPTriple (ParserAt .block) cpBlock fun _ => ParserWithin 1 :=
  reads_bcConsume.then fun b _ => by
    cases classifyIntro b with
    | ext => exact cpTriple_cpExtension.within nofun (Nat.le_refl 1)
    | image => exact cpTriple_cpImage.within nofun (Nat.le_refl 1)
    | trailer => exact cpTriple_cpTrailer.within nofun (Nat.zero_le 1)
    | bad => exact cpTriple_raise _

/-- A step that reads `d` bytes or more does work. -/
theorem completes_parserStep {op : Op Unit} {ph : CPPhase} {d n : Nat} {s : State} (hat : ParserAt ph s.cp)
    (hread : Completes (fun _ => ReadOn d s) (op s))
    (hcp : CPTriple (ParserAt ph) op fun _ => ParserWithin n) (hlt : n < idleSteps ph + d) :
    Completes (fun _ t => t.hi = s.hi ∧ t.todo = s.todo ∧ ParserRuns t.cp ∧ parseWork t < parseWork s)
      (op s) :=
  (hread.and (hcp s hat)).imp fun _ t ⟨ht, hruns, hn⟩ => by
    have hlen := ht.length_unread
    refine ⟨ht.hi, ht.todo, hruns, ?_⟩
    rw [parseWork, parseWork, hat.1]
    omega

theorem completes_cpStep {s : State} (h : ParserRuns s.cp) (hd : s.cp.phase ≠ .done) :
    Completes (fun _ t => t.hi = s.hi ∧ t.todo = s.todo ∧ ParserRuns t.cp ∧ parseWork t < parseWork s)
      (cpStep s.cp.phase s) := by
  obtain ⟨he, hl⟩ := h
  cases hph : s.cp.phase with
  | header =>
    exact completes_parserStep ⟨hph, hl⟩ (completes_cpHeader s)
      (cpTriple_cpHeader.within nofun (Nat.le_refl 3)) (by decide)
  | lsd =>
    exact completes_parserStep ⟨hph, hl⟩ (parses_cpLSD.completes s)
      (cpTriple_cpLSD.within nofun (Nat.le_refl 2)) (by decide)
  | gct =>
    exact completes_parserStep ⟨hph, hl⟩ (parses_cpGCT.completes s)
      (cpTriple_cpGCT.within nofun (Nat.le_refl 1)) (by decide)
  | block => exact completes_parserStep ⟨hph, hl⟩ (completes_cpBlock s) cpTriple_cpBlock (by decide)
  | done => exact absurd hph hd
  | error => exact absurd hph he

/-- R290, R299: a step inside PARSE_CONTAINER is the parser's step in its phase. -/
theorem step_cpStep {s : State} (ht : s.todo = []) (hc : s.hi.cmd = 0x01#8) (hd : s.cp.phase ≠ .done)
    (he : s.cp.phase ≠ .error) : step s = settle (fun _ t => conclude t) (cpStep s.cp.phase s) := by
  rw [step_parse s ht hc]
  unfold stepParser
  cases hph : s.cp.phase with
  | header => exact execWithin_eq rfl
  | lsd => exact execWithin_eq rfl
  | gct => exact execWithin_eq rfl
  | block =>
    refine Eq.trans ?_ (settle_bind _ bcConsume introOp s).symm
    exact congrArg (settle · _) (funext fun b => funext fun t => execWithin_eq (exec_decodeIntro b t))
  | done => exact absurd hph hd
  | error => exact absurd hph he

theorem cpLoop_done {s : State} (h : s.cp.phase = .done) (fuel : Nat) : cpLoop (fuel + 1) s = .ok () s := by
  rw [cpLoop, op_bind_of_ok s _ _ (op_getCP s), if_pos h]
  rfl

theorem cpLoop_step {s : State} (h : s.cp.phase ≠ .done) (fuel : Nat) :
    cpLoop (fuel + 1) s = (cpStep s.cp.phase >>= fun _ => cpLoop fuel) s := by
  rw [cpLoop, op_bind_of_ok s _ _ (op_getCP s), if_neg h]

/-- The end of PARSE_CONTAINER (R162, R160). -/
def parseEnd (_ : Unit) (t : State) : Host.Outcome State Fault Refusal := finish (.document t.cp.doc) t

/-- The parser's loop is its steps: as many as the work left allows. -/
theorem reaches_cpLoop (fuel : Nat) {s : State} (ht : s.todo = []) (hc : s.hi.cmd = 0x01#8)
    (hruns : ParserRuns s.cp) (hd : s.cp.phase ≠ .done) (hw : parseWork s ≤ fuel) :
    Reaches fuel s (settle parseEnd (cpLoop (fuel + 1) s)) := by
  induction fuel generalizing s with
  | zero =>
    have hidle : 0 < idleSteps s.cp.phase := by
      cases hph : s.cp.phase with
      | done => exact absurd hph hd
      | error => exact absurd hph hruns.1
      | _ => decide
    rw [parseWork] at hw
    omega
  | succ fuel ih =>
    rw [cpLoop_step hd, settle_bind]
    refine Reaches.operation (step_cpStep ht hc hd hruns.1) ((completes_cpStep hruns hd).imp fun _ t h => ?_)
    obtain ⟨hhi, htodo, hruns', hlt⟩ := h
    have hc' : t.hi.cmd = 0x01#8 := hhi ▸ hc
    by_cases hd' : t.cp.phase = .done
    · refine ⟨_, conclude_parse t hc' hd', ?_⟩
      rw [cpLoop_done hd']
      exact reaches_refl _ _
    · refine ⟨t, by simp [conclude, hc', hd'], ?_⟩
      exact ih (htodo.trans ht) hc' hruns' hd' (by omega)

/-- Settles O55: the command is its loop and its end, and the loop is its steps; at the command's start the
work left is |IN| + 3. -/
theorem parseIsItsSteps : Obligations.ParseIsItsSteps := by
  unfold Obligations.ParseIsItsSteps
  intro bytes s hs
  obtain ⟨k, t, hk, hrun, ho⟩ := reaches_cpLoop (bytes.length + 3) (s := commandStart 0x01#8 bytes s) rfl rfl
    ⟨nofun, rfl⟩ nofun (Nat.le_refl _)
  refine ⟨k, t, hk, hrun, ?_⟩
  show runCommand 0x01#8 bytes (parseContainer bytes) s = _
  rw [runCommand_idle s _ _ _ hs, parseContainer, settle_bind]
  exact ho

end Sys2Proof.Machine
end

section
/-! DECODE_FRAME as its steps (R163): a step of the machine is a step of the decoder, and the bits left bound
how many there are (R168). -/

namespace Sys2Proof.Machine

variable (s : State)

@[simp] theorem assigned_subs (d : LZWDecoder) (w : List Nat) : (assigned d w).subs = d.subs := by
  unfold assigned
  split <;> rfl

@[simp] theorem assigned_subIdx (d : LZWDecoder) (w : List Nat) : (assigned d w).subIdx = d.subIdx := by
  unfold assigned
  split <;> rfl

/-- R212: a fetch takes the code's bits from those left. -/
theorem completes_lzdFetchCode (h : DecoderRuns s.lzd) :
    Completes (fun _ t => (codeSupply t).length < (codeSupply s).length) (lzdFetchCode s) := by
  have hw := h.2.isWidth
  by_cases hlen : s.lzd.codeSize ≤ (codeSupply s).length
  · obtain ⟨k, -, hk, -, hrun⟩ := lzdFetchCode_ok s hw hlen
    refine completes_of_ok hrun ?_
    have hdrop : codeSupply ((pushed s k).setBSR { bits := (pushed s k).bsr.bits.drop s.lzd.codeSize }) =
        (codeSupply s).drop s.lzd.codeSize := by
      rw [← codeSupply_pushed s k]
      exact (List.drop_append_of_le_length hk).symm
    have hpos := ((isWidth_iff _).mp hw).1
    rw [hdrop, List.length_drop]
    omega
  · rw [lzdFetchCode_short s hw (Nat.lt_of_not_le hlen)]
    trivial

/-- R213 to R219: handling a code fetched from a legal decoder meets no excluded state, and leaves the bits to
read as they are. -/
theorem completes_lzwDispatch (h : DecoderRuns s.lzd) (c : Nat) :
    Completes (fun _ t => codeSupply t = codeSupply s) (lzwDispatch (codeContext s.lzd) c s) := by
  have hd := h.2
  unfold lzwDispatch
  cases hcls : classifyCode (codeContext s.lzd) c with
  | eoi => exact rfl
  | clear => exact rfl
  | first =>
    obtain ⟨k, w, hq, -⟩ := hd.entry (.inl (classifyCode_first hcls))
    exact completes_of_ok (lzwFirst_ok s hq) rfl
  | hit =>
    obtain ⟨hprev, hdef⟩ := classifyCode_hit hcls
    obtain ⟨p, k', w', hp, hq, -⟩ := hd.prevEntry hprev
    obtain ⟨k, w, hcode, -⟩ := hd.entry hdef
    exact completes_of_ok (lzwHit_ok s hcode hp hq) (by simp [codeSupply])
  | next =>
    obtain ⟨p, k, w, hp, hq, -⟩ := hd.prevEntry (classifyCode_next hcls).1
    exact completes_of_ok (lzwNext_ok s hp hq) (by simp [codeSupply])
  | bad => trivial

/-- R168: every code removes at least one bit. -/
theorem completes_lzdStep (h : DecoderRuns s.lzd) :
    Completes (fun _ t => (codeSupply t).length < (codeSupply s).length) (lzdStep s) :=
  ((completes_lzdFetchCode s h).and (lzdFetchCode_ends s h)).bind fun c t ⟨hlt, _, hruns⟩ =>
    (completes_lzwDispatch t hruns c).imp fun _ _ heq => by rwa [heq]

variable {s}

/-- R213: a step inside DECODE_FRAME is the decoder's step. -/
theorem step_lzdStep (ht : s.todo = []) (hc : s.hi.cmd = 0x02#8) (hp : s.lzd.phase = .run) :
    step s = settle (fun _ t => conclude t) (lzdStep s) := by
  rw [step_decode s ht hc, lzdStep, settle_bind]
  unfold stepDecoder
  rw [hp]
  exact congrArg (settle · _) (funext fun c => funext fun t => execWithin_eq (exec_decodeCode _ c t))

theorem lzdLoop_done (h : s.lzd.phase = .done) (fuel : Nat) : lzdLoop (fuel + 1) s = .ok () s := by
  rw [lzdLoop, op_bind_of_ok s _ _ (op_getLZD s), if_pos h]
  rfl

theorem lzdLoop_step (h : s.lzd.phase ≠ .done) (fuel : Nat) :
    lzdLoop (fuel + 1) s = (lzdStep >>= fun _ => lzdLoop fuel) s := by
  rw [lzdLoop, op_bind_of_ok s _ _ (op_getLZD s), if_neg h]

/-- The end of DECODE_FRAME (R163, R160). -/
def decodeEnd (_ : Unit) (t : State) : Host.Outcome State Fault Refusal := finish (.indices t.lzd.out) t

/-- The decoder's loop is its steps: at most one more than the bits left. -/
theorem reaches_lzdLoop (fuel : Nat) (ht : s.todo = []) (hc : s.hi.cmd = 0x02#8)
    (hruns : DecoderRuns s.lzd) (hd : s.lzd.phase ≠ .done) (hw : (codeSupply s).length < fuel) :
    Reaches fuel s (settle decodeEnd (lzdLoop fuel s)) := by
  induction fuel generalizing s with
  | zero => exact absurd hw (Nat.not_lt_zero _)
  | succ fuel ih =>
    have hp : s.lzd.phase = .run := by
      cases hph : s.lzd.phase with
      | run => rfl
      | done => exact absurd hph hd
      | error => exact absurd hph hruns.1
    have hstep := ((completes_lzdStep s hruns).and (triple_lzdStep s hruns)).and
      (keeps_lzdStep (decoderFrame_closed s) s ⟨s.lzd, s.bsr, rfl⟩)
    rw [lzdLoop_step hd, settle_bind]
    refine Reaches.operation (step_lzdStep ht hc hp) (hstep.imp ?_)
    rintro _ t ⟨⟨hlt, hruns'⟩, d, b, rfl⟩
    by_cases hd' : d.phase = .done
    · refine ⟨_, conclude_decode _ hc hd', ?_⟩
      obtain ⟨n, rfl⟩ : ∃ n, fuel = n + 1 := ⟨fuel - 1, by omega⟩
      rw [lzdLoop_done hd']
      exact reaches_refl _ _
    · exact ⟨_, by simp [conclude, hc, hd'], ih ht hc hruns' hd' (by omega)⟩

/-- DECODE_FRAME is LZD.init and then its steps. -/
theorem decodeFrame_steps (img : ImageBlock) (act : Option ColorTable) {s u : State} (hs : s.hi.cmd = 0#8)
    (hm : mcsInRange img.lzw.minCodeSize = true)
    (hu : exec (.lzdInit img.lzw.minCodeSize img.lzw.subBlocks) (commandStart 0x02#8 [] s) = .next u) :
    Reaches (8 * img.lzw.subBlocks.flatten.length + 1) u (exec (.decodeFrame img act) s) := by
  have hinit : lzdInit img.lzw.minCodeSize img.lzw.subBlocks (commandStart 0x02#8 [] s) = .ok () u := by
    cases hu
    rfl
  have hexec : exec (.decodeFrame img act) s =
      settle decodeEnd (lzdLoop (bitSupply img.lzw.subBlocks + 1) u) := by
    show runCommand 0x02#8 [] (decodeFrame img) s = _
    rw [runCommand_idle s _ _ _ hs, decodeFrame, if_neg (by simp [hm]), settle_bind, hinit, settle_ok,
      settle_bind]
    rfl
  have hsupply : (codeSupply u).length = bitSupply img.lzw.subBlocks := by
    cases hu
    exact length_bytesBits _
  have hruns : DecoderRuns u.lzd := by
    cases hu
    exact ⟨nofun, decoderLegal_fresh hm rfl rfl (fun _ hi => by cases hi) (Nat.zero_le _)⟩
  rw [hexec]
  cases hu
  exact reaches_lzdLoop _ rfl rfl hruns nofun (Nat.lt_succ_of_le (Nat.le_of_eq hsupply))

end Sys2Proof.Machine
end

section
/-! ENCODE_FRAME as its steps (R164, R250): a step of the machine is a step of the encoder, one for each index
after the seed, and the last one finishes the code stream. -/

namespace Sys2Proof.Machine

/-! ## The encoder's operations complete -/

/-- The encoder is encoding `idx` at the code size `m`, with `pos` of its indices consumed, and its pending bits
are legal. -/
structure EncodingAt (m : Byte) (idx : List Nat) (pos : Nat) (s : State) : Prop where
  minCodeSize : s.lze.minCodeSize = m
  input       : s.lze.input = idx
  inPos       : s.lze.inPos = pos
  phase       : s.lze.phase = .run
  bits        : WriterBitsLegal s.bsw

section
variable {m : Byte} {idx : List Nat} {pos : Nat} {s : State}

/-- R190, R259: a write changes BSW only, and leaves at most seven bits pending. -/
theorem completes_lzeEmit (code : Option Nat) (s : State) :
    Completes (fun _ t => ∃ b, WriterBitsLegal b ∧ t = s.setBSW b) (lzeEmit code s) := by
  cases code with
  | none => trivial
  | some c =>
    rw [lzeEmit_some, bswWrite]
    refine completes_ite _ (fun _ => trivial) fun _ => ⟨_, ?_, rfl⟩
    exact (drainBytes_spec _).2

theorem EncodingAt.emit (h : EncodingAt m idx pos s) (code : Option Nat) :
    Completes (fun _ => EncodingAt m idx pos) (lzeEmit code s) :=
  (completes_lzeEmit code s).imp fun _ _ ⟨_, hb, ht⟩ => ht ▸ { h with bits := hb }

theorem EncodingAt.resetUnit (h : EncodingAt m idx pos s) :
    Completes (fun _ => EncodingAt m idx pos) (lzeResetUnit s) :=
  (h.emit (some s.lze.clearCode)).bind fun _ _ ht => { ht with }

theorem EncodingAt.miss (h : EncodingAt m idx pos s) (k : Nat) :
    Completes (fun _ => EncodingAt m idx pos) (lzeMiss k s) := by
  unfold lzeMiss
  rw [op_bind_of_ok s _ _ (op_getLZE s)]
  refine (h.emit _).bind fun _ t ht => ?_
  have hins : EncodingAt m idx pos (t.setLZE (insertNext s.lze k)) := { h with bits := ht.bits }
  rw [op_bind_of_ok t _ _ (op_putLZE t _)]
  exact completes_ite _ (fun _ => hins.resetUnit) fun _ =>
    completes_ite _ (fun _ => { hins with }) fun _ => hins

/-- R254: what handles an index consumes none. -/
theorem EncodingAt.handle (h : EncodingAt m idx pos s) (e : LZWEncoder) (k : Nat) :
    Completes (fun _ => EncodingAt m idx pos) (lzeHandle e k s) :=
  completes_ite _ (fun _ => { h with }) fun _ => h.miss k

theorem EncodingAt.nextIndex (h : EncodingAt m idx pos s) (hlt : pos < idx.length) :
    Completes (fun _ => EncodingAt m idx (pos + 1)) (lzeNextIndex s) := by
  have hk : s.lze.input[s.lze.inPos]? = some idx[pos] := by
    rw [h.input, h.inPos]
    exact List.getElem?_eq_getElem hlt
  rw [lzeNextIndex_eq s hk]
  split
  · exact { h with inPos := congrArg (· + 1) h.inPos }
  · trivial

theorem EncodingAt.step (h : EncodingAt m idx pos s) (hlt : pos < idx.length) :
    Completes (fun _ => EncodingAt m idx (pos + 1)) (lzeStep s) :=
  (h.nextIndex hlt).bind fun k t ht => ht.handle t.lze k

/-- R260: the finished encoder, its frame's code stream complete but for the pending bits. -/
structure EncodingDone (m : Byte) (s : State) : Prop where
  minCodeSize : s.lze.minCodeSize = m
  phase       : s.lze.phase = .done
  bits        : WriterBitsLegal s.bsw

theorem EncodingAt.finish (h : EncodingAt m idx pos s) : Completes (fun _ => EncodingDone m) (lzeFinish s) := by
  have last : ∀ {t : State}, EncodingAt m idx pos t → Completes (fun _ => EncodingDone m)
      ((do lzeEmit (some s.lze.eoiCode); let e ← getLZE; putLZE { e with phase := .done } : Op Unit) t) :=
    fun ht => (ht.emit _).bind fun _ _ hu => { hu with phase := rfl }
  unfold lzeFinish
  rw [op_bind_of_ok s _ _ (op_getLZE s)]
  refine (h.emit _).bind fun _ t ht => ?_
  exact completes_ite _ (fun _ => last (t := t.setLZE _) { h with bits := ht.bits }) fun _ => last ht

/-- R191: at most seven pending bits can be closed. -/
theorem completes_lzePacked (m : Byte) (hb : WriterBitsLegal s.bsw) :
    Completes (fun _ _ => True) (lzePacked m s) := by
  refine Completes.bind (Q := fun _ _ => True) ?_ fun _ _ _ => trivial
  rw [bswClose_eq]
  split
  · trivial
  · rw [if_neg (Nat.not_lt.mpr (Nat.le_succ_of_le hb))]
    trivial

/-- R250: init on a non-empty input and the initial CLEAR. -/
theorem completes_lzeBegin (m : Byte) (hne : idx ≠ []) (s : State) :
    Completes (fun _ => EncodingAt m idx 1) (lzeBegin m idx s) := by
  obtain ⟨k, rest, rfl⟩ := List.exists_cons_of_ne_nil hne
  refine Completes.bind (Q := fun _ => EncodingAt m (k :: rest) 1) ?_ fun _ t ht =>
    ht.emit (some t.lze.clearCode)
  rw [lzeInit_eq]
  split
  · exact ⟨rfl, rfl, rfl, rfl, Nat.zero_le _⟩
  · trivial

theorem lzeLoop_end (h : s.lze.input.length ≤ s.lze.inPos) (fuel : Nat) : lzeLoop fuel s = .ok () s := by
  cases fuel with
  | zero =>
    rw [lzeLoop, op_bind_of_ok s _ _ (op_getLZE s), if_neg (Nat.not_lt.mpr h)]
    rfl
  | succ fuel =>
    rw [lzeLoop, op_bind_of_ok s _ _ (op_getLZE s), if_neg (Nat.not_lt.mpr h)]
    rfl

theorem lzeLoop_step (h : s.lze.inPos < s.lze.input.length) (fuel : Nat) :
    lzeLoop (fuel + 1) s = (lzeStep >>= fun _ => lzeLoop fuel) s := by
  rw [lzeLoop, op_bind_of_ok s _ _ (op_getLZE s), if_pos h]

/-- R250: the loop's bound is enough (R168). -/
theorem EncodingAt.loop (h : EncodingAt m idx pos s) (fuel : Nat) (hle : idx.length ≤ pos + fuel) :
    Completes (fun _ t => ∃ p, EncodingAt m idx p t) (lzeLoop fuel s) := by
  induction fuel generalizing s pos with
  | zero => exact completes_of_ok (lzeLoop_end (by rwa [h.input, h.inPos]) 0) ⟨pos, h⟩
  | succ fuel ih =>
    by_cases hlt : pos < idx.length
    · rw [lzeLoop_step (by rwa [h.input, h.inPos])]
      exact (h.step hlt).bind fun _ t ht => ih ht (by omega)
    · exact completes_of_ok (lzeLoop_end (by rw [h.input, h.inPos]; omega) _) ⟨pos, h⟩

/-- R250: the encoding of a frame that has an index. -/
theorem completes_lzeEncodeFrame (m : Byte) (hne : idx ≠ []) (s : State) :
    Completes (fun _ _ => True) (lzeEncodeFrame m idx s) :=
  (completes_lzeBegin m hne s).bind fun _ _ ht => (ht.loop _ (Nat.le_add_left _ _)).bind fun _ _ ⟨_, hu⟩ =>
    hu.finish.bind fun _ _ hv => completes_lzePacked m hv.bits

/-! ## The steps -/

/-- R254: while an index is left, a step inside ENCODE_FRAME is the encoder's step. -/
theorem step_lzeStep (ht : s.todo = []) (hc : s.hi.cmd = 0x03#8) (hp : s.lze.phase = .run)
    (hlt : s.lze.inPos < s.lze.input.length) : step s = settle (fun _ t => conclude t) (lzeStep s) := by
  rw [step_encode s ht hc, lzeStep, settle_bind]
  unfold stepEncoder
  rw [hp]
  refine (if_pos hlt).trans ?_
  exact congrArg (settle · _) (funext fun k => funext fun t => execWithin_eq (exec_lzeHandle t t.lze k))

/-- R250: after the last index, a step finishes the code stream. -/
theorem step_lzeFinish (ht : s.todo = []) (hc : s.hi.cmd = 0x03#8) (hp : s.lze.phase = .run)
    (hle : s.lze.input.length ≤ s.lze.inPos) : step s = settle (fun _ t => conclude t) (lzeFinish s) :=
  (step_encode s ht hc).trans ((stepEncoder_finish s hp hle).trans (execWithin_eq rfl))

/-- The end of ENCODE_FRAME once the code stream is finished (R250, R160). -/
def packEnd (m : Byte) (t : State) : Host.Outcome State Fault Refusal :=
  settle (fun data u => finish (.bytes data) u) (lzePacked m t)

/-- The end of ENCODE_FRAME once the indices are consumed. -/
def encodeEnd (m : Byte) (_ : Unit) (t : State) : Host.Outcome State Fault Refusal :=
  settle (fun _ u => packEnd m u) (lzeFinish t)

theorem conclude_packEnd (h : EncodingDone m s) (hc : s.hi.cmd = 0x03#8) : conclude s = packEnd m s := by
  simp [conclude, hc, h.phase, h.minCodeSize, packEnd]

theorem packEnd_next (h : EncodingDone m s) : ∃ t, packEnd m s = .next t := by
  have hpack := completes_lzePacked m h.bits
  unfold packEnd
  rcases hr : lzePacked m s with ⟨data, t⟩ | ⟨e | f, t⟩ <;> rw [hr] at hpack
  · exact ⟨_, rfl⟩
  · exact ⟨_, rfl⟩
  · exact hpack.elim

theorem reaches_lzeFinish (h : EncodingAt m idx pos s) (ht : s.todo = []) (hc : s.hi.cmd = 0x03#8)
    (hle : idx.length ≤ pos) : Reaches 1 s (encodeEnd m () s) := by
  have hle' : s.lze.input.length ≤ s.lze.inPos := by rwa [h.input, h.inPos]
  have hfinish := h.finish.and (keeps_lzeFinish (encoderFrame_closed s) s ⟨s.lze, s.bsw, rfl⟩)
  refine Reaches.operation (step_lzeFinish ht hc h.phase hle') (hfinish.imp ?_)
  rintro _ _ ⟨hdone, e, b, rfl⟩
  obtain ⟨t, hpack⟩ := packEnd_next hdone
  exact ⟨t, (conclude_packEnd hdone hc).trans hpack, hpack ▸ reaches_refl 0 t⟩

/-- The encoder's loop and its end are its steps: one for each index left, and one more. -/
theorem reaches_lzeLoop (fuel : Nat) (h : EncodingAt m idx pos s) (ht : s.todo = [])
    (hc : s.hi.cmd = 0x03#8) (hle : idx.length ≤ pos + fuel) :
    Reaches (fuel + 1) s (settle (encodeEnd m) (lzeLoop (fuel + 1) s)) := by
  induction fuel generalizing s pos with
  | zero =>
    rw [lzeLoop_end (by rwa [h.input, h.inPos])]
    exact reaches_lzeFinish h ht hc hle
  | succ fuel ih =>
    by_cases hlt : pos < idx.length
    · have hlt' : s.lze.inPos < s.lze.input.length := by rwa [h.input, h.inPos]
      have hstep := (h.step hlt).and (keeps_lzeStep (encoderFrame_closed s) s ⟨s.lze, s.bsw, rfl⟩)
      rw [lzeLoop_step hlt', settle_bind]
      refine Reaches.operation (step_lzeStep ht hc h.phase hlt') (hstep.imp ?_)
      rintro _ _ ⟨hat, e, b, rfl⟩
      have hph : e.phase = .run := hat.phase
      exact ⟨_, by simp [conclude, hc, hph], ih hat ht hc (by omega)⟩
    · have hle' := Nat.le_of_not_lt hlt
      rw [lzeLoop_end (by rwa [h.input, h.inPos])]
      exact (reaches_lzeFinish h ht hc hle').mono (by omega)

/-- `LZE.init` and the initial CLEAR, run by name, are the first two lines of R250. -/
theorem lzeBegin_of_execAll {u : State} (hm : mcsInRange m = true) (hne : idx ≠ [])
    (hhead : idx.headI < 2 ^ m.toNat)
    (hu : execAll [.lzeInit m idx, .lzeEmit (some (2 ^ m.toNat))] s = .next u) :
    lzeBegin m idx s = .ok () u := by
  obtain ⟨k, rest, rfl⟩ := List.exists_cons_of_ne_nil hne
  have hinit := (lzeInit_eq s m k rest).trans (if_pos hhead)
  have hruns := triple_lzeInit (k :: rest) hm s trivial
  rw [hinit] at hruns
  obtain ⟨b, -, hemit⟩ := lzeEmit_fits _ hruns.legal.isWidth hruns.legal.reserved_lt.1
  simp only [execAll, exec, execLzeInit, execLzeEmit, runUnit_eq, hinit] at hu
  rw [show lzeEmit (some (2 ^ m.toNat)) _ = _ from hemit] at hu
  cases hu
  unfold lzeBegin
  rw [op_bind_of_ok s _ _ hinit]
  exact hemit

/-- ENCODE_FRAME is LZE.init, the initial CLEAR, and then its steps. -/
theorem encodeFrame_steps {u : State} (hs : s.hi.cmd = 0#8) (hm : mcsInRange m = true) (hne : idx ≠ [])
    (hu : lzeBegin m idx (commandStart 0x03#8 [] s) = .ok () u) :
    Reaches idx.length u (exec (.encodeFrame m idx) s) := by
  have hbegin := (completes_lzeBegin m hne (commandStart 0x03#8 [] s)).and
    (keeps_lzeBegin (encoderFrame_closed (commandStart 0x03#8 [] s)) m idx _ ⟨s.lze, ⟨[], []⟩, rfl⟩)
  rw [hu] at hbegin
  obtain ⟨hat, e, b, rfl⟩ := hbegin
  obtain ⟨n, hn⟩ := Nat.exists_eq_succ_of_ne_zero (mt List.length_eq_zero_iff.mp hne)
  have hexec : exec (.encodeFrame m idx) s = settle (encodeEnd m) (lzeLoop idx.length
      (((commandStart 0x03#8 [] s).setLZE e).setBSW b)) := by
    show runCommand 0x03#8 [] (encodeFrame m idx) s = _
    rw [runCommand_idle s _ _ _ hs, encodeFrame, if_neg (by simp [hm]), if_neg (by simpa using hne),
      settle_bind, lzeEncodeFrame, settle_bind, hu, settle_ok, settle_bind]
    exact congrArg (settle · _) (funext fun _ => funext fun t => settle_bind _ _ _ t)
  rw [hexec, hn]
  exact reaches_lzeLoop n hat rfl rfl (by omega)

end

end Sys2Proof.Machine
end

section
/-! ENCODE_CONTAINER as its steps (R165, R340): the queue holds the operations R340 runs, and no operation reads
the queue, so each runs as it does in the command. -/

namespace Sys2Proof.Machine

variable {α β : Type}

/-! ## Operations that do not read the queue -/

/-- How an operation ends, with the state it leaves changed. -/
def mapState (g : State → State) : EStateM.Result Stop State α → EStateM.Result Stop State α
  | .ok a t    => .ok a (g t)
  | .error e t => .error e (g t)

/-- The operation neither reads nor writes the queue (log 7). -/
def IgnoresTodo (op : Op α) : Prop := ∀ s q, op (s.setTodo q) = mapState (·.setTodo q) (op s)

theorem IgnoresTodo.bind {x : Op α} {f : α → Op β} (hx : IgnoresTodo x) (hf : ∀ a, IgnoresTodo (f a)) :
    IgnoresTodo (x >>= f) := fun s q => by
  rw [op_bind, op_bind, hx s q]
  rcases x s with ⟨a, t⟩ | ⟨e, t⟩
  · exact hf a t q
  · rfl

theorem ignoresTodo_ite {x y : Op α} (p : Prop) [Decidable p] (hx : IgnoresTodo x) (hy : IgnoresTodo y) :
    IgnoresTodo (if p then x else y) := by
  split
  · exact hx
  · exact hy

theorem ignoresTodo_pure (a : α) : IgnoresTodo (pure a) := fun _ _ => rfl
theorem ignoresTodo_stuck (f : Fault) : IgnoresTodo (stuck f : Op α) := fun _ _ => rfl
theorem ignoresTodo_raise (u : Runner) (e : Err) : IgnoresTodo (raise u e : Op α) := fun _ _ => by
  cases u <;> rfl
theorem ignoresTodo_getBSW : IgnoresTodo getBSW := fun _ _ => rfl
theorem ignoresTodo_putBSW (b : BitWriter) : IgnoresTodo (putBSW b) := fun _ _ => rfl
theorem ignoresTodo_getLZE : IgnoresTodo getLZE := fun _ _ => rfl
theorem ignoresTodo_putLZE (e : LZWEncoder) : IgnoresTodo (putLZE e) := fun _ _ => rfl

theorem ignoresTodo_bswClose : IgnoresTodo bswClose :=
  ignoresTodo_getBSW.bind fun _ => ignoresTodo_ite _ (ignoresTodo_pure _)
    (ignoresTodo_ite _ (ignoresTodo_stuck _) (ignoresTodo_putBSW _))

theorem ignoresTodo_lzeUnitReset : IgnoresTodo lzeUnitReset := fun _ _ => rfl

theorem ignoresTodo_lzeCheckIndex (k : Nat) : IgnoresTodo (lzeCheckIndex k) :=
  ignoresTodo_getLZE.bind fun _ => ignoresTodo_ite _ (ignoresTodo_raise _ _) (ignoresTodo_pure _)

theorem ignoresTodo_lzeInit (m : Byte) (idx : List Nat) : IgnoresTodo (lzeInit m idx) := by
  cases idx with
  | nil => exact ignoresTodo_stuck _
  | cons k rest =>
    exact ignoresTodo_getLZE.bind fun _ => (ignoresTodo_putLZE _).bind fun _ => (ignoresTodo_putBSW _).bind
      fun _ => ignoresTodo_lzeUnitReset.bind fun _ => (ignoresTodo_lzeCheckIndex k).bind fun _ =>
        ignoresTodo_getLZE.bind fun _ => ignoresTodo_putLZE _

theorem ignoresTodo_lzeEmit (code : Option Nat) : IgnoresTodo (lzeEmit code) := by
  cases code with
  | none => exact ignoresTodo_raise _ _
  | some c =>
    exact ignoresTodo_getLZE.bind fun _ => ignoresTodo_ite _ (ignoresTodo_raise _ _)
      (ignoresTodo_getBSW.bind fun _ => ignoresTodo_putBSW _)

theorem ignoresTodo_lzeMiss (k : Nat) : IgnoresTodo (lzeMiss k) :=
  ignoresTodo_getLZE.bind fun _ => (ignoresTodo_lzeEmit _).bind fun _ => (ignoresTodo_putLZE _).bind fun _ =>
    ignoresTodo_ite _
      (ignoresTodo_getLZE.bind fun _ => (ignoresTodo_lzeEmit _).bind fun _ => ignoresTodo_lzeUnitReset)
      (ignoresTodo_ite _ (ignoresTodo_putLZE _) (ignoresTodo_pure _))

theorem ignoresTodo_lzeNextIndex : IgnoresTodo lzeNextIndex :=
  ignoresTodo_getLZE.bind fun e => by
    cases e.input[e.inPos]? with
    | none => exact ignoresTodo_stuck _
    | some k =>
      exact (ignoresTodo_putLZE _).bind fun _ => (ignoresTodo_lzeCheckIndex k).bind fun _ => ignoresTodo_pure k

theorem ignoresTodo_lzeStep : IgnoresTodo lzeStep :=
  ignoresTodo_lzeNextIndex.bind fun k => ignoresTodo_getLZE.bind fun _ =>
    ignoresTodo_ite _ (ignoresTodo_getLZE.bind fun _ => ignoresTodo_putLZE _) (ignoresTodo_lzeMiss k)

theorem ignoresTodo_lzeLoop (fuel : Nat) : IgnoresTodo (lzeLoop fuel) := by
  induction fuel with
  | zero =>
    exact ignoresTodo_getLZE.bind fun _ => ignoresTodo_ite _ (ignoresTodo_stuck _) (ignoresTodo_pure _)
  | succ fuel ih =>
    exact ignoresTodo_getLZE.bind fun _ => ignoresTodo_ite _ (ignoresTodo_lzeStep.bind fun _ => ih)
      (ignoresTodo_pure _)

theorem ignoresTodo_lzeFinish : IgnoresTodo lzeFinish := by
  refine ignoresTodo_getLZE.bind fun e => (ignoresTodo_lzeEmit _).bind fun _ => ?_
  have last : IgnoresTodo (do lzeEmit (some e.eoiCode); let e ← getLZE; putLZE { e with phase := .done }) :=
    (ignoresTodo_lzeEmit _).bind fun _ => ignoresTodo_getLZE.bind fun _ => ignoresTodo_putLZE _
  exact ignoresTodo_ite _ ((ignoresTodo_putLZE _).bind fun _ => last) last

theorem ignoresTodo_lzeEncodeFrame (m : Byte) (idx : List Nat) : IgnoresTodo (lzeEncodeFrame m idx) := by
  have hbegin : IgnoresTodo (lzeBegin m idx) :=
    (ignoresTodo_lzeInit m idx).bind fun _ => ignoresTodo_getLZE.bind fun _ => ignoresTodo_lzeEmit _
  have hpacked : IgnoresTodo (lzePacked m) :=
    ignoresTodo_bswClose.bind fun _ => ignoresTodo_getBSW.bind fun _ => ignoresTodo_pure _
  exact hbegin.bind fun _ => (ignoresTodo_lzeLoop _).bind fun _ => ignoresTodo_lzeFinish.bind fun _ => hpacked

theorem ignoresTodo_cwAppend (bs : List Byte) : IgnoresTodo (cwAppend bs) := fun _ _ => rfl

theorem ignoresTodo_cwSizeField (t : ColorTable) : IgnoresTodo (cwSizeField t) := by
  unfold cwSizeField
  cases sizeFieldOf t.length with
  | none => exact ignoresTodo_raise _ _
  | some _ => exact ignoresTodo_pure _

theorem ignoresTodo_cwWriteImage (f : FrameIn) (ct : ColorTable) : IgnoresTodo (cwWriteImage f ct) := by
  have hdata : ∀ act, IgnoresTodo (cwWriteData f.indices act) := fun act =>
    (ignoresTodo_cwSizeField act).bind fun _ => ignoresTodo_ite _ (ignoresTodo_raise _ _)
      ((ignoresTodo_lzeEncodeFrame _ _).bind fun _ => ignoresTodo_cwAppend _)
  unfold cwWriteImage
  cases f.localColorTable with
  | none => exact (ignoresTodo_cwAppend _).bind fun _ => hdata ct
  | some lt =>
    exact (ignoresTodo_cwSizeField lt).bind fun _ => (ignoresTodo_cwAppend _).bind fun _ =>
      (ignoresTodo_cwAppend _).bind fun _ => hdata lt

/-! ## The writer's operations -/

/-- The operation a queued instruction runs. -/
def writerOp : Instr → Op Unit
  | .cwWriteHeader          => cwWriteHeader
  | .cwWriteLSD screen gsz  => cwWriteLSD screen gsz
  | .cwWriteColorTable t    => cwWriteColorTable t
  | .cwWriteGCE g           => cwWriteGCE g
  | .cwWriteImage f ct      => cwWriteImage f ct
  | .cwWriteTrailer         => cwWriteTrailer
  | _                       => pure ()

theorem completes_cwSizeField (t : ColorTable) (s : State) :
    Completes (fun _ _ => True) (cwSizeField t s) := by
  rw [cwSizeField_eq]
  cases sizeFieldOf t.length <;> trivial

theorem completes_cwWriteImage (f : FrameIn) (ct : ColorTable) (s : State) :
    Completes (fun _ _ => True) (cwWriteImage f ct s) := by
  have hdata : ∀ act t, Completes (fun _ _ => True) (cwWriteData f.indices act t) := fun act t =>
    (completes_cwSizeField act t).bind fun _ u _ => completes_ite _ (fun _ => trivial) fun hne =>
      (completes_lzeEncodeFrame _ (by simpa using hne) u).bind fun _ _ _ => trivial
  unfold cwWriteImage
  cases f.localColorTable with
  | none => exact hdata ct _
  | some lt => exact (completes_cwSizeField lt s).bind fun _ _ _ => hdata lt _

theorem keeps_cwWriteImage_hi (f : FrameIn) (ct : ColorTable) (h : HostInterface) :
    Keeps (fun t => t.hi = h) (cwWriteImage f ct) :=
  keeps_cwWriteImage ⟨fun _ _ ht => ht, fun m idx _ =>
    keeps_lzeEncodeFrame ⟨fun _ _ ht => ht, fun _ _ ht => ht⟩ m idx⟩ f ct

/-- What a queued instruction is to the machine: its operation, which does not read the queue, and which leaves
HI when it returns. -/
structure WriterSpec (i : Instr) : Prop where
  exec_eq   : ∀ s, exec i s = runUnit (writerOp i) s
  ignores   : IgnoresTodo (writerOp i)
  completes : ∀ s, Completes (fun _ t => t.hi = s.hi) (writerOp i s)

theorem writerSpec {i : Instr} (hi : isWriterOp i = true) : WriterSpec i := by
  cases i with
  | cwWriteHeader => exact ⟨fun _ => rfl, ignoresTodo_cwAppend _, fun _ => rfl⟩
  | cwWriteLSD screen gsz => exact ⟨fun _ => rfl, ignoresTodo_cwAppend _, fun _ => rfl⟩
  | cwWriteColorTable t => exact ⟨fun _ => rfl, ignoresTodo_cwAppend _, fun _ => rfl⟩
  | cwWriteGCE g => exact ⟨fun _ => rfl, ignoresTodo_cwAppend _, fun _ => rfl⟩
  | cwWriteImage f ct =>
    exact ⟨fun _ => rfl, ignoresTodo_cwWriteImage f ct, fun s =>
      ((completes_cwWriteImage f ct s).and (keeps_cwWriteImage_hi f ct s.hi s rfl)).imp fun _ _ h => h.2⟩
  | cwWriteTrailer => exact ⟨fun _ => rfl, ignoresTodo_cwAppend _, fun _ => rfl⟩
  | _ => cases hi

/-- Queued operations, one after another. -/
def writerRun : List Instr → Op Unit
  | []      => pure ()
  | i :: is => do
    writerOp i
    writerRun is

theorem writerRun_append (is js : List Instr) :
    writerRun (is ++ js) = (do writerRun is; writerRun js) := by
  induction is with
  | nil => rw [List.nil_append, writerRun, pure_bind]
  | cons i is ih => rw [List.cons_append, writerRun, ih, writerRun, bind_assoc]

theorem cwWriteFrame_eq (ct : ColorTable) (f : FrameIn) : cwWriteFrame ct f = writerRun (frameOps ct f) := by
  unfold cwWriteFrame frameOps
  cases f.gce <;> simp [writerRun, writerOp]

theorem cwWriteFrames_eq (ct : ColorTable) (frames : List FrameIn) :
    cwWriteFrames ct frames = writerRun (frames.flatMap (frameOps ct)) := by
  induction frames with
  | nil => rfl
  | cons f rest ih => rw [cwWriteFrames, ih, cwWriteFrame_eq, List.flatMap_cons, writerRun_append]

/-- R340: the writer is its check of the global table, and then the operations it queues. -/
theorem cwEncodeContainer_eq (screen : ScreenIn) (ct : ColorTable) (frames : List FrameIn) :
    cwEncodeContainer screen ct frames =
      (do let gsz ← cwSizeField ct; writerRun (containerOps screen gsz ct frames)) := by
  simp [cwEncodeContainer, containerOps, cwWriteFrames_eq, writerRun_append, writerRun, writerOp]

theorem isWriterOp_containerOps (screen : ScreenIn) (gsz : BitVec 3) (ct : ColorTable)
    (frames : List FrameIn) : ∀ i ∈ containerOps screen gsz ct frames, isWriterOp i = true := by
  intro i hi
  simp only [containerOps, frameOps, List.mem_append, List.mem_cons, List.mem_flatMap, List.mem_map,
    List.not_mem_nil, or_false] at hi
  rcases hi with ((rfl | rfl | rfl) | ⟨f, -, ⟨g, -, rfl⟩ | rfl⟩) | rfl <;> rfl

/-! ## The steps -/

/-- The end of ENCODE_CONTAINER (R165, R160). -/
def writeEnd (_ : Unit) (t : State) : Host.Outcome State Fault Refusal := finish (.bytes t.cw.out) t

/-- A step with an operation queued runs it as the command does, on the state without the queue. -/
theorem step_writerOp {i : Instr} (hi : WriterSpec i) (rest : List Instr) (s : State) :
    step (s.setTodo (i :: rest)) = settle (fun _ t => conclude (t.setTodo rest)) (writerOp i s) := by
  rw [step_queued _ rfl, execWithin_eq (hi.exec_eq _), State.setTodo_setTodo, hi.ignores s rest]
  rcases writerOp i s with ⟨a, t⟩ | ⟨e | f, t⟩ <;> rfl

/-- The queued operations are as many steps, the last one with the command's end. -/
theorem reaches_writerRun (i : Instr) (is : List Instr) (hall : ∀ j ∈ i :: is, isWriterOp j = true) (s : State)
    (hc : s.hi.cmd = 0x04#8) :
    Reaches (i :: is).length (s.setTodo (i :: is)) (settle writeEnd (writerRun (i :: is) s)) := by
  induction is generalizing i s with
  | nil =>
    have hspec := writerSpec (hall i List.mem_cons_self)
    rw [writerRun, settle_bind]
    refine Reaches.operation (step_writerOp hspec [] s) ((hspec.completes s).imp fun _ t ht => ?_)
    exact ⟨_, conclude_write (t.setTodo []) (ht ▸ hc) rfl, reaches_refl 0 _⟩
  | cons j js ih =>
    have hspec := writerSpec (hall i List.mem_cons_self)
    rw [writerRun, settle_bind]
    refine Reaches.operation (step_writerOp hspec (j :: js) s) ((hspec.completes s).imp fun _ t ht => ?_)
    have hc' : t.hi.cmd = 0x04#8 := ht ▸ hc
    exact ⟨_, by simp [conclude, hc'], ih j (fun k hk => hall k (List.mem_cons_of_mem i hk)) t hc'⟩

/-- ENCODE_CONTAINER is its queued operations. -/
theorem encodeContainer_steps (screen : ScreenIn) {ct : ColorTable} (frames : List FrameIn) {n : BitVec 3}
    {s : State} (hs : s.hi.cmd = 0#8) (hn : sizeFieldOf ct.length = some n) :
    Reaches (containerOps screen n ct frames).length
      ((commandStart 0x04#8 [] s).setTodo (containerOps screen n ct frames))
      (exec (.encodeContainer screen ct frames) s) := by
  have hexec : exec (.encodeContainer screen ct frames) s =
      settle writeEnd (writerRun (containerOps screen n ct frames) (commandStart 0x04#8 [] s)) := by
    show runCommand 0x04#8 [] (encodeContainer screen ct frames) s = _
    rw [runCommand_idle s _ _ _ hs, encodeContainer, settle_bind, op_putCW, settle_ok, settle_bind,
      cwEncodeContainer_eq, op_bind_of_ok _ _ _ (cwSizeField_ok _ hn)]
    rfl
  rw [hexec]
  exact reaches_writerRun _ _ (isWriterOp_containerOps screen n ct frames) _ rfl

/-! ## The codec commands -/

/-- Settles O56: each command is its start, its loop or queue, and its end, and the loop or queue is its
steps. -/
theorem codecCommandsAreTheirSteps : Obligations.CodecCommandsAreTheirSteps := by
  unfold Obligations.CodecCommandsAreTheirSteps
  refine ⟨?_, ?_, ?_⟩
  · intro img act s u hs h2 h8 hu
    exact decodeFrame_steps img act hs ((mcsInRange_iff _).mpr ⟨h2, h8⟩) hu
  · intro m idx s u hs h2 h8 hne hhead hu
    have hm := (mcsInRange_iff m).mpr ⟨h2, h8⟩
    exact encodeFrame_steps hs hm hne (lzeBegin_of_execAll hm hne hhead hu)
  · intro screen ct frames n s hs hn
    refine encodeContainer_steps screen frames hs ?_
    rw [hn]
    exact sizeFieldOf_tableLength n

end Sys2Proof.Machine
end

section
/-! The bytes an operation of the container parser has read where it returns: they are laid out as R110 to R125
say, for the value it returns. -/

namespace Sys2Proof.Machine

variable {α β : Type} {V : α → Prop} {enc : α → List Byte} {L : α → List Byte → Prop}
  {M : β → List Byte → Prop}

/-! ## Every layout read is one the grammar writes -/

theorem packLSD_unpackLSD (p : Byte) : packLSD (unpackLSD p) = p := by
  revert p
  decide

theorem packImage_unpackImage (p : Byte) : packImage (unpackImage p) = p := by
  revert p
  decide

theorem packGCE_unpackGCE (p : Byte) (delay : Half) (ti : Byte) : packGCE (unpackGCE p delay ti) = p := by
  simp only [unpackGCE, packGCE]
  revert p
  decide

theorem tableBytes_tableOf (n : Nat) (bs : List Byte) (h : bs.length = 3 * n) : tableBytes (tableOf bs) = bs := by
  induction n generalizing bs with
  | zero => rw [List.length_eq_zero_iff.mp h]; rfl
  | succ n ih =>
    match bs, h with
    | r :: g :: b :: rest, h =>
      have hrest := ih rest (by simp only [List.length_cons] at h; omega)
      simpa [tableBytes, tableOf] using hrest
    | [], h | [_], h | [_, _], h => simp only [List.length_cons, List.length_nil] at h; omega

theorem eq_signatureBytes_of_signatureOf {bs : List Byte} {g : Signature} (h : signatureOf bs = some g) :
    bs = signatureBytes g := by
  unfold signatureOf at h
  split at h
  · next h87 => cases h; exact h87
  · split at h
    · next h89 => cases h; exact h89
    · cases h

/-! ## Operations that read a layout -/

/-- Where the operation returns, `L` holds of the value and the bytes it has read. -/
def Spells (op : Op α) (L : α → List Byte → Prop) : Prop :=
  ∀ s a t, op s = .ok a t → ∃ bs, L a bs ∧ unread s = bs ++ unread t

theorem spells_pure {a : α} (h : L a []) : Spells (pure a) L := by
  intro s b t hb
  cases hb
  exact ⟨[], h, rfl⟩

theorem spells_raise (u : Runner) (e : Err) : Spells (raise u e) L := by
  intro s a t h
  cases h

theorem Spells.imp {op : Op α} {L' : α → List Byte → Prop} (h : Spells op L) (hL : ∀ a bs, L a bs → L' a bs) :
    Spells op L' := by
  intro s a t hs
  obtain ⟨bs, hbs, hu⟩ := h s a t hs
  exact ⟨bs, hL a bs hbs, hu⟩

/-- The bytes of a sequence are those of its first operation, then those of its second. -/
theorem Spells.bind {x : Op α} {f : α → Op β} (hx : Spells x L)
    (hf : ∀ a front, L a front → Spells (f a) fun b back => M b (front ++ back)) : Spells (x >>= f) M := by
  intro s b t h
  obtain ⟨a, u, ha, hb⟩ := op_bind_eq_ok.mp h
  obtain ⟨front, hL, hs⟩ := hx s a u ha
  obtain ⟨back, hM, hu⟩ := hf a front hL u b t hb
  exact ⟨front ++ back, hM, by rw [hs, hu, List.append_assoc]⟩

/-- What is known of a value read may be used of the bytes after it. -/
theorem Spells.then {x : Op α} {f : α → Op β} (hx : Spells x fun a bs => bs = enc a) (hr : Reads x V)
    (hf : ∀ a, V a → Spells (f a) fun b back => M b (enc a ++ back)) : Spells (x >>= f) M := by
  intro s b t h
  obtain ⟨a, u, ha, hb⟩ := op_bind_eq_ok.mp h
  obtain ⟨_, rfl, hs⟩ := hx s a u ha
  have hV := hr (fun _ => True) s trivial
  rw [ha] at hV
  obtain ⟨back, hM, hu⟩ := hf a hV.1 u b t hb
  exact ⟨enc a ++ back, hM, by rw [hs, hu, List.append_assoc]⟩

/-- A write of CP reads no byte. -/
theorem spells_modifyCP {f : ContainerParser → ContainerParser} {L : Unit → List Byte → Prop} (h : L () []) :
    Spells (do let cp ← getCP; putCP (f cp)) L := by
  intro s _ t ht
  cases ht
  exact ⟨[], h, rfl⟩

theorem spells_bcConsume : Spells bcConsume fun b bs => bs = [b] := by
  intro s a t h
  rw [bcConsume_eq] at h
  rcases hu : unread s with _ | ⟨b, rest⟩ <;> rw [hu] at h <;> cases h
  exact ⟨[_], rfl, by rw [unread_advance_cons s hu]; rfl⟩

theorem spells_bcTakeExact (n : Nat) : Spells (bcTakeExact n) fun a bs => bs = a := by
  intro s a t h
  rw [bcTakeExact_eq] at h
  split at h <;> cases h
  exact ⟨_, rfl, by rw [unread_advance, List.take_append_drop]⟩

theorem spells_bcReadLE16 : Spells bcReadLE16 fun v bs => bs = toLE16 v :=
  spells_bcConsume.then reads_bcConsume fun _ _ => spells_bcConsume.then reads_bcConsume fun _ _ =>
    spells_pure (toLE16_le16 _ _).symm

/-- R114, R294. -/
theorem spells_cpReadColorTable (n : BitVec 3) : Spells (cpReadColorTable n) fun t bs => bs = tableBytes t :=
  (spells_bcTakeExact _).then (reads_bcTakeExact _) fun bs hbs =>
    spells_pure (by rw [List.append_nil, tableBytes_tableOf _ _ hbs])

/-- The bytes of one round of a run (R117). -/
def subBlockBytes : Option (List Byte) → List Byte
  | none   => [0x00#8]
  | some b => BitVec.ofNat 8 b.length :: b

theorem spells_cpSubBlock : Spells cpSubBlock fun a bs => bs = subBlockBytes a :=
  spells_bcConsume.then reads_bcConsume fun l _ => by
    split
    · next hl => exact spells_pure (by rw [hl]; rfl)
    · exact (spells_bcTakeExact _).then (reads_bcTakeExact _) fun b hb =>
        spells_pure (by rw [subBlockBytes, hb]; simp)

theorem spells_cpRunLoop (fuel : Nat) (run : Blocks) :
    Spells (cpRunLoop fuel run) fun all bs => ∃ subs, all = run ++ subs ∧ bs = runBytes subs := by
  induction fuel generalizing run with
  | zero => intro s a t h; cases h
  | succ fuel ih =>
    refine spells_cpSubBlock.then reads_cpSubBlock fun a _ => ?_
    cases a with
    | none => exact spells_pure ⟨[], (List.append_nil _).symm, rfl⟩
    | some b =>
      intro s all t h
      obtain ⟨_, ⟨subs, rfl, rfl⟩, hs⟩ := ih (run ++ [b]) s all t h
      exact ⟨_, ⟨b :: subs, by simp, (runBytes_cons b subs).symm⟩, hs⟩

/-- R117, R295. -/
theorem spells_cpReadSubBlockRun : Spells cpReadSubBlockRun fun subs bs => bs = runBytes subs := by
  intro s subs t h
  obtain ⟨_, ⟨_, rfl, rfl⟩, hs⟩ := spells_cpRunLoop _ [] s subs t h
  exact ⟨_, rfl, hs⟩

/-- R296. -/
theorem spells_cpExpectBlockSize (v : Byte) : Spells (cpExpectBlockSize v) fun _ bs => bs = [v] :=
  spells_bcConsume.then reads_bcConsume fun b _ => by
    split
    · exact spells_raise _ _
    · next hb => exact spells_pure (by rw [Decidable.not_not.mp hb]; rfl)

/-- R310. -/
theorem spells_cpReadLocalTable (d : ImageDescriptor) :
    Spells (cpReadLocalTable d) fun t bs => bs = tableOptBytes t := by
  unfold cpReadLocalTable
  split
  · exact (spells_cpReadColorTable _).then (reads_cpReadColorTable _) fun t _ =>
      spells_pure (List.append_nil _)
  · exact spells_pure rfl

/-- R125, R312. -/
theorem spells_cpReadLZWData :
    Spells cpReadLZWData fun d bs => bs = d.minCodeSize :: runBytes d.subBlocks :=
  spells_bcConsume.then reads_bcConsume fun _ _ =>
    spells_cpReadSubBlockRun.then reads_cpReadSubBlockRun fun _ _ => spells_pure (by simp)

theorem imageDescriptorBytes_descriptorOf (l t w h : Half) (p : Byte) :
    imageDescriptorBytes (descriptorOf l t w h p) =
      toLE16 l ++ (toLE16 t ++ (toLE16 w ++ (toLE16 h ++ [p]))) := by
  simp only [imageDescriptorBytes, descriptorOf, List.append_assoc]
  rw [packImage_unpackImage]

/-- R123, R308. -/
theorem spells_cpImageDesc : Spells cpImageDesc fun d bs => bs = imageDescriptorBytes d :=
  spells_bcReadLE16.then reads_bcReadLE16 fun l _ => spells_bcReadLE16.then reads_bcReadLE16 fun t _ =>
    spells_bcReadLE16.then reads_bcReadLE16 fun w _ => spells_bcReadLE16.then reads_bcReadLE16 fun h _ =>
      spells_bcConsume.then reads_bcConsume fun p _ =>
        spells_pure (imageDescriptorBytes_descriptorOf l t w h p).symm

/-! ## The steps -/

/-- R291. -/
theorem spells_cpHeader : Spells cpHeader fun _ bs => ∃ sig, bs = signatureBytes sig :=
  (spells_bcTakeExact 6).then (reads_bcTakeExact 6) fun b _ => by
    cases hg : signatureOf b with
    | none => exact spells_raise _ _
    | some g =>
      rw [eq_signatureBytes_of_signatureOf hg]
      exact (spells_modifyCP (L := fun _ bs => bs = []) rfl).bind fun _ _ hnil =>
        spells_modifyCP ⟨g, by rw [hnil]; simp⟩

theorem screenDescriptorBytes_screenOf (w h : Half) (p bg par : Byte) :
    screenDescriptorBytes (screenOf w h p bg par) = toLE16 w ++ (toLE16 h ++ [p, bg, par]) := by
  simp only [screenDescriptorBytes, screenOf, List.append_assoc]
  rw [packLSD_unpackLSD]

/-- R292. -/
theorem spells_cpLSD : Spells cpLSD fun _ bs => ∃ scr, bs = screenDescriptorBytes scr :=
  spells_bcReadLE16.then reads_bcReadLE16 fun w _ => spells_bcReadLE16.then reads_bcReadLE16 fun h _ =>
    spells_bcConsume.then reads_bcConsume fun p _ => spells_bcConsume.then reads_bcConsume fun bg _ =>
      spells_bcConsume.then reads_bcConsume fun par _ =>
        (spells_modifyCP (L := fun _ bs => bs = []) rfl).bind fun _ _ hnil =>
          spells_modifyCP ⟨screenOf w h p bg par, by rw [hnil, screenDescriptorBytes_screenOf]; rfl⟩

/-- R298: the table the screen's flag asks for. -/
theorem table_of_cpGCT {s t : State} (h : cpGCT s = .ok () t) :
    ∃ gct, ScreenLegal s.cp.doc.screen gct ∧ unread s = tableOptBytes gct ++ unread t := by
  unfold cpGCT at h
  rw [op_bind_of_ok s _ _ (op_getCP s)] at h
  split at h
  · next hf =>
    obtain ⟨table, u, htable, hrest⟩ := op_bind_eq_ok.mp h
    obtain ⟨_, rfl, hs⟩ := spells_cpReadColorTable _ s table u htable
    have hlen := reads_cpReadColorTable s.cp.doc.screen.sizeOfGlobalColorTable (fun _ => True) s trivial
    rw [htable] at hlen
    cases hrest
    exact ⟨some table, ⟨hf, hlen.1⟩, hs⟩
  · next hf =>
    cases h
    exact ⟨none, Bool.eq_false_iff.mpr hf, rfl⟩

/-! ## The blocks -/

/-- Which bytes a label class holds (R116). -/
def LabelClass.Holds (l : Byte) : LabelClass → Prop
  | .app     => l = 0xFF#8
  | .comment => l = 0xFE#8
  | .gce     => l = 0xF9#8
  | .text    => l = 0x01#8
  | .bad     => l ≠ 0xFF#8 ∧ l ≠ 0xFE#8 ∧ l ≠ 0xF9#8 ∧ l ≠ 0x01#8

theorem classifyLabel_holds (l : Byte) : (classifyLabel l).Holds l := by
  unfold classifyLabel
  split_ifs with h1 h2 h3 h4
  · exact h1
  · exact h2
  · exact h3
  · exact h4
  · exact ⟨h1, h2, h3, h4⟩

/-- Which bytes an introducer class holds (R115). -/
def IntroClass.Holds (t : Byte) : IntroClass → Prop
  | .ext     => t = 0x21#8
  | .image   => t = 0x2C#8
  | .trailer => t = 0x3B#8
  | .bad     => t ≠ 0x21#8 ∧ t ≠ 0x2C#8 ∧ t ≠ 0x3B#8

theorem classifyIntro_holds (t : Byte) : (classifyIntro t).Holds t := by
  unfold classifyIntro
  split_ifs with h1 h2 h3
  · exact h1
  · exact h2
  · exact h3
  · exact ⟨h1, h2, h3⟩

/-- The bytes after the label `l` are those of a legal extension with that label (R118 to R122). -/
def ExtensionBody (l : Byte) (bs : List Byte) : Prop :=
  ∃ x : Extension, x.Legal ∧ x.label = l ∧ bs = x.body

theorem spells_cpApp : Spells cpApp fun _ => ExtensionBody 0xFF#8 :=
  (spells_cpExpectBlockSize _).then (reads_cpExpectBlockSize _) fun _ _ =>
    (spells_bcTakeExact _).then (reads_bcTakeExact _) fun identifier hid =>
      (spells_bcTakeExact _).then (reads_bcTakeExact _) fun authCode hauth =>
        spells_cpReadSubBlockRun.then reads_cpReadSubBlockRun fun subs hsubs =>
          spells_modifyCP ⟨.app identifier authCode subs, ⟨hid, hauth, hsubs⟩, rfl, by simp [Extension.body]⟩

theorem spells_cpComment : Spells cpComment fun _ => ExtensionBody 0xFE#8 :=
  spells_cpReadSubBlockRun.then reads_cpReadSubBlockRun fun subs hsubs =>
    spells_modifyCP ⟨.comment subs, hsubs, rfl, List.append_nil _⟩

theorem body_unpackGCE (p : Byte) (delay : Half) (ti : Byte) : (Extension.gce (unpackGCE p delay ti)).body =
    0x04#8 :: p :: (toLE16 delay ++ [ti, 0x00#8]) := by
  rw [Extension.body, packGCE_unpackGCE]
  rfl

theorem spells_cpGCE : Spells cpGCE fun _ => ExtensionBody 0xF9#8 :=
  (spells_cpExpectBlockSize _).then (reads_cpExpectBlockSize _) fun _ _ =>
    spells_bcConsume.then reads_bcConsume fun p _ => spells_bcReadLE16.then reads_bcReadLE16 fun delay _ =>
      spells_bcConsume.then reads_bcConsume fun ti _ => spells_bcConsume.then reads_bcConsume fun term _ => by
        split
        · exact spells_raise _ _
        · next hterm =>
          exact spells_modifyCP ⟨.gce (unpackGCE p delay ti), trivial, rfl, by
            rw [body_unpackGCE, Decidable.not_not.mp hterm]
            rfl⟩

theorem spells_cpText : Spells cpText fun _ => ExtensionBody 0x01#8 :=
  (spells_cpExpectBlockSize _).then (reads_cpExpectBlockSize _) fun _ _ =>
    spells_bcReadLE16.then reads_bcReadLE16 fun gl _ => spells_bcReadLE16.then reads_bcReadLE16 fun gt _ =>
      spells_bcReadLE16.then reads_bcReadLE16 fun gw _ => spells_bcReadLE16.then reads_bcReadLE16 fun gh _ =>
        spells_bcConsume.then reads_bcConsume fun cw _ => spells_bcConsume.then reads_bcConsume fun ch _ =>
          spells_bcConsume.then reads_bcConsume fun fg _ => spells_bcConsume.then reads_bcConsume fun bg _ =>
            spells_cpReadSubBlockRun.then reads_cpReadSubBlockRun fun text htext =>
              spells_modifyCP ⟨.text ⟨gl, gt, gw, gh, cw, ch, fg, bg, text⟩, htext, rfl, by
                simp [Extension.body]⟩

/-- The operation a label selects, from the byte after it on: the dispatch of `cpExtension` (R116, R300). -/
def labelOp (l : Byte) : Op Unit :=
  match classifyLabel l with
  | .app     => cpApp
  | .comment => cpComment
  | .gce     => cpGCE
  | .text    => cpText
  | .bad     => cpBadLabel l

theorem spells_labelOp (l : Byte) : Spells (labelOp l) fun _ => ExtensionBody l := by
  have hl := classifyLabel_holds l
  unfold labelOp
  cases hc : classifyLabel l <;> rw [hc] at hl
  case app => exact hl ▸ spells_cpApp
  case comment => exact hl ▸ spells_cpComment
  case gce => exact hl ▸ spells_cpGCE
  case text => exact hl ▸ spells_cpText
  case bad => exact spells_raise _ _

/-- R116, R300. -/
theorem spells_cpExtension :
    Spells cpExtension fun _ bs => ∃ x : Extension, x.Legal ∧ bs = x.label :: x.body :=
  spells_bcConsume.then reads_bcConsume fun l _ => (spells_labelOp l).imp fun
    | _, _, ⟨x, hx, hl, hbs⟩ => ⟨x, hx, by rw [hl, hbs]; rfl⟩

/-- R308, R311, R313. -/
theorem spells_cpImage : Spells cpImage fun _ bs => ∃ img, ImageLegal img ∧ bs = imageBytes img :=
  spells_cpImageDesc.then reads_cpImageDesc fun d _ =>
    (spells_cpReadLocalTable d).then (reads_cpReadLocalTable d) fun lct hlct =>
      spells_cpReadLZWData.then reads_cpReadLZWData fun lzw hlzw =>
        spells_modifyCP ⟨⟨d, lct, none, none, lzw⟩, imageLegal_mk hlct hlzw none, by simp [imageBytes]⟩

/-- R299, R110: a block step that returns has read the trailer or one block. -/
theorem spells_cpBlock :
    Spells cpBlock fun _ bs => bs = [0x3B#8] ∨ ∃ b : Block, b.Legal ∧ bs = b.bytes :=
  spells_bcConsume.then reads_bcConsume fun t _ => by
    have ht := classifyIntro_holds t
    cases hc : classifyIntro t <;> rw [hc] at ht
    case ext =>
      exact spells_cpExtension.imp fun
        | _, _, ⟨x, hx, hbs⟩ => .inr ⟨.extension x, hx, by rw [ht, hbs]; rfl⟩
    case image =>
      exact spells_cpImage.imp fun
        | _, _, ⟨img, himg, hbs⟩ => .inr ⟨.image img, himg, by rw [ht, hbs]; rfl⟩
    case trailer => exact spells_modifyCP (.inl (by rw [ht]; rfl))
    case bad => exact spells_raise _ _

end Sys2Proof.Machine
end

section
/-! PARSE_CONTAINER and the grammar of R110: the parser's loop returns exactly on the bytes of a container, with
its document. -/

namespace Sys2Proof.Machine

/-! ## The blocks and the trailer -/

theorem Block.phase_apply (b : Block) (cp : ContainerParser) : (b.apply cp).phase = cp.phase := by
  rcases b with (_ | _ | _ | _) | _ <;> rfl

theorem Block.length_bytes_pos (b : Block) : 1 ≤ b.bytes.length := by
  cases b <;> simp [Block.bytes]

theorem cpLoop_of_step {s t : State} (hd : s.cp.phase ≠ .done) (h : cpStep s.cp.phase s = .ok () t)
    (fuel : Nat) : cpLoop (fuel + 1) s = cpLoop fuel t := by
  rw [cpLoop_step hd, op_bind_of_ok _ _ _ h]

/-- A loop that returns has begun with a step that returned. -/
theorem step_of_cpLoop {s t : State} {fuel : Nat} (hd : s.cp.phase ≠ .done)
    (h : cpLoop (fuel + 1) s = .ok () t) : ∃ u, cpStep s.cp.phase s = .ok () u ∧ cpLoop fuel u = .ok () t := by
  rw [cpLoop_step hd] at h
  obtain ⟨_, u, hstep, hloop⟩ := op_bind_eq_ok.mp h
  exact ⟨u, hstep, hloop⟩

theorem cpStep_block {s : State} (h : s.cp.phase = .block) : cpStep s.cp.phase = cpBlock := by rw [h]; rfl

/-- The loop takes the blocks in order, up to the trailer (R290, R299, R315). -/
theorem cpLoop_blocks (blocks : List Block) {s : State} {rest : List Byte} (hlegal : ∀ b ∈ blocks, b.Legal)
    (hph : s.cp.phase = .block) (hs : unread s = blocks.flatMap Block.bytes ++ 0x3B#8 :: rest)
    {fuel : Nat} (hf : blocks.length + 2 ≤ fuel) :
    ∃ t, cpLoop fuel s = .ok () t ∧
      t.cp.doc = { (blocks.foldl (fun cp b => b.apply cp) s.cp).doc with trailer := 0x3B#8 } := by
  have hd : s.cp.phase ≠ .done := by rw [hph]; nofun
  induction blocks generalizing s fuel with
  | nil =>
    obtain ⟨fuel, rfl⟩ := Nat.exists_eq_add_of_le' hf
    have hstep := (congrFun (cpStep_block hph) s).trans (cpBlock_trailer s hs)
    exact ⟨_, (cpLoop_of_step hd hstep (fuel + 1)).trans (cpLoop_done rfl fuel), rfl⟩
  | cons b blocks ih =>
    obtain ⟨fuel, rfl⟩ := Nat.exists_eq_add_of_le' (Nat.le_trans (Nat.le_add_left 1 _) hf)
    obtain ⟨hb, hblocks⟩ := List.forall_mem_cons.mp hlegal
    rw [List.flatMap_cons, List.append_assoc] at hs
    have hstep := (congrFun (cpStep_block hph) s).trans (cpBlock_ok s hb hs)
    have hph' : (b.apply s.cp).phase = .block := (b.phase_apply s.cp).trans hph
    obtain ⟨t, hloop, hdoc⟩ := ih (s := (advance s b.bytes.length).setCP (b.apply s.cp)) (fuel := fuel) hblocks
      hph' (unread_advance_append s hs) (by simp only [List.length_cons] at hf; omega) (hph' ▸ nofun)
    exact ⟨t, (cpLoop_of_step hd hstep fuel).trans hloop, hdoc⟩

/-- From a block boundary the loop returns on blocks and a trailer only. -/
theorem blocks_of_cpLoop {fuel : Nat} {s t : State} (hph : s.cp.phase = .block)
    (h : cpLoop fuel s = .ok () t) : ∃ (blocks : List Block) (rest : List Byte),
      (∀ b ∈ blocks, b.Legal) ∧ unread s = blocks.flatMap Block.bytes ++ 0x3B#8 :: rest := by
  induction fuel generalizing s with
  | zero => cases h
  | succ fuel ih =>
    obtain ⟨u, hstep, hloop⟩ := step_of_cpLoop (by rw [hph]; nofun) h
    rw [cpStep_block hph] at hstep
    obtain ⟨_, rfl | ⟨b, hb, rfl⟩, hs⟩ := spells_cpBlock s () u hstep
    · exact ⟨[], unread u, nofun, hs⟩
    · rw [cpBlock_ok s hb hs] at hstep
      injection hstep with _ hu
      have hph' : u.cp.phase = .block := by rw [← hu]; exact (b.phase_apply s.cp).trans hph
      obtain ⟨blocks, rest, hblocks, hrest⟩ := ih hph' hloop
      refine ⟨b :: blocks, rest, List.forall_mem_cons.mpr ⟨hb, hblocks⟩, ?_⟩
      rw [hs, hrest, List.flatMap_cons, List.append_assoc]

/-! ## The prologue -/

/-- CP at the start of a command (R400). -/
def parserAtStart : ContainerParser where
  phase      := .header
  doc        := GIFDocument.empty
  pendingGCE := none

/-- CP after the header (R291). -/
def parserAtScreen (sig : Signature) : ContainerParser where
  phase      := .lsd
  doc        := { GIFDocument.empty with header := { signature := sig } }
  pendingGCE := none

/-- CP after the screen descriptor (R292). -/
def parserAtTable (sig : Signature) (scr : LogicalScreenDescriptor) : ContainerParser where
  phase      := .gct
  doc        := { GIFDocument.empty with header := { signature := sig }, screen := scr }
  pendingGCE := none

section
variable {s u t : State} {rest : List Byte} {sig : Signature} {scr : LogicalScreenDescriptor}
  {gct : Option ColorTable}

/-- The parser's step returns, leaving CP as `cp` and the bytes `rest` not read. -/
def StepsTo (s : State) (cp : ContainerParser) (rest : List Byte) : Prop :=
  ∃ u, cpStep s.cp.phase s = .ok () u ∧ u.cp = cp ∧ unread u = rest

theorem StepsTo.cp_eq {cp : ContainerParser} (h : StepsTo s cp rest) (hu : cpStep s.cp.phase s = .ok () u) :
    u.cp = cp := by
  obtain ⟨v, hv, hcp, -⟩ := h
  rw [hu] at hv
  cases hv
  exact hcp

theorem stepsTo_of_ok {cp : ContainerParser} {front : List Byte} (hs : unread s = front ++ rest)
    (h : cpStep s.cp.phase s = .ok () ((advance s front.length).setCP cp)) : StepsTo s cp rest :=
  ⟨_, h, rfl, unread_advance_append s hs⟩

theorem stepsTo_screen (hcp : s.cp = parserAtStart) (hs : unread s = signatureBytes sig ++ rest) :
    StepsTo s (parserAtScreen sig) rest := by
  have h := cpHeader_ok s hs
  rw [hcp, ← length_signatureBytes sig] at h
  exact stepsTo_of_ok hs (by rw [hcp]; exact h)

theorem stepsTo_table (hcp : s.cp = parserAtScreen sig) (hs : unread s = screenDescriptorBytes scr ++ rest) :
    StepsTo s (parserAtTable sig scr) rest := by
  have h := cpLSD_ok s hs
  rw [hcp] at h
  exact stepsTo_of_ok hs (by rw [hcp]; exact h)

theorem stepsTo_blocks (hcp : s.cp = parserAtTable sig scr) (hg : ScreenLegal scr gct)
    (hs : unread s = tableOptBytes gct ++ rest) : StepsTo s (parserAtBlocks sig scr gct) rest := by
  have h := cpGCT_ok s (by rw [hcp]; exact hg) (by rw [hcp]; rfl) hs
  rw [hcp] at h
  exact stepsTo_of_ok hs (by rw [hcp]; exact h)

/-- The loop passes over a header, a screen descriptor and the table its flag asks for (R290 to R292, R298). -/
theorem cpLoop_prologue (hcp : s.cp = parserAtStart) (hg : ScreenLegal scr gct)
    (hs : unread s = signatureBytes sig ++ (screenDescriptorBytes scr ++ (tableOptBytes gct ++ rest))) :
    ∃ u, u.cp = parserAtBlocks sig scr gct ∧ unread u = rest ∧ ∀ fuel, cpLoop (fuel + 3) s = cpLoop fuel u := by
  obtain ⟨u₁, h₁, hcp₁, hs₁⟩ := stepsTo_screen hcp hs
  obtain ⟨u₂, h₂, hcp₂, hs₂⟩ := stepsTo_table hcp₁ hs₁
  obtain ⟨u₃, h₃, hcp₃, hs₃⟩ := stepsTo_blocks hcp₂ hg hs₂
  refine ⟨u₃, hcp₃, hs₃, fun fuel => ?_⟩
  rw [cpLoop_of_step (by rw [hcp]; nofun) h₁, cpLoop_of_step (by rw [hcp₁]; nofun) h₂,
    cpLoop_of_step (by rw [hcp₂]; nofun) h₃]

/-- From a command's start the loop returns on the bytes of a container only (R110). -/
theorem container_of_cpLoop {fuel : Nat} (hcp : s.cp = parserAtStart) (h : cpLoop (fuel + 3) s = .ok () t) :
    ∃ sig scr gct blocks rest, ScreenLegal scr gct ∧ (∀ b ∈ blocks, Block.Legal b) ∧
      unread s = containerBytes sig scr gct blocks ++ rest := by
  obtain ⟨u₁, h₁, h⟩ := step_of_cpLoop (by rw [hcp]; nofun) h
  obtain ⟨_, ⟨sig, rfl⟩, hs₁⟩ := spells_cpHeader s () u₁ (by rw [← h₁, hcp]; rfl)
  have hcp₁ := (stepsTo_screen hcp hs₁).cp_eq h₁
  obtain ⟨u₂, h₂, h⟩ := step_of_cpLoop (by rw [hcp₁]; nofun) h
  obtain ⟨_, ⟨scr, rfl⟩, hs₂⟩ := spells_cpLSD u₁ () u₂ (by rw [← h₂, hcp₁]; rfl)
  have hcp₂ := (stepsTo_table hcp₁ hs₂).cp_eq h₂
  obtain ⟨u₃, h₃, h⟩ := step_of_cpLoop (by rw [hcp₂]; nofun) h
  obtain ⟨gct, hg, hs₃⟩ := table_of_cpGCT (s := u₂) (t := u₃) (by rw [← h₃, hcp₂]; rfl)
  rw [hcp₂] at hg
  have hcp₃ := (stepsTo_blocks hcp₂ hg hs₃).cp_eq h₃
  obtain ⟨blocks, rest, hblocks, hs₄⟩ := blocks_of_cpLoop (by rw [hcp₃]; rfl) h
  refine ⟨sig, scr, gct, blocks, rest, hg, hblocks, ?_⟩
  rw [hs₁, hs₂, hs₃, hs₄]
  simp [containerBytes]

/-- On a container the loop returns the document its parts make (R290, R299, R315). -/
theorem cpLoop_container {blocks : List Block} {fuel : Nat} (hcp : s.cp = parserAtStart)
    (hg : ScreenLegal scr gct) (hblocks : ∀ b ∈ blocks, b.Legal)
    (hs : unread s = containerBytes sig scr gct blocks ++ rest) (hf : blocks.length + 5 ≤ fuel) :
    ∃ t, cpLoop fuel s = .ok () t ∧ t.cp.doc = documentOf sig scr gct blocks := by
  obtain ⟨fuel, rfl⟩ := Nat.exists_eq_add_of_le' (Nat.le_trans (Nat.le_add_left 3 _) hf)
  obtain ⟨u, hcpu, hsu, hloop⟩ := cpLoop_prologue (sig := sig) (rest := blocks.flatMap Block.bytes ++ 0x3B#8 :: rest)
    hcp hg (by rw [hs]; simp [containerBytes])
  obtain ⟨t, ht, hdoc⟩ := cpLoop_blocks blocks hblocks (by rw [hcpu]; rfl) hsu (fuel := fuel) (by omega)
  exact ⟨t, (hloop fuel).trans ht, by rw [hdoc, hcpu]; rfl⟩

end

/-! ## The command -/

/-- PARSE_CONTAINER of an idle block returns a document exactly where its loop returns, with CP.doc (R162). -/
theorem parseContainer_returned_iff {bytes : List Byte} {s : State} {d : GIFDocument} (hs : s.hi.cmd = 0#8) :
    (∃ t, exec (.parseContainer bytes) s = .next t ∧ Returned (.document d) t) ↔
      ∃ u, cpLoop (bytes.length + 4) (commandStart 0x01#8 bytes s) = .ok () u ∧ u.cp.doc = d := by
  have hexec : exec (.parseContainer bytes) s =
      settle parseEnd (cpLoop (bytes.length + 4) (commandStart 0x01#8 bytes s)) := by
    show runCommand 0x01#8 bytes (parseContainer bytes) s = _
    rw [runCommand_idle s _ _ _ hs, parseContainer, settle_bind]
    rfl
  rw [hexec]
  rcases cpLoop (bytes.length + 4) (commandStart 0x01#8 bytes s) with ⟨_, u⟩ | ⟨e | f, u⟩
  · simp [parseEnd, Returned]
  · simp [Returned]
  · simp

theorem length_le_length_flatMap_bytes (blocks : List Block) :
    blocks.length ≤ (blocks.flatMap Block.bytes).length := by
  induction blocks with
  | nil => exact Nat.le_refl 0
  | cons b blocks ih =>
    have := b.length_bytes_pos
    rw [List.flatMap_cons, List.length_append, List.length_cons]
    omega

/-- A container has a byte for each block and fourteen more (R110). -/
theorem length_containerBytes_ge (sig : Signature) (scr : LogicalScreenDescriptor) (gct : Option ColorTable)
    (blocks : List Block) : blocks.length + 14 ≤ (containerBytes sig scr gct blocks).length := by
  have hscr : (screenDescriptorBytes scr).length = 7 := rfl
  have hblocks := length_le_length_flatMap_bytes blocks
  simp only [containerBytes, List.length_append, length_signatureBytes, hscr, List.length_singleton]
  omega

/-- The steps R290 allows are enough for a container, so its command returns the document. -/
theorem cpLoop_commandStart {bytes rest : List Byte} {sig : Signature} {scr : LogicalScreenDescriptor}
    {gct : Option ColorTable} {blocks : List Block} (s : State) (hg : ScreenLegal scr gct)
    (hblocks : ∀ b ∈ blocks, b.Legal) (hbytes : bytes = containerBytes sig scr gct blocks ++ rest) :
    ∃ u, cpLoop (bytes.length + 4) (commandStart 0x01#8 bytes s) = .ok () u ∧
      u.cp.doc = documentOf sig scr gct blocks := by
  refine cpLoop_container (s := commandStart 0x01#8 bytes s) rfl hg hblocks hbytes ?_
  have := length_containerBytes_ge sig scr gct blocks
  rw [hbytes, List.length_append]
  omega

/-- Settles O48: the command's loop returns on a container only, and on a container with its document. -/
theorem parseAcceptsTheGrammar : Obligations.ParseAcceptsTheGrammar := by
  unfold Obligations.ParseAcceptsTheGrammar
  intro bytes s d hs
  rw [parseContainer_returned_iff hs]
  constructor
  · rintro ⟨u, hloop, rfl⟩
    obtain ⟨sig, scr, gct, blocks, rest, hg, hblocks, hbytes⟩ := container_of_cpLoop rfl hloop
    obtain ⟨v, hv, hdoc⟩ := cpLoop_commandStart (bytes := bytes) s hg hblocks hbytes
    rw [hloop] at hv
    cases hv
    exact ⟨sig, scr, gct, blocks, rest, hg, hblocks, hbytes, hdoc⟩
  · rintro ⟨sig, scr, gct, blocks, rest, hg, hblocks, hbytes, rfl⟩
    exact cpLoop_commandStart s hg hblocks hbytes

end Sys2Proof.Machine
end

section
/-! The packed bytes as sums of their fields (R113, R121, R124), and the classes of LZW codes (R128). -/

namespace Sys2Proof.Machine

/-! ## Packed bytes -/

/-- The second part of a word is its low bits, so nothing is carried into the first. -/
theorem toNat_append_eq_add {v w : Nat} (x : BitVec v) (y : BitVec w) :
    (x ++ y).toNat = x.toNat * 2 ^ w + y.toNat := by
  rw [BitVec.toNat_append, ← Nat.shiftLeft_add_eq_or_of_lt y.isLt, Nat.shiftLeft_eq]

/-- Settles O45: each packed byte is its fields one after another, and each field counts from its place on. -/
theorem packedByteBits : Obligations.PackedByteBits := by
  unfold Obligations.PackedByteBits
  refine ⟨fun f => ?_, fun g => ?_, fun f => ?_⟩
  · simp only [packLSD, toNat_append_eq_add, BitVec.toNat_ofBool]
    omega
  · simp only [packGCE, toNat_append_eq_add, BitVec.toNat_ofBool]
    omega
  · simp only [packImage, toNat_append_eq_add, BitVec.toNat_ofBool]
    omega

/-! ## The classes of codes -/

/-- The condition R128 gives each class. -/
def CodeClass.Holds (k : CodeContext) (c : Nat) : CodeClass → Prop
  | .eoi   => c = k.eoiCode
  | .clear => c = k.clearCode
  | .first => k.prev = none ∧ c < k.clearCode
  | .hit   => k.prev ≠ none ∧ (c < k.clearCode ∨ (k.eoiCode < c ∧ c ≤ k.lastAssignedCode))
  | .next  => k.prev ≠ none ∧ c = k.lastAssignedCode + 1
  | .bad   => (k.prev = none ∧ k.eoiCode < c) ∨ (k.prev ≠ none ∧ k.lastAssignedCode + 1 < c)

/-- The instruction of a class. -/
def CodeClass.instr (c : Nat) : CodeClass → Instr
  | .eoi   => .lzwEoi c
  | .clear => .lzwClear c
  | .first => .lzwFirst c
  | .hit   => .lzwHit c
  | .next  => .lzwNext c
  | .bad   => .lzwBad c

theorem decodeCode_eq_instr (k : CodeContext) (c : Nat) : decodeCode k c = (classifyCode k c).instr c := by
  unfold decodeCode
  cases classifyCode k c <;> rfl

theorem CodeClass.instr_inj {c : Nat} {x y : CodeClass} : x.instr c = y.instr c ↔ x = y := by
  cases x <;> cases y <;> simp [CodeClass.instr]

section
variable {k : CodeContext} {c : Nat}

/-- The class a code is given holds for it: BAD is what the tests before it leave (R128). -/
theorem classifyCode_holds (he : k.eoiCode = k.clearCode + 1) :
    (classifyCode k c).Holds k c := by
  unfold classifyCode
  split_ifs with heoi hclear hfirst hhit hnext
  · exact heoi
  · exact hclear
  · exact hfirst
  · exact hhit
  · exact hnext
  · by_cases hp : k.prev = none
    · have hc : ¬ c < k.clearCode := fun h => hfirst ⟨hp, h⟩
      exact .inl ⟨hp, by omega⟩
    · have hc : ¬ (c < k.clearCode ∨ (k.eoiCode < c ∧ c ≤ k.lastAssignedCode)) := fun h => hhit ⟨hp, h⟩
      have hn : c ≠ k.lastAssignedCode + 1 := fun h => hnext ⟨hp, h⟩
      exact .inr ⟨hp, by omega⟩

/-- Where the codes are in order, the tests before a class's own fail on the codes with its condition. -/
theorem classifyCode_of_holds (he : k.eoiCode = k.clearCode + 1) (hl : k.eoiCode ≤ k.lastAssignedCode)
    {x : CodeClass} (h : x.Holds k c) : classifyCode k c = x := by
  cases x with
  | eoi => exact classifyCode_eoi h
  | clear => exact classifyCode_clear h (by omega)
  | first =>
    obtain ⟨hp, hc⟩ := h
    rw [classifyCode, if_neg (by omega), if_neg (by omega), if_pos ⟨hp, hc⟩]
  | hit =>
    obtain ⟨hp, hc⟩ := h
    rw [classifyCode, if_neg (by omega), if_neg (by omega), if_neg fun hf => hp hf.1, if_pos ⟨hp, hc⟩]
  | next =>
    obtain ⟨hp, hc⟩ := h
    rw [classifyCode, if_neg (by omega), if_neg (by omega), if_neg fun hf => hp hf.1, if_neg (by omega),
      if_pos ⟨hp, hc⟩]
  | bad =>
    have hc : k.eoiCode < c := by obtain ⟨-, hc⟩ | ⟨-, hc⟩ := h <;> omega
    rw [classifyCode, if_neg (by omega), if_neg (by omega), if_neg (by omega)]
    obtain ⟨hp, -⟩ | ⟨-, hc⟩ := h
    · rw [if_neg fun hh => hh.1 hp, if_neg fun hn => hn.1 hp]
    · rw [if_neg (by omega), if_neg (by omega)]

theorem decodeCode_eq_iff (he : k.eoiCode = k.clearCode + 1) (hl : k.eoiCode ≤ k.lastAssignedCode)
    (x : CodeClass) : decodeCode k c = x.instr c ↔ x.Holds k c := by
  rw [decodeCode_eq_instr, CodeClass.instr_inj]
  constructor
  · rintro rfl
    exact classifyCode_holds he
  · exact classifyCode_of_holds he hl

end

/-- Settles O6: the class given holds, and no other does. -/
theorem codeClassesExclusive : Obligations.CodeClassesExclusive := by
  unfold Obligations.CodeClassesExclusive
  intro k c he hl
  have h := decodeCode_eq_iff (c := c) he hl
  refine ⟨h .eoi, h .clear, h .first, h .hit, h .next, h .bad, ?_⟩
  rw [decodeCode_eq_instr]
  cases classifyCode k c <;> simp [CodeClass.instr]

end Sys2Proof.Machine
end

section
/-! The illegal encodings of R132, each with its error. -/

namespace Sys2Proof.Machine

variable {s : State}

/-- An error that an operation raises is taken (R380). -/
theorem errorTaken_of_raised {op : Op Unit} {e : Err} {u : State} (h : op s = .error (.raised e) u) :
    ∃ t, runUnit op s = .next t ∧ ErrorTaken e t :=
  ⟨errorEntry e u, by rw [runUnit_eq, h], rfl, rfl, rfl, rfl⟩

theorem signatureOf_eq_none {bs : List Byte} (h : ∀ g, bs ≠ signatureBytes g) : signatureOf bs = none := by
  cases hs : signatureOf bs with
  | none => rfl
  | some g => exact absurd (eq_signatureBytes_of_signatureOf hs) (h g)

theorem badSignature_taken (hl : 6 ≤ (unread s).length)
    (h : ∀ g : Signature, (unread s).take 6 ≠ signatureBytes g) :
    ∃ t, exec .cpHeader s = .next t ∧ ErrorTaken (.formatError .badSignature) t :=
  errorTaken_of_raised (cpHeader_bad s (List.length_take_of_le hl) (signatureOf_eq_none h)
    (List.take_append_drop 6 _).symm)

theorem badIntroducer_taken {b : Byte} (h : IntroClass.bad.Holds b) :
    ∃ t, exec (decodeIntro b) s = .next t ∧ ErrorTaken (.formatError .badIntroducer) t := by
  have hop : introOp b = cpBadIntro b := by
    obtain ⟨h1, h2, h3⟩ := h
    simp [introOp, classifyIntro, h1, h2, h3]
  rw [exec_decodeIntro, hop]
  exact errorTaken_of_raised rfl

theorem badLabel_taken {l : Byte} {rest : List Byte} (h : LabelClass.bad.Holds l) (hs : unread s = l :: rest) :
    ∃ t, exec .cpIntroExt s = .next t ∧ ErrorTaken (.formatError .badLabel) t := by
  have hop : labelOp l = cpBadLabel l := by
    obtain ⟨h1, h2, h3, h4⟩ := h
    simp [labelOp, classifyLabel, h1, h2, h3, h4]
  have hrun : cpExtension s = cpBadLabel l (advance s 1) :=
    (op_bind_of_ok s _ labelOp (bcConsume_cons s hs)).trans (congrFun hop _)
  exact errorTaken_of_raised hrun

theorem badTerminator_taken {p d e ti x : Byte} {rest : List Byte} (hx : x ≠ 0x00#8)
    (hs : unread s = [0x04#8, p, d, e, ti, x] ++ rest) :
    ∃ t, exec .cpLabelGce s = .next t ∧ ErrorTaken (.formatError .badTerminator) t :=
  errorTaken_of_raised (cpGCE_bad s (d := le16 d e) hx (by rw [hs, toLE16_le16]; rfl))

/-- An extension that begins with another block-size byte than its own (R118, R120, R122, R296). -/
theorem badBlockSize_taken {v b : Byte} {rest : List Byte} (f : Unit → Op Unit) (hb : b ≠ v)
    (hs : unread s = b :: rest) :
    ∃ t, runUnit (cpExpectBlockSize v >>= f) s = .next t ∧ ErrorTaken (.formatError .badBlockSize) t :=
  errorTaken_of_raised (op_bind_of_error s _ f (cpExpectBlockSize_bad s hs hb))

theorem cpExpectBlockSize_nil {v : Byte} (hs : unread s = []) : cpExpectBlockSize v s =
    .error (.raised (.truncatedInput .byteCursorEnd)) (markError .cp s) :=
  op_bind_of_error s _ _ (bcConsume_nil s hs)

/-- Settles O41: each row's operation raises its error. -/
theorem illegalEncodings : Obligations.IllegalEncodings := by
  unfold Obligations.IllegalEncodings
  intro s rest
  refine ⟨badSignature_taken, fun b h1 h2 h3 => badIntroducer_taken ⟨h1, h2, h3⟩,
    fun l h1 h2 h3 h4 hs => badLabel_taken ⟨h1, h2, h3, h4⟩ hs,
    fun p d e ti x hx hs => badTerminator_taken hx hs, fun b hs => ⟨?_, ?_, ?_⟩,
    fun c => errorTaken_of_raised rfl, fun v => ⟨?_, ?_, ?_⟩⟩
  · exact fun hb => badBlockSize_taken _ hb hs
  · exact fun hb => badBlockSize_taken _ hb hs
  · exact fun hb => badBlockSize_taken _ hb hs
  · intro hs
    show runUnit (cpExpectBlockSize v) s = _
    rw [runUnit_eq, cpExpectBlockSize_ok s hs]
  · exact fun b hb hs => errorTaken_of_raised (cpExpectBlockSize_bad s hs hb)
  · exact fun hs => errorTaken_of_raised (cpExpectBlockSize_nil hs)

end Sys2Proof.Machine
end

section
/-! What the decoder and the encoder of Decode.lean say of each other (R161, R110, R128). -/

namespace Sys2Proof.Machine

/-! ## Commands -/

/-- R161: a code below 0x05 is one of five. -/
theorem code_cases {c : Byte} (h : ¬ 0x05#8 ≤ c) :
    c = 0x00#8 ∨ c = 0x01#8 ∨ c = 0x02#8 ∨ c = 0x03#8 ∨ c = 0x04#8 := by bv_omega

/-- R161: every code from 0x05 up is unassigned. -/
theorem decodeRequest_unassigned {q : Request} (h : 0x05#8 ≤ q.code) :
    decodeRequest q = .cmdUnassigned q.code := by
  have hne : ∀ c : Byte, ¬ 0x05#8 ≤ c → q.code ≠ c := fun c hc heq => hc (heq ▸ h)
  simp [decodeRequest, hne]

theorem decodeRequest_encodeRequest {i : Instr} {q : Request} (hi : i.wf = true)
    (h : encodeRequest i = some q) : decodeRequest q = i := by
  cases i with
  | cmdUnassigned code =>
    cases h
    exact decodeRequest_unassigned (q := ⟨code, Operands.zero⟩) (of_decide_eq_true hi)
  | _ => cases h <;> rfl

theorem encodeRequest_decodeRequest (q : Request) :
    (encodeRequest (decodeRequest q)).map (·.code) = some q.code := by
  obtain ⟨code, operands⟩ := q
  by_cases h : 0x05#8 ≤ code
  · rw [decodeRequest_unassigned h]
    rfl
  · rcases code_cases h with rfl | rfl | rfl | rfl | rfl <;> rfl

/-! ## Container selectors -/

theorem decodeBytes_encodeBytes {i : Instr} {site : Site} {bs : List Byte} (rest : List Byte)
    (hi : i.wf = true) (h : encodeBytes i = some (site, bs)) :
    decodeBytes site (bs ++ rest) = .ok (i, rest) := by
  cases i with
  | cpIntroBad t =>
    cases h
    have ht : classifyIntro t = .bad := eq_of_beq hi
    simp [decodeBytes, decodeIntro, ht]
  | cpLabelBad l =>
    cases h
    have hl : classifyLabel l = .bad := eq_of_beq hi
    simp [decodeBytes, decodeLabel, hl]
  | _ => cases h <;> rfl

theorem encodeBytes_decodeIntro (t : Byte) : encodeBytes (decodeIntro t) = some (.block, [t]) := by
  unfold decodeIntro classifyIntro
  split_ifs with hext himage htrailer
  · rw [hext]; rfl
  · rw [himage]; rfl
  · rw [htrailer]; rfl
  · rfl

theorem encodeBytes_decodeLabel (l : Byte) : encodeBytes (decodeLabel l) = some (.label, [l]) := by
  unfold decodeLabel classifyLabel
  split_ifs with happ hcomment hgce htext
  · rw [happ]; rfl
  · rw [hcomment]; rfl
  · rw [hgce]; rfl
  · rw [htext]; rfl
  · rfl

/-! ## LZW codes -/

theorem codeOf_decodeCode (k : CodeContext) (c : Nat) : codeOf (decodeCode k c) = some c := by
  rw [decodeCode_eq_instr]
  cases classifyCode k c <;> rfl

/-- R86, R126: the codeSize bits of a code are read as that code. -/
theorem decodeBits_codeBits (k : CodeContext) {c : Nat} (rest : Bits) (hc : c < 2 ^ k.codeSize) :
    decodeBits k (codeBits k.codeSize c ++ rest) = .ok (decodeCode k c, rest) := by
  have hlen := length_codeBits k.codeSize c
  rw [decodeBits, if_neg (by rw [List.length_append]; omega), List.take_left' hlen, List.drop_left' hlen,
    bitsValue_codeBits _ _ hc]

/-- R126: what is read of a stream that has the bits is encoded by those bits. -/
theorem decodeBits_encodeBits (k : CodeContext) {bits : Bits} (h : k.codeSize ≤ bits.length) :
    ∃ i, decodeBits k bits = .ok (i, bits.drop k.codeSize) ∧
      encodeBits k.codeSize i = some (bits.take k.codeSize) := by
  refine ⟨_, if_neg (Nat.not_lt.mpr h), ?_⟩
  have hbits := codeBits_bitsValue (bits.take k.codeSize)
  rw [List.length_take_of_le h] at hbits
  rw [encodeBits, codeOf_decodeCode, Option.map_some, hbits]

/-! ## The obligations -/

/-- Settles O5: each of the three decoders against its encoder, in both directions. -/
theorem decodeEncodeAgree : Obligations.DecodeEncodeAgree := by
  unfold Obligations.DecodeEncodeAgree
  refine ⟨fun i q => decodeRequest_encodeRequest, fun i site bs rest => decodeBytes_encodeBytes rest, ?_,
    encodeRequest_decodeRequest, fun b rest => ⟨?_, ?_⟩, fun k bits => decodeBits_encodeBits k⟩
  · rintro _ c k rest - hc rfl
    exact ⟨codeBits k.codeSize c, by rw [encodeBits, codeOf_decodeCode, Option.map_some],
      decodeBits_codeBits k rest hc⟩
  · exact ⟨decodeIntro b, rfl, encodeBytes_decodeIntro b⟩
  · exact ⟨decodeLabel b, rfl, encodeBytes_decodeLabel b⟩

/-- Settles O4: each word is read as Decode.lean reads it. -/
theorem sampleEncodingsDecode : Obligations.SampleEncodingsDecode := by
  unfold Obligations.SampleEncodingsDecode
  exact ⟨fun _ => rfl, rfl, rfl, rfl, rfl, rfl, rfl, rfl, rfl, rfl⟩

/-- Settles O10: the assigned codes by evaluation, the others because no test before the last one holds. -/
theorem commandCodes : Obligations.CommandCodes := by
  unfold Obligations.CommandCodes
  refine ⟨fun p => ⟨rfl, rfl, rfl, rfl, rfl⟩, fun c p hc => decodeRequest_unassigned hc, fun c s => rfl,
    fun s q rest ht hcmd hinbox hq => ?_⟩
  rw [step_idle s ht hcmd, stepIdle_request s hinbox, decodeRequest_unassigned hq]
  rfl

end Sys2Proof.Machine
end

section
/-! What an operation does depends on the units of its family alone (R92, R95, R167): from two states that
agree on them it ends alike, whatever the other units, STATUS and earlier results hold. -/

namespace Sys2Proof.Machine

variable {α β : Type} {R R' R'' : State → State → Prop}

/-! ## Two runs of one operation -/

/-- Two runs end alike: they return the same value in states that `R` relates, or both raise the same error,
or both meet the same excluded unit state. -/
def Alike (R : State → State → Prop) : EStateM.Result Stop State α → EStateM.Result Stop State α → Prop
  | .ok a t,    .ok a' t'    => a = a' ∧ R t t'
  | .error e _, .error e' _  => e = e'
  | _,          _            => False

/-- From any two states that `R` relates the operation ends alike, in states that `R'` relates. -/
def Lockstep (R : State → State → Prop) (op : Op α) (R' : State → State → Prop) : Prop :=
  ∀ s s', R s s' → Alike R' (op s) (op s')

/-- What is known of the ends of both runs relates their states too. -/
theorem Alike.ends {r r' : EStateM.Result Stop State α} {Q Q' : α → State → Prop} {E E' : State → Prop}
    (h : Alike R r r') (hr : Ends Q E r) (hr' : Ends Q' E' r')
    (hR : ∀ a t t', R t t' → Q a t → Q' a t' → R' t t') : Alike R' r r' := by
  rcases r with ⟨a, t⟩ | ⟨e, t⟩ <;> rcases r' with ⟨a', t'⟩ | ⟨e', t'⟩
  · obtain ⟨rfl, ht⟩ := h
    exact ⟨rfl, hR a t t' ht hr hr'⟩
  · exact h
  · exact h
  · exact h

theorem Alike.ok_left {r : EStateM.Result Stop State α} {a : α} {t : State} (h : Alike R (.ok a t) r) :
    ∃ t', r = .ok a t' ∧ R t t' := by
  rcases r with ⟨a', t'⟩ | ⟨e, t'⟩
  · obtain ⟨rfl, ht⟩ := h
    exact ⟨t', rfl, ht⟩
  · exact h.elim

theorem Alike.error_left {r : EStateM.Result Stop State α} {e : Stop} {t : State}
    (h : Alike R (.error e t) r) : ∃ t', r = .error e t' := by
  rcases r with ⟨a', t'⟩ | ⟨e', t'⟩
  · exact h.elim
  · exact ⟨t', congrArg (EStateM.Result.error · t') (Eq.symm h)⟩

theorem Lockstep.bind {x : Op α} {f : α → Op β} (hx : Lockstep R x R') (hf : ∀ a, Lockstep R' (f a) R'') :
    Lockstep R (x >>= f) R'' := fun s s' h => by
  have hx' := hx s s' h
  rcases hr : x s with ⟨a, t⟩ | ⟨e, t⟩ <;> rw [hr] at hx'
  · obtain ⟨t', hr', ht⟩ := hx'.ok_left
    rw [op_bind_of_ok s _ f hr, op_bind_of_ok s' _ f hr']
    exact hf a t t' ht
  · obtain ⟨t', hr'⟩ := hx'.error_left
    rw [op_bind_of_error s _ f hr, op_bind_of_error s' _ f hr']
    exact rfl

theorem lockstep_pure (a : α) : Lockstep R (pure a) R := fun _ _ h => ⟨rfl, h⟩

theorem lockstep_raise (u : Runner) (e : Err) : Lockstep R (raise u e : Op α) R' := fun _ _ _ => rfl

theorem lockstep_stuck (f : Fault) : Lockstep R (stuck f : Op α) R' := fun _ _ _ => rfl

theorem lockstep_ite {x y : Op α} (p : Prop) [Decidable p] (hx : Lockstep R x R') (hy : Lockstep R y R') :
    Lockstep R (if p then x else y) R' := by
  split
  · exact hx
  · exact hy

/-- Whatever two states hold. -/
def Unrelated (_ _ : State) : Prop := True

/-! ## The cursor and the parser -/

/-- The units of the parser are the same. -/
def SameParser (s s' : State) : Prop := s.bc = s'.bc ∧ s.cp = s'.cp

/-- The operation depends on the parser's units alone. -/
abbrev ParserLocal (op : Op α) : Prop := Lockstep SameParser op SameParser

theorem local_getBC : ParserLocal getBC := fun _ _ h => ⟨h.1, h⟩
theorem local_putBC (v : ByteCursor) : ParserLocal (putBC v) := fun _ _ h => ⟨rfl, rfl, h.2⟩
theorem local_getCP : ParserLocal getCP := fun _ _ h => ⟨h.2, h⟩
theorem local_putCP (v : ContainerParser) : ParserLocal (putCP v) := fun _ _ h => ⟨rfl, h.1, rfl⟩

theorem local_bcConsume : ParserLocal bcConsume :=
  local_getBC.bind fun bc => by
    cases bc.buf[bc.pos]? with
    | none => exact lockstep_raise _ _
    | some b => exact (local_putBC _).bind fun _ => lockstep_pure b

theorem local_bcTakeExact (n : Nat) : ParserLocal (bcTakeExact n) :=
  (local_getBC.bind fun _ => (local_putBC _).bind fun _ => lockstep_pure _).bind fun _ =>
    lockstep_ite _ (lockstep_raise _ _) (lockstep_pure _)

theorem local_bcReadLE16 : ParserLocal bcReadLE16 :=
  local_bcConsume.bind fun _ => local_bcConsume.bind fun _ => lockstep_pure _

theorem local_cpReadColorTable (n : BitVec 3) : ParserLocal (cpReadColorTable n) :=
  (local_bcTakeExact _).bind fun _ => lockstep_pure _

theorem local_cpSubBlock : ParserLocal cpSubBlock :=
  local_bcConsume.bind fun _ =>
    lockstep_ite _ (lockstep_pure _) ((local_bcTakeExact _).bind fun _ => lockstep_pure _)

theorem local_cpRunLoop (fuel : Nat) (run : Blocks) : ParserLocal (cpRunLoop fuel run) := by
  induction fuel generalizing run with
  | zero => exact lockstep_stuck _
  | succ fuel ih =>
    refine local_cpSubBlock.bind fun b => ?_
    cases b with
    | none => exact lockstep_pure run
    | some b => exact ih (run ++ [b])

theorem local_cpReadSubBlockRun : ParserLocal cpReadSubBlockRun :=
  local_getBC.bind fun _ => local_cpRunLoop _ _

theorem local_cpExpectBlockSize (v : Byte) : ParserLocal (cpExpectBlockSize v) :=
  local_bcConsume.bind fun _ => lockstep_ite _ (lockstep_raise _ _) (lockstep_pure _)

theorem local_cpReadLocalTable (d : ImageDescriptor) : ParserLocal (cpReadLocalTable d) :=
  lockstep_ite _ ((local_cpReadColorTable _).bind fun _ => lockstep_pure _) (lockstep_pure _)

theorem local_cpReadLZWData : ParserLocal cpReadLZWData :=
  local_bcConsume.bind fun _ => local_cpReadSubBlockRun.bind fun _ => lockstep_pure _

theorem local_cpImageDesc : ParserLocal cpImageDesc :=
  local_bcReadLE16.bind fun _ => local_bcReadLE16.bind fun _ => local_bcReadLE16.bind fun _ =>
    local_bcReadLE16.bind fun _ => local_bcConsume.bind fun _ => lockstep_pure _

/-- A write of CP that depends on CP alone. -/
theorem local_modifyCP (f : ContainerParser → ContainerParser) :
    ParserLocal (do let cp ← getCP; putCP (f cp)) := local_getCP.bind fun _ => local_putCP _

theorem local_cpPutDoc (f : GIFDocument → GIFDocument) : ParserLocal (cpPutDoc f) := local_modifyCP _

theorem local_cpPutPhase (p : CPPhase) : ParserLocal (cpPutPhase p) := local_modifyCP _

theorem local_cpHeader : ParserLocal cpHeader :=
  (local_bcTakeExact _).bind fun b => by
    cases signatureOf b with
    | none => exact lockstep_raise _ _
    | some _ => exact (local_cpPutDoc _).bind fun _ => local_cpPutPhase _

theorem local_cpLSD : ParserLocal cpLSD :=
  local_bcReadLE16.bind fun _ => local_bcReadLE16.bind fun _ => local_bcConsume.bind fun _ =>
    local_bcConsume.bind fun _ => local_bcConsume.bind fun _ => (local_cpPutDoc _).bind fun _ =>
      local_cpPutPhase _

theorem local_cpGCT : ParserLocal cpGCT :=
  local_getCP.bind fun _ => lockstep_ite _
    ((local_cpReadColorTable _).bind fun _ => (local_cpPutDoc _).bind fun _ => local_cpPutPhase _)
    (local_cpPutPhase _)

theorem local_cpApp : ParserLocal cpApp :=
  (local_cpExpectBlockSize _).bind fun _ => (local_bcTakeExact _).bind fun _ =>
    (local_bcTakeExact _).bind fun _ => local_cpReadSubBlockRun.bind fun _ => local_cpPutDoc _

theorem local_cpGCE : ParserLocal cpGCE :=
  (local_cpExpectBlockSize _).bind fun _ => local_bcConsume.bind fun _ => local_bcReadLE16.bind fun _ =>
    local_bcConsume.bind fun _ => local_bcConsume.bind fun _ =>
      lockstep_ite _ (lockstep_raise _ _) (local_modifyCP _)

theorem local_cpText : ParserLocal cpText :=
  (local_cpExpectBlockSize _).bind fun _ => local_bcReadLE16.bind fun _ => local_bcReadLE16.bind fun _ =>
    local_bcReadLE16.bind fun _ => local_bcReadLE16.bind fun _ => local_bcConsume.bind fun _ =>
      local_bcConsume.bind fun _ => local_bcConsume.bind fun _ => local_bcConsume.bind fun _ =>
        local_cpReadSubBlockRun.bind fun _ => local_cpPutDoc _

theorem local_labelOp (l : Byte) : ParserLocal (labelOp l) := by
  unfold labelOp
  cases classifyLabel l with
  | app => exact local_cpApp
  | comment => exact local_cpReadSubBlockRun.bind fun _ => local_cpPutDoc _
  | gce => exact local_cpGCE
  | text => exact local_cpText
  | bad => exact lockstep_raise _ _

theorem local_introOp (t : Byte) : ParserLocal (introOp t) := by
  unfold introOp
  cases classifyIntro t with
  | ext => exact local_bcConsume.bind local_labelOp
  | image =>
    exact local_cpImageDesc.bind fun _ => (local_cpReadLocalTable _).bind fun _ =>
      local_cpReadLZWData.bind fun _ => local_modifyCP _
  | trailer => exact local_modifyCP _
  | bad => exact lockstep_raise _ _

theorem local_cpStep (phase : CPPhase) : ParserLocal (cpStep phase) := by
  cases phase with
  | header => exact local_cpHeader
  | lsd => exact local_cpLSD
  | gct => exact local_cpGCT
  | block => exact local_bcConsume.bind local_introOp
  | done => exact lockstep_pure _
  | error => exact lockstep_pure _

theorem local_cpLoop (fuel : Nat) : ParserLocal (cpLoop fuel) := by
  induction fuel with
  | zero => exact lockstep_stuck _
  | succ fuel ih =>
    exact local_getCP.bind fun cp =>
      lockstep_ite _ (lockstep_pure _) ((local_cpStep cp.phase).bind fun _ => ih)

theorem local_parseContainer (bytes : List Byte) : ParserLocal (parseContainer bytes) :=
  (local_cpLoop _).bind fun _ => local_getCP.bind fun _ => lockstep_pure _

/-! ## The decoder -/

/-- The units of the decoder are the same. -/
def SameDecoder (s s' : State) : Prop := s.lzd = s'.lzd ∧ s.bsr = s'.bsr

/-- The operation depends on the decoder's units alone. -/
abbrev DecoderLocal (op : Op α) : Prop := Lockstep SameDecoder op SameDecoder

theorem local_getLZD : DecoderLocal getLZD := fun _ _ h => ⟨h.1, h⟩
theorem local_putLZD (d : LZWDecoder) : DecoderLocal (putLZD d) := fun _ _ h => ⟨rfl, rfl, h.2⟩
theorem local_getBSR : DecoderLocal getBSR := fun _ _ h => ⟨h.2, h⟩
theorem local_putBSR (b : BitReader) : DecoderLocal (putBSR b) := fun _ _ h => ⟨rfl, h.1, rfl⟩

theorem local_bsrHasBits (n : Nat) : DecoderLocal (bsrHasBits n) :=
  lockstep_ite _ (lockstep_raise _ _) (local_getBSR.bind fun _ => lockstep_pure _)

theorem local_bsrReadBits (n : Nat) : DecoderLocal (bsrReadBits n) :=
  lockstep_ite _ (lockstep_raise _ _) (local_getBSR.bind fun _ => lockstep_ite _ (lockstep_raise _ _)
    ((local_putBSR _).bind fun _ => lockstep_pure _))

theorem local_lzdFill (left : Nat) : DecoderLocal (lzdFill left) := by
  induction left with
  | zero => exact local_getLZD.bind fun _ => (local_bsrHasBits _).bind fun _ => lockstep_pure _
  | succ left ih =>
    refine local_getLZD.bind fun d => (local_bsrHasBits _).bind fun _ => lockstep_ite _ (lockstep_pure _) ?_
    cases d.subs[d.subIdx]? with
    | none => exact lockstep_pure _
    | some _ =>
      exact (local_getBSR.bind fun _ => local_putBSR _).bind fun _ => (local_putLZD _).bind fun _ => ih

theorem local_lzdFetchCode : DecoderLocal lzdFetchCode :=
  local_getLZD.bind fun _ => (local_lzdFill _).bind fun _ => local_bsrReadBits _

theorem local_lzdEntry (c : Nat) : DecoderLocal (lzdEntry c) :=
  local_getLZD.bind fun d => by
    cases dictGet d.dict c with
    | none => exact lockstep_stuck _
    | some _ => exact lockstep_pure _

theorem local_lzdPrevEntry : DecoderLocal lzdPrevEntry :=
  local_getLZD.bind fun d => by
    cases d.prev with
    | none => exact lockstep_stuck _
    | some p => exact local_lzdEntry p

theorem local_headOf (q : List Nat) : DecoderLocal (headOf q) := by
  cases q with
  | nil => exact lockstep_stuck _
  | cons k _ => exact lockstep_pure k

/-- A write of LZD that depends on LZD alone. -/
theorem local_modifyLZD (f : LZWDecoder → LZWDecoder) :
    DecoderLocal (do let d ← getLZD; putLZD (f d)) := local_getLZD.bind fun _ => local_putLZD _

theorem local_lzdAssign (k : Nat) : DecoderLocal (lzdAssign k) :=
  local_getLZD.bind fun _ => lockstep_ite _ (local_lzdPrevEntry.bind fun _ => local_putLZD _) (lockstep_pure _)

theorem local_lzwDispatch (k : CodeContext) (c : Nat) : DecoderLocal (lzwDispatch k c) := by
  unfold lzwDispatch
  cases classifyCode k c with
  | eoi => exact local_modifyLZD _
  | clear => exact local_modifyLZD _
  | first =>
    exact (local_lzdEntry c).bind fun _ => (local_modifyLZD _).bind fun _ => local_modifyLZD _
  | hit =>
    exact (local_lzdEntry c).bind fun _ => (local_modifyLZD _).bind fun _ => (local_headOf _).bind fun _ =>
      (local_lzdAssign _).bind fun _ => local_modifyLZD _
  | next =>
    exact local_lzdPrevEntry.bind fun _ => (local_headOf _).bind fun _ => (local_modifyLZD _).bind fun _ =>
      (local_lzdAssign _).bind fun _ => local_modifyLZD _
  | bad => exact lockstep_raise _ _

theorem local_lzdLoop (fuel : Nat) : DecoderLocal (lzdLoop fuel) := by
  have hstep : DecoderLocal lzdStep :=
    local_lzdFetchCode.bind fun _ => local_getLZD.bind fun _ => local_lzwDispatch _ _
  induction fuel with
  | zero => exact lockstep_stuck _
  | succ fuel ih =>
    exact local_getLZD.bind fun _ => lockstep_ite _ (lockstep_pure _) (hstep.bind fun _ => ih)

/-- R210: init writes every field of LZD and BSR, so it makes them the same. -/
theorem lockstep_lzdInit (m : Byte) (subs : Blocks) : Lockstep Unrelated (lzdInit m subs) SameDecoder :=
  fun _ _ _ => ⟨rfl, rfl, rfl⟩

theorem lockstep_decodeFrame (img : ImageBlock) : Lockstep Unrelated (decodeFrame img) SameDecoder :=
  lockstep_ite _ (lockstep_raise _ _) ((lockstep_lzdInit _ _).bind fun _ => (local_lzdLoop _).bind fun _ =>
    local_getLZD.bind fun _ => lockstep_pure _)

/-! ## The encoder -/

/-- The units of the encoder are the same. -/
def SameEncoder (s s' : State) : Prop := s.lze = s'.lze ∧ s.bsw = s'.bsw

/-- The operation depends on the encoder's units alone. -/
abbrev EncoderLocal (op : Op α) : Prop := Lockstep SameEncoder op SameEncoder

theorem local_getLZE : EncoderLocal getLZE := fun _ _ h => ⟨h.1, h⟩
theorem local_putLZE (e : LZWEncoder) : EncoderLocal (putLZE e) := fun _ _ h => ⟨rfl, rfl, h.2⟩
theorem local_getBSW : EncoderLocal getBSW := fun _ _ h => ⟨h.2, h⟩
theorem local_putBSW (b : BitWriter) : EncoderLocal (putBSW b) := fun _ _ h => ⟨rfl, h.1, rfl⟩

/-- A write of LZE that depends on LZE alone. -/
theorem local_modifyLZE (f : LZWEncoder → LZWEncoder) :
    EncoderLocal (do let e ← getLZE; putLZE (f e)) := local_getLZE.bind fun _ => local_putLZE _

theorem local_bswWrite (code w : Nat) : EncoderLocal (bswWrite code w) :=
  lockstep_ite _ (lockstep_raise _ _) (local_getBSW.bind fun _ => local_putBSW _)

theorem local_bswClose : EncoderLocal bswClose :=
  local_getBSW.bind fun _ => lockstep_ite _ (lockstep_pure _)
    (lockstep_ite _ (lockstep_stuck _) (local_putBSW _))

theorem local_lzeEmit (code : Option Nat) : EncoderLocal (lzeEmit code) := by
  cases code with
  | none => exact lockstep_raise _ _
  | some c => exact local_getLZE.bind fun _ => local_bswWrite c _

theorem local_lzeMiss (k : Nat) : EncoderLocal (lzeMiss k) :=
  local_getLZE.bind fun _ => (local_lzeEmit _).bind fun _ => (local_putLZE _).bind fun _ =>
    lockstep_ite _ (local_getLZE.bind fun _ => (local_lzeEmit _).bind fun _ => local_modifyLZE _)
      (lockstep_ite _ (local_putLZE _) (lockstep_pure _))

theorem local_lzeNextIndex : EncoderLocal lzeNextIndex :=
  local_getLZE.bind fun e => by
    cases e.input[e.inPos]? with
    | none => exact lockstep_stuck _
    | some k =>
      exact (local_putLZE _).bind fun _ => (local_getLZE.bind fun _ =>
        lockstep_ite _ (lockstep_raise _ _) (lockstep_pure _)).bind fun _ => lockstep_pure k

theorem local_lzeStep : EncoderLocal lzeStep :=
  local_lzeNextIndex.bind fun k => local_getLZE.bind fun _ =>
    lockstep_ite _ (local_modifyLZE _) (local_lzeMiss k)

theorem local_lzeLoop (fuel : Nat) : EncoderLocal (lzeLoop fuel) := by
  induction fuel with
  | zero => exact local_getLZE.bind fun _ => lockstep_ite _ (lockstep_stuck _) (lockstep_pure _)
  | succ fuel ih =>
    exact local_getLZE.bind fun _ => lockstep_ite _ (local_lzeStep.bind fun _ => ih) (lockstep_pure _)

theorem local_lzeFinish : EncoderLocal lzeFinish := by
  refine local_getLZE.bind fun e => (local_lzeEmit _).bind fun _ => ?_
  have last : EncoderLocal (do lzeEmit (some e.eoiCode); let e ← getLZE; putLZE { e with phase := .done }) :=
    (local_lzeEmit _).bind fun _ => local_modifyLZE _
  exact lockstep_ite _ ((local_putLZE _).bind fun _ => last) last

/-- R251: init that returns has written every field of LZE and BSW, so it makes them the same. -/
theorem lockstep_lzeInit (m : Byte) (idx : List Nat) : Lockstep Unrelated (lzeInit m idx) SameEncoder := by
  cases idx with
  | nil => exact lockstep_stuck _
  | cons k rest =>
    intro s s' _
    rw [lzeInit_eq, lzeInit_eq]
    split
    · exact ⟨rfl, rfl, rfl⟩
    · exact rfl

theorem lockstep_lzeEncodeFrame (m : Byte) (idx : List Nat) :
    Lockstep Unrelated (lzeEncodeFrame m idx) SameEncoder :=
  ((lockstep_lzeInit m idx).bind fun _ => local_getLZE.bind fun _ => local_lzeEmit _).bind fun _ =>
    (local_lzeLoop _).bind fun _ => local_lzeFinish.bind fun _ =>
      local_bswClose.bind fun _ => local_getBSW.bind fun _ => lockstep_pure _

theorem lockstep_encodeFrame (m : Byte) (idx : List Nat) : Lockstep Unrelated (encodeFrame m idx) SameEncoder :=
  lockstep_ite _ (lockstep_raise _ _) (lockstep_ite _ (lockstep_raise _ _)
    ((lockstep_lzeEncodeFrame m idx).bind fun _ => lockstep_pure _))

/-! ## The writer -/

/-- The bytes written are the same. -/
def SameWriter (s s' : State) : Prop := s.cw = s'.cw

/-- The operation depends on the bytes written alone: the encoder sets up its units for each frame. -/
abbrev WriterLocal (op : Op α) : Prop := Lockstep SameWriter op SameWriter

theorem local_cwAppend (bs : List Byte) : WriterLocal (cwAppend bs) :=
  fun _ _ h => ⟨rfl, congrArg (fun cw : ContainerWriter => ContainerWriter.mk (cw.out ++ bs)) h⟩

theorem local_cwSizeField (t : ColorTable) : WriterLocal (cwSizeField t) := by
  unfold cwSizeField
  cases sizeFieldOf t.length with
  | none => exact lockstep_raise _ _
  | some _ => exact lockstep_pure _

theorem local_lzeEncodeFrame (m : Byte) (idx : List Nat) : WriterLocal (lzeEncodeFrame m idx) := fun s s' h =>
  have hcw := keeps_lzeEncodeFrame (P := fun t => t.cw = s.cw) ⟨fun _ _ ht => ht, fun _ _ ht => ht⟩ m idx
  (lockstep_lzeEncodeFrame m idx s s' trivial).ends (hcw s rfl) (hcw s' (Eq.symm h)) fun _ _ _ _ ht ht' =>
    ht.trans ht'.symm

theorem local_cwWriteData (indices : List Nat) (act : ColorTable) : WriterLocal (cwWriteData indices act) :=
  (local_cwSizeField act).bind fun _ => lockstep_ite _ (lockstep_raise _ _)
    ((local_lzeEncodeFrame _ _).bind fun _ => local_cwAppend _)

theorem local_cwWriteImage (f : FrameIn) (ct : ColorTable) : WriterLocal (cwWriteImage f ct) := by
  unfold cwWriteImage
  cases f.localColorTable with
  | none => exact (local_cwAppend _).bind fun _ => local_cwWriteData _ ct
  | some lt =>
    exact (local_cwSizeField lt).bind fun _ => (local_cwAppend _).bind fun _ =>
      (local_cwAppend _).bind fun _ => local_cwWriteData _ lt

theorem local_writerOp (i : Instr) : WriterLocal (writerOp i) := by
  cases i with
  | cwWriteHeader => exact local_cwAppend _
  | cwWriteLSD screen gsz => exact local_cwAppend _
  | cwWriteColorTable t => exact local_cwAppend _
  | cwWriteGCE g => exact local_cwAppend _
  | cwWriteImage f ct => exact local_cwWriteImage f ct
  | cwWriteTrailer => exact local_cwAppend _
  | _ => exact lockstep_pure _

theorem local_writerRun (is : List Instr) : WriterLocal (writerRun is) := by
  induction is with
  | nil => exact lockstep_pure _
  | cons i is ih => exact (local_writerOp i).bind fun _ => ih

theorem lockstep_encodeContainer (screen : ScreenIn) (ct : ColorTable) (frames : List FrameIn) :
    Lockstep Unrelated (encodeContainer screen ct frames) SameWriter := by
  have hput : Lockstep Unrelated (putCW { out := [] }) SameWriter := fun _ _ _ => ⟨rfl, rfl⟩
  have hget : WriterLocal getCW := fun _ _ h => ⟨h, h⟩
  unfold encodeContainer
  rw [cwEncodeContainer_eq]
  exact hput.bind fun _ => ((local_cwSizeField ct).bind fun _ => local_writerRun _).bind fun _ =>
    hget.bind fun _ => lockstep_pure _

end Sys2Proof.Machine
end

section
/-! Every command of an idle block ends (R160, R168), and its result is a function of its operands (R167): its
units start from the reset of R400, and the LZW units are set up by their init rules before they are read. -/

namespace Sys2Proof.Machine

variable {P : State → Prop} {R : State → State → Prop} {s s' t t' : State} {code : Byte}
  {input : List Byte} {op : Op Value}

/-! ## How a command ends -/

/-- The state a command leaves whose operation left `u` with the result `r` (R160, R380). -/
def ended (r : Result) (u : State) : State :=
  (u.setHI { u.hi with status := statusOfResult r, cmd := 0#8, result := some r }).setTodo []

theorem commandEnd_eq_ended (v : Value) (u : State) : commandEnd v u = ended (.ok v) u := rfl

theorem errorEntry_eq_ended (e : Err) (u : State) : errorEntry e u = ended (.err e) u := rfl

/-- A command that answers a next state has run its operation, which kept `P`, and has its result. -/
theorem runCommand_ended (ht : runCommand code input op s = .next t) (hop : Keeps P op)
    (hs : P (commandStart code input s)) : ∃ r u, P u ∧ t = ended r u := by
  unfold runCommand at ht
  split at ht
  · cases ht
  · rcases settle_next (hop _ hs) ht with ⟨v, u, hu, hut⟩ | ⟨e, u, hu, rfl⟩
    · cases hut
      exact ⟨.ok v, u, hu, commandEnd_eq_ended v u⟩
    · exact ⟨.err e, u, hu, errorEntry_eq_ended e u⟩

/-- A command whose operation meets no excluded unit state answers a next state. -/
theorem runCommand_next {Q : Value → State → Prop} (hs : s.hi.cmd = 0#8)
    (h : Completes Q (op (commandStart code input s))) : ∃ t, runCommand code input op s = .next t := by
  rw [runCommand_idle s _ _ _ hs]
  rcases hr : op (commandStart code input s) with ⟨v, u⟩ | ⟨e | f, u⟩ <;> rw [hr] at h
  · exact ⟨_, finish_eq u v⟩
  · exact ⟨_, settle_raised u finish e⟩
  · exact h.elim

/-- Two runs of a command's operation that end alike give the host the same. -/
theorem runCommand_alike (hs : s.hi.cmd = 0#8) (hs' : s'.hi.cmd = 0#8)
    (ht : runCommand code input op s = .next t) (ht' : runCommand code input op s' = .next t')
    (h : Alike R (op (commandStart code input s)) (op (commandStart code input s'))) :
    t.hi.result = t'.hi.result ∧ t.hi.status = t'.hi.status ∧ t.hi.result ≠ none := by
  rw [runCommand_idle _ _ _ _ hs] at ht
  rw [runCommand_idle _ _ _ _ hs'] at ht'
  rcases hr : op (commandStart code input s) with ⟨v, u⟩ | ⟨e | f, u⟩ <;> rw [hr] at ht h
  · obtain ⟨u', hr', -⟩ := h.ok_left
    rw [hr'] at ht'
    cases ht
    cases ht'
    exact ⟨rfl, rfl, nofun⟩
  · obtain ⟨u', hr'⟩ := h.error_left
    rw [hr'] at ht'
    cases ht
    cases ht'
    exact ⟨rfl, rfl, nofun⟩
  · cases ht

/-- R400: a command's outcome depends on the command code in progress and on what its start keeps. -/
theorem runCommand_congr (hc : s'.hi.cmd = s.hi.cmd)
    (hs : commandStart code input s' = commandStart code input s) :
    runCommand code input op s' = runCommand code input op s := by
  unfold runCommand
  rw [hc, hs]

/-! ## The four commands -/

/-- R165, R343: a global table of illegal length is found before anything is written. -/
theorem encodeContainer_badTable (s : State) (screen : ScreenIn) {ct : ColorTable} (frames : List FrameIn)
    (h : sizeFieldOf ct.length = none) : encodeContainer screen ct frames s =
      .error (.raised (.assertionFailure .colorTableSize)) (s.setCW { out := [] }) := by
  unfold encodeContainer
  rw [op_bind_of_ok s _ _ (op_putCW s _), cwEncodeContainer_eq]
  refine op_bind_of_error _ _ _ (op_bind_of_error _ _ _ ?_)
  rw [cwSizeField_eq, h]

/-- LZE, BSW and CW have been written. -/
def ContainerFrame (s t : State) : Prop := ∃ e b cw, t = ((s.setLZE e).setBSW b).setCW cw

theorem containerFrame_encoderClosed (s : State) : EncoderClosed (ContainerFrame s) where
  setBSW := by
    rintro _ v ⟨e, b, cw, rfl⟩
    exact ⟨e, v, cw, rfl⟩
  setLZE := by
    rintro _ v ⟨e, b, cw, rfl⟩
    exact ⟨v, b, cw, rfl⟩

theorem ContainerFrame.setCW (h : ContainerFrame s t) (v : ContainerWriter) : ContainerFrame s (t.setCW v) := by
  obtain ⟨e, b, cw, rfl⟩ := h
  exact ⟨e, b, v, rfl⟩

theorem keeps_encodeContainer (s : State) (screen : ScreenIn) (ct : ColorTable) (frames : List FrameIn) :
    Keeps (ContainerFrame s) (encodeContainer screen ct frames) := by
  have hclosed : WriterClosed (ContainerFrame s) :=
    ⟨fun _ _ h => h.setCW _, fun m idx _ => keeps_lzeEncodeFrame (containerFrame_encoderClosed s) m idx⟩
  exact Triple.bind (Q := fun _ => ContainerFrame s) (fun _ h => h.setCW _) fun _ =>
    (keeps_cwEncodeContainer hclosed screen ct frames).bind fun _ => keeps_getCW.bind fun _ => keeps_pure _

/-- R168: each command ends. -/
theorem exec_command_next {i : Instr} (hi : isCommand i = true) (hs : s.hi.cmd = 0#8) :
    ∃ t, exec i s = .next t := by
  cases i with
  | parseContainer bytes =>
    obtain ⟨-, t, -, -, ht⟩ := parseIsItsSteps bytes s hs
    exact ⟨t, ht⟩
  | decodeFrame img act =>
    by_cases hm : mcsInRange img.lzw.minCodeSize = true
    · obtain ⟨-, t, -, -, ht⟩ := decodeFrame_steps img act hs hm rfl
      exact ⟨t, ht⟩
    · refine runCommand_next (Q := fun _ _ => True) hs ?_
      rw [decodeFrame, if_pos (by simpa using hm)]
      trivial
  | encodeFrame m idx =>
    refine runCommand_next (Q := fun _ _ => True) hs ?_
    refine completes_ite _ (fun _ => trivial) fun _ => completes_ite _ (fun _ => trivial) fun hne => ?_
    exact (completes_lzeEncodeFrame m (by simpa using hne) _).bind fun _ _ _ => trivial
  | encodeContainer screen ct frames =>
    cases hn : sizeFieldOf ct.length with
    | some n =>
      obtain ⟨-, t, -, -, ht⟩ := encodeContainer_steps screen frames hs hn
      exact ⟨t, ht⟩
    | none =>
      refine runCommand_next (Q := fun _ _ => True) hs ?_
      rw [encodeContainer_badTable _ screen frames hn]
      trivial
  | _ => cases hi

/-- Settles O8: the command ends in the frame of its family, and R400 sets up every unit but the LZW units
before the operation runs. -/
theorem commandLifecycle : Obligations.CommandLifecycle := by
  unfold Obligations.CommandLifecycle
  intro i s hi hs
  obtain ⟨t, ht⟩ := exec_command_next hi hs
  cases i with
  | parseContainer bytes =>
    obtain ⟨r, _, ⟨n, cp, rfl⟩, rfl⟩ := runCommand_ended ht
      (keeps_parseContainer (parserFrame_closed (commandStart 0x01#8 bytes s)) bytes) ⟨0, _, rfl⟩
    refine ⟨⟨_, r, ht, ?_⟩, fun _ _ _ _ _ _ _ _ => runCommand_congr rfl rfl⟩
    exact ⟨rfl, rfl, rfl, fun _ _ => Instr.noConfusion, fun _ _ => Instr.noConfusion,
      fun _ _ _ => Instr.noConfusion, fun _ _ => ⟨rfl, rfl⟩⟩
  | decodeFrame img act =>
    obtain ⟨r, _, ⟨d, b, rfl⟩, rfl⟩ := runCommand_ended ht
      (keeps_decodeFrame (decoderFrame_closed (commandStart 0x02#8 [] s)) img) ⟨_, _, rfl⟩
    refine ⟨⟨_, r, ht, ?_⟩, fun _ _ _ _ _ _ _ _ => runCommand_congr rfl rfl⟩
    exact ⟨rfl, rfl, rfl, fun _ _ _ => rfl, fun _ _ => Instr.noConfusion, fun _ _ _ => Instr.noConfusion,
      fun _ => Instr.noConfusion⟩
  | encodeFrame m idx =>
    obtain ⟨r, _, ⟨e, b, rfl⟩, rfl⟩ := runCommand_ended ht
      (keeps_encodeFrame (encoderFrame_closed (commandStart 0x03#8 [] s)) m idx) ⟨_, _, rfl⟩
    refine ⟨⟨_, r, ht, ?_⟩, fun _ _ _ _ _ _ _ _ => runCommand_congr rfl rfl⟩
    exact ⟨rfl, rfl, rfl, fun _ _ => Instr.noConfusion, fun _ _ _ => rfl, fun _ _ _ => Instr.noConfusion,
      fun _ => Instr.noConfusion⟩
  | encodeContainer screen ct frames =>
    obtain ⟨r, _, ⟨e, b, cw, rfl⟩, rfl⟩ := runCommand_ended ht
      (keeps_encodeContainer (commandStart 0x04#8 [] s) screen ct frames) ⟨_, _, _, rfl⟩
    refine ⟨⟨_, r, ht, ?_⟩, fun _ _ _ _ _ _ _ _ => runCommand_congr rfl rfl⟩
    exact ⟨rfl, rfl, rfl, fun _ _ => Instr.noConfusion, fun _ _ => Instr.noConfusion, fun _ _ _ _ => rfl,
      fun _ => Instr.noConfusion⟩
  | _ => cases hi

/-- Settles O9: from the command's start the two runs agree on the units the operation reads first, so they
end alike. -/
theorem commandsAreDeterministic : Obligations.CommandsAreDeterministic := by
  unfold Obligations.CommandsAreDeterministic
  intro i s s' hi hs hs'
  obtain ⟨t, ht⟩ := exec_command_next hi hs
  obtain ⟨t', ht'⟩ := exec_command_next hi hs'
  refine ⟨t, t', ht, ht', ?_⟩
  cases i with
  | parseContainer bytes =>
    exact runCommand_alike hs hs' ht ht' (local_parseContainer bytes _ _ ⟨rfl, rfl⟩)
  | decodeFrame img act => exact runCommand_alike hs hs' ht ht' (lockstep_decodeFrame img _ _ trivial)
  | encodeFrame m idx => exact runCommand_alike hs hs' ht ht' (lockstep_encodeFrame m idx _ _ trivial)
  | encodeContainer screen ct frames =>
    exact runCommand_alike hs hs' ht ht' (lockstep_encodeContainer screen ct frames _ _ trivial)
  | _ => cases hi

end Sys2Proof.Machine
end

section
/-! The outcomes of DECODE_FRAME (R163): LZD.init and then decoder steps, until the phase is DONE or an error is
taken. -/

namespace Sys2Proof.Machine

variable {α : Type} {s s' t : State}

/-! ## The errors of a decoder step -/

/-- An operation that raises does so with an error that has `p`, in a state that has `E`. -/
def Raises (p : Err → Prop) (E : State → Prop) : EStateM.Result Stop State α → Prop
  | .ok _ _              => True
  | .error (.raised e) t => p e ∧ E t
  | .error (.stuck _) _  => True

/-- The two errors a frame's data can be decoded to (R163). -/
def IsDataError (e : Err) : Prop := e = .truncatedInput .bitStreamEnd ∨ e = .truncatedInput .badCode

/-- A data error has been raised, and LZD marked (R380). -/
abbrev DataRaises (r : EStateM.Result Stop State α) : Prop := Raises IsDataError (fun t => t.lzd.phase = .error) r

theorem raises_of_ok {p : Err → Prop} {E : State → Prop} {r : EStateM.Result Stop State α} {a : α}
    (h : r = .ok a t) : Raises p E r := by
  rw [h]
  trivial

/-- R213 to R219: of the classes only BAD raises. -/
theorem raises_lzwDispatch (h : DecoderLegal s.lzd) (c : Nat) :
    DataRaises (lzwDispatch (codeContext s.lzd) c s) := by
  unfold lzwDispatch
  cases hcls : classifyCode (codeContext s.lzd) c with
  | eoi => trivial
  | clear => trivial
  | first =>
    obtain ⟨k, w, hq, -⟩ := h.entry (.inl (classifyCode_first hcls))
    exact raises_of_ok (lzwFirst_ok s hq)
  | hit =>
    obtain ⟨hprev, hdef⟩ := classifyCode_hit hcls
    obtain ⟨p, k', w', hp, hq, -⟩ := h.prevEntry hprev
    obtain ⟨k, w, hcode, -⟩ := h.entry hdef
    exact raises_of_ok (lzwHit_ok s hcode hp hq)
  | next =>
    obtain ⟨p, k, w, hp, hq, -⟩ := h.prevEntry (classifyCode_next hcls).1
    exact raises_of_ok (lzwNext_ok s hp hq)
  | bad => exact ⟨.inr rfl, rfl⟩

/-- R212, R213: a step raises where its code's bits are not there, or on a BAD code. -/
theorem raises_lzdStep (h : DecoderRuns s.lzd) : DataRaises (lzdStep s) := by
  have hw := h.2.isWidth
  by_cases hlen : s.lzd.codeSize ≤ (codeSupply s).length
  · have hruns := lzdFetchCode_ends s h
    obtain ⟨k, -, -, -, hfetch⟩ := lzdFetchCode_ok s hw hlen
    rw [hfetch] at hruns
    unfold lzdStep
    rw [op_bind_of_ok s _ _ hfetch, op_bind_of_ok _ _ _ (op_getLZD _)]
    exact raises_lzwDispatch hruns.2.2 _
  · unfold lzdStep
    rw [op_bind_of_error s _ _ (lzdFetchCode_short s hw (Nat.lt_of_not_le hlen))]
    exact ⟨.inl rfl, rfl⟩

/-! ## The steps of a frame -/

/-- `n` decoder steps from `s` lead to `u`, all but the last leaving the phase RUN. -/
structure DecodesIn (n : Nat) (s u : State) : Prop where
  last    : execAll (List.replicate n .lzdStep) s = .next u
  running : ∀ j, j < n → ∃ v, execAll (List.replicate j .lzdStep) s = .next v ∧ v.lzd.phase = .run

theorem DecodesIn.succ {n : Nat} {u : State} (hp : s.lzd.phase = .run) (hs : exec .lzdStep s = .next t)
    (h : DecodesIn n t u) : DecodesIn (n + 1) s u := by
  have hcons : ∀ j, execAll (List.replicate (j + 1) .lzdStep) s = execAll (List.replicate j .lzdStep) t :=
    fun j => by rw [List.replicate_succ, execAll, hs]
  refine ⟨(hcons n).trans h.last, fun j hj => ?_⟩
  cases j with
  | zero => exact ⟨s, rfl, hp⟩
  | succ j =>
    obtain ⟨v, hv, hrun⟩ := h.running j (Nat.lt_of_succ_lt_succ hj)
    exact ⟨v, (hcons j).trans hv, hrun⟩

/-- How the decoder's loop ends, where its steps have led to `u`. -/
def LoopEnd (u : State) (r : EStateM.Result Stop State Unit) : Prop :=
  (u.lzd.phase = .done ∧ r = .ok () u) ∨
    ∃ e v, IsDataError e ∧ v.lzd.phase = .error ∧ u = errorEntry e v ∧ r = .error (.raised e) v

/-- R163: the decoder's loop is decoder steps; the bits left bound how many (R168). -/
theorem decodesIn_lzdLoop (fuel : Nat) (h : DecoderRuns s.lzd) (hw : (codeSupply s).length < fuel) :
    ∃ n u, DecodesIn n s u ∧ LoopEnd u (lzdLoop fuel s) := by
  induction fuel generalizing s with
  | zero => exact absurd hw (Nat.not_lt_zero _)
  | succ fuel ih =>
    cases hph : s.lzd.phase with
    | error => exact absurd hph h.1
    | done => exact ⟨0, s, ⟨rfl, nofun⟩, .inl ⟨hph, lzdLoop_done hph fuel⟩⟩
    | run =>
      have hstep := (completes_lzdStep s h).and (triple_lzdStep s h)
      have hraises := raises_lzdStep h
      have hexec : exec .lzdStep s = runUnit lzdStep s := rfl
      rw [runUnit_eq] at hexec
      rw [lzdLoop_step (by rw [hph]; nofun)]
      rcases hr : lzdStep s with ⟨a, t⟩ | ⟨e | f, t⟩ <;> rw [hr] at hstep hraises hexec
      · obtain ⟨hlt, hruns⟩ := hstep
        obtain ⟨n, u, hn, hend⟩ := ih hruns (by omega)
        rw [op_bind_of_ok s _ _ hr]
        exact ⟨n + 1, u, hn.succ hph hexec, hend⟩
      · obtain ⟨he, ht⟩ := hraises
        rw [op_bind_of_error s _ _ hr]
        exact ⟨1, errorEntry e t, DecodesIn.succ hph hexec ⟨rfl, nofun⟩, .inr ⟨e, t, he, ht, rfl, rfl⟩⟩
      · exact hstep.elim

/-! ## The command -/

/-- R210: the state LZD.init leaves has a legal decoder, and the bits of the sub-blocks to read. -/
theorem lzdInit_runs {m : Byte} (subs : Blocks) (hm : mcsInRange m = true) (s : State) :
    ∃ u, lzdInit m subs s = .ok () u ∧ DecoderRuns u.lzd ∧ (codeSupply u).length = bitSupply subs :=
  ⟨_, lzdInit_eq s m subs, ⟨nofun, decoderLegal_fresh hm rfl rfl (fun _ hi => by cases hi) (Nat.zero_le _)⟩,
    length_bytesBits _⟩

/-- R160: after init the command is the loop from there and its end. -/
theorem exec_decodeFrame_eq (img : ImageBlock) (act : Option ColorTable) (hs : s.hi.cmd = 0#8)
    (hm : mcsInRange img.lzw.minCodeSize = true) : ∃ c,
      lzdInit img.lzw.minCodeSize img.lzw.subBlocks (commandStart 0x02#8 [] s) = .ok () c ∧
      exec (.decodeFrame img act) s = settle decodeEnd (lzdLoop (bitSupply img.lzw.subBlocks + 1) c) := by
  refine ⟨_, lzdInit_eq _ _ _, ?_⟩
  show runCommand 0x02#8 [] (decodeFrame img) s = _
  rw [runCommand_idle s _ _ _ hs, decodeFrame, if_neg (by simp [hm]), settle_bind, lzdInit_eq, settle_ok,
    settle_bind]
  rfl

/-- R163: DECODE_FRAME ends as LZD.init and decoder steps from any state do, since its units are set up by
init in both. -/
theorem decodeFrame_outcome (img : ImageBlock) (act : Option ColorTable) (hs : s.hi.cmd = 0#8)
    (hm : mcsInRange img.lzw.minCodeSize = true) : ∃ n w u t,
      exec (.lzdInit img.lzw.minCodeSize img.lzw.subBlocks) s = .next w ∧ DecodesIn n w u ∧
      exec (.decodeFrame img act) s = .next t ∧
      ((u.lzd.phase = .done ∧ Returned (.indices u.lzd.out) t) ∨
        ∃ e, IsDataError e ∧ u.lzd.phase = .error ∧ ErrorTaken e u ∧ ErrorTaken e t) := by
  obtain ⟨w, hw, hruns, hsupply⟩ := lzdInit_runs img.lzw.subBlocks hm s
  obtain ⟨n, u, hn, hend⟩ := decodesIn_lzdLoop (bitSupply img.lzw.subBlocks + 1) hruns (by omega)
  obtain ⟨c, hc, hexec⟩ := exec_decodeFrame_eq img act hs hm
  have hinit := lockstep_lzdInit img.lzw.minCodeSize img.lzw.subBlocks s (commandStart 0x02#8 [] s) trivial
  rw [hw, hc] at hinit
  have hloop := local_lzdLoop (bitSupply img.lzw.subBlocks + 1) w c hinit.2
  have hw' : exec (.lzdInit img.lzw.minCodeSize img.lzw.subBlocks) s = .next w := by
    show runUnit (lzdInit _ _) s = _
    rw [runUnit_eq, hw]
  rcases hend with ⟨hdone, hr⟩ | ⟨e, v, he, hv, rfl, hr⟩ <;> rw [hr] at hloop
  · obtain ⟨c', hr', hlzd, -⟩ := hloop.ok_left
    rw [hr'] at hexec
    exact ⟨n, w, u, _, hw', hn, hexec, .inl ⟨hdone, hlzd ▸ ⟨rfl, rfl, rfl, rfl⟩⟩⟩
  · obtain ⟨c', hr'⟩ := hloop.error_left
    rw [hr'] at hexec
    exact ⟨n, w, _, _, hw', hn, hexec, .inr ⟨e, he, hv, ⟨rfl, rfl, rfl, rfl⟩, rfl, rfl, rfl, rfl⟩⟩

theorem mcsInRange_eq_false {m : Byte} (h : m.toNat < 2 ∨ 8 < m.toNat) : mcsInRange m = false := by
  rw [Bool.eq_false_iff, ne_eq, mcsInRange_iff]
  omega

/-- An error that a command's operation raises is taken (R380). -/
theorem runCommand_errorTaken {code : Byte} {input : List Byte} {op : Op Value} {e : Err} {u : State}
    (hs : s.hi.cmd = 0#8) (h : op (commandStart code input s) = .error (.raised e) u) :
    ∃ t, runCommand code input op s = .next t ∧ ErrorTaken e t :=
  ⟨errorEntry e u, by rw [runCommand_idle s _ _ _ hs, h, settle_raised], rfl, rfl, rfl, rfl⟩

/-- Settles O50: the table is not an operand of the meaning, the code size is tested first, and the rest is the
decoder's loop. -/
theorem decodeFrameOutcomes : Obligations.DecodeFrameOutcomes := by
  unfold Obligations.DecodeFrameOutcomes
  intro img act s hs
  refine ⟨fun _ => rfl, fun hm => ?_, fun h2 h8 => ?_⟩
  · exact runCommand_errorTaken hs (congrFun (if_pos (by simp [mcsInRange_eq_false hm])) _)
  · obtain ⟨n, w, u, t, hw, hn, ht, hout⟩ := decodeFrame_outcome img act hs ((mcsInRange_iff _).mpr ⟨h2, h8⟩)
    have hcons : ∀ is, execAll (.lzdInit img.lzw.minCodeSize img.lzw.subBlocks :: is) s = execAll is w :=
      fun is => by rw [execAll, hw]
    refine ⟨n, u, t, (hcons _).trans hn.last, fun j hj => ?_, ht, hout⟩
    rw [hcons]
    exact hn.running j hj

end Sys2Proof.Machine
end

section
/-! The outcomes of ENCODE_FRAME (R164, R250): the encoding of a frame returns exactly where every index lies in
the alphabet, and raises IndexOutOfAlphabet elsewhere. -/

namespace Sys2Proof.Machine

variable {α β : Type} {p q : Prop} {e : Err} {Q : α → State → Prop}

/-! ## Operations that return exactly where a check holds -/

/-- The operation returns, with `Q`, where `p` holds, and raises `e` where it does not. -/
def Checks (p : Prop) (e : Err) (Q : α → State → Prop) : EStateM.Result Stop State α → Prop
  | .ok a t               => p ∧ Q a t
  | .error (.raised e') _ => ¬ p ∧ e' = e
  | .error (.stuck _) _   => False

theorem checks_of_ok {r : EStateM.Result Stop State α} {a : α} {t : State} (h : r = .ok a t) (hp : p)
    (hQ : Q a t) : Checks p e Q r := by
  rw [h]
  exact ⟨hp, hQ⟩

theorem checks_of_raised {r : EStateM.Result Stop State α} {t : State} (h : r = .error (.raised e) t)
    (hp : ¬ p) : Checks p e Q r := by
  rw [h]
  exact ⟨hp, rfl⟩

theorem Checks.returns {r : EStateM.Result Stop State α} (h : Checks p e Q r) (hp : p) :
    ∃ a t, r = .ok a t ∧ Q a t := by
  rcases r with ⟨a, t⟩ | ⟨e' | f, t⟩
  · exact ⟨a, t, rfl, h.2⟩
  · exact absurd hp h.1
  · exact h.elim

theorem Checks.raises {r : EStateM.Result Stop State α} (h : Checks p e Q r) (hp : ¬ p) :
    ∃ t, r = .error (.raised e) t := by
  rcases r with ⟨a, t⟩ | ⟨e' | f, t⟩
  · exact absurd h.1 hp
  · obtain ⟨-, rfl⟩ := h
    exact ⟨t, rfl⟩
  · exact h.elim

theorem Checks.congr {r : EStateM.Result Stop State α} (h : Checks p e Q r) (hpq : p ↔ q) :
    Checks q e Q r := by
  rwa [← propext hpq]

/-- A sequence makes the checks of both its operations. -/
theorem Checks.bind {s : State} {x : Op α} {f : α → Op β} {R : β → State → Prop} (hx : Checks p e Q (x s))
    (hf : ∀ a t, Q a t → Checks q e R (f a t)) : Checks (p ∧ q) e R ((x >>= f) s) := by
  by_cases hp : p
  · obtain ⟨a, t, hr, hQ⟩ := hx.returns hp
    rw [op_bind_of_ok s _ f hr]
    exact (hf a t hQ).congr (and_iff_right hp).symm
  · obtain ⟨t, hr⟩ := hx.raises hp
    exact checks_of_raised (op_bind_of_error s _ f hr) fun h => hp h.1

/-- What follows a check may check nothing. -/
theorem Checks.andThen {s : State} {x : Op α} {f : α → Op β} {R : β → State → Prop} (hx : Checks p e Q (x s))
    (hf : ∀ a t, Q a t → Checks True e R (f a t)) : Checks p e R ((x >>= f) s) :=
  (hx.bind hf).congr (and_iff_left trivial)

/-! ## The encoder's operations -/

section
variable {m : Byte} {idx : List Nat} {pos k : Nat} {s : State}

/-- The encoder is encoding `idx`, with `pos` of its indices consumed, and meets R262. -/
structure EncoderAt (m : Byte) (idx : List Nat) (pos : Nat) (s : State) : Prop where
  runs     : EncoderRuns s
  encoding : EncodingAt m idx pos s

theorem EncoderAt.clearCode (h : EncoderAt m idx pos s) : s.lze.clearCode = 2 ^ m.toNat := by
  rw [h.runs.legal.clear, h.encoding.minCodeSize]

/-- R256 to R258: a MISS of a legal encoder returns, since the codes it writes fit the width. -/
theorem lzeMiss_returns (h : EncoderLegal s.lze) (k : Nat) : ∃ t, lzeMiss k s = .ok () t := by
  obtain ⟨b, -, he⟩ := lzeEmit_buffer s h
  by_cases hn : s.lze.nextCode ≤ 4095
  · exact ⟨_, lzeMiss_insert s he hn⟩
  · obtain ⟨_, -, hu⟩ := lzeEmit_fits ((s.setBSW b).setLZE (insertNext s.lze k)) h.isWidth h.reserved_lt.1
    exact ⟨_, lzeMiss_reset s he (Nat.lt_of_not_le hn) hu⟩

theorem lzeHandle_returns (h : EncoderLegal s.lze) (k : Nat) : ∃ t, lzeHandle s.lze k s = .ok () t := by
  unfold lzeHandle
  split
  · exact ⟨_, lzeExtend_eq s k⟩
  · exact lzeMiss_returns h k

theorem EncoderAt.handle (h : EncoderAt m idx pos s) (hk : k < s.lze.clearCode) :
    Checks True e (fun _ => EncoderAt m idx pos) (lzeHandle s.lze k s) := by
  have hends := lzeHandle_ends h.runs hk
  have hat := h.encoding.handle s.lze k
  obtain ⟨t, ht⟩ := lzeHandle_returns h.runs.legal k
  rw [ht] at hends hat ⊢
  exact ⟨trivial, hends, hat⟩

/-- R253, R254: the next index is consumed where it lies in the alphabet. -/
theorem EncoderAt.nextIndex (h : EncoderAt m idx pos s) (hlt : pos < idx.length) :
    Checks (idx[pos] < 2 ^ m.toNat) (.assertionFailure .indexOutOfAlphabet)
      (fun k t => EncoderAt m idx (pos + 1) t ∧ k < t.lze.clearCode) (lzeNextIndex s) := by
  have hk : s.lze.input[s.lze.inPos]? = some idx[pos] := by
    rw [h.encoding.input, h.encoding.inPos]
    exact List.getElem?_eq_getElem hlt
  have hends := lzeNextIndex_ends h.runs
  have hat := h.encoding.nextIndex hlt
  have heq := lzeNextIndex_eq s hk
  rw [h.clearCode] at heq
  by_cases hc : idx[pos] < 2 ^ m.toNat
  · rw [heq, if_pos hc] at hends hat ⊢
    exact ⟨hc, ⟨hends.1, hat⟩, hends.2⟩
  · exact checks_of_raised (heq.trans (if_neg hc)) hc

theorem EncoderAt.step (h : EncoderAt m idx pos s) (hlt : pos < idx.length) :
    Checks (idx[pos] < 2 ^ m.toNat) (.assertionFailure .indexOutOfAlphabet)
      (fun _ => EncoderAt m idx (pos + 1)) (lzeStep s) :=
  (h.nextIndex hlt).andThen fun _ _ ht => ht.1.handle ht.2

/-- R250: with no index left there is none to check. -/
theorem EncoderAt.loop_end (h : EncoderAt m idx pos s) (hle : idx.length ≤ pos) (fuel : Nat) :
    Checks (∀ k ∈ idx.drop pos, k < 2 ^ m.toNat) e (fun _ => EncoderRuns) (lzeLoop fuel s) := by
  have hend := lzeLoop_end (s := s) (by rwa [h.encoding.input, h.encoding.inPos]) fuel
  exact checks_of_ok hend (by simp [List.drop_eq_nil_of_le hle]) h.runs

/-- R250: the loop checks the indices left. -/
theorem EncoderAt.loop (h : EncoderAt m idx pos s) (fuel : Nat) (hle : idx.length ≤ pos + fuel) :
    Checks (∀ k ∈ idx.drop pos, k < 2 ^ m.toNat) (.assertionFailure .indexOutOfAlphabet)
      (fun _ => EncoderRuns) (lzeLoop fuel s) := by
  induction fuel generalizing s pos with
  | zero => exact h.loop_end hle 0
  | succ fuel ih =>
    by_cases hlt : pos < idx.length
    · rw [lzeLoop_step (by rwa [h.encoding.input, h.encoding.inPos]), List.drop_eq_getElem_cons hlt]
      refine Checks.congr ?_ List.forall_mem_cons.symm
      exact (h.step hlt).bind fun _ t ht => ih ht (by omega)
    · exact h.loop_end (Nat.le_of_not_lt hlt) _

/-- R260, R261: the end of the input of a legal encoder returns, since its codes fit the width, also after it
has widened. -/
theorem lzeFinish_returns (h : EncoderLegal s.lze) : ∃ t, lzeFinish s = .ok () t := by
  obtain ⟨b, -, he⟩ := lzeEmit_buffer s h
  have hwide : s.lze.codeSize ≤ (if widensAtEnd s.lze then s.lze.codeSize + 1 else s.lze.codeSize) ∧
      (if widensAtEnd s.lze then s.lze.codeSize + 1 else s.lze.codeSize) ≤ 12 := by
    split
    · next hw =>
      simp only [widensAtEnd, Bool.and_eq_true, decide_eq_true_eq] at hw
      exact ⟨Nat.le_succ _, hw.2⟩
    · exact ⟨Nat.le_refl _, h.widthHigh⟩
  have h' := h.update (phase := s.lze.phase) hwide.1 hwide.2 h.buffer h.inPos
  obtain ⟨b', -, hu⟩ := lzeEmit_fits ((s.setBSW b).setLZE { s.lze with
    codeSize := if widensAtEnd s.lze then s.lze.codeSize + 1 else s.lze.codeSize }) h'.isWidth h'.reserved_lt.2
  exact ⟨_, lzeFinish_ok s he hu rfl⟩

theorem checks_lzeFinish (h : EncoderRuns s) : Checks True e (fun _ => EncoderRuns) (lzeFinish s) := by
  have hends := triple_lzeFinish s h
  obtain ⟨t, ht⟩ := lzeFinish_returns h.legal
  rw [ht] at hends ⊢
  exact ⟨trivial, hends⟩

/-- R251: init checks the seed index, and the initial CLEAR fits the first width. -/
theorem checks_lzeBegin (hm : mcsInRange m = true) (rest : List Nat) (s : State) :
    Checks (k < 2 ^ m.toNat) (.assertionFailure .indexOutOfAlphabet) (fun _ => EncoderAt m (k :: rest) 1)
      (lzeBegin m (k :: rest) s) := by
  have hends := triple_lzeBegin (k :: rest) hm s trivial
  have hat := completes_lzeBegin m (List.cons_ne_nil k rest) s
  have hinit := lzeInit_eq s m k rest
  have hruns := triple_lzeInit (k :: rest) hm s trivial
  by_cases hk : k < 2 ^ m.toNat
  · rw [if_pos hk] at hinit
    rw [hinit] at hruns
    obtain ⟨b, -, hemit⟩ := lzeEmit_fits _ hruns.legal.isWidth hruns.legal.reserved_lt.1
    have hbegin : ∃ t, lzeBegin m (k :: rest) s = .ok () t := by
      unfold lzeBegin
      rw [op_bind_of_ok s _ _ hinit, op_bind_of_ok _ _ _ (op_getLZE _), hemit]
      exact ⟨_, rfl⟩
    obtain ⟨t, ht⟩ := hbegin
    rw [ht] at hends hat ⊢
    exact ⟨hk, hends, hat⟩
  · rw [if_neg hk] at hinit
    exact checks_of_raised (op_bind_of_error s _ _ hinit) hk

/-- R199: a packed frame starts with the code size and ends with the terminator. -/
def IsPacked (m : Byte) (data : List Byte) : Prop := data.head? = some m ∧ data.getLast? = some 0x00#8

theorem isPacked_packSubBlocks (m : Byte) (data : List Byte) : IsPacked m (packSubBlocks m data) := by
  simp [IsPacked, packSubBlocks, runBytes, List.getLast?_cons]

theorem checks_lzePacked (m : Byte) (h : EncoderRuns s) :
    Checks True e (fun data _ => IsPacked m data) (lzePacked m s) := by
  have hclose : ∃ t, bswClose s = .ok () t := by
    rw [bswClose_eq]
    split
    · exact ⟨_, rfl⟩
    · rw [if_neg (Nat.not_lt.mpr (Nat.le_succ_of_le h.bits))]
      exact ⟨_, rfl⟩
  obtain ⟨t, ht⟩ := hclose
  unfold lzePacked
  rw [op_bind_of_ok s _ _ ht]
  exact ⟨trivial, isPacked_packSubBlocks m t.bsw.out⟩

/-- R250: the encoding of a frame checks every index, and nothing else. -/
theorem checks_lzeEncodeFrame (hm : mcsInRange m = true) (hne : idx ≠ []) (s : State) :
    Checks (∀ k ∈ idx, k < 2 ^ m.toNat) (.assertionFailure .indexOutOfAlphabet)
      (fun data _ => IsPacked m data) (lzeEncodeFrame m idx s) := by
  obtain ⟨k, rest, rfl⟩ := List.exists_cons_of_ne_nil hne
  refine Checks.congr ?_ List.forall_mem_cons.symm
  exact (checks_lzeBegin hm rest s).bind fun _ _ ht =>
    (ht.loop (k :: rest).length (Nat.le_add_left _ _)).andThen fun _ _ hu =>
      (checks_lzeFinish hu).andThen fun _ _ hv => checks_lzePacked m hv

end

/-! ## The command -/

theorem runCommand_returned {code : Byte} {input : List Byte} {op : Op Value} {v : Value} {s u : State}
    (hs : s.hi.cmd = 0#8) (h : op (commandStart code input s) = .ok v u) :
    ∃ t, runCommand code input op s = .next t ∧ Returned v t :=
  ⟨commandEnd v u, by rw [runCommand_idle s _ _ _ hs, h, settle_ok, finish_eq], rfl, rfl, rfl, rfl⟩

/-- R164: past its two tests of the operands the command is the encoding of a frame. -/
theorem encodeFrame_eq {m : Byte} {idx : List Nat} (hm : mcsInRange m = true) (hne : idx ≠ []) :
    encodeFrame m idx = (do let data ← lzeEncodeFrame m idx; return .bytes data) := by
  rw [encodeFrame, if_neg (by simp [hm]), if_neg (by simpa using hne)]

/-- Settles O51: the operands are tested in their order, and the rest is the encoding of a frame, which sets up
its units, so it writes the same bytes from any state. -/
theorem encodeFrameOutcomes : Obligations.EncodeFrameOutcomes := by
  unfold Obligations.EncodeFrameOutcomes
  intro m idx s hs
  refine ⟨fun hm => ?_, fun h2 h8 => ?_⟩
  · exact runCommand_errorTaken hs (congrFun (if_pos (by simp [mcsInRange_eq_false hm])) _)
  have hm := (mcsInRange_iff m).mpr ⟨h2, h8⟩
  refine ⟨fun hnil => ?_, fun ⟨k, hk, hbig⟩ => ?_, fun hne hall => ?_⟩
  · refine runCommand_errorTaken (op := encodeFrame m idx)
      (u := markError .lze (commandStart 0x03#8 [] s)) hs ?_
    rw [encodeFrame, if_neg (by simp [hm]), if_pos (by simp [hnil]), op_raise]
  · have hne : idx ≠ [] := List.ne_nil_of_mem hk
    obtain ⟨u, hu⟩ := (checks_lzeEncodeFrame hm hne (commandStart 0x03#8 [] s)).raises fun hall =>
      Nat.not_lt.mpr hbig (hall k hk)
    refine runCommand_errorTaken (op := encodeFrame m idx) (u := u) hs ?_
    rw [encodeFrame_eq hm hne]
    exact op_bind_of_error _ _ _ hu
  · obtain ⟨data, u, hu, hhead, hlast⟩ := (checks_lzeEncodeFrame hm hne s).returns hall
    have hsame := lockstep_lzeEncodeFrame m idx s (commandStart 0x03#8 [] s) trivial
    rw [hu] at hsame
    obtain ⟨c, hc, -⟩ := hsame.ok_left
    obtain ⟨t, ht, hret⟩ := runCommand_returned (op := encodeFrame m idx) (v := .bytes data) (u := c) hs (by
      rw [encodeFrame_eq hm hne]
      exact op_bind_of_ok _ _ _ hc)
    refine ⟨t, u, data, ?_, ht, hret, hhead, hlast⟩
    show runRet .bytes (lzeEncodeFrame m idx) s = _
    rw [runRet_eq, hu]

end Sys2Proof.Machine
end

section
/-! The outcomes of ENCODE_CONTAINER (R165, R340, R383): each frame is checked where it is written, so the first
illegal one ends the command with its error. -/

namespace Sys2Proof.Machine

variable {s u : State} {ct act : ColorTable} {n : BitVec 3}

/-! ## A frame -/

/-- The image data a frame is written with is legal over the table `act` (R346, R404.4). -/
def DataLegal (act : ColorTable) (indices : List Nat) : Prop :=
  isTable act = true ∧ indices ≠ [] ∧
    ∀ n, sizeFieldOf act.length = some n → ∀ i ∈ indices, i < 2 ^ max 2 (n.toNat + 1)

/-- The error illegal image data takes, in the order of the checks of R346. -/
def dataError (act : ColorTable) (indices : List Nat) : AssertionReason :=
  if isTable act = false then .colorTableSize
  else if indices = [] then .emptyIndexStream else .indexOutOfAlphabet

/-- Where the global table is legal, what is legal of a frame is its image data. -/
theorem frameLegal_iff (hct : isTable ct = true) (f : FrameIn) :
    FrameLegal ct f ↔ DataLegal (frameTable f ct) f.indices := by
  unfold FrameLegal DataLegal frameTable
  refine and_congr_left fun _ => ?_
  cases f.localColorTable with
  | none => simp [hct]
  | some lt => simp

theorem isTable_of_sizeField (h : sizeFieldOf act.length = some n) : isTable act = true := by
  simp [isTable, h]

/-- R343: a table of illegal length is found by sizeField, whatever follows. -/
theorem checks_badTable (g : BitVec 3 → Op Unit) (indices : List Nat) (h : sizeFieldOf act.length = none) :
    Checks (DataLegal act indices) (.assertionFailure (dataError act indices)) (fun _ _ => True)
      ((cwSizeField act >>= g) s) := by
  have hbad : isTable act = false := by simp [isTable, h]
  have hrun : cwSizeField act s = .error (.raised (.assertionFailure .colorTableSize)) s := by
    rw [cwSizeField_eq, h]
  rw [dataError, if_pos hbad]
  refine checks_of_raised (op_bind_of_error s _ g hrun) fun hlegal => ?_
  exact Bool.false_ne_true (hbad.symm.trans hlegal.1)

/-- R346: the minimum code size a frame is encoded with. -/
theorem codeSizeFor_toNat (n : BitVec 3) : (codeSizeFor n).toNat = max 2 (n.toNat + 1) := by
  revert n
  decide

/-- R346: the writer checks the table, then that there is an index, then the alphabet. -/
theorem checks_cwWriteData (act : ColorTable) (indices : List Nat) (s : State) :
    Checks (DataLegal act indices) (.assertionFailure (dataError act indices)) (fun _ _ => True)
      (cwWriteData indices act s) := by
  cases hn : sizeFieldOf act.length with
  | none => exact checks_badTable _ indices hn
  | some n =>
    have hok := isTable_of_sizeField hn
    rw [dataError, if_neg (by simp [hok]), cwWriteData, op_bind_of_ok s _ _ (cwSizeField_ok s hn)]
    by_cases hnil : indices = []
    · rw [if_pos hnil, if_pos (by simp [hnil])]
      exact ⟨fun h => h.2.1 hnil, rfl⟩
    · have hlegal : (∀ i ∈ indices, i < 2 ^ (codeSizeFor n).toNat) ↔ DataLegal act indices := by
        simp [DataLegal, hok, hnil, hn, codeSizeFor_toNat]
      rw [if_neg hnil, if_neg (by simpa using hnil)]
      refine Checks.congr ?_ hlegal
      exact (checks_lzeEncodeFrame (mcsInRange_codeSizeFor n) hnil s).andThen fun _ _ _ => ⟨trivial, trivial⟩

/-- R346: a bad local table is found before the descriptor is written, with the error of its image data. -/
theorem checks_cwWriteImage (f : FrameIn) (ct : ColorTable) (s : State) :
    Checks (DataLegal (frameTable f ct) f.indices) (.assertionFailure (dataError (frameTable f ct) f.indices))
      (fun _ _ => True) (cwWriteImage f ct s) := by
  cases hl : f.localColorTable with
  | none =>
    rw [cwWriteImage_none s f ct hl, frameTable, hl]
    exact checks_cwWriteData ct f.indices _
  | some lt =>
    rw [frameTable, hl]
    cases hn : sizeFieldOf lt.length with
    | none =>
      unfold cwWriteImage
      rw [hl]
      exact checks_badTable _ f.indices hn
    | some lsz =>
      rw [cwWriteImage_some s f ct hl hn]
      exact checks_cwWriteData lt f.indices _

/-- R347: the GCE before it checks nothing. -/
theorem checks_cwWriteFrame (hct : isTable ct = true) (f : FrameIn) (s : State) :
    Checks (FrameLegal ct f) (.assertionFailure (dataError (frameTable f ct) f.indices)) (fun _ _ => True)
      (cwWriteFrame ct f s) := by
  refine Checks.congr ?_ (frameLegal_iff hct f).symm
  unfold cwWriteFrame
  cases f.gce with
  | none => exact checks_cwWriteImage f ct s
  | some g => exact checks_cwWriteImage f ct _

/-! ## The frames -/

theorem cwWriteFrames_ok (hct : isTable ct = true) (frames : List FrameIn) (s : State)
    (h : ∀ f ∈ frames, FrameLegal ct f) : ∃ t, cwWriteFrames ct frames s = .ok () t := by
  induction frames generalizing s with
  | nil => exact ⟨s, rfl⟩
  | cons f rest ih =>
    obtain ⟨hf, hrest⟩ := List.forall_mem_cons.mp h
    obtain ⟨_, t, ht, -⟩ := (checks_cwWriteFrame hct f s).returns hf
    rw [cwWriteFrames, op_bind_of_ok s _ _ ht]
    exact ih t hrest

/-- R383: the frames before the first illegal one are written, and none after it. -/
theorem cwWriteFrames_raises (hct : isTable ct = true) (pre post : List FrameIn) {f : FrameIn} (s : State)
    (hpre : ∀ g ∈ pre, FrameLegal ct g) (hf : ¬ FrameLegal ct f) : ∃ t, cwWriteFrames ct (pre ++ f :: post) s =
      .error (.raised (.assertionFailure (dataError (frameTable f ct) f.indices))) t := by
  induction pre generalizing s with
  | nil =>
    obtain ⟨t, ht⟩ := (checks_cwWriteFrame hct f s).raises hf
    exact ⟨t, op_bind_of_error s _ _ ht⟩
  | cons g rest ih =>
    obtain ⟨hg, hrest⟩ := List.forall_mem_cons.mp hpre
    obtain ⟨_, t, ht, -⟩ := (checks_cwWriteFrame hct g s).returns hg
    rw [List.cons_append, cwWriteFrames, op_bind_of_ok s _ _ ht]
    exact ih t hrest

/-! ## The command -/

/-- R340: past the check of the global table, what can end the writer early is a frame. -/
theorem cwEncodeContainer_frames (screen : ScreenIn) (hn : sizeFieldOf ct.length = some n) (s : State) :
    ∃ c, ∀ frames, cwEncodeContainer screen ct frames s =
      (do cwWriteFrames ct frames; cwWriteTrailer : Op Unit) c :=
  ⟨_, fun _ => (op_bind_of_ok s _ _ (cwSizeField_ok s hn)).trans <|
    (op_bind_of_ok s _ _ (cwAppend_eq s _)).trans <| (op_bind_of_ok _ _ _ (cwAppend_eq _ _)).trans <|
      op_bind_of_ok _ _ _ (cwAppend_eq _ _)⟩

theorem writerRun_containerOps (screen : ScreenIn) (frames : List FrameIn)
    (hn : sizeFieldOf ct.length = some n) (s : State) :
    writerRun (containerOps screen n ct frames) s = cwEncodeContainer screen ct frames s := by
  rw [cwEncodeContainer_eq, op_bind_of_ok s _ _ (cwSizeField_ok s hn)]

/-- Operations that all return are what the machine runs of them by name. -/
theorem execAll_of_writerRun {is : List Instr} (hall : ∀ i ∈ is, isWriterOp i = true)
    (h : writerRun is s = .ok () u) : execAll is s = .next u := by
  induction is generalizing s with
  | nil =>
    cases h
    rfl
  | cons i is ih =>
    obtain ⟨hi, his⟩ := List.forall_mem_cons.mp hall
    obtain ⟨_, t, ht, hrest⟩ := op_bind_eq_ok.mp h
    rw [execAll, (writerSpec hi).exec_eq, runUnit_eq, ht]
    exact ih his hrest

/-- R165: the command is the writer from an empty CW.out, and its bytes. -/
theorem encodeContainer_eq (screen : ScreenIn) (ct : ColorTable) (frames : List FrameIn) (s : State) :
    encodeContainer screen ct frames s =
      (do cwEncodeContainer screen ct frames; let cw ← getCW; return .bytes cw.out : Op Value)
        (s.setCW { out := [] }) := op_bind_of_ok s _ _ (op_putCW s _)

/-- R165, R383: legal frames are written, with the bytes the operations of R340 write from any state. -/
theorem encodeContainer_returned (screen : ScreenIn) {frames : List FrameIn} (hs : s.hi.cmd = 0#8)
    (hn : sizeFieldOf ct.length = some n) (h : ∀ f ∈ frames, FrameLegal ct f) : ∃ t u,
      execAll (containerOps screen n ct frames) (s.setCW { out := [] }) = .next u ∧
      exec (.encodeContainer screen ct frames) s = .next t ∧ Returned (.bytes u.cw.out) t := by
  obtain ⟨c, hc⟩ := cwEncodeContainer_frames screen hn (s.setCW { out := [] })
  obtain ⟨v, hv⟩ := cwWriteFrames_ok (isTable_of_sizeField hn) frames c h
  have hrun := (writerRun_containerOps screen frames hn (s.setCW { out := [] })).trans
    ((hc frames).trans (op_bind_of_ok c _ _ hv))
  rw [cwWriteTrailer, cwAppend_eq] at hrun
  have hsame := local_writerRun (containerOps screen n ct frames) (s.setCW { out := [] })
    ((commandStart 0x04#8 [] s).setCW { out := [] }) rfl
  rw [hrun] at hsame
  obtain ⟨w, hw, hcw⟩ := hsame.ok_left
  rw [writerRun_containerOps screen frames hn] at hw
  obtain ⟨t, ht, hret⟩ := runCommand_returned (op := encodeContainer screen ct frames) (v := .bytes w.cw.out)
    (u := w) hs ((encodeContainer_eq _ _ _ _).trans (op_bind_of_ok _ _ _ hw))
  exact ⟨t, _, execAll_of_writerRun (isWriterOp_containerOps screen n ct frames) hrun, ht, hcw ▸ hret⟩

/-- R165, R383: the first illegal frame ends the command with its error. -/
theorem encodeContainer_errorTaken (screen : ScreenIn) (pre post : List FrameIn) {f : FrameIn}
    (hs : s.hi.cmd = 0#8) (hn : sizeFieldOf ct.length = some n) (hpre : ∀ g ∈ pre, FrameLegal ct g)
    (hf : ¬ FrameLegal ct f) : ∃ t, exec (.encodeContainer screen ct (pre ++ f :: post)) s = .next t ∧
      ErrorTaken (.assertionFailure (dataError (frameTable f ct) f.indices)) t := by
  obtain ⟨c, hc⟩ := cwEncodeContainer_frames screen hn ((commandStart 0x04#8 [] s).setCW { out := [] })
  obtain ⟨v, hv⟩ := cwWriteFrames_raises (isTable_of_sizeField hn) pre post c hpre hf
  exact runCommand_errorTaken (op := encodeContainer screen ct _) hs ((encodeContainer_eq _ _ _ _).trans
    (op_bind_of_error _ _ _ ((hc _).trans (op_bind_of_error c _ _ hv))))

/-- Settles O52: the global table is checked first, and then the frames in their order. -/
theorem encodeContainerOutcomes : Obligations.EncodeContainerOutcomes := by
  unfold Obligations.EncodeContainerOutcomes
  intro screen ct frames s hs
  refine ⟨fun hbad => ?_, fun n hlen => ?_⟩
  · have hnone : sizeFieldOf ct.length = none := by
      cases hn : sizeFieldOf ct.length with
      | none => rfl
      | some n => exact absurd (sizeFieldOf_spec hn).symm (hbad n)
    exact runCommand_errorTaken hs (encodeContainer_badTable _ screen frames hnone)
  · have hn : sizeFieldOf ct.length = some n := by
      rw [hlen]
      exact sizeFieldOf_tableLength n
    refine ⟨encodeContainer_returned screen hs hn, ?_⟩
    rintro pre post f rfl hpre hf
    exact encodeContainer_errorTaken screen pre post hs hn hpre hf

end Sys2Proof.Machine
end

section
/-! The ByteCursor's operations, one by one (R180 to R184). -/

namespace Sys2Proof.Machine

variable {α : Type} {s : State}

/-! ## Operations that return a value -/

/-- What an operation returns is latched in `ret` (log 6). -/
theorem runRet_of_ok {wrap : α → Value} {op : Op α} {a : α} {t : State} (h : op s = .ok a t) :
    runRet wrap op s = .next (t.setRet (wrap a)) := by
  rw [runRet_eq, h]

/-- An error that an operation raises is taken (R380), and leaves the cursor where the raise left it. -/
theorem runRet_errorTaken {wrap : α → Value} {op : Op α} {e : Err} {u : State}
    (h : op s = .error (.raised e) u) :
    ∃ t, runRet wrap op s = .next t ∧ ErrorTaken e t ∧ t.bc = u.bc :=
  ⟨errorEntry e u, by rw [runRet_eq, h], ⟨rfl, rfl, rfl, rfl⟩, rfl⟩

/-! ## The cursor at its end -/

/-- At or past the end of the buffer no byte is left. -/
theorem unread_eq_nil (h : s.bc.buf.length ≤ s.bc.pos) : unread s = [] :=
  List.drop_eq_nil_of_le h

/-- With a byte at BC.pos, consume returns it (R180). -/
theorem bcConsume_getElem? {b : Byte} (h : s.bc.buf[s.bc.pos]? = some b) :
    bcConsume s = .ok b (advance s 1) := by
  rw [getElem?_pos] at h
  obtain ⟨rest, hrest⟩ := List.head?_eq_some_iff.mp h
  exact bcConsume_cons s hrest

/-- A 16-bit read with fewer than two bytes left has advanced past those there were (R184, log 9). -/
theorem bcReadLE16_short (h : (unread s).length < 2) : bcReadLE16 s =
    .error (.raised (.truncatedInput .byteCursorEnd)) (markError .cp (advance s (unread s).length)) := by
  match hs : unread s with
  | [] => exact bcReadLE16_nil s hs
  | [_] => exact bcReadLE16_one s hs
  | _ :: _ :: _ => simp [hs] at h

/-! ## The obligations -/

/-- Settles O14: consume returns the first byte not read, and there is none at the end. -/
theorem consumeOneByte : Obligations.ConsumeOneByte := by
  unfold Obligations.ConsumeOneByte
  refine fun s => ⟨fun b hb => runRet_of_ok (bcConsume_getElem? hb), fun hend => ?_⟩
  obtain ⟨t, ht, htaken, -⟩ := runRet_errorTaken (wrap := .byte) (bcConsume_nil s (unread_eq_nil hend))
  exact ⟨t, ht, htaken⟩

/-- Settles O15: each operation by what it can do in terms of the bytes not read; the failing branches have
advanced past them all. -/
theorem cursorOperations : Obligations.CursorOperations := by
  unfold Obligations.CursorOperations
  refine fun s n => ⟨runRet_of_ok rfl, runRet_of_ok (bcTake_eq s n), fun henough => ?_, fun hfew => ?_,
    fun lo hi rest hs => ?_, fun hfew => ?_⟩
  · exact runRet_of_ok ((bcTakeExact_eq s n).trans (if_neg (Nat.not_lt.mpr henough)))
  · exact runRet_errorTaken ((bcTakeExact_eq s n).trans (if_pos hfew))
  · exact ⟨le16 lo hi, le16_toNat lo hi, runRet_of_ok (bcReadLE16_cons s hs)⟩
  · exact runRet_errorTaken (bcReadLE16_short hfew)

end Sys2Proof.Machine
end

section
/-! The BitStream's two sides and the sub-block packer (R190 to R199). -/

namespace Sys2Proof.Machine

variable {s t : State} {w code : Nat}

/-! ## The write side -/

/-- R190: a write of a legal width and a fitting code. -/
theorem exec_bswWrite_written (hw : 1 ≤ w ∧ w ≤ 12) (hc : code < 2 ^ w) :
    ∃ t, exec (.bswWrite code w) s = .next t ∧ Written code w s t := by
  refine ⟨_, (runUnit_eq s _).trans (by rw [bswWrite_ok s ((isWidth_iff w).mpr hw) hc]), rfl, ?_, ?_, ?_⟩
  · exact (drainBytes_stream s.bsw _).2
  · exact ⟨_, rfl⟩
  · rw [← codeBits_eq_map]
    exact (drainBytes_stream s.bsw _).1

/-- R190: every other width, and every code that does not fit, is a failed assertion. -/
theorem bswWrite_badWidth (h : ¬ ((1 ≤ w ∧ w ≤ 12) ∧ code < 2 ^ w)) :
    bswWrite code w s = .error (.raised (.assertionFailure .badWidth)) (markError .lze s) := by
  rw [bswWrite_eq, if_neg (by rwa [isWidth_iff])]

/-- Settles O16: a legal write adds the code's bits to the stream; the other writes fail. -/
theorem writeBits : Obligations.WriteBits := by
  unfold Obligations.WriteBits
  refine fun code w s => ⟨fun h1 h12 hc => exec_bswWrite_written ⟨h1, h12⟩ hc, fun hbad => ?_⟩
  exact errorTaken_of_raised (bswWrite_badWidth (by omega))

/-- R191: bit `j` of the byte made of the pending bits. -/
theorem getLsbD_bitsByte (b : Bits) {j : Nat} (hj : j < 8) :
    (bitsByte b).getLsbD j = (b[j]?).getD false := by
  rw [bitsByte, BitVec.getLsbD_ofNat, testBit_bitsValue, List.getD_eq_getElem?_getD, decide_eq_true hj,
    Bool.true_and]

theorem exec_bswClose_empty (h : s.bsw.acc = []) : exec .bswClose s = .next s :=
  (runUnit_eq s _).trans (by rw [bswClose_eq, if_pos h])

theorem exec_bswClose_pending (h : s.bsw.acc ≠ []) (h7 : s.bsw.acc.length ≤ 7) : exec .bswClose s =
    .next (s.setBSW { acc := [], out := s.bsw.out ++ [bitsByte s.bsw.acc] }) :=
  (runUnit_eq s _).trans (by rw [bswClose_eq, if_neg h, if_neg (by omega)])

/-- Settles O17: the byte that close adds is the one made of the pending bits. -/
theorem closeBits : Obligations.CloseBits := by
  unfold Obligations.CloseBits
  refine fun s h7 => ⟨exec_bswClose_empty, fun h => ?_⟩
  exact ⟨bitsByte s.bsw.acc, fun j hj => getLsbD_bitsByte _ hj, exec_bswClose_pending h h7⟩

/-! ## The read side -/

/-- R85: the bits of each byte, from bit 0 to bit 7. -/
theorem bytesBits_eq_flatMap (bytes : List Byte) :
    bytesBits bytes = bytes.flatMap fun b => (List.range 8).map fun j => b.getLsbD j := rfl

theorem exec_bsrPushBytes (bytes : List Byte) :
    exec (.bsrPushBytes bytes) s = .next (s.setBSR { bits := s.bsr.bits ++ bytesBits bytes }) := rfl

theorem exec_bsrReadBits {n : Nat} (hn : 1 ≤ n ∧ n ≤ 12) (hl : n ≤ s.bsr.bits.length) :
    exec (.bsrReadBits n) s = .next ((s.setBSR { bits := s.bsr.bits.drop n }).setRet
      (.code (bitsValue (s.bsr.bits.take n)))) :=
  runRet_of_ok (by rw [bsrReadBits_eq, if_pos ((isWidth_iff n).mpr hn), if_neg (Nat.not_lt.mpr hl)])

/-- R196: bit `i` of the number read is the `i`-th of the oldest bits. -/
theorem getElem?_eq_testBit_bitsValue_take {b : Bits} {n i : Nat} (hn : n ≤ b.length) (hi : i < n) :
    b[i]? = some (Nat.testBit (bitsValue (b.take n)) i) := by
  rw [testBit_bitsValue, List.getD_eq_getElem?_getD, List.getElem?_take_of_lt hi,
    List.getElem?_eq_getElem (by omega), Option.getD_some]

theorem runRet_of_raised {α : Type} {wrap : α → Value} {op : Op α} {e : Err}
    (h : op s = .error (.raised e) t) : runRet wrap op s = .next (errorEntry e t) := by
  rw [runRet_eq, h]

theorem errorTaken_errorEntry (e : Err) (s : State) : ErrorTaken e (errorEntry e s) :=
  ⟨rfl, rfl, rfl, rfl⟩

/-- Settles O18: each operation by what it can do for the width it is given. -/
theorem readSide : Obligations.ReadSide := by
  unfold Obligations.ReadSide
  refine fun s => ⟨fun bytes => bytesBits_eq_flatMap bytes ▸ exec_bsrPushBytes bytes,
    fun n h1 h12 => ?_, fun n hbad => ?_⟩
  · have hw : isWidth n = true := (isWidth_iff n).mpr ⟨h1, h12⟩
    refine ⟨runRet_of_ok ((bsrHasBits_eq s n).trans (if_pos hw)), fun hl => ?_, fun hl => ?_⟩
    · have hlt := bitsValue_lt (s.bsr.bits.take n)
      rw [List.length_take_of_le hl] at hlt
      exact ⟨_, hlt, fun i hi => getElem?_eq_testBit_bitsValue_take hl hi, exec_bsrReadBits ⟨h1, h12⟩ hl⟩
    · have hread := (bsrReadBits_eq s n).trans ((if_pos hw).trans (if_pos hl))
      exact ⟨_, runRet_of_raised hread, errorTaken_errorEntry _ _, rfl⟩
  · have hw : ¬ isWidth n = true := by rw [isWidth_iff]; omega
    exact ⟨⟨_, runRet_of_raised ((bsrHasBits_eq s n).trans (if_neg hw)), errorTaken_errorEntry _ _⟩,
      _, runRet_of_raised ((bsrReadBits_eq s n).trans (if_neg hw)), errorTaken_errorEntry _ _⟩

/-! ## Writes, then reads (R197) -/

/-- The legal writes: pairs of a code and a width it fits in (R190). -/
def FitsWidth (p : Nat × Nat) : Prop := 1 ≤ p.2 ∧ p.2 ≤ 12 ∧ p.1 < 2 ^ p.2

/-- The bits of the codes written, in order. -/
def codesBits (ws : List (Nat × Nat)) : Bits := ws.flatMap fun p => codeBits p.2 p.1

theorem execAll_cons_of_next {i : Instr} (is : List Instr) (h : exec i s = .next t) :
    execAll (i :: is) s = execAll is t := by
  rw [execAll, h]

/-- Operations after others that all returned. -/
theorem execAll_append {is : List Instr} (js : List Instr) (h : execAll is s = .next t) :
    execAll (is ++ js) s = execAll js t := by
  induction is generalizing s with
  | nil =>
    cases h
    rfl
  | cons i is ih =>
    cases hi : exec i s with
    | next u =>
      rw [execAll_cons_of_next is hi] at h
      rw [List.cons_append, execAll_cons_of_next _ hi, ih h]
    | fault f => simp [execAll, hi] at h
    | refused r => simp [execAll, hi] at h

/-- R190: writes add the bits of their codes, in order, and change nothing but BSW. -/
theorem execAll_writes {ws : List (Nat × Nat)} (hws : ∀ p ∈ ws, FitsWidth p) (h7 : s.bsw.acc.length ≤ 7) :
    ∃ t, execAll (ws.map fun p => .bswWrite p.1 p.2) s = .next t ∧ t = s.setBSW t.bsw ∧
      t.bsw.acc.length ≤ 7 ∧
      bytesBits t.bsw.out ++ t.bsw.acc = bytesBits s.bsw.out ++ s.bsw.acc ++ codesBits ws := by
  induction ws generalizing s with
  | nil => exact ⟨s, rfl, rfl, h7, (List.append_nil _).symm⟩
  | cons p ws ih =>
    obtain ⟨⟨h1, h12, hc⟩, hrest⟩ := List.forall_mem_cons.mp hws
    obtain ⟨u, hu, huframe, hu7, -, hubits⟩ := exec_bswWrite_written (s := s) ⟨h1, h12⟩ hc
    obtain ⟨t, ht, htframe, ht7, htbits⟩ := ih hrest hu7
    refine ⟨t, ?_, ?_, ht7, ?_⟩
    · exact (execAll_cons_of_next _ hu).trans ht
    · rw [huframe] at htframe
      exact htframe
    · rw [htbits, hubits, ← codeBits_eq_map, List.append_assoc]
      rfl

/-- R191: close adds at most 7 zero bits, and leaves none in the accumulator. -/
theorem exec_bswClose_pads (h7 : s.bsw.acc.length ≤ 7) :
    ∃ t n, exec .bswClose s = .next t ∧ t = s.setBSW t.bsw ∧ n ≤ 7 ∧
      bytesBits t.bsw.out = bytesBits s.bsw.out ++ s.bsw.acc ++ List.replicate n false := by
  by_cases h : s.bsw.acc = []
  · exact ⟨s, 0, exec_bswClose_empty h, rfl, by omega, by simp [h]⟩
  · have hpos := List.length_pos_iff.mpr h
    refine ⟨_, 8 - s.bsw.acc.length, exec_bswClose_pending h h7, rfl, by omega, ?_⟩
    simp [byteBits_bitsByte_pad s.bsw.acc (by omega)]

/-- R196: the read of a code whose bits are the oldest. -/
theorem exec_bsrReadBits_codeBits {p : Nat × Nat} {rest : Bits} (hp : FitsWidth p)
    (h : s.bsr.bits = codeBits p.2 p.1 ++ rest) :
    exec (.bsrReadBits p.2) s = .next ((s.setBSR { bits := rest }).setRet (.code p.1)) := by
  obtain ⟨h1, h12, hc⟩ := hp
  have hlen := length_codeBits p.2 p.1
  rw [exec_bsrReadBits ⟨h1, h12⟩ (by simp [h]), h, List.drop_left' hlen, List.take_left' hlen,
    bitsValue_codeBits _ _ hc]

/-- R196: reads at the widths of the codes written take just the bits of those codes. -/
theorem execAll_reads {ws : List (Nat × Nat)} {rest : Bits} (hws : ∀ p ∈ ws, FitsWidth p)
    (h : s.bsr.bits = codesBits ws ++ rest) :
    ∃ t, execAll (ws.map fun p => .bsrReadBits p.2) s = .next t ∧ t.bsr.bits = rest := by
  induction ws generalizing s with
  | nil => exact ⟨s, rfl, h⟩
  | cons p ws ih =>
    obtain ⟨hp, hrest⟩ := List.forall_mem_cons.mp hws
    have hbits : s.bsr.bits = codeBits p.2 p.1 ++ (codesBits ws ++ rest) := by
      rw [h, codesBits, List.flatMap_cons, List.append_assoc]
      rfl
    rw [List.map_cons, execAll_cons_of_next _ (exec_bsrReadBits_codeBits hp hbits)]
    exact ih hrest rfl

/-- R196: after the reads of the codes before it, the next read returns the `k`-th code. -/
theorem exec_bsrReadBits_getElem? {ws : List (Nat × Nat)} {rest : Bits} {k : Nat} {p : Nat × Nat}
    (hws : ∀ p ∈ ws, FitsWidth p) (h : s.bsr.bits = codesBits ws ++ rest) (hk : ws[k]? = some p) :
    ∃ x y, execAll ((ws.take k).map fun p => .bsrReadBits p.2) s = .next x ∧
      exec (.bsrReadBits p.2) x = .next y ∧ y.ret = .code p.1 := by
  have hsplit : ws = ws.take k ++ p :: ws.drop (k + 1) := by
    obtain ⟨hlt, rfl⟩ := List.getElem?_eq_some_iff.mp hk
    rw [← List.drop_eq_getElem_cons hlt, List.take_append_drop]
  have hbits : s.bsr.bits =
      codesBits (ws.take k) ++ (codeBits p.2 p.1 ++ (codesBits (ws.drop (k + 1)) ++ rest)) := by
    rw [h]
    conv_lhs => rw [hsplit]
    simp [codesBits]
  obtain ⟨x, hx, hxbits⟩ := execAll_reads (fun q hq => hws q (List.mem_of_mem_take hq)) hbits
  exact ⟨x, _, hx, exec_bsrReadBits_codeBits (hws p (List.mem_of_getElem? hk)) hxbits, rfl⟩

/-- Settles O19: after the close, the bytes written hold the bits of the codes and at most 7 zeros; the reads
take the codes one by one. -/
theorem writeReadInverse : Obligations.WriteReadInverse := by
  unfold Obligations.WriteReadInverse
  intro ws s hws hbsw hbsr
  obtain ⟨v, hv, hvframe, hv7, hvbits⟩ := execAll_writes (s := s) hws (by simp [hbsw])
  obtain ⟨t, n, ht, htframe, hn, htbits⟩ := exec_bswClose_pads hv7
  have hpushed : t.bsr.bits ++ bytesBits t.bsw.out = codesBits ws ++ List.replicate n false := by
    have htbsr : t.bsr.bits = [] := by rw [htframe, hvframe]; exact hbsr
    rw [htbsr, htbits, hvbits, hbsw]
    rfl
  refine ⟨t, _, (execAll_append _ hv).trans (execAll_cons_of_next [] ht), exec_bsrPushBytes _,
    fun k p hk => exec_bsrReadBits_getElem? hws hpushed hk, ?_⟩
  obtain ⟨z, hz, hzbits⟩ := execAll_reads (s := t.setBSR _) hws hpushed
  exact ⟨z, n, hz, hn, hzbits⟩

/-! ## The packer (R199) -/

theorem chunksOf_nil (fuel : Nat) : chunksOf fuel [] = [] := by
  cases fuel <;> rfl

/-- R199: every payload but the last carries exactly 254 bytes: the data goes on after it. -/
theorem chunksOf_dropLast_length (fuel : Nat) (data : List Byte) :
    ∀ b ∈ (chunksOf fuel data).dropLast, b.length = 254 := by
  induction fuel generalizing data with
  | zero => simp [chunksOf]
  | succ fuel ih =>
    rw [chunksOf]
    split
    · simp
    · by_cases hmore : chunksOf fuel (data.drop 254) = []
      · simp [Config.writeSubBlockMax, hmore]
      · have hlong : 254 < data.length := by
          by_contra hshort
          rw [List.drop_eq_nil_of_le (by omega)] at hmore
          exact hmore (chunksOf_nil fuel)
        rw [Config.writeSubBlockMax, List.dropLast_cons_of_ne_nil hmore]
        exact List.forall_mem_cons.mpr ⟨List.length_take_of_le hlong.le, ih _⟩

/-- Settles O20: the payloads are those of `chunksOf`. (The model's packer has the name `packSubBlocks`.) -/
theorem packSubBlocks_frames : Obligations.PackSubBlocks := by
  unfold Obligations.PackSubBlocks
  exact fun m data s => ⟨chunksOf data.length data, chunksOf_flatten _ _ le_rfl,
    chunksOf_dropLast_length _ _, chunksOf_length _ _, rfl⟩

end Sys2Proof.Machine
end

section
/-! The facts about the decoder's operations that its obligations share: what `assigned` leaves in each field
(R220), a read of the table after a write, and a handled code that is not BAD. -/

namespace Sys2Proof.Machine

variable {s : State}

/-- An operation that returns answers the state it leaves. -/
theorem runUnit_of_ok {op : Op Unit} {t : State} (h : op s = .ok () t) : runUnit op s = .next t := by
  rw [runUnit_eq, h]

/-- R44: a write reads back and leaves every other code alone, whatever form the table is in. -/
theorem dictGet_dictSet_anyForm (d : DecDict) (c c' : Nat) (v : List Nat) :
    dictGet (dictSet d c v) c' = if c = c' then some v else dictGet d c' := by
  fun_induction dictSet d c v with
  | case1 => rfl
  | case2 => rfl
  | case3 w d c => by_cases hc : c = c' <;> simp [dictGet, hc]
  | case4 k w d c v hlt hne ih =>
    simp only [dictGet, ih]
    by_cases hk : k = c'
    · subst hk
      simp [hne]
    · simp [hk]

/-! ## The fields of the decoder after R220 -/

section
variable (d : LZWDecoder) (w : List Nat)

/-- R220 neither reads nor writes the output. -/
theorem assigned_setOut (out : List Nat) :
    assigned { d with out := out } w = { assigned d w with out := out } := by
  unfold assigned
  split <;> rfl

@[simp] theorem assigned_minCodeSize : (assigned d w).minCodeSize = d.minCodeSize := by
  unfold assigned
  split <;> rfl

theorem assigned_full (h : ¬ d.lastAssignedCode < 4095) : assigned d w = d := if_neg h

variable {d} (h : d.lastAssignedCode < 4095)
include h

theorem assigned_dict : (assigned d w).dict = dictSet d.dict (d.lastAssignedCode + 1) w := by
  rw [assigned, if_pos h]

theorem assigned_codeSize : (assigned d w).codeSize =
    if d.lastAssignedCode + 1 = d.growThreshold ∧ d.lastAssignedCode + 1 < 4095 then d.codeSize + 1
    else d.codeSize := by
  rw [assigned, if_pos h]

theorem assigned_growThreshold : (assigned d w).growThreshold =
    if d.lastAssignedCode + 1 = d.growThreshold ∧ d.lastAssignedCode + 1 < 4095 then
      2 ^ (d.codeSize + 1) - 1
    else d.growThreshold := by
  rw [assigned, if_pos h]

end

/-- R213: a step goes on from the fetch with the instruction of the code's class. -/
theorem lzdStep_of_fetch {c : Nat} {u : State} (h : lzdFetchCode s = .ok c u) :
    lzdStep s = lzwDispatch (codeContext u.lzd) c u := by
  unfold lzdStep
  rw [op_bind_of_ok s _ _ h, op_bind_of_ok u _ _ (op_getLZD u)]

/-- R213 to R218: a code of any class but BAD is handled to the end, where the decoder is legal. -/
theorem lzwDispatch_returns (h : DecoderLegal s.lzd) {c : Nat}
    (hbad : classifyCode (codeContext s.lzd) c ≠ .bad) :
    ∃ t, lzwDispatch (codeContext s.lzd) c s = .ok () t := by
  unfold lzwDispatch
  cases hcls : classifyCode (codeContext s.lzd) c with
  | eoi => exact ⟨_, rfl⟩
  | clear => exact ⟨_, rfl⟩
  | first =>
    obtain ⟨k, w, hq, -⟩ := h.entry (.inl (classifyCode_first hcls))
    exact ⟨_, lzwFirst_ok s hq⟩
  | hit =>
    obtain ⟨hprev, hdef⟩ := classifyCode_hit hcls
    obtain ⟨p, k', w', hp, hq, -⟩ := h.prevEntry hprev
    obtain ⟨k, w, hcode, -⟩ := h.entry hdef
    exact ⟨_, lzwHit_ok s hcode hp hq⟩
  | next =>
    obtain ⟨p, k, w, hp, hq, -⟩ := h.prevEntry (classifyCode_next hcls).1
    exact ⟨_, lzwNext_ok s hp hq⟩
  | bad => exact absurd hcls hbad

end Sys2Proof.Machine
end

section
/-! The decoder's operations and codes, one by one (R210 to R221). -/

namespace Sys2Proof.Machine

variable {s : State}

/-! ## The resets and the three codes that assign nothing -/

/-- R211: the seeded table, over the codes of R44. -/
theorem dictGet_freshDecoder (d : LZWDecoder) {c : Nat} (hc : c ≤ 4095) :
    dictGet (freshDecoder d).dict c = if c < d.clearCode then some [c] else none := by
  have hentries : c < Config.dictEntries := Nat.lt_succ_of_le hc
  show dictGet (dictSeed d.clearCode) c = _
  rw [dictGet_dictSeed]
  simp only [hentries, and_true]

/-- Settles O21: init and unitReset by their writes, the table by its seed. -/
theorem decoderInit : Obligations.DecoderInit := by
  unfold Obligations.DecoderInit
  exact fun s => ⟨fun m subs => runUnit_of_ok (lzdInit_eq s m subs), runUnit_of_ok (lzdUnitReset_eq s),
    fun d _ => dictGet_freshDecoder d⟩

/-- Settles O24: EOI and CLEAR by their writes, FIRST by the entry of its code. -/
theorem eoiClearFirst : Obligations.EoiClearFirst := by
  unfold Obligations.EoiClearFirst
  refine fun c s => ⟨rfl, runUnit_of_ok (lzdUnitReset_eq s), rfl, fun q hq => ?_, fun htable hc => ?_⟩
  · exact runUnit_of_ok (lzwFirst_ok s hq)
  · exact runUnit_of_ok (lzwFirst_ok s (htable.singleton c hc))

/-- Settles O27: each of the three only raises its error, which is taken (R380). -/
theorem badSelectorsStop : Obligations.BadSelectorsStop := by
  unfold Obligations.BadSelectorsStop
  exact fun s => ⟨fun _ => rfl, fun _ => rfl, fun _ => rfl⟩

/-! ## Reading a code -/

/-- Settles O22: the fetch in terms of the bits still to come. -/
theorem fetchCode : Obligations.FetchCode := by
  unfold Obligations.FetchCode
  refine fun s h1 h12 => ⟨fun henough => ?_, fun hfew => ?_⟩
  · obtain ⟨k, -, hlen, hfewest, hrun⟩ := lzdFetchCode_ok s ((isWidth_iff _).mpr ⟨h1, h12⟩) henough
    have hlt := bitsValue_lt ((codeSupply s).take s.lzd.codeSize)
    rw [List.length_take_of_le henough] at hlt
    exact ⟨k, _, hlen, hfewest, hlt, fun i hi => getElem?_eq_testBit_bitsValue_take henough hi,
      runRet_of_ok hrun⟩
  · have hrun := lzdFetchCode_short s ((isWidth_iff _).mpr ⟨h1, h12⟩) hfew
    exact ⟨_, runRet_of_raised hrun, errorTaken_errorEntry _ _⟩

/-- A step writes BSR and LZD only. -/
theorem lzdStep_frame {t : State} (h : lzdStep s = .ok () t) : t = (s.setBSR t.bsr).setLZD t.lzd := by
  have hframe := keeps_lzdStep (decoderFrame_closed s) s ⟨s.lzd, s.bsr, rfl⟩
  rw [h] at hframe
  obtain ⟨d, b, rfl⟩ := hframe
  rfl

/-- Settles O23: the step is the fetch and then the instruction of the code's class, which returns unless it is
BAD. -/
theorem decoderStep : Obligations.DecoderStep := by
  unfold Obligations.DecoderStep
  refine fun s hd => ⟨fun henough => ?_, fun hfew => ?_⟩
  · obtain ⟨k, hk, -, -, hfetch⟩ := lzdFetchCode_ok s hd.isWidth henough
    generalize bitsValue ((codeSupply s).take s.lzd.codeSize) = c at hfetch
    have hstep : lzdStep s = lzwDispatch (codeContext s.lzd) c
        ((pushed s k).setBSR { bits := (pushed s k).bsr.bits.drop s.lzd.codeSize }) := lzdStep_of_fetch hfetch
    refine ⟨c, _, runRet_of_ok hfetch, rfl, ?_, fun hgood => ?_⟩
    · rw [exec_decodeCode]
      exact congrArg (settle _) hstep
    · have hlegal : DecoderLegal { s.lzd with subIdx := s.lzd.subIdx + k } :=
        hd.update hd.prev hd.out (by have := hd.subIdx; omega)
      have hclass : classifyCode (codeContext s.lzd) c ≠ .bad := fun h =>
        hgood (by rw [decodeCode_eq_instr, h]; rfl)
      obtain ⟨t, ht⟩ := lzwDispatch_returns
        (s := (pushed s k).setBSR { bits := (pushed s k).bsr.bits.drop s.lzd.codeSize }) hlegal hclass
      exact ⟨t, runUnit_of_ok (hstep.trans ht), lzdStep_frame (hstep.trans ht)⟩
  · exact errorTaken_of_raised (op_bind_of_error s _ _ (lzdFetchCode_short s hd.isWidth hfew))

/-! ## The two codes that assign an entry -/

/-- Settles O25: everything HIT can do on a code with an entry, when prev has one. -/
theorem hitOutputsAndAssigns : Obligations.HitOutputsAndAssigns := by
  unfold Obligations.HitOutputsAndAssigns
  exact fun s c k r q p hc hr hp => runUnit_of_ok (lzwHit_ok s hc hr hp)

/-- Settles O26: everything NEXT can do when prev has its entry, and the read of the entry it assigns. -/
theorem nextIsKwKwK : Obligations.NextIsKwKwK := by
  unfold Obligations.NextIsKwKwK
  intro s c k r p hr hp
  refine ⟨_, runUnit_of_ok (lzwNext_ok s hr hp), by rw [List.append_assoc], fun hc hmax => ?_⟩
  rw [State.setLZD_lzd, assigned_setOut, assigned_dict _ (by omega), dictGet_dictSet_anyForm, if_pos hc.symm]

/-- Settles O28: assign leaves the decoder of `assigned`, whose fields are known one by one. -/
theorem assignEntry : Obligations.AssignEntry := by
  unfold Obligations.AssignEntry
  refine fun s k => ⟨fun p q hlt hp hq => ?_, fun hfull => ?_⟩
  · have hlast : (assigned s.lzd (q ++ [k])).lastAssignedCode = s.lzd.lastAssignedCode + 1 := by
      rw [assigned_lastAssignedCode, if_pos hlt]
    refine ⟨_, runUnit_of_ok (lzdAssign_ok s k hp hq), rfl, hlast, fun c => ?_, ?_, ?_⟩ <;>
      simp only [State.setLZD_lzd, hlast, assigned_dict _ hlt, assigned_codeSize _ hlt,
        assigned_growThreshold _ hlt]
    · rw [dictGet_dictSet_anyForm]
      exact if_congr eq_comm rfl rfl
    · exact fun hgrow hmax => ⟨if_pos ⟨hgrow, hmax⟩, if_pos ⟨hgrow, hmax⟩⟩
    · intro hno
      have hno' : ¬ (s.lzd.lastAssignedCode + 1 = s.lzd.growThreshold ∧ s.lzd.lastAssignedCode + 1 < 4095) := by
        omega
      exact ⟨if_neg hno', if_neg hno'⟩
  · exact runUnit_of_ok (lzdAssign_full s k (Nat.not_lt.mpr hfull))

/-! ## The width (R221) -/

/-- What of the decoder R220 tells the width by. -/
def widthOf (d : LZWDecoder) : Nat × Nat × Nat := (d.lastAssignedCode, d.codeSize, d.growThreshold)

/-- The width of `d`, with what it is told by. -/
def WidthStays (d : LZWDecoder) (t : State) : Prop := widthOf t.lzd = widthOf d

/-- The width of `d`, or that of `d` after an assignment. -/
def WidthSteps (d : LZWDecoder) (t : State) : Prop :=
  WidthStays d t ∨ ∃ w, widthOf t.lzd = widthOf (assigned d w)

/-- The operation makes at most one assignment (R220), errors included. -/
abbrev AssignsOnce (d : LZWDecoder) (op : Op Unit) : Prop :=
  Triple (WidthStays d) op (fun _ => WidthSteps d) (WidthSteps d)

theorem widthOf_eq_iff {d d' : LZWDecoder} : widthOf d' = widthOf d ↔
    d'.lastAssignedCode = d.lastAssignedCode ∧ d'.codeSize = d.codeSize ∧ d'.growThreshold = d.growThreshold := by
  simp [widthOf]

/-- R220 widens by the last code and the threshold alone. -/
theorem widthOf_assigned {d d' : LZWDecoder} (h : widthOf d' = widthOf d) (w : List Nat) :
    widthOf (assigned d' w) = widthOf (assigned d w) := by
  obtain ⟨hlast, hsize, hthreshold⟩ := widthOf_eq_iff.mp h
  unfold assigned
  rw [hlast, hsize, hthreshold]
  split
  · rfl
  · exact h

section
variable {d : LZWDecoder}

theorem WidthStays.triple {α : Type} {op : Op α} (h : Keeps (WidthStays d) op) :
    Triple (WidthStays d) op (fun _ => WidthStays d) (WidthSteps d) :=
  h.imp (fun _ hs => hs) (fun _ _ ht => ht) fun _ => .inl

theorem triple_lzdAppend_width (q : List Nat) :
    Triple (WidthStays d) (lzdAppend q) (fun _ => WidthStays d) (WidthSteps d) := fun _ hs => hs

theorem assignsOnce_lzdAssign (k : Nat) : AssignsOnce d (lzdAssign k) := by
  intro s hs
  unfold lzdAssign
  rw [op_bind_of_ok s _ _ (op_getLZD s)]
  split
  · next hlt =>
    have hentry : Ends (fun _ t => t = s) (WidthSteps d) (lzdPrevEntry s) :=
      (keeps_lzdPrevEntry (P := (· = s)) s rfl).imp (fun _ _ h => h) fun _ h => h ▸ .inl hs
    refine hentry.bind fun q t ht => ?_
    rw [ht, op_putLZD, assignNext_eq _ _ hlt]
    exact .inr ⟨q ++ [k], widthOf_assigned hs _⟩
  · exact .inl hs

theorem triple_lzdSetPrev_width (c : Nat) :
    Triple (WidthSteps d) (lzdSetPrev c) (fun _ => WidthSteps d) (WidthSteps d) := fun _ hs => hs

/-- R214, R216: these codes assign nothing. -/
theorem assignsOnce_lzwEoi (c : Nat) : AssignsOnce d (lzwEoi c) := fun _ hs => .inl hs

theorem assignsOnce_lzwFirst (c : Nat) : AssignsOnce d (lzwFirst c) :=
  (WidthStays.triple (keeps_lzdEntry c)).bind fun q => (triple_lzdAppend_width q).bind fun _ _ hs => .inl hs

/-- R217, R218: these codes make one assignment. -/
theorem assignsOnce_lzwHit (c : Nat) : AssignsOnce d (lzwHit c) :=
  (WidthStays.triple (keeps_lzdEntry c)).bind fun q => (triple_lzdAppend_width q).bind fun _ =>
    (WidthStays.triple (keeps_headOf q)).bind fun k => (assignsOnce_lzdAssign k).bind fun _ =>
      triple_lzdSetPrev_width c

theorem assignsOnce_lzwNext (c : Nat) : AssignsOnce d (lzwNext c) :=
  (WidthStays.triple keeps_lzdPrevEntry).bind fun p => (WidthStays.triple (keeps_headOf p)).bind fun k =>
    (triple_lzdAppend_width (p ++ [k])).bind fun _ => (assignsOnce_lzdAssign k).bind fun _ =>
      triple_lzdSetPrev_width c

/-- The state an operation answers, whether it has returned or its error is taken. -/
theorem AssignsOnce.widthSteps {op : Op Unit} {t : State} (h : AssignsOnce s.lzd op) (ht : runUnit op s = .next t) :
    WidthSteps s.lzd t := by
  rcases settle_next (h s rfl) ht with ⟨_, u, hu, hut⟩ | ⟨e, u, hu, rfl⟩
  · cases hut
    exact hu
  · exact hu

/-- R221: the width grows by one exactly where the last code becomes the largest of a width below 12. -/
theorem width_of_widthSteps (h : DecoderLegal d) {t : State} (ht : WidthSteps d t) :
    d.codeSize ≤ t.lzd.codeSize ∧ t.lzd.codeSize ≤ d.codeSize + 1 ∧ t.lzd.codeSize ≤ 12 ∧
    (t.lzd.codeSize = d.codeSize + 1 ↔
      d.codeSize < 12 ∧ d.lastAssignedCode < t.lzd.lastAssignedCode ∧
        t.lzd.lastAssignedCode = 2 ^ d.codeSize - 1) := by
  have hhigh := h.widthHigh
  have hthreshold := h.threshold
  have hpow : d.codeSize = 12 ∨ d.codeSize < 12 ∧ 2 ^ d.codeSize ≤ 2 ^ 11 := by
    rcases Nat.lt_or_ge d.codeSize 12 with h12 | h12
    · exact .inr ⟨h12, Nat.pow_le_pow_right (by omega) (by omega)⟩
    · exact .inl (by omega)
  rcases ht with hstays | ⟨w, hsteps⟩
  · obtain ⟨hlast, hsize, -⟩ := widthOf_eq_iff.mp hstays
    omega
  · obtain ⟨hlast, hsize, -⟩ := widthOf_eq_iff.mp hsteps
    by_cases hlt : d.lastAssignedCode < 4095
    · rw [assigned_lastAssignedCode, if_pos hlt] at hlast
      rw [assigned_codeSize _ hlt] at hsize
      rcases hpow with h12 | ⟨h12, hpow⟩
      · rw [h12] at hthreshold hsize ⊢
        split at hsize <;> omega
      · split at hsize <;> omega
    · rw [assigned_full _ _ hlt] at hlast hsize
      omega

end

/-- Settles O29: each of the five operations makes at most one assignment; the resets set the width. -/
theorem widthGrowsByOne : Obligations.WidthGrowsByOne := by
  unfold Obligations.WidthGrowsByOne
  refine ⟨fun s t i c hd hi ht => width_of_widthSteps hd ?_, fun s t c ht => ?_⟩
  · rcases hi with rfl | rfl | rfl | rfl | rfl
    · exact AssignsOnce.widthSteps (assignsOnce_lzwEoi c) ht
    · exact AssignsOnce.widthSteps (assignsOnce_lzwFirst c) ht
    · exact AssignsOnce.widthSteps (assignsOnce_lzwHit c) ht
    · exact AssignsOnce.widthSteps (assignsOnce_lzwNext c) ht
    · exact AssignsOnce.widthSteps (assignsOnce_lzdAssign c) ht
  · have hreset : Host.Outcome.next (s.setLZD (freshDecoder s.lzd)) = .next t := ht.elim id id
    cases hreset
    rfl

end Sys2Proof.Machine
end

section
/-! The lockstep of encoder and decoder (R263): the decoder that has read all codes written is one entry behind
the encoder; it catches up on the code of the encoder's buffer. -/

namespace Sys2Proof.Machine

/-! ## Tables that agree -/

/-- Every code both sides have defined maps to the same sequence (R263 (c)). -/
def TablesAgree (E : EncDict) (D : DecDict) : Prop := ∀ c q, dictGet D c = some q ↔ encGet E q = some c

/-- R211, R252: the seeds agree. -/
theorem tablesAgree_seed {n : Nat} (hn : n ≤ 4096) : TablesAgree (encSeed n) (dictSeed n) := by
  intro c q
  rw [encGet_encSeed, dictGet_dictSeed]
  constructor
  · intro h
    split at h
    · next hc => exact ⟨(Option.some.inj h).symm, hc.1⟩
    · cases h
  · rintro ⟨rfl, hc⟩
    exact if_pos ⟨hc, Nat.lt_of_lt_of_le hc hn⟩

/-- R220, R256: an entry that is new on both sides may be added to both. -/
theorem TablesAgree.insert {E : EncDict} {D : DecDict} (h : TablesAgree E D) {c : Nat} {q : List Nat}
    (hE : encGet E q = none) (hD : dictGet D c = none) : TablesAgree (encSet E q c) (dictSet D c q) := by
  intro c' q'
  have hold := h c' q'
  rw [dictGet_dictSet_anyForm, encGet_encSet]
  by_cases hc : c = c' <;> by_cases hq : q = q'
  · simp [hc, hq]
  · rw [← hc, hD] at hold
    simpa [hc, hq] using hold
  · rw [← hq, hE] at hold
    simpa [hc, hq] using hold
  · simpa [hc, hq] using hold

/-! ## The widths -/

/-- The width the encoder ends a code unit at (R260, R261). -/
def endWidth (e : LZWEncoder) : Nat := if widensAtEnd e then e.codeSize + 1 else e.codeSize

/-- The codes a fresh unit has in use leave room in every width the unit takes. -/
theorem EncoderLegal.eoi_succ_lt {e : LZWEncoder} (h : EncoderLegal e) : e.eoiCode + 1 < 2 ^ e.codeSize := by
  obtain ⟨h2, h8⟩ := (mcsInRange_iff _).mp h.mcs
  obtain ⟨h4, -, hdouble⟩ := two_pow_mcs h2 h8
  have hlow : 2 ^ (e.minCodeSize.toNat + 1) ≤ 2 ^ e.codeSize := Nat.pow_le_pow_right (by omega) h.widthLow
  have hclear := h.clear
  have heoi := h.eoi
  omega

theorem EncoderLegal.clear_le {e : LZWEncoder} (h : EncoderLegal e) : e.clearCode ≤ 4096 := by
  have heoi := h.eoi
  have hlow := h.nextLow
  have hhigh := h.nextHigh
  omega

/-- R261: the encoder widens where the codes below `nextCode` fill its width, which is below 12. -/
theorem endWidth_eq {e : LZWEncoder} (h : EncoderLegal e) : endWidth e =
    if 2 ^ e.codeSize = e.nextCode ∧ e.nextCode < 4096 then e.codeSize + 1 else e.codeSize := by
  have hroom := h.eoi_succ_lt
  have h12 : 2 ^ e.codeSize < 2 ^ 12 ↔ e.codeSize < 12 := Nat.pow_lt_pow_iff_right (by omega)
  have hiff : widensAtEnd e = true ↔ 2 ^ e.codeSize = e.nextCode ∧ e.nextCode < 4096 := by
    simp only [widensAtEnd, Bool.and_eq_true, decide_eq_true_eq, beq_iff_eq]
    simp only [Config.maxCodeWidth]
    omega
  unfold endWidth
  simp only [hiff]

theorem endWidth_bounds {e : LZWEncoder} (h : EncoderLegal e) : e.codeSize ≤ endWidth e ∧ endWidth e ≤ 12 := by
  have h12 : 2 ^ e.codeSize < 2 ^ 12 ↔ e.codeSize < 12 := Nat.pow_lt_pow_iff_right (by omega)
  have hhigh := h.widthHigh
  rw [endWidth_eq h]
  split <;> omega

/-! ## The lockstep -/

/-- The entry the decoder lacks (R263 (b)): none before the first code of a unit, and later the one its previous
code and the first index of the encoder's buffer make. -/
inductive OneBehind (e : LZWEncoder) (d : LZWDecoder) : Prop
  | first (prev : d.prev = none) (tables : TablesAgree e.dict d.dict) (last : d.lastAssignedCode = e.eoiCode)
      (next : e.nextCode = e.eoiCode + 1)
  | later {p k : Nat} {q w : List Nat} (prev : d.prev = some p) (entry : dictGet d.dict p = some q)
      (buffer : e.indexBuffer = k :: w)
      (tables : TablesAgree e.dict (dictSet d.dict (d.lastAssignedCode + 1) (q ++ [k])))
      (next : e.nextCode = d.lastAssignedCode + 2)

/-- The decoder has read every code written; the encoder's buffer holds what is left of the input `front`
consumed (R263). -/
structure Follows (front : List Nat) (e : LZWEncoder) (d : LZWDecoder) : Prop where
  phase  : d.phase = .run
  mcs    : d.minCodeSize = e.minCodeSize
  width  : d.codeSize = e.codeSize
  behind : OneBehind e d
  out    : d.out ++ e.indexBuffer = front

/-- The decoder has read the code of the encoder's buffer as well: it has all the encoder's entries, and the
width at which the encoder would end the unit (R263 (d)). -/
structure CaughtUp (front : List Nat) (e : LZWEncoder) (d : LZWDecoder) : Prop where
  phase  : d.phase = .run
  mcs    : d.minCodeSize = e.minCodeSize
  width  : d.codeSize = endWidth e
  tables : TablesAgree e.dict d.dict
  last   : e.nextCode = d.lastAssignedCode + 1
  prev   : ∃ c, d.prev = some c ∧ dictGet d.dict c = some e.indexBuffer
  out    : d.out = front

section
variable {e : LZWEncoder} {d : LZWDecoder} {front : List Nat}

/-- The two sides have the same reserved codes. -/
theorem reserved_eq (he : EncoderLegal e) (hd : DecoderLegal d) (hm : d.minCodeSize = e.minCodeSize) :
    d.clearCode = e.clearCode ∧ d.eoiCode = e.eoiCode := by
  have hclear : d.clearCode = e.clearCode := by rw [hd.clear, he.clear, hm]
  exact ⟨hclear, by rw [hd.eoi, he.eoi, hclear]⟩

/-- Which index and which sub-block come next is nothing to the lockstep. -/
theorem Follows.setPlaces (h : Follows front e d) (i j : Nat) :
    Follows front { e with inPos := i } { d with subIdx := j } where
  phase  := h.phase
  mcs    := h.mcs
  width  := h.width
  behind := by
    cases h.behind with
    | first prev tables last next => exact .first prev tables last next
    | later prev entry buffer tables next => exact .later prev entry buffer tables next
  out    := h.out

theorem CaughtUp.setSubIdx (h : CaughtUp front e d) (i : Nat) : CaughtUp front e { d with subIdx := i } :=
  { h with }

/-- R211, R252: two fresh units are in lockstep. -/
theorem follows_fresh (he : e.clearCode ≤ 4096) (hphase : d.phase = .run) (hm : d.minCodeSize = e.minCodeSize)
    (hclear : d.clearCode = e.clearCode) (heoi : d.eoiCode = e.eoiCode) (hout : d.out ++ e.indexBuffer = front) :
    Follows front (freshEncoder e) (freshDecoder d) where
  phase  := hphase
  mcs    := hm
  width  := congrArg (·.toNat + 1) hm
  behind := by
    refine .first rfl ?_ heoi rfl
    show TablesAgree (encSeed e.clearCode) (dictSeed d.clearCode)
    rw [hclear]
    exact tablesAgree_seed he
  out    := hout

/-- R255: an EXTEND leaves the buffer's first index as it is. -/
theorem Follows.extend (h : Follows front e d) (k : Nat) :
    Follows (front ++ [k]) { e with indexBuffer := e.indexBuffer ++ [k] } d where
  phase  := h.phase
  mcs    := h.mcs
  width  := h.width
  behind := by
    cases h.behind with
    | first prev tables last next => exact .first prev tables last next
    | later prev entry buffer tables next => exact .later prev entry (by rw [buffer]; rfl) tables next
  out    := by rw [← h.out, List.append_assoc]

/-- R256, R257: the entry of a MISS is the one the decoder then lacks, and the encoder widens as the decoder
has. -/
theorem CaughtUp.miss (h : CaughtUp front e d) (he : EncoderLegal e) (hd : DecoderLegal d) {k : Nat}
    (hn : e.nextCode ≤ 4095) (hmiss : encGet e.dict (e.indexBuffer ++ [k]) = none) :
    Follows (front ++ [k]) (inserted e k) d := by
  obtain ⟨c, hprev, hentry⟩ := h.prev
  have hnew : dictGet d.dict e.nextCode = none := by
    have hlow := hd.lastLow
    have heoi := hd.eoi
    have hlast := h.last
    by_contra hdef
    have := (hd.table.defined e.nextCode).mp hdef
    omega
  refine ⟨h.phase, h.mcs, ?_, .later hprev hentry rfl ?_ ?_, by rw [h.out]; rfl⟩
  · have hwidth := he.nextWidth
    rw [h.width, endWidth_eq he]
    exact if_congr (by omega) rfl rfl
  · rw [← h.last]
    exact h.tables.insert hmiss hnew
  · exact congrArg (· + 1) h.last

/-! ## The reserved codes -/

/-- R258: the CLEAR, which the encoder writes before its own reset. -/
theorem lzwDispatch_clear {u : State} (he : EncoderLegal e) (hd : DecoderLegal u.lzd) (hphase : u.lzd.phase = .run)
    (hm : u.lzd.minCodeSize = e.minCodeSize) {buffer : List Nat} (hout : u.lzd.out ++ buffer = front) :
    ∃ d, lzwDispatch (codeContext u.lzd) e.clearCode u = .ok () (u.setLZD d) ∧
      Follows front (freshEncoder { e with indexBuffer := buffer }) d := by
  obtain ⟨hclear, heoi⟩ := reserved_eq he hd hm
  have hsucc := hd.eoi
  refine ⟨freshDecoder u.lzd, ?_, follows_fresh he.clear_le hphase hm hclear heoi hout⟩
  unfold lzwDispatch
  rw [classifyCode_clear hclear.symm (show u.lzd.clearCode < u.lzd.eoiCode by omega)]
  rfl

theorem lzwDispatch_eoi {u : State} {c : Nat} (hc : c = u.lzd.eoiCode) :
    lzwDispatch (codeContext u.lzd) c u = .ok () (u.setLZD { u.lzd with phase := .done }) := by
  unfold lzwDispatch
  rw [classifyCode_eoi hc]
  rfl

end

/-! ## The code of the buffer -/

/-- The decoder after HIT or NEXT on the code `c` of the sequence `q`, where the next entry is `w` (R217, R218). -/
def afterCode (d : LZWDecoder) (c : Nat) (q w : List Nat) : LZWDecoder :=
  { assigned d w with out := d.out ++ q, prev := some c }

theorem afterCode_eq (d : LZWDecoder) (c : Nat) (q w : List Nat) :
    { assigned { d with out := d.out ++ q } w with prev := some c } = afterCode d c q w := by
  rw [assigned_setOut]
  rfl

section
variable {e : LZWEncoder} {u : State} {c : Nat} {front : List Nat}

/-- R216: the first code of a unit is a literal. -/
theorem lzwDispatch_first (hd : DecoderLegal u.lzd) (hprev : u.lzd.prev = none)
    (hlast : u.lzd.lastAssignedCode = u.lzd.eoiCode) {q : List Nat} (hq : dictGet u.lzd.dict c = some q) :
    lzwDispatch (codeContext u.lzd) c u =
      .ok () (u.setLZD { u.lzd with out := u.lzd.out ++ q, prev := some c }) := by
  have hdef := (hd.table.defined c).mp (by rw [hq]; nofun)
  have hcls : classifyCode (codeContext u.lzd) c = .first :=
    classifyCode_of_holds hd.eoi hd.lastLow (x := .first) ⟨hprev, by
      show c < u.lzd.clearCode
      omega⟩
  unfold lzwDispatch
  rw [hcls]
  exact lzwFirst_ok u hq

/-- R217, R218: a later code is a HIT, or a NEXT whose sequence is the entry the decoder lacks. -/
theorem lzwDispatch_later (hd : DecoderLegal u.lzd) {p k : Nat} {q w : List Nat} (hprev : u.lzd.prev = some p)
    (hentry : dictGet u.lzd.dict p = some q)
    (hc : dictGet (dictSet u.lzd.dict (u.lzd.lastAssignedCode + 1) (q ++ [k])) c = some (k :: w)) :
    lzwDispatch (codeContext u.lzd) c u = .ok () (u.setLZD (afterCode u.lzd c (k :: w) (q ++ [k]))) := by
  have hsome : (codeContext u.lzd).prev ≠ none := by
    show u.lzd.prev ≠ none
    rw [hprev]
    nofun
  rw [dictGet_dictSet_anyForm] at hc
  unfold lzwDispatch
  split at hc
  · next hnext =>
    have hcls : classifyCode (codeContext u.lzd) c = .next :=
      classifyCode_of_holds hd.eoi hd.lastLow (x := .next) ⟨hsome, hnext.symm⟩
    obtain ⟨p', k', w', hp', hq', -⟩ := hd.prevEntry hsome
    obtain rfl : p = p' := Option.some.inj (hprev.symm.trans hp')
    obtain rfl : q = k' :: w' := Option.some.inj (hentry.symm.trans hq')
    obtain ⟨rfl, rfl⟩ : k' = k ∧ w' ++ [k] = w := by simpa using hc
    rw [hcls, ← afterCode_eq]
    exact lzwNext_ok u hprev hentry
  · have hcls : classifyCode (codeContext u.lzd) c = .hit :=
      classifyCode_of_holds hd.eoi hd.lastLow (x := .hit)
        ⟨hsome, (hd.table.defined c).mp (by rw [hc]; nofun)⟩
    rw [hcls, ← afterCode_eq]
    exact lzwHit_ok u hc hprev hentry

/-- R263 (a), (b): the decoder reads the code of the encoder's buffer, and has caught up. -/
theorem lzwDispatch_buffer (he : EncoderLegal e) (hd : DecoderLegal u.lzd) (h : Follows front e u.lzd)
    (hc : encGet e.dict e.indexBuffer = some c) :
    ∃ d, lzwDispatch (codeContext u.lzd) c u = .ok () (u.setLZD d) ∧ CaughtUp front e d := by
  have hwidth := endWidth_eq he
  cases h.behind with
  | first prev tables last next =>
    have hq := (tables c e.indexBuffer).mpr hc
    have hroom := he.eoi_succ_lt
    rw [if_neg (by omega)] at hwidth
    refine ⟨_, lzwDispatch_first hd prev (last.trans (reserved_eq he hd h.mcs).2.symm) hq, ?_⟩
    exact
      { phase := h.phase, mcs := h.mcs, width := h.width.trans hwidth.symm, tables := tables,
        last := next.trans (congrArg (· + 1) last.symm), prev := ⟨c, rfl, hq⟩, out := h.out }
  | @later p k q w prev entry buffer tables next =>
    have hlow := hd.lastLow
    have hhigh := he.nextHigh
    have hlt : u.lzd.lastAssignedCode < 4095 := by omega
    have hq := (tables c e.indexBuffer).mpr hc
    have hdict := assigned_dict (q ++ [k]) hlt
    refine ⟨_, lzwDispatch_later hd prev entry (buffer ▸ hq), ?_⟩
    refine
      { phase := (assigned_phase _ _).trans h.phase, mcs := (assigned_minCodeSize _ _).trans h.mcs, width := ?_,
        tables := hdict ▸ tables, last := ?_, prev := ⟨c, rfl, (congrArg (dictGet · c) hdict).trans hq⟩,
        out := buffer ▸ h.out }
    · have hthreshold := hd.threshold
      show (assigned u.lzd (q ++ [k])).codeSize = _
      rw [assigned_codeSize _ hlt, hwidth, hthreshold, h.width]
      exact if_congr (by omega) rfl rfl
    · show _ = (assigned u.lzd (q ++ [k])).lastAssignedCode + 1
      rw [assigned_lastAssignedCode, if_pos hlt, next]

end

end Sys2Proof.Machine
end

section
/-! What a decoder makes of the bits of a code stream: code by code, from LZD.init on (R213, R263). -/

namespace Sys2Proof.Machine

variable {m : Byte} {bits : Bits} {P Q : LZWDecoder → Prop} {c w : Nat}

/-! ## Runs of the decoder -/

/-- A step of the decoder's loop (R213). -/
def LoopStep (x y : State) : Prop := x.lzd.phase = .run ∧ lzdStep x = .ok () y

/-- The decoder's steps, with the phase RUN before each. -/
abbrev DecodesTo : State → State → Prop := Relation.ReflTransGen LoopStep

/-- R163: the loop makes the steps that end the frame; each takes a bit, so the bits left bound them (R168). -/
theorem lzdLoop_of_decodesTo {x y : State} (h : DecodesTo x y) (hy : y.lzd.phase = .done)
    (hruns : DecoderRuns x.lzd) (fuel : Nat) (hfuel : (codeSupply x).length < fuel) :
    lzdLoop fuel x = .ok () y := by
  induction h using Relation.ReflTransGen.head_induction_on generalizing fuel with
  | refl =>
    obtain ⟨fuel, rfl⟩ : ∃ n, fuel = n + 1 := ⟨fuel - 1, by omega⟩
    exact lzdLoop_done hy fuel
  | @head x z hstep _ ih =>
    obtain ⟨hrun, hok⟩ := hstep
    obtain ⟨fuel, rfl⟩ : ∃ n, fuel = n + 1 := ⟨fuel - 1, by omega⟩
    have htakes := completes_lzdStep x hruns
    have hends := triple_lzdStep x hruns
    rw [hok] at htakes hends
    have hless : (codeSupply z).length < (codeSupply x).length := htakes
    rw [lzdLoop_step (by rw [hrun]; nofun), op_bind_of_ok x _ _ hok]
    exact ih hends fuel (by omega)

/-- R212: a fetch of a code whose bits come next returns it. -/
theorem lzdFetchCode_code {x : State} {rest : Bits} (hw : isWidth x.lzd.codeSize = true)
    (hc : c < 2 ^ x.lzd.codeSize) (hs : codeSupply x = codeBits x.lzd.codeSize c ++ rest) :
    ∃ u i, lzdFetchCode x = .ok c u ∧ codeSupply u = rest ∧ u.lzd = { x.lzd with subIdx := i } := by
  have hlen := length_codeBits x.lzd.codeSize c
  obtain ⟨k, -, hk, -, hrun⟩ := lzdFetchCode_ok x hw (by simp [hs])
  rw [hs, List.take_left' hlen, bitsValue_codeBits _ _ hc] at hrun
  refine ⟨_, x.lzd.subIdx + k, hrun, ?_, rfl⟩
  have hdrop : codeSupply ((pushed x k).setBSR { bits := (pushed x k).bsr.bits.drop x.lzd.codeSize }) =
      (codeSupply x).drop x.lzd.codeSize := by
    rw [← codeSupply_pushed x k]
    exact (List.drop_append_of_le_length hk).symm
  rw [hdrop, hs, List.drop_left' hlen]

/-! ## Streams -/

/-- A decoder set up for `m` that has these bits to read takes exactly them, and is then `P` (R210, R213). -/
def Decodes (m : Byte) (bits : Bits) (P : LZWDecoder → Prop) : Prop :=
  ∀ (subs : Blocks) (s x : State) (rest : Bits), lzdInit m subs s = .ok () x → codeSupply x = bits ++ rest →
    ∃ y, DecodesTo x y ∧ codeSupply y = rest ∧ DecoderRuns y.lzd ∧ P y.lzd

theorem Decodes.imp (h : Decodes m bits P) (hPQ : ∀ d, DecoderLegal d → P d → Q d) : Decodes m bits Q :=
  fun subs s x rest hx hs =>
    let ⟨y, hy, hrest, hruns, hP⟩ := h subs s x rest hx hs
    ⟨y, hy, hrest, hruns, hPQ _ hruns.2 hP⟩

/-- R210: the decoder before its first code. -/
theorem decodes_nil (hm : mcsInRange m = true) (hP : ∀ d : LZWDecoder, P (freshDecoder { d with
      minCodeSize := m, clearCode := 2 ^ m.toNat, eoiCode := 2 ^ m.toNat + 1, out := [], phase := .run })) :
    Decodes m [] P := by
  intro subs s x rest hx hs
  obtain ⟨x', hx', hruns, -⟩ := lzdInit_runs subs hm s
  obtain rfl : x = x' := by
    rw [hx] at hx'
    cases hx'
    rfl
  refine ⟨x, .refl, hs, hruns, ?_⟩
  rw [lzdInit_eq] at hx
  cases hx
  exact hP { s.lzd with subs := subs, subIdx := 0 }

/-- R213: one more code, written at the width the decoder has reached. -/
theorem Decodes.code (h : Decodes m bits P) (hc : c < 2 ^ w)
    (hP : ∀ d, P d → d.phase = .run ∧ d.codeSize = w) (hsub : ∀ d i, P d → P { d with subIdx := i })
    (hQ : ∀ u : State, DecoderLegal u.lzd → P u.lzd →
      ∃ d, lzwDispatch (codeContext u.lzd) c u = .ok () (u.setLZD d) ∧ Q d) :
    Decodes m (bits ++ codeBits w c) Q := by
  intro subs s x rest hx hs
  obtain ⟨y, hy, hrest, hruns, hy'⟩ := h subs s x (codeBits w c ++ rest) hx (by rw [hs, List.append_assoc])
  obtain ⟨hphase, rfl⟩ := hP _ hy'
  obtain ⟨u, i, hfetch, hsupply, hu⟩ := lzdFetchCode_code hruns.2.isWidth hc hrest
  have hfetched := lzdFetchCode_ends y hruns
  rw [hfetch] at hfetched
  obtain ⟨hlt, huruns⟩ := hfetched
  obtain ⟨d, hdispatch, hd⟩ := hQ u huruns.2 (hu ▸ hsub _ i hy')
  have hends := lzwDispatch_ends u huruns hlt
  have hkept := completes_lzwDispatch u huruns c
  rw [hdispatch] at hends hkept
  have hstep : LoopStep y (u.setLZD d) := ⟨hphase, (lzdStep_of_fetch hfetch).trans hdispatch⟩
  exact ⟨u.setLZD d, hy.tail hstep, Eq.trans hkept hsupply, hends, hd⟩

end Sys2Proof.Machine
end

section
/-! ENCODE_FRAME and then DECODE_FRAME (R224): every operation of the encoder keeps a decoder of the bits written
in lockstep, so the decoder of a frame ends with the encoder's input. -/

namespace Sys2Proof.Machine

variable {m : Byte} {idx front : List Nat} {pos c k : Nat} {s u : State} {P Q : LZWDecoder → Prop}

/-- The bits of the codes written so far (R190). -/
def writtenBits (b : BitWriter) : Bits := bytesBits b.out ++ b.acc

/-! ## The encoder's operations -/

/-- R259: a code the encoder writes is a code the decoder reads next. -/
theorem lzeEmit_decodes (h : Decodes m (writtenBits s.bsw) P) (hw : isWidth s.lze.codeSize = true)
    (hc : c < 2 ^ s.lze.codeSize) (hP : ∀ d, P d → d.phase = .run ∧ d.codeSize = s.lze.codeSize)
    (hsub : ∀ d i, P d → P { d with subIdx := i })
    (hQ : ∀ u : State, DecoderLegal u.lzd → P u.lzd →
      ∃ d, lzwDispatch (codeContext u.lzd) c u = .ok () (u.setLZD d) ∧ Q d) :
    ∃ b, lzeEmit (some c) s = .ok () (s.setBSW b) ∧ Decodes m (writtenBits b) Q := by
  refine ⟨_, lzeEmit_ok s hw hc, ?_⟩
  have hbits := (drainBytes_stream s.bsw (codeBits s.lze.codeSize c)).1
  unfold writtenBits
  rw [hbits]
  exact h.code hc hP hsub hQ

/-- R263 (a): the buffer's code, which MISS and the end of the input write. -/
theorem decodes_buffer (hl : EncoderLegal s.lze) (h : Decodes m (writtenBits s.bsw) (Follows front s.lze)) :
    ∃ b, lzeEmit (encGet s.lze.dict s.lze.indexBuffer) s = .ok () (s.setBSW b) ∧
      Decodes m (writtenBits b) (CaughtUp front s.lze) := by
  obtain ⟨c, hc, hlt⟩ := hl.buffer_code
  rw [hc]
  exact lzeEmit_decodes h hl.isWidth hlt (fun d hd => ⟨hd.phase, hd.width⟩)
    (fun d i hd => hd.setPlaces s.lze.inPos i) fun u hu hf => lzwDispatch_buffer hl hu hf hc

/-- R256 to R258: a MISS leaves the decoder one entry behind, or both sides with a fresh unit. -/
theorem lzeMiss_decodes (hl : EncoderLegal s.lze) (h : Decodes m (writtenBits s.bsw) (Follows front s.lze))
    (hmiss : encGet s.lze.dict (s.lze.indexBuffer ++ [k]) = none) :
    ∃ t, lzeMiss k s = .ok () t ∧ Decodes m (writtenBits t.bsw) (Follows (front ++ [k]) t.lze) := by
  obtain ⟨b, hemit, hcaught⟩ := decodes_buffer hl h
  by_cases hn : s.lze.nextCode ≤ 4095
  · exact ⟨_, lzeMiss_insert s hemit hn, hcaught.imp fun d hd hd' => hd'.miss hl hd hn hmiss⟩
  · have hend : endWidth s.lze = s.lze.codeSize := by
      rw [endWidth_eq hl, if_neg (by omega)]
    obtain ⟨b', hemit', hfresh⟩ := lzeEmit_decodes
      (s := (s.setBSW b).setLZE (insertNext s.lze k)) (c := s.lze.clearCode)
      (Q := Follows (front ++ [k]) (freshEncoder (insertNext s.lze k))) hcaught hl.isWidth hl.reserved_lt.1
      (fun d hd => ⟨hd.phase, hd.width.trans hend⟩) (fun d i hd => hd.setSubIdx i) fun u hu hcu =>
        lzwDispatch_clear hl hu hcu.phase hcu.mcs (congrArg (· ++ [k]) hcu.out)
    exact ⟨_, lzeMiss_reset s hemit (Nat.lt_of_not_le hn) hemit', hfresh⟩

/-- R254: an index is handled in lockstep. -/
theorem lzeHandle_decodes (hl : EncoderLegal s.lze) (h : Decodes m (writtenBits s.bsw) (Follows front s.lze)) :
    ∃ t, lzeHandle s.lze k s = .ok () t ∧ Decodes m (writtenBits t.bsw) (Follows (front ++ [k]) t.lze) := by
  unfold lzeHandle lzeKnows
  cases hg : encGet s.lze.dict (s.lze.indexBuffer ++ [k]) with
  | none => exact lzeMiss_decodes hl h hg
  | some c => exact ⟨_, lzeExtend_eq s k, h.imp fun d _ hd => hd.extend k⟩

/-- R260, R261: the end of the input ends the decoder's frame, with the input as its output. -/
theorem lzeFinish_decodes (hl : EncoderLegal s.lze) (h : Decodes m (writtenBits s.bsw) (Follows front s.lze)) :
    ∃ t, lzeFinish s = .ok () t ∧
      Decodes m (writtenBits t.bsw) fun d => d.phase = .done ∧ d.out = front := by
  obtain ⟨b, hemit, hcaught⟩ := decodes_buffer hl h
  have hl' := hl.update (phase := s.lze.phase) (endWidth_bounds hl).1 (endWidth_bounds hl).2 hl.buffer hl.inPos
  obtain ⟨b', hemit', hdone⟩ := lzeEmit_decodes
    (s := (s.setBSW b).setLZE { s.lze with codeSize := endWidth s.lze }) (c := s.lze.eoiCode)
    (Q := fun d => d.phase = .done ∧ d.out = front) hcaught hl'.isWidth hl'.reserved_lt.2
    (fun d hd => ⟨hd.phase, hd.width⟩) (fun d i hd => hd.setSubIdx i) fun u hu hcu =>
      ⟨_, lzwDispatch_eoi (reserved_eq hl hu hcu.mcs).2.symm, rfl, hcu.out⟩
  exact ⟨_, lzeFinish_ok s hemit hemit' rfl, hdone⟩

/-! ## The encoding of a frame -/

/-- The encoder is encoding `idx`, with `pos` of its indices consumed, in lockstep with a decoder of the bits
written (R263). -/
structure EncodesInStep (m : Byte) (idx : List Nat) (pos : Nat) (s : State) : Prop where
  encoder : EncoderAt m idx pos s
  decoder : Decodes m (writtenBits s.bsw) (Follows (idx.take pos) s.lze)

/-- The encoder that init leaves for the input `k :: rest` (R251). -/
def startEncoder (e : LZWEncoder) (m : Byte) (k : Nat) (rest : List Nat) : LZWEncoder :=
  freshEncoder { e with
    minCodeSize := m, clearCode := 2 ^ m.toNat, eoiCode := 2 ^ m.toNat + 1, input := k :: rest, phase := .run,
    indexBuffer := [k], inPos := 1 }

theorem lzeInit_ok (hk : k < 2 ^ m.toNat) (rest : List Nat) (s : State) : lzeInit m (k :: rest) s =
    .ok () ((s.setBSW { acc := [], out := [] }).setLZE (startEncoder s.lze m k rest)) :=
  (lzeInit_eq s m k rest).trans (if_pos hk)

/-- R251, R250: init and the initial CLEAR, which the decoder takes as a second reset. -/
theorem lzeBegin_inStep (hm : mcsInRange m = true) (hk : k < 2 ^ m.toNat) (rest : List Nat) (s : State) :
    ∃ t, lzeBegin m (k :: rest) s = .ok () t ∧ EncodesInStep m (k :: rest) 1 t := by
  have hinit := lzeInit_ok hk rest s
  have hruns := triple_lzeInit (k :: rest) hm s trivial
  rw [hinit] at hruns
  have hl := hruns.legal
  have hstart : Decodes m [] (Follows [k] (startEncoder s.lze m k rest)) :=
    decodes_nil hm fun d => follows_fresh hl.clear_le rfl rfl rfl rfl rfl
  obtain ⟨b, hemit, hclear⟩ := lzeEmit_decodes (s := (s.setBSW { acc := [], out := [] }).setLZE _) hstart
    hl.isWidth hl.reserved_lt.1 (fun d hd => ⟨hd.phase, hd.width⟩) (fun d i hd => hd.setPlaces 1 i) fun u hu hf =>
      lzwDispatch_clear hl hu hf.phase hf.mcs hf.out
  have hbegin : lzeBegin m (k :: rest) s = _ :=
    (op_bind_of_ok s _ _ hinit).trans ((op_bind_of_ok _ _ _ (op_getLZE _)).trans hemit)
  obtain ⟨_, t, ht, hat⟩ := (checks_lzeBegin hm rest s).returns hk
  obtain rfl : t = _ := by
    cases ht.symm.trans hbegin
    rfl
  exact ⟨_, ht, hat, hclear⟩

/-- R254: a step keeps the lockstep. -/
theorem EncodesInStep.step (h : EncodesInStep m idx pos s) (hlt : pos < idx.length)
    (hk : idx[pos] < 2 ^ m.toNat) : ∃ t, lzeStep s = .ok () t ∧ EncodesInStep m idx (pos + 1) t := by
  have hinput := h.encoder.encoding.input
  have hinPos := h.encoder.encoding.inPos
  have hl := h.encoder.runs.legal
  have hget : s.lze.input[s.lze.inPos]? = some idx[pos] := by
    rw [hinput, hinPos]
    exact List.getElem?_eq_getElem hlt
  have hnext := (lzeNextIndex_eq s hget).trans (if_pos (by rwa [h.encoder.clearCode]))
  have hl' : EncoderLegal { s.lze with inPos := s.lze.inPos + 1 } :=
    hl.update (Nat.le_refl _) hl.widthHigh hl.buffer (by rw [hinput, hinPos]; exact hlt)
  obtain ⟨t, hhandle, hdec⟩ := lzeHandle_decodes (s := s.setLZE { s.lze with inPos := s.lze.inPos + 1 })
    (k := idx[pos]) hl' (h.decoder.imp fun d _ hd => hd.setPlaces _ d.subIdx)
  have hstep : lzeStep s = .ok () t := (op_bind_of_ok s _ _ hnext).trans hhandle
  obtain ⟨_, t', ht', hat⟩ := (h.encoder.step hlt).returns hk
  obtain rfl : t = t' := by
    cases hstep.symm.trans ht'
    rfl
  refine ⟨t, hstep, hat, ?_⟩
  rwa [List.take_append_getElem] at hdec

/-- R250: the loop ends with every index consumed, in lockstep. -/
theorem EncodesInStep.loop (h : EncodesInStep m idx pos s) (hall : ∀ k ∈ idx, k < 2 ^ m.toNat) (fuel : Nat)
    (hle : idx.length ≤ pos + fuel) :
    ∃ t p, lzeLoop fuel s = .ok () t ∧ idx.length ≤ p ∧ EncodesInStep m idx p t := by
  have hinput := h.encoder.encoding.input
  have hinPos := h.encoder.encoding.inPos
  induction fuel generalizing s pos with
  | zero => exact ⟨s, pos, lzeLoop_end (by rwa [hinput, hinPos]) 0, hle, h⟩
  | succ fuel ih =>
    by_cases hlt : pos < idx.length
    · obtain ⟨t, ht, hstep⟩ := h.step hlt (hall _ (List.getElem_mem hlt))
      obtain ⟨v, p, hv, hend⟩ := ih hstep (by omega) hstep.encoder.encoding.input hstep.encoder.encoding.inPos
      refine ⟨v, p, ?_, hend⟩
      rw [lzeLoop_step (by rwa [hinput, hinPos]), op_bind_of_ok s _ _ ht, hv]
    · exact ⟨s, pos, lzeLoop_end (by rw [hinput, hinPos]; omega) _, by omega, h⟩

/-- R191: close pads the bits written to whole bytes. -/
theorem bswClose_pads (h7 : WriterBitsLegal s.bsw) :
    ∃ t pad, bswClose s = .ok () t ∧ bytesBits t.bsw.out = writtenBits s.bsw ++ pad := by
  obtain ⟨t, n, ht, -, -, hbits⟩ := exec_bswClose_pads h7
  rcases runUnit_next ht with hok | ⟨e, u, herr, -⟩
  · exact ⟨t, _, hok, hbits⟩
  · have hends := lzePacked_ends 0#8 h7
    rw [show lzePacked 0#8 s = _ from op_bind_of_error s _ _ herr] at hends
    exact hends.elim

/-- R250: the bytes packed hold bits that the decoder takes for the input, and a padding. -/
theorem lzeEncodeFrame_decodes (hm : mcsInRange m = true) (hne : idx ≠ []) (hall : ∀ k ∈ idx, k < 2 ^ m.toNat)
    (s : State) : ∃ bytes t bits pad, lzeEncodeFrame m idx s = .ok (packSubBlocks m bytes) t ∧
      bytesBits bytes = bits ++ pad ∧ Decodes m bits fun d => d.phase = .done ∧ d.out = idx := by
  obtain ⟨k, rest, rfl⟩ := List.exists_cons_of_ne_nil hne
  obtain ⟨t1, hbegin, h1⟩ := lzeBegin_inStep hm (hall k List.mem_cons_self) rest s
  obtain ⟨t2, p, hloop, hp, h2⟩ := h1.loop hall (k :: rest).length (Nat.le_add_left _ _)
  obtain ⟨t3, hfinish, hdec⟩ := lzeFinish_decodes h2.encoder.runs.legal h2.decoder
  have h3 := triple_lzeFinish t2 h2.encoder.runs
  rw [hfinish] at h3
  obtain ⟨t4, pad, hclose, hbits⟩ := bswClose_pads h3.bits
  rw [List.take_of_length_le hp] at hdec
  refine ⟨t4.bsw.out, t4, _, pad, ?_, hbits, hdec⟩
  unfold lzeEncodeFrame
  rw [op_bind_of_ok s _ _ hbegin, op_bind_of_ok _ _ _ hloop, op_bind_of_ok _ _ _ hfinish]
  exact op_bind_of_ok t3 _ _ hclose

/-! ## The two commands -/

/-- R163: DECODE_FRAME of a frame whose first bits end it with the output `idx`. -/
theorem decodeFrame_returned {img : ImageBlock} {bits pad : Bits} (act : Option ColorTable) (hs : s.hi.cmd = 0#8)
    (hm : mcsInRange img.lzw.minCodeSize = true) (hbits : bytesBits img.lzw.subBlocks.flatten = bits ++ pad)
    (h : Decodes img.lzw.minCodeSize bits fun d => d.phase = .done ∧ d.out = idx) :
    ∃ v, exec (.decodeFrame img act) s = .next v ∧ Returned (.indices idx) v := by
  obtain ⟨x, hx, hexec⟩ := exec_decodeFrame_eq img act hs hm
  obtain ⟨x', hx', hruns, hsupply⟩ := lzdInit_runs img.lzw.subBlocks hm (commandStart 0x02#8 [] s)
  obtain rfl : x = x' := by
    cases hx.symm.trans hx'
    rfl
  have hstream : codeSupply x = bits ++ pad := by
    rw [lzdInit_eq] at hx
    cases hx
    exact hbits
  obtain ⟨y, hy, -, -, hdone, hout⟩ := h _ _ x pad hx hstream
  have hloop := lzdLoop_of_decodesTo hy hdone hruns (bitSupply img.lzw.subBlocks + 1) (by omega)
  refine ⟨commandEnd (.indices idx) y, ?_, rfl, rfl, rfl, rfl⟩
  rw [hexec, hloop, ← hout]
  rfl

/-- R199: the packer's payloads are legal sub-blocks. -/
theorem blocksWf_chunksOf (fuel : Nat) (data : List Byte) : blocksWf (chunksOf fuel data) = true := by
  refine List.all_eq_true.mpr fun b hb => (isBlock_iff b).mpr ?_
  obtain ⟨hpos, hlong⟩ := chunksOf_length fuel data b hb
  exact ⟨hpos, Nat.le_succ_of_le hlong⟩

/-- Settles O53: the encoder keeps a decoder of its bits in lockstep up to EOI, and the sub-blocks are its bytes
cut into payloads. -/
theorem frameRoundTrip : Obligations.FrameRoundTrip := by
  unfold Obligations.FrameRoundTrip
  intro m idx s hs h2 h8 hne hall
  have hm := (mcsInRange_iff m).mpr ⟨h2, h8⟩
  obtain ⟨bytes, u, bits, pad, hrun, hbits, hdec⟩ :=
    lzeEncodeFrame_decodes hm hne hall (commandStart 0x03#8 [] s)
  obtain ⟨t, ht, hret⟩ := runCommand_returned (op := encodeFrame m idx) (v := .bytes (packSubBlocks m bytes))
    (u := u) hs (by
      rw [encodeFrame_eq hm hne]
      exact op_bind_of_ok _ _ _ hrun)
  refine ⟨t, chunksOf bytes.length bytes, blocksWf_chunksOf _ _, ht, hret, fun img act himg => ?_⟩
  obtain ⟨-, hidle, -⟩ := hret
  refine decodeFrame_returned act hidle (by rwa [himg]) (bits := bits) (pad := pad) ?_ (by rwa [himg])
  rw [himg, ← hbits]
  exact congrArg bytesBits (chunksOf_flatten _ _ le_rfl)

end Sys2Proof.Machine
end

section
/-! The encoder's operations, one by one (R251 to R262): what each writes, and that a step keeps R262. -/

namespace Sys2Proof.Machine

variable {s t x : State} {code w k : Nat}

/-! ## Codes written -/

/-- R190: a write depends on BSW only, so it is the same write from every state with that BSW. -/
theorem Written.of_bsw_eq (h : Written code w s t) (hx : x.bsw = s.bsw) : Written code w x (x.setBSW t.bsw) := by
  obtain ⟨-, hbits⟩ := h
  refine ⟨rfl, ?_⟩
  rw [hx]
  exact hbits

/-- R259: an emitted code that fits is written, from this state and from any other with its BSW. -/
theorem lzeEmit_setBSW (s : State) (hw : isWidth s.lze.codeSize = true) (hc : code < 2 ^ s.lze.codeSize) :
    ∃ b, lzeEmit (some code) s = .ok () (s.setBSW b) ∧
      ∀ x : State, x.bsw = s.bsw → Written code s.lze.codeSize x (x.setBSW b) := by
  obtain ⟨t, ht, hwritten⟩ := lzeEmit_written s hw hc
  exact ⟨t.bsw, hwritten.1 ▸ ht, fun x hx => hwritten.of_bsw_eq hx⟩

/-! ## MISS and the reset -/

section
variable (hcode : encGet s.lze.dict s.lze.indexBuffer = some code) (hw : isWidth s.lze.codeSize = true)
  (hc : code < 2 ^ s.lze.codeSize)
include hcode hw hc

/-- R256, R257: MISS at a next code of at most 4095. -/
theorem lzeMiss_inserts (k : Nat) (hn : s.lze.nextCode ≤ 4095) :
    ∃ b, Written code s.lze.codeSize s (s.setBSW b) ∧
      lzeMiss k s = .ok () ((s.setBSW b).setLZE (inserted s.lze k)) := by
  obtain ⟨b, hemit, hwritten⟩ := lzeEmit_setBSW s hw hc
  exact ⟨b, hwritten s rfl, lzeMiss_insert s (hcode ▸ hemit) hn⟩

/-- R256, R258: MISS past the code 4095 writes CLEAR, at the width the code before it had. -/
theorem lzeMiss_resets (k : Nat) (hn : 4095 < s.lze.nextCode) (hclear : s.lze.clearCode < 2 ^ s.lze.codeSize) :
    ∃ b b', Written code s.lze.codeSize s (s.setBSW b) ∧
      Written s.lze.clearCode s.lze.codeSize (s.setBSW b) (s.setBSW b') ∧
      lzeMiss k s = .ok () ((s.setBSW b').setLZE { freshEncoder s.lze with indexBuffer := [k] }) := by
  obtain ⟨b, hemit, hwritten⟩ := lzeEmit_setBSW s hw hc
  obtain ⟨b', hemit', hwritten'⟩ := lzeEmit_setBSW ((s.setBSW b).setLZE (insertNext s.lze k)) hw hclear
  exact ⟨b, b', hwritten s rfl, hwritten' (s.setBSW b) rfl, lzeMiss_reset s (hcode ▸ hemit) hn hemit'⟩

end

/-- R258: resetUnit writes CLEAR at the width as it is, and then sets up a fresh unit. -/
theorem lzeResetUnit_writes (hw : isWidth s.lze.codeSize = true) (hclear : s.lze.clearCode < 2 ^ s.lze.codeSize) :
    ∃ b, Written s.lze.clearCode s.lze.codeSize s (s.setBSW b) ∧
      lzeResetUnit s = .ok () ((s.setBSW b).setLZE (freshEncoder s.lze)) := by
  obtain ⟨b, hemit, hwritten⟩ := lzeEmit_setBSW s hw hclear
  exact ⟨b, hwritten s rfl, lzeResetUnit_ok s hemit⟩

/-! ## The end of the input -/

/-- R260: the width of EOI, spelled out. -/
theorem endWidth_eq_ite (e : LZWEncoder) : endWidth e =
    if e.eoiCode + 1 < e.nextCode ∧ e.nextCode = 2 ^ e.codeSize ∧ e.codeSize < 12 then e.codeSize + 1
    else e.codeSize := by
  have hiff : widensAtEnd e = true ↔
      e.eoiCode + 1 < e.nextCode ∧ e.nextCode = 2 ^ e.codeSize ∧ e.codeSize < 12 := by
    simp only [widensAtEnd, Bool.and_eq_true, decide_eq_true_eq, beq_iff_eq]
    exact and_assoc
  exact if_congr hiff rfl rfl

/-- R260: the end of the input keeps a legal width, and does not narrow it. -/
theorem isWidth_endWidth {e : LZWEncoder} (hw : isWidth e.codeSize = true) :
    isWidth (endWidth e) = true ∧ e.codeSize ≤ endWidth e := by
  rw [isWidth_iff] at hw ⊢
  rw [endWidth_eq_ite]
  split <;> omega

/-- R260, R261: finish writes the buffer's code and EOI, the second at the width the input ends at. -/
theorem lzeFinish_writes (hcode : encGet s.lze.dict s.lze.indexBuffer = some code)
    (hw : isWidth s.lze.codeSize = true) (hc : code < 2 ^ s.lze.codeSize)
    (heoi : s.lze.eoiCode < 2 ^ s.lze.codeSize) :
    ∃ b b', Written code s.lze.codeSize s (s.setBSW b) ∧
      Written s.lze.eoiCode (endWidth s.lze) (s.setBSW b) (s.setBSW b') ∧
      lzeFinish s =
        .ok () ((s.setBSW b').setLZE { s.lze with codeSize := endWidth s.lze, phase := .done }) := by
  obtain ⟨hwide, hle⟩ := isWidth_endWidth hw
  have hfits : s.lze.eoiCode < 2 ^ endWidth s.lze :=
    Nat.lt_of_lt_of_le heoi (Nat.pow_le_pow_right (by omega) hle)
  obtain ⟨b, hemit, hwritten⟩ := lzeEmit_setBSW s hw hc
  obtain ⟨b', hemit', hwritten'⟩ :=
    lzeEmit_setBSW ((s.setBSW b).setLZE { s.lze with codeSize := endWidth s.lze }) hwide hfits
  exact ⟨b, b', hwritten s rfl, hwritten' (s.setBSW b) rfl, lzeFinish_ok s (hcode ▸ hemit) hemit' rfl⟩

/-! ## Steps of a legal encoder -/

/-- R262: EXTEND or MISS, as the dictionary says, keeps a legal encoder and writes BSW and LZE only. -/
theorem lzeHandle_keepsLegal (h : EncoderLegal s.lze) (hk : k < s.lze.clearCode) :
    ∃ b e, lzeHandle s.lze k s = .ok () ((s.setBSW b).setLZE e) ∧ EncoderLegal e ∧ e.inPos = s.lze.inPos := by
  obtain ⟨code, hcode, hc⟩ := h.buffer_code
  unfold lzeHandle lzeKnows
  cases hmap : encGet s.lze.dict (s.lze.indexBuffer ++ [k]) with
  | some c =>
    have hbuffer : encGet s.lze.dict (s.lze.indexBuffer ++ [k]) ≠ none := by
      rw [hmap]
      nofun
    exact ⟨s.bsw, _, lzeExtend_eq s k, h.update (Nat.le_refl _) h.widthHigh hbuffer h.inPos, rfl⟩
  | none =>
    by_cases hn : s.lze.nextCode ≤ 4095
    · obtain ⟨b, -, hmiss⟩ := lzeMiss_inserts hcode h.isWidth hc k hn
      exact ⟨b, _, hmiss, encoderLegal_inserted h hk hn hmap, rfl⟩
    · obtain ⟨-, b, -, -, hmiss⟩ :=
        lzeMiss_resets hcode h.isWidth hc k (Nat.lt_of_not_le hn) h.reserved_lt.1
      exact ⟨b, _, hmiss, encoderLegal_fresh (e := { s.lze with indexBuffer := [k] }) h.mcs h.clear h.eoi hk rfl
        h.inPos, rfl⟩

/-- R262: a step on an index of the alphabet keeps a legal encoder. -/
theorem lzeStep_keepsLegal (h : EncoderLegal s.lze) (hk : s.lze.input[s.lze.inPos]? = some k)
    (hc : k < s.lze.clearCode) :
    ∃ b e, lzeStep s = .ok () ((s.setBSW b).setLZE e) ∧ EncoderLegal e ∧ e.inPos = s.lze.inPos + 1 := by
  obtain ⟨hleft, -⟩ := List.getElem?_eq_some_iff.mp hk
  obtain ⟨b, e, hhandle, hlegal, hpos⟩ :=
    lzeHandle_keepsLegal (s := s.setLZE { s.lze with inPos := s.lze.inPos + 1 })
      (h.update (Nat.le_refl _) h.widthHigh h.buffer hleft) hc
  exact ⟨b, e, (lzeStep_eq s hk hc).trans hhandle, hlegal, hpos⟩

/-- R262: where the codes are used up the width is the largest. -/
theorem EncoderLegal.codeSize_of_full {e : LZWEncoder} (h : EncoderLegal e) (hn : 4095 < e.nextCode) :
    e.codeSize = 12 := by
  have hfits : 2 ^ 12 ≤ 2 ^ e.codeSize := Nat.le_trans hn h.nextWidth
  exact Nat.le_antisymm h.widthHigh ((Nat.pow_le_pow_iff_right (by omega)).mp hfits)

/-- R254: a step on an index of the alphabet is the instruction the dictionary selects, past the index. -/
theorem exec_lzeStep_eq (hk : s.lze.input[s.lze.inPos]? = some k) (hc : k < s.lze.clearCode) :
    exec .lzeStep s = exec (if lzeKnows s.lze k then .lzeExtend k else .lzeMiss k)
      (s.setLZE { s.lze with inPos := s.lze.inPos + 1 }) := by
  rw [exec_lzeHandle]
  exact congrArg (settle _) (lzeStep_eq s hk hc)

theorem lzeKnows_iff (e : LZWEncoder) (k : Nat) :
    lzeKnows e k = true ↔ encGet e.dict (e.indexBuffer ++ [k]) ≠ none :=
  Option.isSome_iff_ne_none

/-! ## The obligations -/

/-- Settles O30: init, unitReset and checkIndex by everything each can do, the fresh map by its seed. -/
theorem encoderInit : Obligations.EncoderInit := by
  unfold Obligations.EncoderInit
  refine fun s k => ⟨fun m rest => ⟨fun hk => ?_, fun hk => ?_⟩, runUnit_of_ok (lzeUnitReset_eq s),
    fun e q c => encGet_encSeed e.clearCode c q, fun hk => ?_, fun hk => ?_⟩
  · exact runUnit_of_ok ((lzeInit_eq s m k rest).trans (if_pos hk))
  · exact errorTaken_of_raised ((lzeInit_eq s m k rest).trans (if_neg (Nat.not_lt.mpr hk)))
  · exact runUnit_of_ok ((lzeCheckIndex_eq s k).trans (if_pos hk))
  · exact errorTaken_of_raised ((lzeCheckIndex_eq s k).trans (if_neg (Nat.not_lt.mpr hk)))

/-- Settles O31: the index is checked where it is consumed, and the dictionary then selects the instruction. -/
theorem encoderStep : Obligations.EncoderStep := by
  unfold Obligations.EncoderStep
  refine fun s k => ⟨fun hk => ⟨fun hout => ?_, fun hc hmap => ?_, fun hc hmap => ?_⟩,
    runUnit_of_ok (lzeExtend_eq s k)⟩
  · have hnext := (lzeNextIndex_eq s hk).trans (if_neg (Nat.not_lt.mpr hout))
    exact errorTaken_of_raised (op_bind_of_error s _ _ hnext)
  · rw [exec_lzeStep_eq hk hc, if_pos ((lzeKnows_iff s.lze k).mpr hmap)]
  · rw [exec_lzeStep_eq hk hc, if_neg fun hknows => (lzeKnows_iff s.lze k).mp hknows hmap]

/-- Settles O32: each way an index is handled keeps R262, and the bounds of R262 keep the codes in the width. -/
theorem encoderInvariants : Obligations.EncoderInvariants := by
  unfold Obligations.EncoderInvariants
  refine ⟨fun s k h hk hc => ?_, fun e h => ⟨fun c hc => ?_, h.reserved_lt.1, h.reserved_lt.2,
    h.codeSize_of_full⟩⟩
  · obtain ⟨b, e, hstep, hlegal, hpos⟩ := lzeStep_keepsLegal h hk hc
    exact ⟨_, runUnit_of_ok hstep, rfl, hlegal, hpos⟩
  · obtain ⟨c', hc', hlt⟩ := h.buffer_code
    cases hc.symm.trans hc'
    exact hlt

/-- Settles O33: MISS on either side of the last code, and the reset on its own. -/
theorem missEmitsAndInserts : Obligations.MissEmitsAndInserts := by
  unfold Obligations.MissEmitsAndInserts
  intro s k code hcode hc h1 h12
  have hw := (isWidth_iff s.lze.codeSize).mpr ⟨h1, h12⟩
  refine ⟨fun hn => ?_, fun hn hclear => ?_, fun hclear => ?_⟩
  · obtain ⟨b, hwritten, hmiss⟩ := lzeMiss_inserts hcode hw hc k hn
    refine ⟨_, runUnit_of_ok hmiss, hwritten, rfl, fun q => ?_, rfl⟩
    exact (encGet_encSet s.lze.dict _ q _).trans (if_congr eq_comm rfl rfl)
  · obtain ⟨b, b', hwritten, hwritten', hmiss⟩ := lzeMiss_resets hcode hw hc k hn hclear
    exact ⟨b, _, hwritten, runUnit_of_ok hmiss, hwritten', rfl⟩
  · obtain ⟨b, hwritten, hreset⟩ := lzeResetUnit_writes hw hclear
    exact ⟨_, runUnit_of_ok hreset, hwritten, rfl⟩

/-- Settles O34: emit is the write at LZE's width, and there is none to make without a code. -/
theorem emitCode : Obligations.EmitCode := by
  unfold Obligations.EmitCode
  refine fun s => ⟨fun code => ?_, errorTaken_of_raised (lzeEmit_none s)⟩
  have hwrite : exec (.lzeEmit (some code)) s = exec (.bswWrite code s.lze.codeSize) s :=
    congrArg (settle _) (lzeEmit_some s code)
  exact ⟨hwrite, fun h1 h12 hc => hwrite ▸ exec_bswWrite_written ⟨h1, h12⟩ hc⟩

/-- Settles O35: finish by its two writes, the width of the second spelled out. -/
theorem finishWritesEoi : Obligations.FinishWritesEoi := by
  unfold Obligations.FinishWritesEoi
  intro s code w hcode hc heoi h1 h12 hwidth
  obtain rfl : w = endWidth s.lze := hwidth.trans (endWidth_eq_ite s.lze).symm
  obtain ⟨b, b', hwritten, hwritten', hfinish⟩ :=
    lzeFinish_writes hcode ((isWidth_iff s.lze.codeSize).mpr ⟨h1, h12⟩) hc heoi
  exact ⟨b, _, hwritten, runUnit_of_ok hfinish, hwritten', rfl⟩

end Sys2Proof.Machine
end

section
/-! LZE.encodeFrame as its steps (R250): init, the initial CLEAR, one step for each further index, finish and
close, run by name one after another, make the state the operation leaves as a whole. -/

namespace Sys2Proof.Machine

variable {m : Byte} {idx : List Nat} {pos k : Nat} {s t : State}

/-- R250: the first two lines, run by name. -/
theorem execAll_of_lzeBegin {rest : List Nat} (hk : k < 2 ^ m.toNat) (h : lzeBegin m (k :: rest) s = .ok () t) :
    execAll [.lzeInit m (k :: rest), .lzeEmit (some (2 ^ m.toNat))] s = .next t := by
  have hinit := lzeInit_ok hk rest s
  have hemit : lzeEmit (some (2 ^ m.toNat)) ((s.setBSW { acc := [], out := [] }).setLZE
      (startEncoder s.lze m k rest)) = .ok () t := (op_bind_of_ok s _ _ hinit).symm.trans h
  have hexec : exec (.lzeInit m (k :: rest)) s = .next _ := runUnit_of_ok hinit
  rw [execAll_cons_of_next _ hexec]
  exact execAll_cons_of_next [] (runUnit_of_ok hemit)

/-- R250: with `n` indices left, all in the alphabet, the loop is `n` steps. -/
theorem EncoderAt.execAll_lzeStep (h : EncoderAt m idx pos s) (hall : ∀ k ∈ idx, k < 2 ^ m.toNat) (n fuel : Nat)
    (hn : pos + n = idx.length) (hfuel : n ≤ fuel) :
    ∃ t, execAll (List.replicate n .lzeStep) s = .next t ∧ lzeLoop fuel s = .ok () t ∧
      EncoderAt m idx idx.length t := by
  have hleft : s.lze.input.length = s.lze.inPos + n := by rw [h.encoding.input, h.encoding.inPos, hn]
  induction n generalizing s pos fuel with
  | zero =>
    obtain rfl : pos = idx.length := hn
    exact ⟨s, rfl, lzeLoop_end hleft.le fuel, h⟩
  | succ n ih =>
    obtain ⟨fuel, rfl⟩ : ∃ j, fuel = j + 1 := ⟨fuel - 1, by omega⟩
    have hlt : pos < idx.length := by omega
    obtain ⟨_, t, ht, hat⟩ := (h.step hlt).returns (hall _ (List.getElem_mem hlt))
    obtain ⟨u, hsteps, hloop, hend⟩ := ih hat fuel (by omega) (by omega)
      (by rw [hat.encoding.input, hat.encoding.inPos]; omega)
    have hexec : exec .lzeStep s = .next t := runUnit_of_ok ht
    refine ⟨u, (execAll_cons_of_next _ hexec).trans hsteps, ?_, hend⟩
    rw [lzeLoop_step (by omega), op_bind_of_ok s _ _ ht, hloop]

/-- R260: finish on a legal encoder ends the phase and consumes nothing. -/
theorem lzeFinish_done (h : EncoderLegal s.lze) :
    ∃ t, lzeFinish s = .ok () t ∧ t.lze.inPos = s.lze.inPos ∧ t.lze.phase = .done ∧ WriterBitsLegal t.bsw := by
  obtain ⟨code, hcode, hc⟩ := h.buffer_code
  obtain ⟨b, b', -, ⟨-, hbits, -⟩, hfinish⟩ := lzeFinish_writes hcode h.isWidth hc h.reserved_lt.2
  exact ⟨_, hfinish, rfl, rfl, hbits⟩

/-- R191: close empties the accumulator. -/
theorem bswClose_empties (h7 : WriterBitsLegal s.bsw) :
    ∃ b, bswClose s = .ok () (s.setBSW b) ∧ b.acc = [] := by
  have hroom : ¬ 8 < s.bsw.acc.length := Nat.not_lt.mpr (Nat.le_succ_of_le h7)
  by_cases h : s.bsw.acc = []
  · exact ⟨s.bsw, (bswClose_eq s).trans (if_pos h), h⟩
  · exact ⟨_, (bswClose_eq s).trans ((if_neg h).trans (if_neg hroom)), rfl⟩

/-- R250: the operations of a frame over the alphabet, and the operation as a whole. -/
theorem execAll_lzeEncodeFrame (hm : mcsInRange m = true) (hne : idx ≠ []) (hall : ∀ k ∈ idx, k < 2 ^ m.toNat)
    (s : State) : ∃ u,
      execAll ([.lzeInit m idx, .lzeEmit (some (2 ^ m.toNat))] ++
        List.replicate (idx.length - 1) .lzeStep ++ [.lzeFinish, .bswClose]) s = .next u ∧
      u.lze.inPos = idx.length ∧ u.lze.phase = .done ∧ u.bsw.acc = [] ∧
      lzeEncodeFrame m idx s = .ok (packSubBlocks m u.bsw.out) u := by
  obtain ⟨k, rest, rfl⟩ := List.exists_cons_of_ne_nil hne
  have hk := hall k List.mem_cons_self
  obtain ⟨_, t1, hbegin, hat1⟩ := (checks_lzeBegin hm rest s).returns hk
  obtain ⟨t2, hsteps, hloop, hat2⟩ := hat1.execAll_lzeStep hall rest.length (k :: rest).length
    (Nat.add_comm _ _) (Nat.le_succ _)
  obtain ⟨t3, hfinish, hpos, hdone, hbits⟩ := lzeFinish_done hat2.runs.legal
  obtain ⟨b, hclose, hacc⟩ := bswClose_empties hbits
  have hexec : exec .lzeFinish t2 = .next t3 := runUnit_of_ok hfinish
  refine ⟨t3.setBSW b, ?_, hpos.trans hat2.encoding.inPos, hdone, hacc, ?_⟩
  · rw [List.append_assoc, execAll_append _ (execAll_of_lzeBegin hk hbegin), List.length_cons,
      Nat.add_sub_cancel, execAll_append _ hsteps, execAll_cons_of_next _ hexec]
    exact execAll_cons_of_next [] (runUnit_of_ok hclose)
  · unfold lzeEncodeFrame lzePacked
    rw [op_bind_of_ok s _ _ hbegin, op_bind_of_ok _ _ _ hloop, op_bind_of_ok _ _ _ hfinish]
    exact op_bind_of_ok t3 _ _ hclose

/-- R250: the encoding of a frame writes BSW and LZE only. -/
theorem lzeEncodeFrame_frame {data : List Byte} (h : lzeEncodeFrame m idx s = .ok data t) :
    t = (s.setBSW t.bsw).setLZE t.lze := by
  have hframe := keeps_lzeEncodeFrame (encoderFrame_closed s) m idx s ⟨s.lze, s.bsw, rfl⟩
  rw [h] at hframe
  obtain ⟨e, b, rfl⟩ := hframe
  rfl

/-- Settles O36: an induction over the indices left for the loop, and the check of every index for the error. -/
theorem encodeFrameIsItsSteps : Obligations.EncodeFrameIsItsSteps := by
  unfold Obligations.EncodeFrameIsItsSteps
  intro m idx s h2 h8 hne
  have hm := (mcsInRange_iff m).mpr ⟨h2, h8⟩
  refine ⟨fun hall => ?_, fun ⟨k, hk, hbig⟩ => ?_⟩
  · obtain ⟨u, hsteps, hpos, hdone, hacc, hrun⟩ := execAll_lzeEncodeFrame hm hne hall s
    exact ⟨u, hsteps, lzeEncodeFrame_frame hrun, hpos, hdone, hacc, runRet_of_ok hrun⟩
  · obtain ⟨t, hrun⟩ := (checks_lzeEncodeFrame hm hne s).raises fun hall =>
      Nat.not_lt.mpr hbig (hall k hk)
    exact ⟨_, runRet_of_raised hrun, errorTaken_errorEntry _ _⟩

end Sys2Proof.Machine
end

section
/-! Every legal state has a step (R161, R381): the operation a legal state runs meets no excluded unit state
(log 13), and the command's end, where it is taken, completes too. -/

namespace Sys2Proof.Machine

variable {α : Type} {s : State}

/-- The machine answers a next state. -/
def Answers (o : Host.Outcome State Fault Refusal) : Prop := ∃ t, o = .next t

/-- An operation that completes ends in its continuation, or its error is taken. -/
theorem Completes.answers {r : EStateM.Result Stop State α} {g : α → State → Host.Outcome State Fault Refusal}
    (h : Completes (fun a t => Answers (g a t)) r) : Answers (settle g r) := by
  rcases r with ⟨a, t⟩ | ⟨e | f, t⟩
  · exact h
  · exact ⟨_, rfl⟩
  · exact h.elim

/-- The end of a command is never refused (R11), and inside ENCODE_FRAME the pending bits can be closed. -/
theorem conclude_answers (h : s.hi.cmd = 0x03#8 → WriterBitsLegal s.bsw) : Answers (conclude s) := by
  unfold conclude
  split_ifs with h1 h2 h3 h4
  · exact ⟨_, rfl⟩
  · exact ⟨_, rfl⟩
  · exact ((completes_lzePacked _ (h h3.1)).imp fun _ _ _ => ⟨_, rfl⟩).answers
  · exact ⟨_, rfl⟩
  · exact ⟨_, rfl⟩

/-! ## The steps -/

/-- R161: a request is a command, which ends, or its code is unassigned. -/
theorem exec_request (q : Request) (hc : s.hi.cmd = 0#8) :
    Answers (exec (decodeRequest q) s) ∨
      exec (decodeRequest q) s = .refused .unassignedCommand ∧ 0x05#8 ≤ q.code := by
  obtain ⟨code, operands⟩ := q
  by_cases h : 0x05#8 ≤ code
  · rw [decodeRequest_unassigned h]
    exact .inr ⟨rfl, h⟩
  · left
    rcases code_cases h with rfl | rfl | rfl | rfl | rfl
    · exact ⟨s, rfl⟩
    · exact exec_command_next (i := .parseContainer operands.bytes) rfl hc
    · exact exec_command_next (i := .decodeFrame operands.img operands.act) rfl hc
    · exact exec_command_next (i := .encodeFrame operands.m operands.idx) rfl hc
    · exact exec_command_next (i := .encodeContainer operands.screen operands.ct operands.frames) rfl hc

theorem stepIdle_answers (hc : s.hi.cmd = 0#8) : Answers (stepIdle s) ∨
    stepIdle s = .refused .unassignedCommand ∧ ∃ q rest, s.hi.inbox = q :: rest ∧ 0x05#8 ≤ q.code := by
  cases hq : s.hi.inbox with
  | nil => exact .inl ⟨s, by simp [stepIdle, hq, exec, execCmdNone]⟩
  | cons q rest =>
    rw [stepIdle_request s hq]
    exact (exec_request (s := s.setHI { s.hi with inbox := rest }) q hc).imp_right fun ⟨hr, hcode⟩ =>
      ⟨hr, q, rest, rfl, hcode⟩

theorem step_parse_answers (h : Legal s) (ht : s.todo = []) (hc : s.hi.cmd = 0x01#8) : Answers (step s) := by
  obtain ⟨-, -, hne, -, -⟩ := h.sequencing
  by_cases hd : s.cp.phase = .done
  · rw [step_parse s ht hc, stepParser, hd]
    exact conclude_answers (by simp [hc])
  · have hruns : ParserRuns s.cp := ⟨hne hc, h.parser⟩
    rw [step_cpStep ht hc hd (hne hc)]
    refine ((completes_cpStep hruns hd).imp fun _ t ⟨hhi, _⟩ => ?_).answers
    exact conclude_answers (by simp [hhi, hc])

theorem step_decode_answers (h : Legal s) (ht : s.todo = []) (hc : s.hi.cmd = 0x02#8) : Answers (step s) := by
  obtain ⟨-, -, -, hne, -⟩ := h.sequencing
  cases hph : s.lzd.phase with
  | error => exact absurd hph (hne hc)
  | done =>
    rw [step_decode s ht hc, stepDecoder, hph]
    exact conclude_answers (by simp [hc])
  | run =>
    have hhi : Keeps (fun t => t.hi = s.hi) lzdStep := keeps_lzdStep ⟨fun _ _ h => h, fun _ _ h => h⟩
    rw [step_lzdStep ht hc hph]
    refine (((completes_lzdStep s ⟨hne hc, h.decoder⟩).and (hhi s rfl)).imp fun _ t ⟨_, hhi⟩ => ?_).answers
    exact conclude_answers (by simp [hhi, hc])

theorem step_encode_answers (h : Legal s) (ht : s.todo = []) (hc : s.hi.cmd = 0x03#8) : Answers (step s) := by
  obtain ⟨-, -, -, -, hne⟩ := h.sequencing
  cases hph : s.lze.phase with
  | error => exact absurd hph (hne hc)
  | done =>
    rw [step_encode s ht hc, stepEncoder, hph]
    exact conclude_answers fun _ => h.writerBits
  | run =>
    have hat : EncodingAt s.lze.minCodeSize s.lze.input s.lze.inPos s := ⟨rfl, rfl, rfl, hph, h.writerBits⟩
    by_cases hlt : s.lze.inPos < s.lze.input.length
    · rw [step_lzeStep ht hc hph hlt]
      exact ((hat.step hlt).imp fun _ _ hu => conclude_answers fun _ => hu.bits).answers
    · rw [step_lzeFinish ht hc hph (Nat.le_of_not_lt hlt)]
      exact (hat.finish.imp fun _ _ hu => conclude_answers fun _ => hu.bits).answers

/-- The writer's queue: its operations meet no excluded state, and none of them ends another command. -/
theorem step_queued_answers (h : Legal s) {i : Instr} {rest : List Instr} (ht : s.todo = i :: rest) :
    Answers (step s) := by
  obtain ⟨hcmd, hall, -, -, -⟩ := h.sequencing
  have hc : s.hi.cmd = 0x04#8 := hcmd (by rw [ht]; nofun)
  rw [ht, List.all_cons, Bool.and_eq_true] at hall
  have hspec := writerSpec hall.1
  have hstep := step_writerOp hspec rest s
  rw [← ht, State.setTodo_self] at hstep
  rw [hstep]
  refine ((hspec.completes s).imp fun _ t hhi => ?_).answers
  exact conclude_answers (s := t.setTodo rest) (by simp [hhi, hc])

/-- R33: HI.CMD is 0 or one of the four assigned codes. -/
theorem HostLegal.cmd_cases {h : HostInterface} (hl : HostLegal h) :
    h.cmd = 0x00#8 ∨ h.cmd = 0x01#8 ∨ h.cmd = 0x02#8 ∨ h.cmd = 0x03#8 ∨ h.cmd = 0x04#8 := by
  obtain ⟨hle, -⟩ := hl
  exact code_cases (by bv_omega)

/-- Every step of a legal state answers, but for an unassigned request to an idle block. -/
theorem step_answers (h : Legal s) : Answers (step s) ∨ step s = .refused .unassignedCommand ∧
    s.hi.cmd = 0#8 ∧ ∃ q rest, s.hi.inbox = q :: rest ∧ 0x05#8 ≤ q.code := by
  cases ht : s.todo with
  | cons i rest => exact .inl (step_queued_answers h ht)
  | nil =>
    rcases h.host.cmd_cases with hc | hc | hc | hc | hc
    · rw [step_idle s ht hc]
      exact (stepIdle_answers hc).imp_right fun ⟨hr, hq⟩ => ⟨hr, hc, hq⟩
    · exact .inl (step_parse_answers h ht hc)
    · exact .inl (step_decode_answers h ht hc)
    · exact .inl (step_encode_answers h ht hc)
    · refine .inl ⟨commandEnd (.bytes s.cw.out) s, ?_⟩
      simp [step, ht, hc, conclude_write s hc ht]

/-- Settles O59: one lemma for each sequencing state, each from what the state's operation can do in it. -/
theorem legalStatesNeverFault : Obligations.LegalStatesNeverFault := by
  unfold Obligations.LegalStatesNeverFault
  intro s hs
  rcases step_answers hs with ⟨t, ht⟩ | ⟨hr, hidle⟩
  · rw [ht]
    exact ⟨nofun, nofun⟩
  · rw [hr]
    exact ⟨nofun, fun r h => ⟨by cases h; rfl, hidle⟩⟩

end Sys2Proof.Machine
end

section
/-! Which errors each operation of the container parser can raise (R307, R316, R183), and the operations that
read one layout: each returns on the bytes of its layout, and raises ByteCursorEnd on all others. -/

namespace Sys2Proof.Machine

variable {α β : Type}

/-! ## The errors of an operation -/

/-- From every state the operation raises only errors that have `p`. -/
def RaisesOnly (p : Err → Prop) (op : Op α) : Prop := ∀ s, Raises p (fun _ => True) (op s)

/-- The input has ended before the layout has (R183, R184, R295). -/
def IsCursorEnd (e : Err) : Prop := e = .truncatedInput .byteCursorEnd

theorem isCursorEnd_rfl : IsCursorEnd (.truncatedInput .byteCursorEnd) := rfl

/-- An error of the two classes the parser raises (R317). -/
def IsParseError (e : Err) : Prop := (∃ r, e = .formatError r) ∨ ∃ r, e = .truncatedInput r

section
variable {p : Err → Prop}

theorem raisesOnly_pure (a : α) : RaisesOnly p (pure a) := fun _ => trivial

theorem raisesOnly_raise (u : Runner) {e : Err} (h : p e) : RaisesOnly p (raise u e : Op α) :=
  fun _ => ⟨h, trivial⟩

theorem raisesOnly_getBC : RaisesOnly p getBC := fun _ => trivial
theorem raisesOnly_getCP : RaisesOnly p getCP := fun _ => trivial
theorem raisesOnly_putCP (cp : ContainerParser) : RaisesOnly p (putCP cp) := fun _ => trivial

theorem RaisesOnly.bind {x : Op α} {f : α → Op β} (hx : RaisesOnly p x) (hf : ∀ a, RaisesOnly p (f a)) :
    RaisesOnly p (x >>= f) := by
  intro s
  have hxs := hx s
  rw [op_bind]
  rcases h : x s with ⟨a, t⟩ | ⟨e | e, t⟩ <;> rw [h] at hxs
  · exact hf a t
  · exact hxs
  · trivial

theorem raisesOnly_ite {x y : Op α} (c : Prop) [Decidable c] (hx : RaisesOnly p x) (hy : RaisesOnly p y) :
    RaisesOnly p (if c then x else y) := by
  split
  · exact hx
  · exact hy

theorem raisesOnly_modifyCP (f : ContainerParser → ContainerParser) :
    RaisesOnly p (do let cp ← getCP; putCP (f cp)) :=
  raisesOnly_getCP.bind fun _ => raisesOnly_putCP _

/-! ### Operations that read a layout -/

variable (hend : p (.truncatedInput .byteCursorEnd))
include hend

theorem raisesOnly_bcConsume : RaisesOnly p bcConsume := fun s => by
  rw [bcConsume_eq]
  cases unread s with
  | nil => exact ⟨hend, trivial⟩
  | cons b rest => trivial

theorem raisesOnly_bcTakeExact (n : Nat) : RaisesOnly p (bcTakeExact n) := fun s => by
  rw [bcTakeExact_eq]
  split
  · exact ⟨hend, trivial⟩
  · trivial

theorem raisesOnly_bcReadLE16 : RaisesOnly p bcReadLE16 :=
  (raisesOnly_bcConsume hend).bind fun _ => (raisesOnly_bcConsume hend).bind fun _ => raisesOnly_pure _

theorem raisesOnly_cpReadColorTable (n : BitVec 3) : RaisesOnly p (cpReadColorTable n) :=
  (raisesOnly_bcTakeExact hend _).bind fun _ => raisesOnly_pure _

theorem raisesOnly_cpSubBlock : RaisesOnly p cpSubBlock :=
  (raisesOnly_bcConsume hend).bind fun _ => raisesOnly_ite _ (raisesOnly_pure _)
    ((raisesOnly_bcTakeExact hend _).bind fun _ => raisesOnly_pure _)

theorem raisesOnly_cpRunLoop (fuel : Nat) (run : Blocks) : RaisesOnly p (cpRunLoop fuel run) := by
  induction fuel generalizing run with
  | zero => exact fun _ => trivial
  | succ fuel ih =>
    refine (raisesOnly_cpSubBlock hend).bind fun a => ?_
    cases a with
    | none => exact raisesOnly_pure _
    | some b => exact ih _

theorem raisesOnly_cpReadSubBlockRun : RaisesOnly p cpReadSubBlockRun :=
  raisesOnly_getBC.bind fun _ => raisesOnly_cpRunLoop hend _ _

theorem raisesOnly_cpReadLocalTable (d : ImageDescriptor) : RaisesOnly p (cpReadLocalTable d) :=
  raisesOnly_ite _ ((raisesOnly_cpReadColorTable hend _).bind fun _ => raisesOnly_pure _) (raisesOnly_pure _)

theorem raisesOnly_cpReadLZWData : RaisesOnly p cpReadLZWData :=
  (raisesOnly_bcConsume hend).bind fun _ => (raisesOnly_cpReadSubBlockRun hend).bind fun _ =>
    raisesOnly_pure _

theorem raisesOnly_cpImageDesc : RaisesOnly p cpImageDesc :=
  (raisesOnly_bcReadLE16 hend).bind fun _ => (raisesOnly_bcReadLE16 hend).bind fun _ =>
    (raisesOnly_bcReadLE16 hend).bind fun _ => (raisesOnly_bcReadLE16 hend).bind fun _ =>
      (raisesOnly_bcConsume hend).bind fun _ => raisesOnly_pure _

theorem raisesOnly_cpLSD : RaisesOnly p cpLSD :=
  (raisesOnly_bcReadLE16 hend).bind fun _ => (raisesOnly_bcReadLE16 hend).bind fun _ =>
    (raisesOnly_bcConsume hend).bind fun _ => (raisesOnly_bcConsume hend).bind fun _ =>
      (raisesOnly_bcConsume hend).bind fun _ => (raisesOnly_modifyCP _).bind fun _ => raisesOnly_modifyCP _

theorem raisesOnly_cpGCT : RaisesOnly p cpGCT :=
  raisesOnly_getCP.bind fun _ => raisesOnly_ite _
    ((raisesOnly_cpReadColorTable hend _).bind fun _ => (raisesOnly_modifyCP _).bind fun _ =>
      raisesOnly_modifyCP _) (raisesOnly_modifyCP _)

theorem raisesOnly_cpComment : RaisesOnly p cpComment :=
  (raisesOnly_cpReadSubBlockRun hend).bind fun _ => raisesOnly_modifyCP _

theorem raisesOnly_cpImage : RaisesOnly p cpImage :=
  (raisesOnly_cpImageDesc hend).bind fun _ => (raisesOnly_cpReadLocalTable hend _).bind fun _ =>
    (raisesOnly_cpReadLZWData hend).bind fun _ => raisesOnly_modifyCP _

end

/-! ## Layouts -/

section
variable {V : α → Prop} {enc : α → List Byte} {L : α → List Byte → Prop} {op : Op α} {wrap : α → Value}
  {s : State} {a : α}

/-- The operation raises ByteCursorEnd. -/
def CursorEnds (r : EStateM.Result Stop State α) : Prop :=
  ∃ u, r = .error (.raised (.truncatedInput .byteCursorEnd)) u

theorem CursorEnds.bind {x : Op α} (h : CursorEnds (x s)) (f : α → Op β) : CursorEnds ((x >>= f) s) := by
  obtain ⟨u, hu⟩ := h
  exact ⟨u, op_bind_of_error s _ f hu⟩

/-- ByteCursorEnd is taken where an operation that returns nothing raises it. -/
theorem CursorEnds.taken {op : Op Unit} (h : CursorEnds (op s)) :
    ∃ t, runUnit op s = .next t ∧ ErrorTaken (.truncatedInput .byteCursorEnd) t := by
  obtain ⟨u, hu⟩ := h
  exact errorTaken_of_raised hu

/-- ByteCursorEnd is taken where an operation that returns a value raises it. -/
theorem CursorEnds.takenRet (h : CursorEnds (op s)) :
    ∃ t, runRet wrap op s = .next t ∧ ErrorTaken (.truncatedInput .byteCursorEnd) t := by
  obtain ⟨u, hu⟩ := h
  exact ⟨_, runRet_of_raised hu, errorTaken_errorEntry _ u⟩

theorem cursorEnds_bcTakeExact {n : Nat} (h : (unread s).length < n) : CursorEnds (bcTakeExact n s) :=
  ⟨_, (bcTakeExact_eq s n).trans (if_pos h)⟩

/-- A parser operation whose only error is ByteCursorEnd raises it where the bytes are not those it reads. -/
theorem Spells.cursorEnds (hs : Spells op L) (hp : Parses op) (he : RaisesOnly IsCursorEnd op)
    (hno : ∀ a bs rest, L a bs → unread s ≠ bs ++ rest) : CursorEnds (op s) := by
  have hps := hp s
  have hes := he s
  rcases hr : op s with ⟨a, t⟩ | ⟨e | f, t⟩ <;> rw [hr] at hps hes
  · obtain ⟨bs, hL, hu⟩ := hs s a t hr
    exact absurd hu (hno a bs _ hL)
  · exact ⟨t, by rw [show e = _ from hes.1]⟩
  · exact hps.elim

/-- The operation reads one layout, `enc a` for the values with `V`: on its bytes it returns the value, past
them, and on any others it raises ByteCursorEnd. -/
structure ReadsLayout (op : Op α) (V : α → Prop) (enc : α → List Byte) : Prop where
  reads : ∀ {s : State} {a : α} {rest : List Byte}, V a → unread s = enc a ++ rest →
    op s = .ok a (advance s (enc a).length)
  fails : ∀ {s : State}, (∀ a rest, V a → unread s ≠ enc a ++ rest) → CursorEnds (op s)

theorem readsLayout_of_spells (hs : Spells op fun a bs => bs = enc a) (hr : Reads op V) (hp : Parses op)
    (he : RaisesOnly IsCursorEnd op) (hok : ∀ {s : State} {a : α} {rest : List Byte}, V a →
      unread s = enc a ++ rest → op s = .ok a (advance s (enc a).length)) : ReadsLayout op V enc where
  reads := hok
  fails hno := by
    have hvalid : Spells op fun a bs => V a ∧ bs = enc a := fun s a t h => by
      obtain ⟨bs, hbs, hu⟩ := hs s a t h
      have hV := hr (fun _ => True) s trivial
      rw [h] at hV
      exact ⟨bs, ⟨hV.1, hbs⟩, hu⟩
    exact hvalid.cursorEnds hp he fun a _ rest ⟨ha, hbs⟩ => hbs ▸ hno a rest ha

/-- The layout's value is latched (log 6). -/
theorem ReadsLayout.returned (h : ReadsLayout op V enc) (ha : V a) {rest : List Byte}
    (hs : unread s = enc a ++ rest) :
    runRet wrap op s = .next ((advance s (enc a).length).setRet (wrap a)) :=
  runRet_of_ok (h.reads ha hs)

/-- Fewer bytes than any value of the layout has. -/
theorem ReadsLayout.fails_of_length (h : ReadsLayout op V enc) {n : Nat}
    (hlen : ∀ a, V a → (enc a).length = n) (hs : (unread s).length < n) : CursorEnds (op s) :=
  h.fails fun a rest ha hu => by
    have hl := hlen a ha
    rw [hu, List.length_append] at hs
    omega

theorem readsLayout_bcConsume : ReadsLayout bcConsume (fun _ => True) fun b => [b] :=
  readsLayout_of_spells spells_bcConsume reads_bcConsume parses_bcConsume
    (raisesOnly_bcConsume isCursorEnd_rfl) fun _ h => bcConsume_cons _ h

theorem readsLayout_bcTakeExact (n : Nat) : ReadsLayout (bcTakeExact n) (·.length = n) id :=
  readsLayout_of_spells (spells_bcTakeExact n) (reads_bcTakeExact n) (parses_bcTakeExact n)
    (raisesOnly_bcTakeExact isCursorEnd_rfl n) fun ha h => (bcTakeExact_append _ ha h).trans (by rw [id, ha])

theorem readsLayout_bcReadLE16 : ReadsLayout bcReadLE16 (fun _ => True) toLE16 :=
  readsLayout_of_spells spells_bcReadLE16 reads_bcReadLE16 parses_bcReadLE16
    (raisesOnly_bcReadLE16 isCursorEnd_rfl) fun _ h => bcReadLE16_toLE16 _ h

/-- R114, R294. -/
theorem readsLayout_cpReadColorTable (n : BitVec 3) :
    ReadsLayout (cpReadColorTable n) (·.length = tableLength n) tableBytes :=
  readsLayout_of_spells (spells_cpReadColorTable n) (reads_cpReadColorTable n) (parses_cpReadColorTable n)
    (raisesOnly_cpReadColorTable isCursorEnd_rfl n) fun ha h => by
      rw [length_tableBytes]
      exact cpReadColorTable_ok _ ha h

theorem cursorEnds_cpReadColorTable {n : BitVec 3} (h : (unread s).length < 3 * tableLength n) :
    CursorEnds (cpReadColorTable n s) :=
  (readsLayout_cpReadColorTable n).fails_of_length (fun t ht => by rw [length_tableBytes, ht]) h

/-- R310: the table the flag asks for. -/
theorem readsLayout_cpReadLocalTable (d : ImageDescriptor) :
    ReadsLayout (cpReadLocalTable d) (LocalTableLegal d) tableOptBytes :=
  readsLayout_of_spells (spells_cpReadLocalTable d) (reads_cpReadLocalTable d) (parses_cpReadLocalTable d)
    (raisesOnly_cpReadLocalTable isCursorEnd_rfl d) fun {s a rest} ha h => by
      cases a with
      | none => exact cpReadLocalTable_none s ha
      | some t =>
        rw [tableOptBytes, length_tableBytes]
        exact cpReadLocalTable_some s ha.1 ha.2 h

/-- R117: one round of a run. -/
theorem readsLayout_cpSubBlock :
    ReadsLayout cpSubBlock (fun a => ∀ b, a = some b → isBlock b = true) subBlockBytes :=
  readsLayout_of_spells spells_cpSubBlock reads_cpSubBlock parses_cpSubBlock
    (raisesOnly_cpSubBlock isCursorEnd_rfl) fun {s a rest} ha h => by
      cases a with
      | none => exact cpSubBlock_terminator s h
      | some b => exact cpSubBlock_ok s (ha b rfl) h

/-- R117, R295. -/
theorem readsLayout_cpReadSubBlockRun : ReadsLayout cpReadSubBlockRun (blocksWf · = true) runBytes :=
  readsLayout_of_spells spells_cpReadSubBlockRun reads_cpReadSubBlockRun parses_cpReadSubBlockRun
    (raisesOnly_cpReadSubBlockRun isCursorEnd_rfl) fun ha h => cpReadSubBlockRun_ok _ ha h

/-- R125, R312. -/
theorem readsLayout_cpReadLZWData : ReadsLayout cpReadLZWData
    (fun d => blocksWf d.subBlocks = true ∧ d.terminator = 0x00#8)
    fun d => d.minCodeSize :: runBytes d.subBlocks :=
  readsLayout_of_spells spells_cpReadLZWData reads_cpReadLZWData parses_cpReadLZWData
    (raisesOnly_cpReadLZWData isCursorEnd_rfl) fun {s a rest} ha h => by
      obtain ⟨m, subs, term⟩ := a
      obtain ⟨hb, rfl⟩ := ha
      exact cpReadLZWData_ok s hb h

/-- R123, R308. -/
theorem readsLayout_cpImageDesc : ReadsLayout cpImageDesc (fun _ => True) imageDescriptorBytes :=
  readsLayout_of_spells spells_cpImageDesc reads_cpImageDesc parses_cpImageDesc
    (raisesOnly_cpImageDesc isCursorEnd_rfl) fun _ h => cpImageDesc_ok _ h

end

end Sys2Proof.Machine
end

section
/-! The parser's operations, one by one (R291 to R313): the prologue, the tables, the sub-block runs and the
image block. -/

namespace Sys2Proof.Machine

variable {s : State}

/-! ## The prologue -/

/-- R292: any seven bytes are a screen descriptor. -/
theorem exists_screenDescriptorBytes {bs : List Byte} (h : 7 ≤ bs.length) :
    ∃ scr rest, bs = screenDescriptorBytes scr ++ rest := by
  match bs, h with
  | w0 :: w1 :: h0 :: h1 :: p :: bg :: par :: rest, _ =>
    refine ⟨screenOf (le16 w0 w1) (le16 h0 h1) p bg par, rest, ?_⟩
    rw [screenDescriptorBytes_screenOf, toLE16_le16, toLE16_le16]
    rfl

theorem cursorEnds_cpLSD (h : (unread s).length < 7) : CursorEnds (cpLSD s) :=
  spells_cpLSD.cursorEnds parses_cpLSD (raisesOnly_cpLSD isCursorEnd_rfl) fun _ _ rest ⟨_, hbs⟩ hu => by
    rw [hu, hbs, List.length_append] at h
    exact Nat.not_lt.mpr (Nat.le_add_right 7 _) h

/-- R298: with the flag 0 no byte is read, whatever the size field is. -/
theorem cpGCT_noTable (hf : s.cp.doc.screen.globalColorTableFlag = false) :
    cpGCT s = .ok () (s.setCP { s.cp with phase := .block }) := by
  unfold cpGCT
  rw [op_bind_of_ok s _ _ (op_getCP s), if_neg (by rw [hf]; nofun)]
  rfl

/-- R298: with the flag 1 the table is read and put in the document. -/
theorem cpGCT_table {tab : ColorTable} {rest : List Byte} (hf : s.cp.doc.screen.globalColorTableFlag = true)
    (htab : tab.length = tableLength s.cp.doc.screen.sizeOfGlobalColorTable)
    (hs : unread s = tableBytes tab ++ rest) :
    cpGCT s = .ok () ((advance s (3 * tab.length)).setCP
      { s.cp with phase := .block, doc := { s.cp.doc with globalColorTable := some tab } }) := by
  unfold cpGCT
  rw [op_bind_of_ok s _ _ (op_getCP s), if_pos hf, op_bind_of_ok s _ _ (cpReadColorTable_ok s htab hs)]
  rfl

theorem cursorEnds_cpGCT (hf : s.cp.doc.screen.globalColorTableFlag = true)
    (h : (unread s).length < 3 * tableLength s.cp.doc.screen.sizeOfGlobalColorTable) :
    CursorEnds (cpGCT s) := by
  unfold cpGCT
  rw [op_bind_of_ok s _ _ (op_getCP s), if_pos hf]
  exact (cursorEnds_cpReadColorTable h).bind _

/-- Settles O37: each step reads its layout and writes CP, or ends where a read of its ends. -/
theorem parserPrologue : Obligations.ParserPrologue := by
  unfold Obligations.ParserPrologue
  intro s rest
  refine ⟨fun g hs => runUnit_of_ok (cpHeader_ok s hs), badSignature_taken,
    fun h => ((cursorEnds_bcTakeExact h).bind _).taken, fun scr hs => runUnit_of_ok (cpLSD_ok s hs),
    exists_screenDescriptorBytes, fun h => (cursorEnds_cpLSD h).taken,
    fun hf => runUnit_of_ok (cpGCT_noTable hf), fun hf => ⟨fun tab htab hs => ?_, fun h => ?_⟩⟩
  · exact runUnit_of_ok (cpGCT_table hf htab hs)
  · exact (cursorEnds_cpGCT hf h).taken

/-! ## Packed bytes and colour tables -/

/-- Settles O38: each function is evaluated on the forms of its argument. -/
theorem packedFieldsAndLoopCount : Obligations.PackedFieldsAndLoopCount := by
  unfold Obligations.PackedFieldsAndLoopCount
  intro s
  refine ⟨fun p => ⟨rfl, rfl⟩, fun x lo hi more subs => ⟨le16 lo hi, le16_toNat lo hi, rfl⟩, rfl,
    fun b subs hb => ?_⟩
  match b, hb with
  | [], _ | [_], _ | [_, _], _ => rfl

/-- R294: any `3 * k` bytes are a table of `k` entries. -/
theorem exists_tableBytes {k : Nat} {bs : List Byte} (h : 3 * k ≤ bs.length) :
    ∃ tab rest, tab.length = k ∧ bs = tableBytes tab ++ rest := by
  have hlen : (bs.take (3 * k)).length = 3 * k := List.length_take_of_le h
  refine ⟨tableOf (bs.take (3 * k)), bs.drop (3 * k), length_tableOf k _ hlen, ?_⟩
  rw [tableBytes_tableOf k _ hlen, List.take_append_drop]

/-- Settles O39: both operations read one layout, that of the table. -/
theorem colorTables : Obligations.ColorTables := by
  unfold Obligations.ColorTables
  intro s d
  refine ⟨fun n tab rest htab hs => ⟨?_, ?_⟩, fun n h => ⟨?_, ?_⟩, fun n h => exists_tableBytes h,
    fun hd => ?_⟩
  · exact runRet_of_ok (cpReadColorTable_ok s htab hs)
  · rintro hd rfl
    exact runRet_of_ok (cpReadLocalTable_some s hd htab hs)
  · exact (cursorEnds_cpReadColorTable h).takenRet
  · rintro hd rfl
    refine CursorEnds.takenRet ?_
    rw [cpReadLocalTable, if_pos hd]
    exact (cursorEnds_cpReadColorTable h).bind _
  · exact runRet_of_ok (cpReadLocalTable_none s hd)

/-! ## Sub-block runs -/

theorem blocksWf_iff (blocks : Blocks) :
    blocksWf blocks = true ↔ ∀ b ∈ blocks, 1 ≤ b.length ∧ b.length ≤ 255 := by
  simp only [blocksWf, List.all_eq_true, isBlock_iff]

theorem runBytes_append (blocks : Blocks) (rest : List Byte) : runBytes blocks ++ rest =
    (blocks.flatMap fun b => BitVec.ofNat 8 b.length :: b) ++ 0x00#8 :: rest := by
  simp [runBytes]

/-- Settles O40: each operation reads one layout. -/
theorem subBlockRuns : Obligations.SubBlockRuns := by
  unfold Obligations.SubBlockRuns
  simp only [← blocksWf_iff, ← runBytes_append]
  intro s
  have hlzw : ∀ i ∈ [Instr.cpReadLZWData, .cpLzwData], exec i s = runRet .lzw cpReadLZWData s :=
    List.forall_mem_cons.mpr ⟨rfl, List.forall_mem_singleton.mpr rfl⟩
  refine ⟨fun rest hs => ?_, fun b rest h1 h255 hs => ?_, fun blocks rest hb hs => ?_,
    fun m blocks rest hb hs i hi => ?_, fun hno => ?_, fun hno i hi => ?_⟩
  · exact runRet_of_ok (cpSubBlock_terminator s hs)
  · exact runRet_of_ok (cpSubBlock_ok s ((isBlock_iff b).mpr ⟨h1, h255⟩) hs)
  · exact readsLayout_cpReadSubBlockRun.returned hb hs
  · rw [hlzw i hi, Nat.add_comm]
    exact runRet_of_ok (cpReadLZWData_ok s hb hs)
  · exact (readsLayout_cpReadSubBlockRun.fails fun blocks rest hb => hno blocks rest hb).takenRet
  · rw [hlzw i hi]
    exact (readsLayout_cpReadLZWData.fails fun d rest hd => hno d.minCodeSize d.subBlocks rest hd.1).takenRet

/-! ## Image blocks -/

theorem cursorEnds_cpImage (h : ∀ (img : ImageBlock) (rest : List Byte), ImageLegal img →
    unread s ≠ imageBytes img ++ rest) : CursorEnds (cpImage s) :=
  spells_cpImage.cursorEnds parses_cpImage (raisesOnly_cpImage isCursorEnd_rfl)
    fun _ _ rest ⟨img, himg, hbs⟩ => hbs ▸ h img rest himg

/-- Settles O42: the descriptor and the block each by what they read; the trailer by its writes. -/
theorem imageBlocks : Obligations.ImageBlocks := by
  unfold Obligations.ImageBlocks
  intro s rest
  refine ⟨fun d hs => runRet_of_ok (cpImageDesc_ok s hs), fun h => ?_, fun img himg hs => ?_,
    fun h => (cursorEnds_cpImage h).taken, rfl⟩
  · exact (readsLayout_cpImageDesc.fails_of_length (fun d _ => length_imageDescriptorBytes d) h).takenRet
  · exact runUnit_of_ok (cpImage_ok s himg hs)

end Sys2Proof.Machine
end

section
/-! The extensions (R300 to R306): each is read as laid out, and bytes that break off inside one take
ByteCursorEnd. -/

namespace Sys2Proof.Machine

variable {α β : Type} {V : α → Prop} {enc : α → List Byte} {op x : Op α} {a : α} {f : α → Op β}
  {front back : List Byte} {s : State}

/-! ## Bytes that break off inside a layout -/

/-- Where the bytes break off inside `bs` the operation raises ByteCursorEnd. -/
def BreaksOff (op : Op α) (bs : List Byte) : Prop :=
  ∀ s, unread s <+: bs → unread s ≠ bs → CursorEnds (op s)

/-- Nothing breaks off before the first byte of no bytes. -/
theorem breaksOff_nil (op : Op α) : BreaksOff op [] := fun _ hpre hne =>
  absurd (List.prefix_nil.mp hpre) hne

/-- The operation reads the bytes `front` as `a`, and they may break off. -/
structure ReadsAs (x : Op α) (front : List Byte) (a : α) : Prop where
  reads  : ∀ {s rest}, unread s = front ++ rest → x s = .ok a (advance s front.length)
  breaks : BreaksOff x front

/-- No value's bytes go on to be another's: the operation would read two values from the longer ones. -/
theorem ReadsLayout.enc_unique (h : ReadsLayout op V enc) {b : α} {rest : List Byte} (ha : V a) (hb : V b)
    (heq : enc a = enc b ++ rest) : a = b := by
  have h1 := h.reads (s := State.reset.setBC ⟨enc a, 0⟩) (rest := []) ha (List.append_nil _).symm
  have h2 := h.reads (s := State.reset.setBC ⟨enc a, 0⟩) hb heq
  rw [h1] at h2
  injection h2

theorem ReadsLayout.readsAs (h : ReadsLayout op V enc) (ha : V a) : ReadsAs op (enc a) a where
  reads hs := h.reads ha hs
  breaks s hpre hne := h.fails fun b rest hb hs => by
    obtain ⟨more, hmore⟩ := hpre
    rw [hs, List.append_assoc] at hmore
    obtain rfl := h.enc_unique ha hb hmore.symm
    have hnil := List.append_cancel_left (hmore.trans (List.append_nil _).symm)
    obtain ⟨rfl, -⟩ := List.append_eq_nil_iff.mp hnil
    exact hne (hs.trans (List.append_nil _))

/-- R296: the block-size byte. -/
theorem readsAs_cpExpectBlockSize (v : Byte) : ReadsAs (cpExpectBlockSize v) [v] () where
  reads hs := cpExpectBlockSize_ok _ hs
  breaks s hpre hne := by
    cases hs : unread s with
    | nil => exact ⟨_, cpExpectBlockSize_nil hs⟩
    | cons b rest =>
      rw [hs, List.cons_prefix_cons, List.prefix_nil] at hpre
      rw [hs, hpre.1, hpre.2] at hne
      exact absurd rfl hne

/-- A sequence breaks off inside its first operation's bytes, or past them inside those of its second. -/
theorem ReadsAs.then (hx : ReadsAs x front a) (hf : BreaksOff (f a) back) :
    BreaksOff (x >>= f) (front ++ back) := by
  intro s hpre hne
  by_cases hfront : front <+: unread s
  · obtain ⟨rest, hrest⟩ := hfront
    rw [← hrest] at hpre hne
    rw [op_bind_of_ok s _ _ (hx.reads hrest.symm)]
    have hu := unread_advance_append s hrest.symm
    exact hf _ (hu ▸ (List.prefix_append_right_inj front).mp hpre) fun h => hne (by rw [← hu, h])
  · have hpart := (List.prefix_or_prefix_of_prefix (List.prefix_append front back) hpre).resolve_left hfront
    exact (hx.breaks s hpart fun h => hfront (h ▸ List.prefix_rfl)).bind f

/-! ## The bodies -/

theorem readsAs_bcConsume (b : Byte) : ReadsAs bcConsume [b] b := readsLayout_bcConsume.readsAs trivial

theorem readsAs_bcReadLE16 (v : Half) : ReadsAs bcReadLE16 (toLE16 v) v :=
  readsLayout_bcReadLE16.readsAs trivial

theorem breaksOff_cpApp {identifier authCode : List Byte} {subs : Blocks}
    (hx : (Extension.app identifier authCode subs).Legal) :
    BreaksOff cpApp (Extension.app identifier authCode subs).body := by
  obtain ⟨hid, hauth, hsubs⟩ := hx
  have hbody : (Extension.app identifier authCode subs).body =
      [0x0B#8] ++ (identifier ++ (authCode ++ (runBytes subs ++ []))) := by simp [Extension.body]
  rw [hbody]
  exact (readsAs_cpExpectBlockSize _).then <| ((readsLayout_bcTakeExact 8).readsAs hid).then <|
    ((readsLayout_bcTakeExact 3).readsAs hauth).then <|
      (readsLayout_cpReadSubBlockRun.readsAs hsubs).then <| breaksOff_nil _

theorem breaksOff_cpComment {subs : Blocks} (hsubs : blocksWf subs = true) :
    BreaksOff cpComment (Extension.comment subs).body := by
  rw [← List.append_nil (Extension.body _)]
  exact (readsLayout_cpReadSubBlockRun.readsAs hsubs).then (breaksOff_nil _)

theorem breaksOff_cpGCE (g : GraphicControlExtension) : BreaksOff cpGCE (Extension.gce g).body := by
  have hbody : (Extension.gce g).body =
      [0x04#8] ++ ([packGCE g] ++ (toLE16 g.delayTime ++ ([g.transparencyIndex] ++ ([0x00#8] ++ [])))) := rfl
  rw [hbody]
  exact (readsAs_cpExpectBlockSize _).then <| (readsAs_bcConsume _).then <| (readsAs_bcReadLE16 _).then <|
    (readsAs_bcConsume _).then <| (readsAs_bcConsume _).then <| breaksOff_nil _

theorem breaksOff_cpText {pt : PlainTextExtension} (hx : blocksWf pt.text = true) :
    BreaksOff cpText (Extension.text pt).body := by
  have hbody : (Extension.text pt).body = [0x0C#8] ++ (toLE16 pt.gridLeft ++ (toLE16 pt.gridTop ++
      (toLE16 pt.gridWidth ++ (toLE16 pt.gridHeight ++ ([pt.cellWidth] ++ ([pt.cellHeight] ++
        ([pt.foregroundColorIndex] ++ ([pt.backgroundColorIndex] ++ (runBytes pt.text ++ []))))))))) := by
    simp [Extension.body]
  rw [hbody]
  exact (readsAs_cpExpectBlockSize _).then <| (readsAs_bcReadLE16 _).then <| (readsAs_bcReadLE16 _).then <|
    (readsAs_bcReadLE16 _).then <| (readsAs_bcReadLE16 _).then <| (readsAs_bcConsume _).then <|
      (readsAs_bcConsume _).then <| (readsAs_bcConsume _).then <| (readsAs_bcConsume _).then <|
        (readsLayout_cpReadSubBlockRun.readsAs hx).then <| breaksOff_nil _

/-! ## Any extension -/

/-- The operation an extension selects is that of its label (R116). -/
theorem exec_op (x : Extension) (s : State) : exec x.op s = runUnit (labelOp x.label) s := by
  cases x <;> rfl

theorem labelOp_ok {x : Extension} (hx : x.Legal) {rest : List Byte} (hs : unread s = x.body ++ rest) :
    labelOp x.label s = .ok () ((advance s x.body.length).setCP (x.apply s.cp)) := by
  cases x with
  | app identifier authCode subs => exact cpApp_ok s hx hs
  | comment subs => exact cpComment_ok s hx hs
  | gce g => exact cpGCE_ok s hs
  | text pt => exact cpText_ok s hx hs

theorem breaksOff_labelOp {x : Extension} (hx : x.Legal) : BreaksOff (labelOp x.label) x.body := by
  cases x with
  | app identifier authCode subs => exact breaksOff_cpApp hx
  | comment subs => exact breaksOff_cpComment hx
  | gce g => exact breaksOff_cpGCE g
  | text pt => exact breaksOff_cpText hx

/-- R300: the extension step is the read of the label and the operation it selects. -/
theorem breaksOff_cpExtension {x : Extension} (hx : x.Legal) : BreaksOff cpExtension (x.label :: x.body) :=
  (readsAs_bcConsume x.label).then (f := labelOp) (breaksOff_labelOp hx)

/-- R307: a label of no extension selects LABEL.BAD, past the label. -/
theorem cpExtension_badLabel {l : Byte} {rest : List Byte} (h : LabelClass.bad.Holds l)
    (hs : unread s = l :: rest) : cpExtension s = cpBadLabel l (advance s 1) := by
  have hop : labelOp l = cpBadLabel l := by
    obtain ⟨h1, h2, h3, h4⟩ := h
    simp [labelOp, classifyLabel, h1, h2, h3, h4]
  exact (op_bind_of_ok s _ labelOp (bcConsume_cons s hs)).trans (congrFun hop _)

/-- Settles O43: each extension by its bytes, whole or broken off; the errors by the byte that is wrong. -/
theorem extensionsAreParsed : Obligations.ExtensionsAreParsed := by
  unfold Obligations.ExtensionsAreParsed
  refine ⟨fun s x rest hx => ⟨fun hs => ?_, fun hs => ?_⟩,
    fun s l rest h1 h2 h3 h4 hs => congrArg (settle fun _ t => .next t)
      (cpExtension_badLabel ⟨h1, h2, h3, h4⟩ hs),
    fun s p d e ti x rest hx hs => badTerminator_taken hx hs, fun s b rest hs => ⟨?_, ?_, ?_⟩,
    fun s x hx => ⟨fun hpre hne => ?_, fun hpre hne => (breaksOff_cpExtension hx s hpre hne).taken⟩⟩
  · rw [exec_op]
    exact runUnit_of_ok (labelOp_ok hx hs)
  · rw [Nat.add_comm]
    exact runUnit_of_ok (cpExtension_ok s hx hs)
  · exact fun hb => badBlockSize_taken _ hb hs
  · exact fun hb => badBlockSize_taken _ hb hs
  · exact fun hb => badBlockSize_taken _ hb hs
  · rw [exec_op]
    exact (breaksOff_labelOp hx s hpre hne).taken

end Sys2Proof.Machine
end

section
/-! PARSE_CONTAINER on any bytes (R317): the errors its steps can raise, and what the first 13 bytes of a
container leave in its document. -/

namespace Sys2Proof.Machine

variable {s : State}

/-! ## The errors of the steps -/

theorem isParseError_end : IsParseError (.truncatedInput .byteCursorEnd) := .inr ⟨_, rfl⟩

theorem isParseError_format (r : FormatReason) : IsParseError (.formatError r) := .inl ⟨r, rfl⟩

theorem raisesOnly_cpExpectBlockSize (v : Byte) : RaisesOnly IsParseError (cpExpectBlockSize v) :=
  (raisesOnly_bcConsume isParseError_end).bind fun _ =>
    raisesOnly_ite _ (raisesOnly_raise _ (isParseError_format _)) (raisesOnly_pure _)

theorem raisesOnly_cpHeader : RaisesOnly IsParseError cpHeader :=
  (raisesOnly_bcTakeExact isParseError_end 6).bind fun b => by
    cases signatureOf b with
    | none => exact raisesOnly_raise _ (isParseError_format _)
    | some g => exact (raisesOnly_modifyCP _).bind fun _ => raisesOnly_modifyCP _

theorem raisesOnly_cpApp : RaisesOnly IsParseError cpApp :=
  (raisesOnly_cpExpectBlockSize _).bind fun _ => (raisesOnly_bcTakeExact isParseError_end _).bind fun _ =>
    (raisesOnly_bcTakeExact isParseError_end _).bind fun _ =>
      (raisesOnly_cpReadSubBlockRun isParseError_end).bind fun _ => raisesOnly_modifyCP _

theorem raisesOnly_cpGCE : RaisesOnly IsParseError cpGCE :=
  have hbyte := raisesOnly_bcConsume isParseError_end
  (raisesOnly_cpExpectBlockSize _).bind fun _ => hbyte.bind fun _ =>
    (raisesOnly_bcReadLE16 isParseError_end).bind fun _ => hbyte.bind fun _ => hbyte.bind fun _ =>
      raisesOnly_ite _ (raisesOnly_raise _ (isParseError_format _)) (raisesOnly_modifyCP _)

theorem raisesOnly_cpText : RaisesOnly IsParseError cpText :=
  have hbyte := raisesOnly_bcConsume isParseError_end
  have hhalf := raisesOnly_bcReadLE16 isParseError_end
  (raisesOnly_cpExpectBlockSize _).bind fun _ => hhalf.bind fun _ => hhalf.bind fun _ => hhalf.bind fun _ =>
    hhalf.bind fun _ => hbyte.bind fun _ => hbyte.bind fun _ => hbyte.bind fun _ => hbyte.bind fun _ =>
      (raisesOnly_cpReadSubBlockRun isParseError_end).bind fun _ => raisesOnly_modifyCP _

theorem raisesOnly_labelOp (l : Byte) : RaisesOnly IsParseError (labelOp l) := by
  unfold labelOp
  cases classifyLabel l with
  | app => exact raisesOnly_cpApp
  | comment => exact raisesOnly_cpComment isParseError_end
  | gce => exact raisesOnly_cpGCE
  | text => exact raisesOnly_cpText
  | bad => exact raisesOnly_raise _ (isParseError_format _)

theorem raisesOnly_cpExtension : RaisesOnly IsParseError cpExtension :=
  (raisesOnly_bcConsume isParseError_end).bind raisesOnly_labelOp

theorem raisesOnly_introOp (t : Byte) : RaisesOnly IsParseError (introOp t) := by
  unfold introOp
  cases classifyIntro t with
  | ext => exact raisesOnly_cpExtension
  | image => exact raisesOnly_cpImage isParseError_end
  | trailer => exact raisesOnly_modifyCP _
  | bad => exact raisesOnly_raise _ (isParseError_format _)

theorem raisesOnly_cpStep (ph : CPPhase) : RaisesOnly IsParseError (cpStep ph) := by
  cases ph with
  | header => exact raisesOnly_cpHeader
  | lsd => exact raisesOnly_cpLSD isParseError_end
  | gct => exact raisesOnly_cpGCT isParseError_end
  | block => exact (raisesOnly_bcConsume isParseError_end).bind raisesOnly_introOp
  | done => exact raisesOnly_pure _
  | error => exact raisesOnly_pure _

theorem raisesOnly_cpLoop (fuel : Nat) : RaisesOnly IsParseError (cpLoop fuel) := by
  induction fuel with
  | zero => exact fun _ => trivial
  | succ fuel ih =>
    exact raisesOnly_getCP.bind fun _ => raisesOnly_ite _ (raisesOnly_pure _)
      ((raisesOnly_cpStep _).bind fun _ => ih)

/-! ## The document -/

/-- The blocks leave the header and the screen descriptor as the prologue read them (R299). -/
theorem Block.prologue_foldl (blocks : List Block) (cp : ContainerParser) :
    (blocks.foldl (fun cp b => b.apply cp) cp).doc.header = cp.doc.header ∧
      (blocks.foldl (fun cp b => b.apply cp) cp).doc.screen = cp.doc.screen := by
  induction blocks generalizing cp with
  | nil => exact ⟨rfl, rfl⟩
  | cons b blocks ih =>
    obtain ⟨hh, hs⟩ := ih (b.apply cp)
    rw [List.foldl_cons, hh, hs]
    rcases b with (_ | _ | _ | _) | _ <;> exact ⟨rfl, rfl⟩

/-- The first 13 bytes of a container are its document's header and screen descriptor (R110). -/
theorem containerBytes_begins (sig : Signature) (scr : LogicalScreenDescriptor) (gct : Option ColorTable)
    (blocks : List Block) (rest : List Byte) :
    signatureBytes (documentOf sig scr gct blocks).header.signature ++
      screenDescriptorBytes (documentOf sig scr gct blocks).screen <+:
        containerBytes sig scr gct blocks ++ rest := by
  obtain ⟨hh, hs⟩ := Block.prologue_foldl blocks (parserAtBlocks sig scr gct)
  have hsig : (documentOf sig scr gct blocks).header.signature = sig := congrArg Header.signature hh
  have hscr : (documentOf sig scr gct blocks).screen = scr := hs
  rw [hsig, hscr, containerBytes]
  simp only [List.append_assoc]
  rw [← List.append_assoc]
  exact List.prefix_append _ _

/-! ## The command -/

/-- PARSE_CONTAINER of an idle block is its loop and its end (R162). -/
theorem exec_parseContainer (bytes : List Byte) (hs : s.hi.cmd = 0#8) : exec (.parseContainer bytes) s =
    settle parseEnd (cpLoop (bytes.length + 4) (commandStart 0x01#8 bytes s)) := by
  show runCommand 0x01#8 bytes (parseContainer bytes) s = _
  rw [runCommand_idle s _ _ _ hs, parseContainer, settle_bind]
  rfl

/-- PARSE_CONTAINER ends with a document, or with an error of the two classes of R317. -/
theorem parseContainer_ended {bytes : List Byte} {t : State} (hs : s.hi.cmd = 0#8)
    (ht : exec (.parseContainer bytes) s = .next t) :
    (∃ d, Returned (.document d) t) ∨ ∃ e, IsParseError e ∧ ErrorTaken e t := by
  rw [exec_parseContainer bytes hs] at ht
  have hraises := raisesOnly_cpLoop (bytes.length + 4) (commandStart 0x01#8 bytes s)
  rcases hr : cpLoop (bytes.length + 4) (commandStart 0x01#8 bytes s) with ⟨_, u⟩ | ⟨e | f, u⟩ <;>
    rw [hr] at ht hraises <;> cases ht
  · exact .inl ⟨u.cp.doc, rfl, rfl, rfl, rfl⟩
  · exact .inr ⟨e, hraises.1, errorTaken_errorEntry e u⟩

/-- Settles O49: the command ends, and a document it returns is that of a container (O48). -/
theorem parserTotality : Obligations.ParserTotality := by
  unfold Obligations.ParserTotality
  intro bytes s hs
  obtain ⟨t, ht⟩ := exec_command_next (i := .parseContainer bytes) rfl hs
  refine ⟨t, ht, ?_⟩
  rcases parseContainer_ended hs ht with ⟨d, hd⟩ | ⟨e, ⟨r, rfl⟩ | ⟨r, rfl⟩, he⟩
  · obtain ⟨sig, scr, gct, blocks, rest, -, -, rfl, rfl⟩ :=
      (parseAcceptsTheGrammar bytes s d hs).mp ⟨t, ht, hd⟩
    exact .inl ⟨_, hd, rfl, containerBytes_begins sig scr gct blocks rest⟩
  · exact .inr (.inl ⟨r, he⟩)
  · exact .inr (.inr ⟨r, he⟩)

end Sys2Proof.Machine
end

section
/-! The container writer's operations, one by one (R341 to R345, R348), and the writer as the run of the operations
it queues (R340). -/

namespace Sys2Proof.Machine

variable {s : State} {ct : ColorTable} {n : BitVec 3} {len : Nat}

/-! ## Size fields -/

theorem sizeFieldOf_of_length (h : len = 2 <<< n.toNat) : sizeFieldOf len = some n :=
  h ▸ sizeFieldOf_tableLength n

/-- R343: a length no size field gives has none. -/
theorem sizeFieldOf_eq_none (h : ∀ n : BitVec 3, len ≠ 2 <<< n.toNat) : sizeFieldOf len = none :=
  Option.eq_none_iff_forall_not_mem.mpr fun n hn => h n (sizeFieldOf_spec hn).symm

/-- R380: what an operation raises is taken. -/
theorem runUnit_raised {op : Op Unit} {e : Err} {u : State} (h : op s = .error (.raised e) u) :
    runUnit op s = .next (errorEntry e u) := by
  rw [runUnit_eq, h]

/-! ## The queued operations -/

/-- R348: the trailer is the last of the operations. -/
theorem containerOps_eq (screen : ScreenIn) (n : BitVec 3) (ct : ColorTable) (frames : List FrameIn) :
    containerOps screen n ct frames = (containerOps screen n ct frames).dropLast ++ [.cwWriteTrailer] := by
  rw [containerOps, List.dropLast_concat]

theorem cwWriteTrailer_notMem_dropLast (screen : ScreenIn) (n : BitVec 3) (ct : ColorTable)
    (frames : List FrameIn) : .cwWriteTrailer ∉ (containerOps screen n ct frames).dropLast := by
  rw [containerOps, List.dropLast_concat]
  simp [frameOps]

theorem isWriterOp_dropLast (screen : ScreenIn) (n : BitVec 3) (ct : ColorTable) (frames : List FrameIn) :
    ∀ i ∈ (containerOps screen n ct frames).dropLast, isWriterOp i = true := fun i hi =>
  isWriterOp_containerOps screen n ct frames i (List.mem_of_mem_dropLast hi)

/-- R340: with a legal global table the writer is the operations it queues. -/
theorem exec_cwEncodeContainer (screen : ScreenIn) (frames : List FrameIn) (hn : sizeFieldOf ct.length = some n)
    (s : State) : exec (.cwEncodeContainer screen ct frames) s =
      runUnit (writerRun (containerOps screen n ct frames)) s := by
  show runUnit (cwEncodeContainer screen ct frames) s = _
  rw [runUnit_eq, runUnit_eq, writerRun_containerOps screen frames hn]

/-- R340: everything before the trailer is written where the frames are legal. -/
theorem writerRun_dropLast_ok (screen : ScreenIn) {frames : List FrameIn} (hn : sizeFieldOf ct.length = some n)
    (h : ∀ f ∈ frames, FrameLegal ct f) (s : State) :
    ∃ u, writerRun (containerOps screen n ct frames).dropLast s = .ok () u := by
  rw [containerOps, List.dropLast_concat, writerRun_append, ← cwWriteFrames_eq]
  exact cwWriteFrames_ok (isTable_of_sizeField hn) frames _ h

/-- R348: the trailer ends the writer's run. -/
theorem writerRun_trailer {screen : ScreenIn} {frames : List FrameIn} {u : State}
    (h : writerRun (containerOps screen n ct frames).dropLast s = .ok () u) :
    writerRun (containerOps screen n ct frames) s = cwWriteTrailer u := by
  rw [containerOps_eq, writerRun_append, op_bind_of_ok s _ _ h]
  rfl

/-! ## The pieces -/

/-- Settles O44: each piece is one append, and the writer's last operation is the trailer. -/
theorem writerPieces : Obligations.WriterPieces := by
  unfold Obligations.WriterPieces
  intro s
  refine ⟨rfl, fun _ _ => rfl, fun _ => rfl, fun _ => rfl, rfl, ?_, ?_, ?_⟩
  · intro screen n ct frames hlen hlegal
    have hn := sizeFieldOf_of_length hlen
    obtain ⟨u, hu⟩ := writerRun_dropLast_ok screen hn hlegal s
    refine ⟨cwWriteTrailer_notMem_dropLast screen n ct frames, u,
      execAll_of_writerRun (isWriterOp_dropLast screen n ct frames) hu, ?_⟩
    rw [exec_cwEncodeContainer screen frames hn, runUnit_eq, writerRun_trailer hu]
    rfl
  · intro t n hlen
    show runRet .size (cwSizeField t) s = _
    rw [runRet_eq, cwSizeField_ok s (sizeFieldOf_of_length hlen)]
  · intro t hbad
    refine ⟨errorEntry _ s, ?_, errorTaken_errorEntry (.assertionFailure .colorTableSize) s⟩
    show runRet .size (cwSizeField t) s = _
    rw [runRet_eq, cwSizeField_eq, sizeFieldOf_eq_none hbad]

/-! ## The order of the operations -/

/-- A writer operation changes CW and the encoder's units only (R95). -/
theorem WriterFrame.eq_set {t : State} (h : WriterFrame s t) : t = ((s.setBSW t.bsw).setLZE t.lze).setCW t.cw := by
  obtain ⟨e, b, bs, rfl⟩ := h
  rfl

/-- R340: the operations of legal frames return. -/
theorem writerRun_containerOps_ok (screen : ScreenIn) {frames : List FrameIn}
    (hn : sizeFieldOf ct.length = some n) (h : ∀ f ∈ frames, FrameLegal ct f) (s : State) :
    ∃ t, writerRun (containerOps screen n ct frames) s = .ok () t := by
  obtain ⟨u, hu⟩ := writerRun_dropLast_ok screen hn h s
  exact ⟨_, (writerRun_trailer hu).trans (cwAppend_eq u _)⟩

/-- R380: an image whose error the host did not hold before has raised it. -/
theorem cwWriteImage_raised {f : FrameIn} {e : Err} {u v : State} (h : exec (.cwWriteImage f ct) u = .next v)
    (hv : ErrorTaken e v) (hu : ¬ ErrorTaken e u) :
    ∃ e' w, cwWriteImage f ct u = .error (.raised e') w ∧ v = errorEntry e' w := by
  rcases runUnit_next h with hok | herr
  · have hframe := keeps_cwWriteImage (writerFrame_closed u) f ct u (writerFrame_refl u)
    rw [hok] at hframe
    obtain ⟨_, _, _, rfl⟩ := hframe
    exact absurd hv hu
  · exact herr

/-- R347: the operations up to a frame's image, then the image and what is left. -/
theorem containerOps_split (screen : ScreenIn) (n : BitVec 3) (ct : ColorTable) (pre post : List FrameIn)
    (f : FrameIn) : ∃ rest, containerOps screen n ct (pre ++ f :: post) =
      (containerOps screen n ct pre).dropLast ++ f.gce.toList.map .cwWriteGCE ++ .cwWriteImage f ct :: rest := by
  rw [containerOps, containerOps, List.dropLast_concat]
  simp [frameOps]

theorem isWriterOp_map_writeGCE (gces : List GraphicControlExtension) :
    ∀ i ∈ gces.map Instr.cwWriteGCE, isWriterOp i = true :=
  List.forall_mem_map.mpr fun _ _ => rfl

/-- R345: extensions are written whatever they hold. -/
theorem writerRun_map_writeGCE_ok (gces : List GraphicControlExtension) (s : State) :
    ∃ t, writerRun (gces.map .cwWriteGCE) s = .ok () t := by
  induction gces generalizing s with
  | nil => exact ⟨s, rfl⟩
  | cons g gces ih => exact ih _

/-- R383: the frames before a frame are written, and so is its GCE. -/
theorem writerRun_before_image (screen : ScreenIn) {pre : List FrameIn} (f : FrameIn) {u : State}
    (hn : sizeFieldOf ct.length = some n) (h : ∀ g ∈ pre, FrameLegal ct g)
    (hu : execAll ((containerOps screen n ct pre).dropLast ++ f.gce.toList.map .cwWriteGCE) s = .next u) :
    writerRun ((containerOps screen n ct pre).dropLast ++ f.gce.toList.map .cwWriteGCE) s = .ok () u := by
  obtain ⟨w, hw⟩ := writerRun_dropLast_ok screen hn h s
  obtain ⟨x, hx⟩ := writerRun_map_writeGCE_ok f.gce.toList w
  have hrun :
      writerRun ((containerOps screen n ct pre).dropLast ++ f.gce.toList.map .cwWriteGCE) s = .ok () x := by
    rw [writerRun_append, op_bind_of_ok s _ _ hw, hx]
  have hall := execAll_of_writerRun (List.forall_mem_append.mpr
    ⟨isWriterOp_dropLast screen n ct pre, isWriterOp_map_writeGCE f.gce.toList⟩) hrun
  rw [hu] at hall
  cases hall
  exact hrun

/-- Settles O47: past its check of the global table the writer is its queued operations, so the first error is
the error of the whole. -/
theorem encodeContainerOrder : Obligations.EncodeContainerOrder := by
  unfold Obligations.EncodeContainerOrder
  intro s screen ct frames
  refine ⟨fun n hlen hlegal => ?_, fun hbad => ?_, ?_⟩
  · have hn := sizeFieldOf_of_length hlen
    obtain ⟨t, ht⟩ := writerRun_containerOps_ok screen hn hlegal s
    have hframe := keeps_cwEncodeContainer (writerFrame_closed s) screen ct frames s (writerFrame_refl s)
    rw [← writerRun_containerOps screen frames hn, ht] at hframe
    refine ⟨t, execAll_of_writerRun (isWriterOp_containerOps screen n ct frames) ht, ?_, hframe.eq_set⟩
    rw [exec_cwEncodeContainer screen frames hn, runUnit_eq, ht]
  · have hsize : cwSizeField ct s = .error (.raised (.assertionFailure .colorTableSize)) s := by
      rw [cwSizeField_eq, sizeFieldOf_eq_none hbad]
    exact ⟨_, runUnit_raised (op_bind_of_error s _ _ hsize), rfl, errorTaken_errorEntry _ s⟩
  · rintro n pre post f u v e hlen rfl hpre hu hv herr hnew
    have hn := sizeFieldOf_of_length hlen
    obtain ⟨e', w, himage, rfl⟩ := cwWriteImage_raised hv herr hnew
    obtain ⟨rest, hops⟩ := containerOps_split screen n ct pre post f
    rw [exec_cwEncodeContainer screen _ hn, hops, writerRun_append]
    refine runUnit_raised ((op_bind_of_ok s _ _ (writerRun_before_image screen f hn hpre hu)).trans ?_)
    exact op_bind_of_error u _ _ himage

end Sys2Proof.Machine
end

section
/-! `writeImage` (R346): the head it writes of a frame, and the LZW data its encoder gives. -/

namespace Sys2Proof.Machine

variable {s s' u : State} {f : FrameIn} {ct : ColorTable} {n : BitVec 3} {m : Byte} {idx : List Nat}
  {data : List Byte}

/-- R251: the encoding of a frame sets up its units, so it is the same encoding from any state. -/
theorem lzeEncodeFrame_from (h : lzeEncodeFrame m idx s = .ok data u) (s' : State) :
    lzeEncodeFrame m idx s' = .ok data ((s'.setBSW u.bsw).setLZE u.lze) := by
  have hsame := lockstep_lzeEncodeFrame m idx s s' trivial
  rw [h] at hsame
  obtain ⟨t, ht, hlze, hbsw⟩ := hsame.ok_left
  have hframe := keeps_lzeEncodeFrame (encoderFrame_closed s') m idx s' ⟨_, _, rfl⟩
  rw [ht] at hframe
  obtain ⟨e, b, rfl⟩ := hframe
  rw [ht, hlze, hbsw]
  rfl

/-- The encoding of a frame changes the encoder's units only (R95). -/
theorem lzeEncodeFrame_eq_set (h : lzeEncodeFrame m idx s = .ok data u) : u = (s.setBSW u.bsw).setLZE u.lze := by
  have hs := lzeEncodeFrame_from h s
  rw [h] at hs
  injection hs

/-- The bytes of a frame before its LZW data (R346). -/
def imageHead (f : FrameIn) : List Byte :=
  0x2C#8 :: (imageDescriptorBytes (frameDescriptor f) ++ tableOptBytes f.localColorTable)

/-- R346: over a legal table the head is written, and then the data. -/
theorem cwWriteImage_head (h : isTable (frameTable f ct) = true) (s : State) : cwWriteImage f ct s =
    cwWriteData f.indices (frameTable f ct) (s.setCW { out := s.cw.out ++ imageHead f }) := by
  cases hl : f.localColorTable with
  | none =>
    have hhead : descriptorBytes f.descriptor false 0 = imageHead f := by
      simp [descriptorBytes_eq, imageHead, frameDescriptor, tableOptBytes, hl]
    rw [cwWriteImage_none s f ct hl, hhead, frameTable, hl]
    rfl
  | some lt =>
    rw [frameTable, hl] at h
    obtain ⟨lsz, hlsz : sizeFieldOf lt.length = some lsz⟩ := Option.isSome_iff_exists.mp h
    have hhead : descriptorBytes f.descriptor true lsz ++ tableBytes lt = imageHead f := by
      simp [descriptorBytes_eq, imageHead, frameDescriptor, tableOptBytes, hl, hlsz]
    rw [cwWriteImage_some s f ct hl hlsz, List.append_assoc, hhead, frameTable, hl]
    rfl

/-- R346: a frame with legal image data is written as its head and the bytes of the encoder. -/
theorem cwWriteImage_ok (hn : sizeFieldOf (frameTable f ct).length = some n) (hne : f.indices ≠ [])
    (h : lzeEncodeFrame (codeSizeFor n) f.indices s = .ok data u) :
    cwWriteImage f ct s = .ok () (u.setCW { out := s.cw.out ++ (imageHead f ++ data) }) := by
  rw [cwWriteImage_head (isTable_of_sizeField hn) s, cwWriteData_ok _ hn hne (lzeEncodeFrame_from h _),
    lzeEncodeFrame_eq_set h, ← List.append_assoc]
  rfl

/-- R346: a frame the writer accepts has legal image data. -/
theorem FrameLegal.dataLegal (h : FrameLegal ct f) (hn : sizeFieldOf (frameTable f ct).length = some n) :
    DataLegal (frameTable f ct) f.indices := by
  obtain ⟨-, hne, halphabet⟩ := h
  exact ⟨isTable_of_sizeField hn, hne, halphabet⟩

/-- R346: the indices of legal image data fit the code size of its table. -/
theorem DataLegal.indices_lt {act : ColorTable} (h : DataLegal act idx) (hn : sizeFieldOf act.length = some n) :
    ∀ i ∈ idx, i < 2 ^ (codeSizeFor n).toNat := by
  obtain ⟨-, -, halphabet⟩ := h
  rw [codeSizeFor_toNat]
  exact halphabet n hn

/-- R346: illegal image data takes its error. -/
theorem exec_cwWriteImage_errorTaken (h : ¬ DataLegal (frameTable f ct) f.indices) (s : State) :
    ∃ t, exec (.cwWriteImage f ct) s = .next t ∧
      ErrorTaken (.assertionFailure (dataError (frameTable f ct) f.indices)) t := by
  obtain ⟨u, hu⟩ := (checks_cwWriteImage f ct s).raises h
  exact ⟨_, runUnit_raised hu, errorTaken_errorEntry _ u⟩

/-- Settles O46: the encoder's units are the only ones the data needs, so it is the encoding of R250 after the
head; what is illegal of a frame is found by the checks of R346. -/
theorem writeImage : Obligations.WriteImage := by
  unfold Obligations.WriteImage
  intro s f ct
  refine ⟨fun n hlegal hlen => ?_, fun hbad => ?_, fun n hlen => ⟨fun hnil => ?_, fun ⟨i, hi, hbig⟩ => ?_⟩⟩
  · have hn := sizeFieldOf_of_length hlen
    have hlt := (hlegal.dataLegal hn).indices_lt hn
    obtain ⟨-, hne, -⟩ := hlegal
    obtain ⟨data, u, hu, -⟩ := (checks_lzeEncodeFrame (mcsInRange_codeSizeFor n) hne s).returns hlt
    refine ⟨u, data, ?_, lzeEncodeFrame_eq_set hu, ?_⟩
    · show runRet .bytes (lzeEncodeFrame (codeSizeFor n) f.indices) s = _
      rw [runRet_eq, hu]
    · show runUnit (cwWriteImage f ct) s = _
      rw [runUnit_eq, cwWriteImage_ok hn hne hu]
      rfl
  · have hbad : isTable (frameTable f ct) = false := by simp [isTable, sizeFieldOf_eq_none hbad]
    have herr := exec_cwWriteImage_errorTaken (f := f) (ct := ct)
      (fun ⟨htable, _⟩ => by simp [htable] at hbad) s
    rwa [dataError, if_pos hbad] at herr
  · have hok := isTable_of_sizeField (sizeFieldOf_of_length hlen)
    have herr := exec_cwWriteImage_errorTaken (f := f) (ct := ct) (fun ⟨_, hne, _⟩ => hne hnil) s
    rwa [dataError, if_neg (by simp [hok]), if_pos hnil] at herr
  · have hn := sizeFieldOf_of_length hlen
    have hok := isTable_of_sizeField hn
    have herr := exec_cwWriteImage_errorTaken (f := f) (ct := ct)
      (fun ⟨_, _, halphabet⟩ => Nat.not_lt.mpr hbig (halphabet n hn i hi)) s
    rwa [dataError, if_neg (by simp [hok]), if_neg (List.ne_nil_of_mem hi)] at herr

end Sys2Proof.Machine
end

section
/-! ENCODE_CONTAINER and then PARSE_CONTAINER (R349): what the writer has written is a container of the grammar of
R110, with one image block for each frame, whose LZW data decodes to the frame's indices (R224). -/

namespace Sys2Proof.Machine

variable {s t : State} {f : FrameIn} {ct : ColorTable} {n : BitVec 3} {m : Byte} {frames : List FrameIn}
  {imgs : List ImageBlock}

/-! ## The image of a frame -/

/-- The image block a frame is written as, with its code stream packed (R346, R199). -/
def writtenImage (f : FrameIn) (m : Byte) (stream : List Byte) : ImageBlock where
  descriptor      := frameDescriptor f
  localColorTable := f.localColorTable
  gce             := f.gce
  plainText       := none
  lzw             := { minCodeSize := m, subBlocks := chunksOf stream.length stream, terminator := 0x00#8 }

/-- R346: the head of a frame and its packed code stream are an image block's bytes. -/
theorem imageHead_append_packSubBlocks (f : FrameIn) (m : Byte) (stream : List Byte) :
    imageHead f ++ packSubBlocks m stream = (Block.image (writtenImage f m stream)).bytes := by
  simp [imageHead, packSubBlocks, Block.bytes, imageBytes, writtenImage]

theorem imageLegal_writtenImage (h : isTable (frameTable f ct) = true) (m : Byte) (stream : List Byte) :
    ImageLegal (writtenImage f m stream) := by
  refine ⟨blocksWf_chunksOf _ _, rfl, ?_⟩
  cases hl : f.localColorTable with
  | none => simp [writtenImage, frameDescriptor, hl]
  | some lt =>
    rw [frameTable, hl] at h
    obtain ⟨lsz, hlsz : sizeFieldOf lt.length = some lsz⟩ := Option.isSome_iff_exists.mp h
    simp [writtenImage, frameDescriptor, hl, hlsz, sizeFieldOf_spec hlsz]

/-- R349: the image block holds the frame: its descriptor fields, table and GCE, and data that decode to its
indices. -/
structure Holds (img : ImageBlock) (f : FrameIn) : Prop where
  legal           : ImageLegal img
  descriptor      : img.descriptor = frameDescriptor f
  localColorTable : img.localColorTable = f.localColorTable
  gce             : img.gce = f.gce
  plainText       : img.plainText = none
  decodes         : ∀ (act : Option ColorTable) (s : State), s.hi.cmd = 0#8 →
    ∃ v, exec (.decodeFrame img act) s = .next v ∧ Returned (.indices f.indices) v

theorem holds_of_mem (h : List.Forall₂ Holds imgs frames) : ∀ img ∈ imgs, ∃ f, Holds img f :=
  ((List.forall₂_and_left _ _).mp (h.imp fun _ f hf => ⟨⟨f, hf⟩, hf⟩)).1

/-- R224, R346: an image that is written is an image block that holds its frame. -/
theorem cwWriteImage_writes (h : cwWriteImage f ct s = .ok () t) :
    ∃ img, Holds img f ∧ t.cw.out = s.cw.out ++ (Block.image img).bytes := by
  have hdata : DataLegal (frameTable f ct) f.indices := by
    have hchecks := checks_cwWriteImage f ct s
    rw [h] at hchecks
    exact hchecks.1
  obtain ⟨n, hn⟩ := Option.isSome_iff_exists.mp hdata.1
  have hlt := hdata.indices_lt hn
  obtain ⟨htable, hne, -⟩ := hdata
  have hm := mcsInRange_codeSizeFor n
  obtain ⟨stream, u, bits, pad, hrun, hbits, hdec⟩ := lzeEncodeFrame_decodes hm hne hlt s
  rw [cwWriteImage_ok hn hne hrun, imageHead_append_packSubBlocks] at h
  cases h
  refine ⟨_, ⟨imageLegal_writtenImage htable _ stream, rfl, rfl, rfl, rfl, fun act s' hs => ?_⟩, rfl⟩
  refine decodeFrame_returned act hs hm (pad := pad) ?_ hdec
  rw [← hbits]
  exact congrArg bytesBits (chunksOf_flatten _ _ le_rfl)

/-! ## The blocks of the frames -/

/-- The blocks of the container that an image of the document stands for: its GCE, if any, and the image (R347). -/
def blocksOf (img : ImageBlock) : List Block :=
  img.gce.toList.map (fun g => .extension (.gce g)) ++ [.image img]

/-- R347: a frame that is written is the blocks of an image that holds it. -/
theorem cwWriteFrame_writes (h : cwWriteFrame ct f s = .ok () t) :
    ∃ img, Holds img f ∧ t.cw.out = s.cw.out ++ (blocksOf img).flatMap Block.bytes := by
  unfold cwWriteFrame at h
  cases hg : f.gce with
  | none =>
    rw [hg] at h
    obtain ⟨img, himg, hout⟩ := cwWriteImage_writes (s := s) h
    exact ⟨img, himg, by simp [hout, blocksOf, himg.gce, hg]⟩
  | some g =>
    rw [hg] at h
    obtain ⟨img, himg, hout⟩ := cwWriteImage_writes (s := s.setCW { out := s.cw.out ++ gceBytes g }) h
    exact ⟨img, himg, by simp [hout, blocksOf, himg.gce, hg, gceBytes_eq, Block.bytes]⟩

/-- R340: the frames that are written are the blocks of one image for each, in order. -/
theorem cwWriteFrames_writes (h : cwWriteFrames ct frames s = .ok () t) :
    ∃ imgs, List.Forall₂ Holds imgs frames ∧
      t.cw.out = s.cw.out ++ (imgs.flatMap blocksOf).flatMap Block.bytes := by
  induction frames generalizing s with
  | nil =>
    cases h
    exact ⟨[], .nil, (List.append_nil _).symm⟩
  | cons f rest ih =>
    obtain ⟨_, u, hf, hrest⟩ := op_bind_eq_ok.mp h
    obtain ⟨img, himg, hu⟩ := cwWriteFrame_writes hf
    obtain ⟨imgs, himgs, ht⟩ := ih hrest
    exact ⟨img :: imgs, .cons himg himgs, by simp [ht, hu]⟩

/-- CP with images appended to its document (R313). -/
def appendImages (cp : ContainerParser) (imgs : List ImageBlock) : ContainerParser :=
  { cp with doc := { cp.doc with images := cp.doc.images ++ imgs } }

/-- R311, R313: parsing the blocks of an image appends it to the document. -/
theorem blocksOf_foldl (img : ImageBlock) (hpt : img.plainText = none) (cp : ContainerParser)
    (hcp : cp.pendingGCE = none) :
    (blocksOf img).foldl (fun cp b => b.apply cp) cp = appendImages cp [img] := by
  obtain ⟨desc, table, gce, text, lzw⟩ := img
  obtain ⟨phase, doc, pending⟩ := cp
  cases hpt
  cases hcp
  cases gce <;> rfl

theorem flatMap_blocksOf_foldl (himgs : ∀ img ∈ imgs, img.plainText = none) (cp : ContainerParser)
    (hcp : cp.pendingGCE = none) :
    (imgs.flatMap blocksOf).foldl (fun cp b => b.apply cp) cp = appendImages cp imgs := by
  induction imgs generalizing cp with
  | nil => simp [appendImages]
  | cons img imgs ih =>
    obtain ⟨himg, himgs⟩ := List.forall_mem_cons.mp himgs
    rw [List.flatMap_cons, List.foldl_append, blocksOf_foldl img himg cp hcp, ih himgs (appendImages cp [img]) hcp]
    simp [appendImages]

/-- The document of a container whose blocks are those of the images `imgs` (R299). -/
theorem documentOf_blocksOf (sig : Signature) (scr : LogicalScreenDescriptor) (gct : Option ColorTable)
    (himgs : ∀ img ∈ imgs, img.plainText = none) : documentOf sig scr gct (imgs.flatMap blocksOf) =
      { header := { signature := sig }, screen := scr, globalColorTable := gct, application := none,
        comment := none, images := imgs, trailer := 0x3B#8 } := by
  rw [documentOf, flatMap_blocksOf_foldl himgs (parserAtBlocks sig scr gct) rfl]
  rfl

theorem blocksOf_legal {img : ImageBlock} (h : ImageLegal img) : ∀ b ∈ blocksOf img, b.Legal := by
  intro b hb
  rcases List.mem_append.mp hb with hb | hb
  · obtain ⟨g, -, rfl⟩ := List.mem_map.mp hb
    trivial
  · obtain rfl := List.mem_singleton.mp hb
    exact h

/-! ## The container -/

/-- The screen descriptor the writer writes (R342). -/
def writtenScreen (screen : ScreenIn) (n : BitVec 3) : LogicalScreenDescriptor where
  width                  := screen.width
  height                 := screen.height
  globalColorTableFlag   := true
  colorResolution        := screen.colorResolution
  sortFlag               := screen.sortFlag
  sizeOfGlobalColorTable := n
  backgroundColorIndex   := screen.backgroundColorIndex
  pixelAspectRatioRaw    := screen.pixelAspectRatioRaw

/-- R343: a size field that is returned is the table's. -/
theorem sizeFieldOf_of_cwSizeField {g : ColorTable} (h : cwSizeField g s = .ok n t) :
    sizeFieldOf g.length = some n ∧ s = t := by
  rw [cwSizeField_eq] at h
  split at h <;> cases h
  exact ⟨‹_›, rfl⟩

/-- R340: a writer that returns has checked the global table and appended a container of its frames. -/
theorem cwEncodeContainer_writes {screen : ScreenIn} (h : cwEncodeContainer screen ct frames s = .ok () t) :
    ∃ n imgs, sizeFieldOf ct.length = some n ∧ List.Forall₂ Holds imgs frames ∧ t.cw.out = s.cw.out ++
      containerBytes .gif89a (writtenScreen screen n) (some ct) (imgs.flatMap blocksOf) := by
  obtain ⟨n, u, hsize, h⟩ := op_bind_eq_ok.mp h
  obtain ⟨hn, rfl⟩ := sizeFieldOf_of_cwSizeField hsize
  have hrun : (do cwWriteFrames ct frames; cwWriteTrailer : Op Unit) (s.setCW
      { out := s.cw.out ++ signatureBytes .gif89a ++ screenBytes screen n ++ tableBytes ct }) = .ok () t := h
  obtain ⟨_, v, hframes, htrailer⟩ := op_bind_eq_ok.mp hrun
  obtain ⟨imgs, himgs, hout⟩ := cwWriteFrames_writes hframes
  cases htrailer
  refine ⟨n, imgs, hn, himgs, ?_⟩
  simp [hout, containerBytes, tableOptBytes, screenBytes_eq, writtenScreen, Config.trailer]

/-- R160: a command that has returned is its operation, which returned. -/
theorem op_of_returned {code : Byte} {input : List Byte} {op : Op Value} {v : Value} (hs : s.hi.cmd = 0#8)
    (ht : runCommand code input op s = .next t) (hv : Returned v t) :
    ∃ u, op (commandStart code input s) = .ok v u := by
  obtain ⟨-, -, hresult, -⟩ := hv
  rw [runCommand_idle s _ _ _ hs] at ht
  rcases hr : op (commandStart code input s) with ⟨w, u⟩ | ⟨e | f, u⟩ <;> rw [hr] at ht <;> cases ht
  · cases hresult
    exact ⟨u, rfl⟩
  · cases hresult

/-- R165: what ENCODE_CONTAINER returns is a container of its frames. -/
theorem encodeContainer_writes {screen : ScreenIn} {bytes : List Byte} (hs : s.hi.cmd = 0#8)
    (ht : exec (.encodeContainer screen ct frames) s = .next t) (hret : Returned (.bytes bytes) t) :
    ∃ n imgs, sizeFieldOf ct.length = some n ∧ List.Forall₂ Holds imgs frames ∧
      bytes = containerBytes .gif89a (writtenScreen screen n) (some ct) (imgs.flatMap blocksOf) := by
  obtain ⟨u, hu⟩ := op_of_returned (op := encodeContainer screen ct frames) hs ht hret
  rw [encodeContainer_eq] at hu
  obtain ⟨_, w, hw, hend⟩ := op_bind_eq_ok.mp hu
  cases hend
  exact cwEncodeContainer_writes hw

/-- Settles O54: the bytes are a container (R110) with a block for each frame's GCE and image, so the parser
returns its document (O48), and each image of it decodes to its frame's indices (R224). -/
theorem structuralRoundTrip : Obligations.StructuralRoundTrip := by
  unfold Obligations.StructuralRoundTrip
  intro screen ct frames s t bytes hs ht hret
  obtain ⟨n, imgs, hn, himgs, rfl⟩ := encodeContainer_writes hs ht hret
  obtain ⟨-, hidle, -⟩ := hret
  have hlegal : ∀ b ∈ imgs.flatMap blocksOf, b.Legal := fun b hb =>
    let ⟨img, himg, hb⟩ := List.mem_flatMap.mp hb
    let ⟨_, himg⟩ := holds_of_mem himgs img himg
    blocksOf_legal himg.legal b hb
  have hplain : ∀ img ∈ imgs, img.plainText = none := fun img himg =>
    let ⟨_, himg⟩ := holds_of_mem himgs img himg
    himg.plainText
  obtain ⟨u, hu, hdoc⟩ := (parseAcceptsTheGrammar _ t _ hidle).mpr
    ⟨.gif89a, writtenScreen screen n, some ct, imgs.flatMap blocksOf, [],
      ⟨rfl, (sizeFieldOf_spec hn).symm⟩, hlegal, (List.append_nil _).symm, rfl⟩
  rw [documentOf_blocksOf _ _ _ hplain] at hdoc
  refine ⟨u, _, n, hn, hu, hdoc, rfl, rfl, rfl, rfl, rfl, himgs.length_eq, fun i f hi => ?_⟩
  obtain ⟨-, hidle', -⟩ := hdoc
  obtain ⟨hlt, rfl⟩ := List.getElem?_eq_some_iff.mp hi
  have hlt' : i < imgs.length := himgs.length_eq ▸ hlt
  have himg := himgs.get hlt' hlt
  exact ⟨imgs[i], List.getElem?_eq_getElem hlt', himg.descriptor, himg.localColorTable, himg.gce, himg.plainText,
    fun act => himg.decodes act u hidle'⟩

end Sys2Proof.Machine
end

section
/-! Errors of unit operations run one at a time (R375, R380, R381): whatever error an operation raises, it leaves the
unit that was running in ERROR, but for the writer's own two errors, which mark no unit (log 8). -/

namespace Sys2Proof.Machine

variable {α β : Type} {P : State → Prop} {F G : Err → State → Prop} {s t : State}

/-! ## What an operation leaves where it raises -/

/-- Whatever error `e` an operation raises, it leaves a state with `F e`. In `Raises` the state does not depend on the
error; of the writer's errors only those of the encoder mark a unit. -/
def RaisedLeaves (F : Err → State → Prop) : EStateM.Result Stop State α → Prop
  | .ok _ _              => True
  | .error (.raised e) t => F e t
  | .error (.stuck _) _  => True

/-- An operation whose errors leave `F` from every state. -/
def RaisesWith (F : Err → State → Prop) (op : Op α) : Prop := ∀ s, RaisedLeaves F (op s)

/-- The phase of the unit a runner stands for is ERROR; the writer has none (R380.3, log 8). -/
def Marked : Runner → State → Prop
  | .cp, t   => t.cp.phase = .error
  | .lzd, t  => t.lzd.phase = .error
  | .lze, t  => t.lze.phase = .error
  | .none, _ => True

/-- The errors of the operation mark the unit `u`. -/
abbrev Marks (u : Runner) (op : Op α) : Prop := RaisesWith (fun _ => Marked u) op

theorem marked_markError (u : Runner) (s : State) : Marked u (markError u s) := by
  cases u with
  | none => trivial
  | _ => rfl

theorem marks_raise (u : Runner) (e : Err) : Marks u (raise u e : Op α) := fun s => marked_markError u s

theorem RaisesWith.imp {op : Op α} (h : RaisesWith F op) (hFG : ∀ e t, F e t → G e t) : RaisesWith G op := by
  intro s
  have hs := h s
  rcases hr : op s with ⟨a, t⟩ | ⟨e | f, t⟩ <;> rw [hr] at hs
  · trivial
  · exact hFG e t hs
  · trivial

theorem RaisesWith.bind {x : Op α} {f : α → Op β} (hx : RaisesWith F x) (hf : ∀ a, RaisesWith F (f a)) :
    RaisesWith F (x >>= f) := by
  intro s
  have hs := hx s
  rw [op_bind]
  rcases hr : x s with ⟨a, t⟩ | ⟨e | g, t⟩ <;> rw [hr] at hs
  · exact hf a t
  · exact hs
  · trivial

theorem raisesWith_ite {x y : Op α} (p : Prop) [Decidable p] (hx : RaisesWith F x) (hy : RaisesWith F y) :
    RaisesWith F (if p then x else y) := by
  split
  · exact hx
  · exact hy

theorem raisesWith_pure (a : α) : RaisesWith F (pure a) := fun _ => trivial
theorem raisesWith_stuck (f : Fault) : RaisesWith F (stuck f : Op α) := fun _ => trivial
theorem raisesWith_getBSR : RaisesWith F getBSR := fun _ => trivial
theorem raisesWith_putBSR (v : BitReader) : RaisesWith F (putBSR v) := fun _ => trivial
theorem raisesWith_getBSW : RaisesWith F getBSW := fun _ => trivial
theorem raisesWith_putBSW (v : BitWriter) : RaisesWith F (putBSW v) := fun _ => trivial
theorem raisesWith_getLZD : RaisesWith F getLZD := fun _ => trivial
theorem raisesWith_putLZD (v : LZWDecoder) : RaisesWith F (putLZD v) := fun _ => trivial
theorem raisesWith_getLZE : RaisesWith F getLZE := fun _ => trivial
theorem raisesWith_putLZE (v : LZWEncoder) : RaisesWith F (putLZE v) := fun _ => trivial

/-! ## The parser and the cursor -/

theorem Parses.marks {op : Op α} (hop : Parses op) : Marks .cp op := by
  intro s
  have hs := hop s
  rcases hr : op s with ⟨a, t⟩ | ⟨e | f, t⟩ <;> rw [hr] at hs
  · trivial
  · obtain ⟨n, cp, -, rfl⟩ := hs
    rfl
  · trivial

theorem parses_bcTake (n : Nat) : Parses (bcTake n) := fun s => by
  rw [bcTake_eq]
  exact ⟨_, s.cp, Nat.min_le_right _ _, rfl⟩

theorem parses_bcPeekRemaining : Parses bcPeekRemaining := parses_bind parses_getBC fun _ => parses_pure _

/-! ## The bit stream's read side and the decoder -/

theorem raisesWith_bsrPushBytes (bytes : List Byte) : RaisesWith F (bsrPushBytes bytes) := fun _ => trivial

theorem marks_bsrHasBits (n : Nat) : Marks .lzd (bsrHasBits n) :=
  raisesWith_ite _ (marks_raise _ _) (raisesWith_getBSR.bind fun _ => raisesWith_pure _)

theorem marks_bsrReadBits (n : Nat) : Marks .lzd (bsrReadBits n) :=
  raisesWith_ite _ (marks_raise _ _) (raisesWith_getBSR.bind fun _ =>
    raisesWith_ite _ (marks_raise _ _) ((raisesWith_putBSR _).bind fun _ => raisesWith_pure _))

theorem marks_lzdFill (left : Nat) : Marks .lzd (lzdFill left) := by
  induction left with
  | zero => exact raisesWith_getLZD.bind fun _ => (marks_bsrHasBits _).bind fun _ => raisesWith_pure _
  | succ left ih =>
    refine raisesWith_getLZD.bind fun d => (marks_bsrHasBits _).bind fun _ =>
      raisesWith_ite _ (raisesWith_pure _) ?_
    cases d.subs[d.subIdx]? with
    | none => exact raisesWith_pure _
    | some b => exact (raisesWith_bsrPushBytes b).bind fun _ => (raisesWith_putLZD _).bind fun _ => ih

theorem marks_lzdFetchCode : Marks .lzd lzdFetchCode :=
  raisesWith_getLZD.bind fun _ => (marks_lzdFill _).bind fun _ => marks_bsrReadBits _

theorem raisesWith_lzdInit (m : Byte) (subs : Blocks) : RaisesWith F (lzdInit m subs) := fun _ => trivial

theorem raisesWith_lzdUnitReset : RaisesWith F lzdUnitReset := fun _ => trivial

theorem raisesWith_lzdAppend (q : List Nat) : RaisesWith F (lzdAppend q) := fun _ => trivial

theorem raisesWith_lzdSetPrev (c : Nat) : RaisesWith F (lzdSetPrev c) := fun _ => trivial

theorem raisesWith_lzdEntry (c : Nat) : RaisesWith F (lzdEntry c) :=
  raisesWith_getLZD.bind fun d => by
    cases dictGet d.dict c with
    | none => exact raisesWith_stuck _
    | some q => exact raisesWith_pure q

theorem raisesWith_lzdPrevEntry : RaisesWith F lzdPrevEntry :=
  raisesWith_getLZD.bind fun d => by
    cases d.prev with
    | none => exact raisesWith_stuck _
    | some p => exact raisesWith_lzdEntry p

theorem raisesWith_headOf (q : List Nat) : RaisesWith F (headOf q) := by
  cases q with
  | nil => exact raisesWith_stuck _
  | cons k _ => exact raisesWith_pure k

theorem raisesWith_lzdAssign (k : Nat) : RaisesWith F (lzdAssign k) :=
  raisesWith_getLZD.bind fun _ => raisesWith_ite _
    (raisesWith_lzdPrevEntry.bind fun _ => raisesWith_putLZD _) (raisesWith_pure _)

theorem raisesWith_lzwEoi (c : Nat) : RaisesWith F (lzwEoi c) := fun _ => trivial

theorem raisesWith_lzwFirst (c : Nat) : RaisesWith F (lzwFirst c) :=
  (raisesWith_lzdEntry c).bind fun _ => (raisesWith_lzdAppend _).bind fun _ => raisesWith_lzdSetPrev c

theorem raisesWith_lzwHit (c : Nat) : RaisesWith F (lzwHit c) :=
  (raisesWith_lzdEntry c).bind fun _ => (raisesWith_lzdAppend _).bind fun _ =>
    (raisesWith_headOf _).bind fun _ => (raisesWith_lzdAssign _).bind fun _ => raisesWith_lzdSetPrev c

theorem raisesWith_lzwNext (c : Nat) : RaisesWith F (lzwNext c) :=
  raisesWith_lzdPrevEntry.bind fun _ => (raisesWith_headOf _).bind fun _ =>
    (raisesWith_lzdAppend _).bind fun _ => (raisesWith_lzdAssign _).bind fun _ => raisesWith_lzdSetPrev c

theorem marks_lzwBad (c : Nat) : Marks .lzd (lzwBad c) := marks_raise _ _

theorem marks_lzwDispatch (k : CodeContext) (c : Nat) : Marks .lzd (lzwDispatch k c) := by
  unfold lzwDispatch
  cases classifyCode k c with
  | eoi => exact raisesWith_lzwEoi c
  | clear => exact raisesWith_lzdUnitReset
  | first => exact raisesWith_lzwFirst c
  | hit => exact raisesWith_lzwHit c
  | next => exact raisesWith_lzwNext c
  | bad => exact marks_lzwBad c

theorem marks_lzdStep : Marks .lzd lzdStep :=
  marks_lzdFetchCode.bind fun c => raisesWith_getLZD.bind fun _ => marks_lzwDispatch _ c

/-! ## The bit stream's write side and the encoder -/

theorem marks_bswWrite (code w : Nat) : Marks .lze (bswWrite code w) :=
  raisesWith_ite _ (marks_raise _ _) (raisesWith_getBSW.bind fun _ => raisesWith_putBSW _)

theorem raisesWith_bswClose : RaisesWith F bswClose :=
  raisesWith_getBSW.bind fun _ => raisesWith_ite _ (raisesWith_pure _)
    (raisesWith_ite _ (raisesWith_stuck _) (raisesWith_putBSW _))

theorem raisesWith_lzeUnitReset : RaisesWith F lzeUnitReset := fun _ => trivial

theorem raisesWith_lzeExtend (k : Nat) : RaisesWith F (lzeExtend k) := fun _ => trivial

theorem marks_lzeCheckIndex (k : Nat) : Marks .lze (lzeCheckIndex k) :=
  raisesWith_getLZE.bind fun _ => raisesWith_ite _ (marks_raise _ _) (raisesWith_pure _)

theorem marks_lzeInit (m : Byte) (idx : List Nat) : Marks .lze (lzeInit m idx) := by
  cases idx with
  | nil => exact raisesWith_stuck _
  | cons k rest =>
    exact raisesWith_getLZE.bind fun _ => (raisesWith_putLZE _).bind fun _ =>
      (raisesWith_putBSW _).bind fun _ => raisesWith_lzeUnitReset.bind fun _ =>
        (marks_lzeCheckIndex k).bind fun _ => raisesWith_getLZE.bind fun _ => raisesWith_putLZE _

theorem marks_lzeEmit (code : Option Nat) : Marks .lze (lzeEmit code) := by
  cases code with
  | none => exact marks_raise _ _
  | some c => exact raisesWith_getLZE.bind fun _ => marks_bswWrite c _

theorem marks_lzeResetUnit : Marks .lze lzeResetUnit :=
  raisesWith_getLZE.bind fun _ => (marks_lzeEmit _).bind fun _ => raisesWith_lzeUnitReset

theorem marks_lzeMiss (k : Nat) : Marks .lze (lzeMiss k) :=
  raisesWith_getLZE.bind fun _ => (marks_lzeEmit _).bind fun _ => (raisesWith_putLZE _).bind fun _ =>
    raisesWith_ite _ marks_lzeResetUnit (raisesWith_ite _ (raisesWith_putLZE _) (raisesWith_pure _))

theorem marks_lzeNextIndex : Marks .lze lzeNextIndex :=
  raisesWith_getLZE.bind fun e => by
    cases e.input[e.inPos]? with
    | none => exact raisesWith_stuck _
    | some k =>
      exact (raisesWith_putLZE _).bind fun _ => (marks_lzeCheckIndex k).bind fun _ => raisesWith_pure k

theorem marks_lzeStep : Marks .lze lzeStep :=
  marks_lzeNextIndex.bind fun k => raisesWith_getLZE.bind fun _ =>
    raisesWith_ite _ (raisesWith_lzeExtend k) (marks_lzeMiss k)

theorem marks_lzeFinish : Marks .lze lzeFinish := by
  have last : ∀ c, Marks .lze (do lzeEmit (some c); let e ← getLZE; putLZE { e with phase := .done }) :=
    fun _ => (marks_lzeEmit _).bind fun _ => raisesWith_getLZE.bind fun _ => raisesWith_putLZE _
  exact raisesWith_getLZE.bind fun e => (marks_lzeEmit _).bind fun _ =>
    raisesWith_ite _ ((raisesWith_putLZE _).bind fun _ => last e.eoiCode) (last e.eoiCode)

theorem marks_lzeLoop (fuel : Nat) : Marks .lze (lzeLoop fuel) := by
  induction fuel with
  | zero =>
    exact raisesWith_getLZE.bind fun _ => raisesWith_ite _ (raisesWith_stuck _) (raisesWith_pure _)
  | succ fuel ih =>
    exact raisesWith_getLZE.bind fun _ =>
      raisesWith_ite _ (marks_lzeStep.bind fun _ => ih) (raisesWith_pure _)

theorem marks_lzeBegin (m : Byte) (idx : List Nat) : Marks .lze (lzeBegin m idx) :=
  (marks_lzeInit m idx).bind fun _ => raisesWith_getLZE.bind fun _ => marks_lzeEmit _

theorem raisesWith_lzePacked (m : Byte) : RaisesWith F (lzePacked m) :=
  raisesWith_bswClose.bind fun _ => raisesWith_getBSW.bind fun _ => raisesWith_pure _

theorem marks_lzeEncodeFrame (m : Byte) (idx : List Nat) : Marks .lze (lzeEncodeFrame m idx) :=
  (marks_lzeBegin m idx).bind fun _ => (marks_lzeLoop _).bind fun _ => marks_lzeFinish.bind fun _ =>
    raisesWith_lzePacked m

/-! ## The writer -/

/-- The writer's own two errors (R343, R346). -/
def IsWriterError (e : Err) : Prop :=
  e = .assertionFailure .colorTableSize ∨ e = .assertionFailure .emptyIndexStream

/-- What the writer leaves where it raises: an error of its own, or one of the encoder, which marks LZE. -/
def WriterRaised (e : Err) (t : State) : Prop := IsWriterError e ∨ Marked .lze t

theorem raisesWith_cwAppend (bs : List Byte) : RaisesWith F (cwAppend bs) := fun _ => trivial

theorem raisesWith_cwSizeField (ct : ColorTable) : RaisesWith WriterRaised (cwSizeField ct) := by
  unfold cwSizeField
  cases sizeFieldOf ct.length with
  | none => exact fun _ => .inl (.inl rfl)
  | some n => exact raisesWith_pure n

theorem raisesWith_cwWriteData (indices : List Nat) (act : ColorTable) :
    RaisesWith WriterRaised (cwWriteData indices act) :=
  (raisesWith_cwSizeField act).bind fun _ => raisesWith_ite _ (fun _ => .inl (.inr rfl))
    (((marks_lzeEncodeFrame _ indices).imp fun _ _ h => .inr h).bind fun _ => raisesWith_cwAppend _)

theorem raisesWith_cwWriteImage (f : FrameIn) (ct : ColorTable) :
    RaisesWith WriterRaised (cwWriteImage f ct) := by
  unfold cwWriteImage
  cases f.localColorTable with
  | none => exact (raisesWith_cwAppend _).bind fun _ => raisesWith_cwWriteData _ ct
  | some lt =>
    exact (raisesWith_cwSizeField lt).bind fun _ => (raisesWith_cwAppend _).bind fun _ =>
      (raisesWith_cwAppend _).bind fun _ => raisesWith_cwWriteData _ lt

theorem raisesWith_cwWriteFrame (ct : ColorTable) (f : FrameIn) :
    RaisesWith WriterRaised (cwWriteFrame ct f) := by
  unfold cwWriteFrame
  cases f.gce with
  | none => exact raisesWith_cwWriteImage f ct
  | some g => exact (raisesWith_cwAppend _).bind fun _ => raisesWith_cwWriteImage f ct

theorem raisesWith_cwWriteFrames (ct : ColorTable) (frames : List FrameIn) :
    RaisesWith WriterRaised (cwWriteFrames ct frames) := by
  induction frames with
  | nil => exact raisesWith_pure _
  | cons f rest ih => exact (raisesWith_cwWriteFrame ct f).bind fun _ => ih

theorem raisesWith_cwEncodeContainer (screen : ScreenIn) (ct : ColorTable) (frames : List FrameIn) :
    RaisesWith WriterRaised (cwEncodeContainer screen ct frames) :=
  (raisesWith_cwSizeField ct).bind fun _ => (raisesWith_cwAppend _).bind fun _ =>
    (raisesWith_cwAppend _).bind fun _ => (raisesWith_cwAppend _).bind fun _ =>
      (raisesWith_cwWriteFrames ct frames).bind fun _ => raisesWith_cwAppend _

/-- R250, R260: the encoder that has encoded a frame is DONE. -/
theorem lzeEncodeFrame_done {m : Byte} {idx : List Nat} {data : List Byte} (hm : mcsInRange m = true)
    (h : lzeEncodeFrame m idx s = .ok data t) : t.lze.phase = .done := by
  have hne : idx ≠ [] := by
    rintro rfl
    cases h
  have hchecks := checks_lzeEncodeFrame hm hne s
  rw [h] at hchecks
  obtain ⟨u, -, -, hdone, -, hrun⟩ := execAll_lzeEncodeFrame hm hne hchecks.1 s
  cases h.symm.trans hrun
  exact hdone

/-- What the writer leaves of `s`: its frame, with LZE.phase as it was, DONE after a frame, or ERROR. -/
def WriterLeaves (s t : State) : Prop :=
  WriterFrame s t ∧ (t.lze.phase = s.lze.phase ∨ t.lze.phase = .done ∨ t.lze.phase = .error)

theorem keeps_lzeEncodeFrame_writerLeaves {m : Byte} (hm : mcsInRange m = true) (idx : List Nat) :
    Keeps (WriterLeaves s) (lzeEncodeFrame m idx) := by
  intro u hu
  have hframe := keeps_lzeEncodeFrame (writerFrame_encoderClosed s) m idx u hu.1
  have hmarks := marks_lzeEncodeFrame m idx u
  rcases hr : lzeEncodeFrame m idx u with ⟨data, t⟩ | ⟨e | f, t⟩ <;> rw [hr] at hframe hmarks
  · exact ⟨hframe, .inr (.inl (lzeEncodeFrame_done hm hr))⟩
  · exact ⟨hframe, .inr (.inr hmarks)⟩
  · trivial

theorem writerLeaves_closed (s : State) : WriterClosed (WriterLeaves s) where
  append _ bs h := ⟨h.1.append bs, h.2⟩
  frame _ idx hm := keeps_lzeEncodeFrame_writerLeaves hm idx

/-! ## From an operation to the state exec answers -/

/-- What an operation that keeps `P`, and leaves `F` where it raises, becomes: its value latched, or its error
taken. -/
def SettledWith (P : State → Prop) (F : Err → State → Prop) (t : State) : Prop :=
  ∃ u, P u ∧ ((∃ v, t = u.setRet v) ∨ ∃ e, F e u ∧ t = errorEntry e u)

theorem settledWith_runUnit {op : Op Unit} (hk : Keeps P op) (hr : RaisesWith F op) (hs : P s)
    (ht : runUnit op s = .next t) : SettledWith P F t := by
  have hk := hk s hs
  have hr := hr s
  rcases runUnit_next ht with hop | ⟨e, u, hop, rfl⟩ <;> rw [hop] at hk hr
  · exact ⟨t, hk, .inl ⟨t.ret, rfl⟩⟩
  · exact ⟨u, hk, .inr ⟨e, hr, rfl⟩⟩

theorem settledWith_runRet {op : Op α} {wrap : α → Value} (hk : Keeps P op) (hr : RaisesWith F op) (hs : P s)
    (ht : runRet wrap op s = .next t) : SettledWith P F t := by
  have hk := hk s hs
  have hr := hr s
  rw [runRet_eq] at ht
  rcases hop : op s with ⟨a, u⟩ | ⟨e | f, u⟩ <;> rw [hop] at hk hr ht <;> cases ht
  · exact ⟨u, hk, .inl ⟨wrap a, rfl⟩⟩
  · exact ⟨u, hk, .inr ⟨e, hr, rfl⟩⟩

/-! ## How each family reaches the host -/

/-- HI and the queue are as in `s`, or one error has been taken that leaves `units`, with the requests and the
latch as they were. -/
def ReachesHost (s t : State) (units : Err → Prop) : Prop :=
  (t.hi = s.hi ∧ t.todo = s.todo) ∨
    ∃ e, ErrorTaken e t ∧ t.hi.inbox = s.hi.inbox ∧ t.ret = s.ret ∧ units e

theorem reachesHost_parser (h : SettledWith (ParserFrame s) (fun _ => Marked .cp) t) :
    ReachesHost s t fun _ => t.cp.phase = .error ∧ t.lzd = s.lzd ∧ t.lze = s.lze := by
  obtain ⟨_, ⟨n, cp, rfl⟩, ⟨v, rfl⟩ | ⟨e, he, rfl⟩⟩ := h
  · exact .inl ⟨rfl, rfl⟩
  · exact .inr ⟨e, errorTaken_errorEntry e _, rfl, rfl, he, rfl, rfl⟩

theorem reachesHost_decoder (h : SettledWith (DecoderFrame s) (fun _ => Marked .lzd) t) :
    ReachesHost s t fun _ => t.lzd.phase = .error ∧ t.cp = s.cp ∧ t.lze = s.lze := by
  obtain ⟨_, ⟨d, b, rfl⟩, ⟨v, rfl⟩ | ⟨e, he, rfl⟩⟩ := h
  · exact .inl ⟨rfl, rfl⟩
  · exact .inr ⟨e, errorTaken_errorEntry e _, rfl, rfl, he, rfl, rfl⟩

theorem reachesHost_encoder (h : SettledWith (EncoderFrame s) (fun _ => Marked .lze) t) :
    ReachesHost s t fun _ => t.lze.phase = .error ∧ t.cp = s.cp ∧ t.lzd = s.lzd := by
  obtain ⟨_, ⟨d, b, rfl⟩, ⟨v, rfl⟩ | ⟨e, he, rfl⟩⟩ := h
  · exact .inl ⟨rfl, rfl⟩
  · exact .inr ⟨e, errorTaken_errorEntry e _, rfl, rfl, he, rfl, rfl⟩

theorem reachesHost_writer (h : SettledWith (WriterLeaves s) WriterRaised t) :
    ReachesHost s t fun e => t.cp = s.cp ∧ t.lzd = s.lzd ∧ (t.lze.phase = .error ∨
      IsWriterError e ∧ (t.lze.phase = s.lze.phase ∨ t.lze.phase = .done)) := by
  obtain ⟨_, ⟨⟨d, b, bs, rfl⟩, hphase⟩, ⟨v, rfl⟩ | ⟨e, he, rfl⟩⟩ := h
  · exact .inl ⟨rfl, rfl⟩
  · refine .inr ⟨e, errorTaken_errorEntry e _, rfl, rfl, rfl, rfl, ?_⟩
    rcases he with hown | hmarked
    · rcases hphase with hsame | hdone | herror
      · exact .inr ⟨hown, .inl hsame⟩
      · exact .inr ⟨hown, .inr hdone⟩
      · exact .inl herror
    · exact .inl hmarked

section
variable {op : Op Unit} {opRet : Op α} {wrap : α → Value}

theorem reachesHost_parses (hop : Parses op) (ht : runUnit op s = .next t) :
    ReachesHost s t fun _ => t.cp.phase = .error ∧ t.lzd = s.lzd ∧ t.lze = s.lze :=
  reachesHost_parser (settledWith_runUnit (hop.keeps (parserFrame_closed s)) hop.marks ⟨0, s.cp, rfl⟩ ht)

theorem reachesHost_parsesRet (hop : Parses opRet) (ht : runRet wrap opRet s = .next t) :
    ReachesHost s t fun _ => t.cp.phase = .error ∧ t.lzd = s.lzd ∧ t.lze = s.lze :=
  reachesHost_parser (settledWith_runRet (hop.keeps (parserFrame_closed s)) hop.marks ⟨0, s.cp, rfl⟩ ht)
end

/-- Settles O12: each instruction is one operation of its family, which keeps the family's frame and marks the
family's unit where it raises. -/
theorem operationsReachTheHostOnlyByErrors : Obligations.OperationsReachTheHostOnlyByErrors := by
  unfold Obligations.OperationsReachTheHostOnlyByErrors
  intro i s t hi h
  have hd := decoderFrame_closed s
  have he := encoderFrame_closed s
  have hw := writerLeaves_closed s
  have d0 : DecoderFrame s s := ⟨s.lzd, s.bsr, rfl⟩
  have e0 : EncoderFrame s s := ⟨s.lze, s.bsw, rfl⟩
  have w0 : WriterLeaves s s := ⟨writerFrame_refl s, .inl rfl⟩
  cases i with
  | parseContainer bytes => cases hi
  | decodeFrame img act => cases hi
  | encodeFrame m idx => cases hi
  | encodeContainer screen ct frames => cases hi
  | cmdNone => cases h; exact .inl ⟨rfl, rfl⟩
  | cmdUnassigned code => cases h
  | cpHeader => exact reachesHost_parses parses_cpHeader h
  | cpLSD => exact reachesHost_parses parses_cpLSD h
  | cpGCT => exact reachesHost_parses parses_cpGCT h
  | cpIntroExt => exact reachesHost_parses parses_cpExtension h
  | cpIntroImage => exact reachesHost_parses parses_cpImage h
  | cpIntroTrailer => exact reachesHost_parses parses_cpTrailer h
  | cpIntroBad b => exact reachesHost_parses (parses_raise _) h
  | cpLabelApp => exact reachesHost_parses parses_cpApp h
  | cpLabelComment => exact reachesHost_parses parses_cpComment h
  | cpLabelGce => exact reachesHost_parses parses_cpGCE h
  | cpLabelText => exact reachesHost_parses parses_cpText h
  | cpLabelBad l => exact reachesHost_parses (parses_raise _) h
  | cpImageDesc => exact reachesHost_parsesRet parses_cpImageDesc h
  | cpSubBlock => exact reachesHost_parsesRet parses_cpSubBlock h
  | cpLzwData => exact reachesHost_parsesRet parses_cpReadLZWData h
  | cpDecodeLSDPacked p => exact reachesHost_parsesRet (parses_pure _) h
  | cpReadColorTable n => exact reachesHost_parsesRet (parses_cpReadColorTable n) h
  | cpReadSubBlockRun => exact reachesHost_parsesRet parses_cpReadSubBlockRun h
  | cpExpectBlockSize v => exact reachesHost_parses (parses_cpExpectBlockSize v) h
  | cpCycleIndexOf subs => exact reachesHost_parsesRet (parses_pure _) h
  | cpDecodeImagePacked p => exact reachesHost_parsesRet (parses_pure _) h
  | cpReadLocalTable desc => exact reachesHost_parsesRet (parses_cpReadLocalTable desc) h
  | cpReadLZWData => exact reachesHost_parsesRet parses_cpReadLZWData h
  | bcConsume => exact reachesHost_parsesRet parses_bcConsume h
  | bcPeekRemaining => exact reachesHost_parsesRet parses_bcPeekRemaining h
  | bcTake n => exact reachesHost_parsesRet (parses_bcTake n) h
  | bcTakeExact n => exact reachesHost_parsesRet (parses_bcTakeExact n) h
  | bcReadLE16 => exact reachesHost_parsesRet parses_bcReadLE16 h
  | bswWrite code w => exact reachesHost_encoder (settledWith_runUnit (keeps_bswWrite he.writeBits code w)
      (marks_bswWrite code w) e0 h)
  | bswClose =>
    exact reachesHost_encoder (settledWith_runUnit (keeps_bswClose he.writeBits) raisesWith_bswClose e0 h)
  | bsrPushBytes bytes => exact reachesHost_decoder (settledWith_runUnit
      (keeps_bsrPushBytes hd.readBits bytes) (raisesWith_bsrPushBytes bytes) d0 h)
  | bsrHasBits n =>
    exact reachesHost_decoder (settledWith_runRet (keeps_bsrHasBits hd.readBits n) (marks_bsrHasBits n) d0 h)
  | bsrReadBits n => exact reachesHost_decoder (settledWith_runRet (keeps_bsrReadBits hd.readBits n)
      (marks_bsrReadBits n) d0 h)
  | lzwEoi c =>
    exact reachesHost_decoder (settledWith_runUnit (keeps_lzwEoi hd c) (raisesWith_lzwEoi c) d0 h)
  | lzwClear c =>
    exact reachesHost_decoder (settledWith_runUnit (keeps_lzdUnitReset hd) raisesWith_lzdUnitReset d0 h)
  | lzwFirst c =>
    exact reachesHost_decoder (settledWith_runUnit (keeps_lzwFirst hd c) (raisesWith_lzwFirst c) d0 h)
  | lzwHit c =>
    exact reachesHost_decoder (settledWith_runUnit (keeps_lzwHit hd c) (raisesWith_lzwHit c) d0 h)
  | lzwNext c =>
    exact reachesHost_decoder (settledWith_runUnit (keeps_lzwNext hd c) (raisesWith_lzwNext c) d0 h)
  | lzwBad c => exact reachesHost_decoder (settledWith_runUnit (keeps_lzwBad hd c) (marks_lzwBad c) d0 h)
  | lzdInit m subs => exact reachesHost_decoder (settledWith_runUnit (keeps_lzdInit hd m subs)
      (raisesWith_lzdInit m subs) d0 h)
  | lzdUnitReset =>
    exact reachesHost_decoder (settledWith_runUnit (keeps_lzdUnitReset hd) raisesWith_lzdUnitReset d0 h)
  | lzdFetchCode =>
    exact reachesHost_decoder (settledWith_runRet (keeps_lzdFetchCode hd) marks_lzdFetchCode d0 h)
  | lzdStep => exact reachesHost_decoder (settledWith_runUnit (keeps_lzdStep hd) marks_lzdStep d0 h)
  | lzdAssign k =>
    exact reachesHost_decoder (settledWith_runUnit (keeps_lzdAssign hd k) (raisesWith_lzdAssign k) d0 h)
  | lzePack m data =>
    exact reachesHost_encoder (settledWith_runRet (keeps_pure _) (raisesWith_pure _) e0 h)
  | lzeEncodeFrame m idx => exact reachesHost_encoder (settledWith_runRet (keeps_lzeEncodeFrame he m idx)
      (marks_lzeEncodeFrame m idx) e0 h)
  | lzeInit m idx =>
    exact reachesHost_encoder (settledWith_runUnit (keeps_lzeInit he m idx) (marks_lzeInit m idx) e0 h)
  | lzeUnitReset =>
    exact reachesHost_encoder (settledWith_runUnit (keeps_lzeUnitReset he) raisesWith_lzeUnitReset e0 h)
  | lzeCheckIndex k =>
    exact reachesHost_encoder (settledWith_runUnit (keeps_lzeCheckIndex he k) (marks_lzeCheckIndex k) e0 h)
  | lzeStep => exact reachesHost_encoder (settledWith_runUnit (keeps_lzeStep he) marks_lzeStep e0 h)
  | lzeExtend k =>
    exact reachesHost_encoder (settledWith_runUnit (keeps_lzeExtend he k) (raisesWith_lzeExtend k) e0 h)
  | lzeMiss k => exact reachesHost_encoder (settledWith_runUnit (keeps_lzeMiss he k) (marks_lzeMiss k) e0 h)
  | lzeResetUnit =>
    exact reachesHost_encoder (settledWith_runUnit (keeps_lzeResetUnit he) marks_lzeResetUnit e0 h)
  | lzeEmit code =>
    exact reachesHost_encoder (settledWith_runUnit (keeps_lzeEmit he code) (marks_lzeEmit code) e0 h)
  | lzeFinish => exact reachesHost_encoder (settledWith_runUnit (keeps_lzeFinish he) marks_lzeFinish e0 h)
  | cwEncodeContainer screen ct frames => exact reachesHost_writer (settledWith_runUnit
      (keeps_cwEncodeContainer hw screen ct frames) (raisesWith_cwEncodeContainer screen ct frames) w0 h)
  | cwWriteHeader =>
    exact reachesHost_writer (settledWith_runUnit (keeps_cwAppend hw _) (raisesWith_cwAppend _) w0 h)
  | cwWriteLSD screen gsz =>
    exact reachesHost_writer (settledWith_runUnit (keeps_cwAppend hw _) (raisesWith_cwAppend _) w0 h)
  | cwSizeField ct =>
    exact reachesHost_writer (settledWith_runRet (keeps_cwSizeField ct) (raisesWith_cwSizeField ct) w0 h)
  | cwWriteColorTable ct =>
    exact reachesHost_writer (settledWith_runUnit (keeps_cwAppend hw _) (raisesWith_cwAppend _) w0 h)
  | cwWriteGCE g =>
    exact reachesHost_writer (settledWith_runUnit (keeps_cwAppend hw _) (raisesWith_cwAppend _) w0 h)
  | cwWriteImage f ct => exact reachesHost_writer (settledWith_runUnit (keeps_cwWriteImage hw f ct)
      (raisesWith_cwWriteImage f ct) w0 h)
  | cwWriteTrailer =>
    exact reachesHost_writer (settledWith_runUnit (keeps_cwAppend hw _) (raisesWith_cwAppend _) w0 h)

end Sys2Proof.Machine
end

section
/-! The power-on state (R401), and a block that waits or is busy (R402, D42). -/

namespace Sys2Proof.Machine

variable {s s' : State} {i : Instr}

/-! ## The reset state -/

/-- The decoder's power-on values are those of R211 (log 5). -/
theorem freshDecoder_reset : freshDecoder State.reset.lzd = State.reset.lzd := by decide

/-- The encoder's power-on values are those of R252 (log 5). -/
theorem freshEncoder_reset : freshEncoder State.reset.lze = State.reset.lze := by decide

theorem decoderLegal_reset : DecoderLegal State.reset.lzd :=
  freshDecoder_reset ▸ decoderLegal_fresh (by decide) (by decide) (by decide) (by decide) (by decide)

theorem encoderLegal_reset : EncoderLegal State.reset.lze :=
  freshEncoder_reset ▸
    encoderLegal_fresh (by decide) (by decide) (by decide) (k := 0) (by decide) rfl (by decide)

theorem sequencingLegal_reset : SequencingLegal State.reset :=
  ⟨fun h => absurd rfl h, rfl, nofun, nofun, nofun⟩

/-- Settles O2: the LZW units are fresh ones, and the other units are empty. -/
theorem resetIsLegal : Obligations.ResetIsLegal where
  host       := ⟨Nat.zero_le 4, rfl⟩
  cursor     := Nat.le_refl 0
  writerBits := Nat.zero_le 7
  decoder    := decoderLegal_reset
  encoder    := fun _ => encoderLegal_reset
  parser     := rfl
  sequencing := sequencingLegal_reset

/-! ## Commands from equal HI -/

/-- R160, R167: from two idle states with the same HI, whatever their units hold, a command leaves the same HI. -/
theorem exec_command_same_hi (hi : isCommand i = true) (hs : s.hi.cmd = 0#8) (h : s'.hi = s.hi) :
    ∃ t t', exec i s = .next t ∧ exec i s' = .next t' ∧ t.hi = t'.hi := by
  have hs' : s'.hi.cmd = 0#8 := h ▸ hs
  obtain ⟨t, t', ht, ht', hresult, -⟩ := commandsAreDeterministic i s s' hi hs hs'
  obtain ⟨⟨u, r, hu, -, -, hhi, -⟩, -⟩ := commandLifecycle i s hi hs
  obtain ⟨⟨u', r', hu', -, -, hhi', -⟩, -⟩ := commandLifecycle i s' hi hs'
  cases ht.symm.trans hu
  cases ht'.symm.trans hu'
  refine ⟨t, t', ht, ht', ?_⟩
  rw [hhi, hhi'] at hresult
  obtain rfl := Option.some.inj hresult
  rw [hhi, hhi', h]

/-- Settles O1: HI's reset values by evaluation, and HI after a command depends on HI before it alone. -/
theorem powerOnState : Obligations.PowerOnState := by
  unfold Obligations.PowerOnState
  refine ⟨rfl, rfl, rfl, rfl, fun i s hi h => ?_⟩
  exact exec_command_same_hi hi (h ▸ rfl) h.symm

/-! ## Idle and busy -/

/-- R402: an idle block with no request waits (log 3). -/
theorem stepIdle_no_request (h : s.hi.inbox = []) : stepIdle s = .next s := by
  unfold stepIdle
  rw [h]
  rfl

/-- D42: a command is refused while one is in progress. -/
theorem exec_command_busy (hi : isCommand i = true) (hs : s.hi.cmd ≠ 0#8) :
    exec i s = .refused .commandInProgress := by
  cases i with
  | parseContainer bytes => exact runCommand_busy _ _ _ _ hs
  | decodeFrame img act => exact runCommand_busy _ _ _ _ hs
  | encodeFrame m idx => exact runCommand_busy _ _ _ _ hs
  | encodeContainer screen ct frames => exact runCommand_busy _ _ _ _ hs
  | _ => cases hi

/-- Settles O11: a wait changes nothing, and each command begins with the test for one in progress. -/
theorem idleAndBusy : Obligations.IdleAndBusy := by
  unfold Obligations.IdleAndBusy
  refine ⟨fun s => rfl, fun s ht hc hinbox => ?_, fun i s => exec_command_busy⟩
  rw [step_idle s ht hc, stepIdle_no_request hinbox]

end Sys2Proof.Machine
end
